-- ==== Sys2Proof/Word.lean ====
section
/-! DEFINITION. The plain quantities of the KN4120: bytes of a frame, digits of a PIN, slot and volume
indices, volume masks, keys. -/

namespace Sys2Proof

/-- One byte of a frame (11.9). -/
abbrev Byte := BitVec 8

/-- One digit of an entry (R20). -/
abbrev Digit := Fin 10

/-- A credential slot's index, 0 to 9 (1.1). -/
abbrev SlotIx := Fin 10

/-- A volume's index, 0 to 3 (R81). -/
abbrev VolIx := Fin 4

/-- A set of volumes; volume `n` is bit `n` (R1; coded so in 11.9). -/
abbrev VolMask := BitVec 4

/-- A volume key, 32 bytes (R81). -/
abbrev Key := BitVec 256

end Sys2Proof
end

