-- ==== Sys2Proof/Config.lean ====
section
/-! DEFINITION. What the KN4120 fixes once: the fixed periods and sizes of the manual, and the free values
(constants with no body) for what the manual does not state. -/

namespace Sys2Proof.Config

/-- FREE VALUE (log entry 10). The `n`-th key drawn from the part's random key source (R82). -/
opaque freshKey : Nat → Key

/-- FREE VALUE (log entry 11). Option `n` (in the order of R132's table) of the in-force and stored copies
after the Option Record loaded DAMAGED: R132 sends the part to HALTED and states no value. -/
opaque optionWhenDamaged : Nat → Bool

/-- Ticks per second (3.2). -/
def ticksPerSecond : Nat := 8

/-- Ticks per minute (R149). -/
def ticksPerMinute : Nat := 480

/-- Period of the config timer, 60 s (R74). -/
def configTicks : Nat := 480

/-- Period of the link timer, 2 s (R89). -/
def linkTicks : Nat := 16

/-- Period of the order timer, 60 s (R103). -/
def orderTicks : Nat := 480

/-- Period of the sleep timer, 20 s (R157). -/
def sleepTicks : Nat := 160

/-- Period of the case debounce timer (R162). -/
def caseTicks : Nat := 2

/-- Source periods in a tick (R144). -/
def dividerPeriods : Nat := 4096

/-- RC periods without a crystal period that count as silence (R145). -/
def gapPeriods : Nat := 32

/-- Crystal periods of an unbroken run that bring the timebase back (R146). -/
def runPeriods : Nat := 8192

/-- Blocks in a granule (R93). -/
def granule : Nat := 2048

/-- The largest erase order, in blocks (R111). -/
def orderBlocks : Nat := 262144

/-- The last block number (R81). -/
def maxBlock : Nat := 4294967295

/-- The longest request payload (R164). -/
def maxPayload : Nat := 48

/-- The most digits held (R20). -/
def maxDigits : Nat := 15

/-- The fixed least length of an entry (R32). -/
def minDigits : Nat := 6

/-- Where the uses count saturates (R11); also the last KGEN and the last order number. -/
def max16 : Nat := 65535

/-- The CRIT threshold, 3.30 V, in millivolts (R160). -/
def critMillivolts : Nat := 3300

/-- The margin between falling and rising thresholds, 0.05 V, in millivolts (R160). -/
def marginMillivolts : Nat := 50

end Sys2Proof.Config
end

