-- ==== Sys2Proof/Syntax.lean ====
section
/-! DEFINITION. The commands of the KN4120: one constructor of `Instr` per row of spec/opcode_table.json, with
the operands the manual gives the frame or the event. -/

namespace Sys2Proof

/-- The two serial links (00 1.1): the panel's P-link and the bridge's B-link. -/
inductive Link where
  | p
  | b
  deriving DecidableEq, Repr

/-- What an exchange is beyond the request it carries (R163). DESIGN CHOICE, log entry 6: an exchange is one
command, taken at the rise of select. -/
structure Exchange where
  /-- the link on which select fell -/
  link : Link
  /-- whole bytes clocked while select was low -/
  clocked : Nat
  /-- the command slot was still RUNNING when select fell (so the response shows WAIT_LONG), although a result
  may have become ready before select rose (R167) -/
  wasRunning : Bool
  /-- none where the link was served from the fall to the rise; otherwise the link was unserved at the fall, or stopped
  being served during the exchange, and these are the bytes shifted out until then (R163) -/
  broken : Option (List Byte) := none
  deriving DecidableEq, Repr

/-- The payload of a valid frame: as 11.9 allows it for the command, or one that check 4 of R165 refuses. -/
inductive Payload (α : Type) where
  /-- a payload of the length and codings that 11.9 gives -/
  | ok (args : α)
  /-- the bytes of a payload whose length or codings 11.9 does not allow -/
  | malformed (bytes : List Byte)
  deriving DecidableEq, Repr

/-- The sixteen fields of the Policy Record, in the order of R120's table (their field numbers). -/
inductive PolicyField where
  | freeAttempts | penaltyBase | penaltyCap | wipeThreshold | pinMin | entryGap | idleLock | attachWindow
  | deferLimit | deferWindow | wipeDepth | wipeKeepAdmin | driveReadOnly | cellLowLevel | cellFilter
  | cellRiseReport
  deriving DecidableEq, Repr

/-- The three entries of the Lock Source Map, in the order of R121's table. -/
inductive MapEntry where
  | bridgeLost | clockFault | caseOpen
  deriving DecidableEq, Repr

/-- The actions a map entry may hold, in the order of their codes (11.9). -/
inductive LockAction where
  | none | orderly | forced | wipe
  deriving DecidableEq, Repr

/-- The four factory options, in the order of R132's table. -/
inductive OptionField where
  | cellFitted | caseFitted | caseOpenLevel | factoryLocked
  deriving DecidableEq, Repr

/-- Access modes of a user slot or a released key (R1, R91). -/
inductive AccessMode where
  | readWrite | readOnly
  deriving DecidableEq, Repr

/-- The payload of ENROL_BEGIN (R34, 11.9): index as sent, mode and mask as decoded. -/
structure EnrolArgs where
  index : Byte
  mode : AccessMode
  mask : VolMask
  deriving DecidableEq, Repr

/-- LOCK_REPLY's reply (R69). -/
inductive LockReplyCode where
  | ready | hold
  deriving DecidableEq, Repr

/-- WORK_DONE's report (R114). -/
inductive WorkReport where
  | ok | fail
  deriving DecidableEq, Repr

/-- The payload of DEFINE_VOLUME (R93): the range form and the UNUSED form. -/
inductive DefineArgs where
  | range (index : Byte) (first count : BitVec 32) (readOnly : Bool)
  | unused (index : Byte)
  deriving DecidableEq, Repr

/-- What a failed attempt left at its location (R140). -/
inductive Residue where
  /-- the erase did not take: the old contents -/
  | old
  /-- the program took, but the verify read it back wrong -/
  | new
  /-- neither whole -/
  | neither
  deriving DecidableEq, Repr

/-- How the verify of a store write attempt came out (R139). -/
inductive AttemptEnd where
  | passed
  | failed (left : Residue)
  deriving DecidableEq, Repr

/-- Where a cut met the current write (the rows of R141's table), with what the cut action had done. -/
inductive CutPoint where
  /-- setting the written mark of a first write; whether the mark was set -/
  | settingMark (markSet : Bool)
  /-- erase of either attempt; whether the contents were already gone -/
  | erase (gone : Bool)
  /-- program of either attempt; whether the program had finished -/
  | program (finished : Bool)
  /-- verify of either attempt; whether the program had taken -/
  | verify (programTaken : Bool)
  /-- after the pass, before the owner's answer -/
  | afterPass
  deriving DecidableEq, Repr

/-- What may come about between the beginning of a start-up and the end of its derivation (R79, R147, R154): nothing
of it is reported before that end. -/
inductive StartEvent where
  /-- a tick, with the cell voltage in millivolts -/
  | tick (cellMillivolts : Nat)
  /-- the TBU enters FALLBACK -/
  | fallback
  /-- the TBU returns to CRYSTAL -/
  | crystalReturn
  /-- the CASE input takes a level -/
  | caseChange (high : Bool)
  /-- the case debounce timer expires -/
  | caseDebounced
  /-- BUSDET changes to present -/
  | busArrives
  /-- BUSDET changes to absent -/
  | busLost
  deriving DecidableEq, Repr

/-- What comes about during a start-up: before the Option Record is in force, and from then to the end of the
derivation (R154). DESIGN CHOICE, log entry 13: a start-up is one command, and `Machine.State.starts` holds these. -/
structure StartEvents where
  beforeLoad : List StartEvent
  afterLoad : List StartEvent
  deriving DecidableEq, Repr

/-- A start-up in which nothing else comes about. -/
def StartEvents.quiet : StartEvents := { beforeLoad := [], afterLoad := [] }

/-- The commands: one constructor per row of spec/opcode_table.json, in the table's order. -/
inductive Instr where
  -- frames taken into a command slot, and POLL (chapter 11)
  | poll (x : Exchange) (payload : List Byte)
  | status (x : Exchange) (q : Payload Unit)
  | getEvent (x : Exchange) (q : Payload Unit)
  | listSlots (x : Exchange) (q : Payload Unit)
  | barSlot (x : Exchange) (q : Payload Byte)
  | unbarSlot (x : Exchange) (q : Payload Byte)
  | clearSlot (x : Exchange) (q : Payload Byte)
  | setPolicy (x : Exchange) (q : Payload (List (PolicyField × BitVec 16)))
  | readPolicy (x : Exchange) (q : Payload Unit)
  | setLockMap (x : Exchange) (q : Payload (List (MapEntry × LockAction)))
  | wipe (x : Exchange) (q : Payload Unit)
  | keyDigit (x : Exchange) (q : Payload Digit)
  | keyBack (x : Exchange) (q : Payload Unit)
  | keyClear (x : Exchange) (q : Payload Unit)
  | keyEnter (x : Exchange) (q : Payload Unit)
  | keyLock (x : Exchange) (q : Payload Unit)
  | keyAdmin (x : Exchange) (q : Payload Unit)
  | keyRecover (x : Exchange) (q : Payload Unit)
  | keyChange (x : Exchange) (q : Payload Unit)
  | keyExit (x : Exchange) (q : Payload Unit)
  | enrolBegin (x : Exchange) (q : Payload EnrolArgs)
  | attach (x : Exchange) (q : Payload (BitVec 32))
  | detach (x : Exchange) (q : Payload Unit)
  | lock (x : Exchange) (q : Payload Unit)
  | activity (x : Exchange) (q : Payload Unit)
  | fetchKey (x : Exchange) (q : Payload Byte)
  | lockReply (x : Exchange) (q : Payload LockReplyCode)
  | workFetch (x : Exchange) (q : Payload Unit)
  | workDone (x : Exchange) (q : Payload (BitVec 16 × WorkReport))
  | defineVolume (x : Exchange) (q : Payload DefineArgs)
  | readVolumes (x : Exchange) (q : Payload Unit)
  | writeOptions (x : Exchange) (q : Payload (List (OptionField × Byte)))
  -- frames that are not carried out
  /-- the bytes of an exchange whose request fails the checks of R164 -/
  | badFrame (x : Exchange) (bytes : List Byte)
  /-- a valid frame with code `code`, not POLL, that meets a RUNNING slot (R166) -/
  | busy (x : Exchange) (code : Byte)
  /-- a valid frame whose code 11.8 does not give -/
  | unknownCommand (x : Exchange) (code : Byte) (payload : List Byte)
  -- ends of operations
  | evaluationEnd
  | enrolVerifierDone
  | storeWriteEnd (result : AttemptEnd)
  -- the timebase
  /-- a tick, with the voltage of the CELL input, in whole millivolts, that a sample at this tick reads -/
  | tick (cellMillivolts : Nat)
  | fallback
  | crystalReturn
  | crystalSilentAgain
  -- expiries
  | entryTimerExpiry
  | penaltyExpiry
  | idleExpiry
  | attachExpiry
  | deferExpiry
  | configTimeout
  | linkTimerExpiry
  | orderTimerExpiry
  | sleepTimerExpiry
  -- the enclosure, sleep and the supplies
  /-- the level the CASE input moves to -/
  | caseChange (high : Bool)
  | caseDebounceExpiry
  | cellSleepEntry
  /-- the level WAKE_N takes: low or not -/
  | wakeN (low : Bool)
  /-- what comes about during the start-up, where the part was OFF -/
  | busPowerArrival
  /-- bus power lost; where a cut meets the current write if the part goes to OFF -/
  | busPowerLoss (cut : CutPoint)
  /-- power-on from OFF; what BUSDET shows, and what comes about during the start-up -/
  | powerOn (bus : Bool)
  | powerLoss (cut : CutPoint)
  | resetN (cut : CutPoint)
  /-- what comes about during the start-up -/
  | resetNRelease
  deriving DecidableEq, Repr

end Sys2Proof
end

