-- ==== Sys2Proof/Decode.lean ====
section
/-! DEFINITION. Request frames (R164, 11.8, 11.9): the CRC-8, the checks of a frame, the command a valid frame
spells, and the frame that spells a command. The rows of the opcode table give no bits, so `decodeTableWord` answers
none for every word (log entry 28). -/

namespace Sys2Proof

/-! ## Numbers and CRC -/

/-- A two-byte number, most significant byte first (11.9). -/
def be16 (n : Nat) : List Byte := [BitVec.ofNat 8 (n / 256), BitVec.ofNat 8 n]

/-- A four-byte number, most significant byte first (11.9). -/
def be32 (n : Nat) : List Byte :=
  [BitVec.ofNat 8 (n / 16777216), BitVec.ofNat 8 (n / 65536), BitVec.ofNat 8 (n / 256), BitVec.ofNat 8 n]

/-- Two bytes as a number. -/
def word16 (a b : Byte) : BitVec 16 := BitVec.ofNat 16 (a.toNat * 256 + b.toNat)

/-- Four bytes as a number. -/
def word32 (a b c d : Byte) : BitVec 32 :=
  BitVec.ofNat 32 (a.toNat * 16777216 + b.toNat * 65536 + c.toNat * 256 + d.toNat)

/-- One bit of the CRC-8 with polynomial x^8 + x^2 + x + 1 (R164). -/
def crc8Bit (c : Byte) : Byte := if c.msb then (c <<< 1) ^^^ 0x07#8 else c <<< 1

/-- One byte of the CRC-8. -/
def crc8Byte (c b : Byte) : Byte :=
  crc8Bit (crc8Bit (crc8Bit (crc8Bit (crc8Bit (crc8Bit (crc8Bit (crc8Bit (c ^^^ b))))))))

/-- The CRC-8, initial value 0 and no reflection (R164). -/
def crc8 (l : List Byte) : Byte := l.foldl crc8Byte 0

/-! ## Frames -/

/-- A request frame (11.9). -/
def requestFrame (code : Byte) (payload : List Byte) : List Byte :=
  let body := code :: BitVec.ofNat 8 payload.length :: payload
  0x5A#8 :: body ++ [crc8 body]

/-- The checks of R164 in their order: the code and payload of a valid frame; bytes beyond the CRC are not
examined. -/
def checkFrame (bytes : List Byte) : Option (Byte × List Byte) :=
  match bytes with
  | mark :: code :: len :: rest =>
    if mark = 0x5A#8 ∧ len.toNat ≤ Config.maxPayload ∧ len.toNat < rest.length ∧
        rest[len.toNat]? = some (crc8 (code :: len :: rest.take len.toNat)) then
      some (code, rest.take len.toNat)
    else none
  | _ => none

/-! ## Payload codings (11.9) -/

/-- No payload. -/
def noPayload (b : List Byte) : Payload Unit := if b = [] then .ok () else .malformed b

/-- One byte, of any value. -/
def bytePayload (b : List Byte) : Payload Byte :=
  match b with
  | [a] => .ok a
  | _ => .malformed b

/-- A policy field's number. -/
def policyField? (b : Byte) : Option PolicyField :=
  match b.toNat with
  | 0 => some .freeAttempts
  | 1 => some .penaltyBase
  | 2 => some .penaltyCap
  | 3 => some .wipeThreshold
  | 4 => some .pinMin
  | 5 => some .entryGap
  | 6 => some .idleLock
  | 7 => some .attachWindow
  | 8 => some .deferLimit
  | 9 => some .deferWindow
  | 10 => some .wipeDepth
  | 11 => some .wipeKeepAdmin
  | 12 => some .driveReadOnly
  | 13 => some .cellLowLevel
  | 14 => some .cellFilter
  | 15 => some .cellRiseReport
  | _ => none

/-- A field number as sent. -/
def policyFieldByte : PolicyField → Byte
  | .freeAttempts => 0
  | .penaltyBase => 1
  | .penaltyCap => 2
  | .wipeThreshold => 3
  | .pinMin => 4
  | .entryGap => 5
  | .idleLock => 6
  | .attachWindow => 7
  | .deferLimit => 8
  | .deferWindow => 9
  | .wipeDepth => 10
  | .wipeKeepAdmin => 11
  | .driveReadOnly => 12
  | .cellLowLevel => 13
  | .cellFilter => 14
  | .cellRiseReport => 15

/-- Fields and values of SET_POLICY; none where a length or a field number is not allowed. -/
def policyFields? : List Byte → Option (List (PolicyField × BitVec 16))
  | [] => some []
  | f :: h :: l :: rest =>
    match policyField? f, policyFields? rest with
    | some g, some gs => some ((g, word16 h l) :: gs)
    | _, _ => none
  | _ => none

/-- A map entry's number. -/
def mapEntry? (b : Byte) : Option MapEntry :=
  match b.toNat with
  | 0 => some .bridgeLost
  | 1 => some .clockFault
  | 2 => some .caseOpen
  | _ => none

/-- An entry number as sent. -/
def mapEntryByte : MapEntry → Byte
  | .bridgeLost => 0
  | .clockFault => 1
  | .caseOpen => 2

/-- A map action's code. -/
def lockAction? (b : Byte) : Option LockAction :=
  match b.toNat with
  | 0 => some .none
  | 1 => some .orderly
  | 2 => some .forced
  | 3 => some .wipe
  | _ => none

/-- An action code as sent. -/
def lockActionByte : LockAction → Byte
  | .none => 0
  | .orderly => 1
  | .forced => 2
  | .wipe => 3

/-- Entries and actions of SET_LOCK_MAP. -/
def mapEntries? : List Byte → Option (List (MapEntry × LockAction))
  | [] => some []
  | e :: a :: rest =>
    match mapEntry? e, lockAction? a, mapEntries? rest with
    | some x, some y, some xs => some ((x, y) :: xs)
    | _, _, _ => none
  | _ => none

/-- An option's number. -/
def optionField? (b : Byte) : Option OptionField :=
  match b.toNat with
  | 0 => some .cellFitted
  | 1 => some .caseFitted
  | 2 => some .caseOpenLevel
  | 3 => some .factoryLocked
  | _ => none

/-- An option number as sent. -/
def optionFieldByte : OptionField → Byte
  | .cellFitted => 0
  | .caseFitted => 1
  | .caseOpenLevel => 2
  | .factoryLocked => 3

/-- Options and values of WRITE_OPTIONS. -/
def optionFields? : List Byte → Option (List (OptionField × Byte))
  | [] => some []
  | o :: v :: rest =>
    match optionField? o, optionFields? rest with
    | some x, some xs => some ((x, v) :: xs)
    | _, _ => none
  | _ => none

/-- What a parse gives, with the bytes kept where it fails. -/
def parsed {α : Type} (r : Option α) (b : List Byte) : Payload α :=
  match r with
  | some a => .ok a
  | none => .malformed b

/-- The payload of ENROL_BEGIN. -/
def enrolArgs? : List Byte → Option EnrolArgs
  | [i, m, v] => some { index := i, mode := if m = 0 then .readWrite else .readOnly, mask := v.setWidth 4 }
  | _ => none

/-- The payload of ATTACH. -/
def capacity? : List Byte → Option (BitVec 32)
  | [a, b, c, d] => some (word32 a b c d)
  | _ => none

/-- The payload of LOCK_REPLY. -/
def lockReply? : List Byte → Option LockReplyCode
  | [r] => if r = 0 then some .ready else if r = 1 then some .hold else none
  | _ => none

/-- The payload of WORK_DONE. -/
def workDone? : List Byte → Option (BitVec 16 × WorkReport)
  | [h, l, r] =>
    if r = 0 then some (word16 h l, .ok) else if r = 1 then some (word16 h l, .fail) else none
  | _ => none

/-- The payload of DEFINE_VOLUME. -/
def defineArgs? : List Byte → Option DefineArgs
  | [f, i] => if f = 1 then some (.unused i) else none
  | [f, i, a, b, c, d, p, q, r, s, o] =>
    if f = 0 then some (.range i (word32 a b c d) (word32 p q r s) (o != 0)) else none
  | _ => none

/-- A KEY command by its key code; a payload that is no key code stands under KEY_DIGIT (log entry 7). -/
def keyCommand (x : Exchange) (b : List Byte) : Instr :=
  match b with
  | [k] =>
    if h : k.toNat < 10 then .keyDigit x (.ok ⟨k.toNat, h⟩)
    else
      match k.toNat with
      | 10 => .keyBack x (.ok ())
      | 11 => .keyClear x (.ok ())
      | 12 => .keyEnter x (.ok ())
      | 13 => .keyLock x (.ok ())
      | 14 => .keyAdmin x (.ok ())
      | 15 => .keyRecover x (.ok ())
      | 16 => .keyChange x (.ok ())
      | 17 => .keyExit x (.ok ())
      | _ => .keyDigit x (.malformed b)
  | _ => .keyDigit x (.malformed b)

/-! ## Requests and commands -/

/-- The command that a valid frame spells (11.8). -/
def commandOf (x : Exchange) (code : Byte) (b : List Byte) : Instr :=
  match code.toNat with
  | 0x00 => .poll x b
  | 0x01 => .status x (noPayload b)
  | 0x02 => .getEvent x (noPayload b)
  | 0x08 => .listSlots x (noPayload b)
  | 0x09 => .barSlot x (bytePayload b)
  | 0x0A => .unbarSlot x (bytePayload b)
  | 0x0B => .clearSlot x (bytePayload b)
  | 0x0C => .setPolicy x (parsed (policyFields? b) b)
  | 0x0D => .readPolicy x (noPayload b)
  | 0x0E => .setLockMap x (parsed (mapEntries? b) b)
  | 0x0F => .wipe x (noPayload b)
  | 0x20 => keyCommand x b
  | 0x21 => .enrolBegin x (parsed (enrolArgs? b) b)
  | 0x40 => .attach x (parsed (capacity? b) b)
  | 0x41 => .detach x (noPayload b)
  | 0x42 => .lock x (noPayload b)
  | 0x43 => .activity x (noPayload b)
  | 0x44 => .fetchKey x (bytePayload b)
  | 0x45 => .lockReply x (parsed (lockReply? b) b)
  | 0x46 => .workFetch x (noPayload b)
  | 0x47 => .workDone x (parsed (workDone? b) b)
  | 0x48 => .defineVolume x (parsed (defineArgs? b) b)
  | 0x49 => .readVolumes x (noPayload b)
  | 0x4A => .writeOptions x (parsed (optionFields? b) b)
  | _ => .unknownCommand x code b

/-- The command that the bytes of an exchange spell (R164, R165). -/
def decodeRequest (x : Exchange) (bytes : List Byte) : Instr :=
  match checkFrame bytes with
  | some (code, b) => commandOf x code b
  | none => .badFrame x bytes

/-- A payload as sent, given how its arguments are sent. -/
def payloadBytes {α : Type} (f : α → List Byte) : Payload α → List Byte
  | .ok a => f a
  | .malformed b => b

/-- The payload bytes of SET_POLICY. -/
def policyFieldsBytes (l : List (PolicyField × BitVec 16)) : List Byte :=
  l.flatMap fun e => policyFieldByte e.1 :: be16 e.2.toNat

/-- The payload bytes of SET_LOCK_MAP. -/
def mapEntriesBytes (l : List (MapEntry × LockAction)) : List Byte :=
  l.flatMap fun e => [mapEntryByte e.1, lockActionByte e.2]

/-- The payload bytes of WRITE_OPTIONS. -/
def optionFieldsBytes (l : List (OptionField × Byte)) : List Byte :=
  l.flatMap fun e => [optionFieldByte e.1, e.2]

/-- A Boolean as sent. -/
def boolByte (b : Bool) : Byte := if b then 1 else 0

/-- The payload bytes of ENROL_BEGIN. -/
def enrolArgsBytes (a : EnrolArgs) : List Byte :=
  [a.index, (match a.mode with
             | .readWrite => 0
             | .readOnly => 1), a.mask.setWidth 8]

/-- The payload bytes of DEFINE_VOLUME. -/
def defineArgsBytes : DefineArgs → List Byte
  | .range i f c ro => 0 :: i :: be32 f.toNat ++ be32 c.toNat ++ [boolByte ro]
  | .unused i => [1, i]

/-- The payload byte of LOCK_REPLY. -/
def lockReplyBytes : LockReplyCode → List Byte
  | .ready => [0]
  | .hold => [1]

/-- The payload bytes of WORK_DONE. -/
def workDoneBytes (a : BitVec 16 × WorkReport) : List Byte :=
  be16 a.1.toNat ++ [boolByte (a.2 == .fail)]

/-- The request frame that spells a command; none for the rows that no valid frame spells, and for BUSY, whose frame
is that of another row. -/
def encodeRequest : Instr → Option (List Byte)
  | .poll _ b => some (requestFrame 0x00 b)
  | .status _ q => some (requestFrame 0x01 (payloadBytes (fun _ => []) q))
  | .getEvent _ q => some (requestFrame 0x02 (payloadBytes (fun _ => []) q))
  | .listSlots _ q => some (requestFrame 0x08 (payloadBytes (fun _ => []) q))
  | .barSlot _ q => some (requestFrame 0x09 (payloadBytes (fun a => [a]) q))
  | .unbarSlot _ q => some (requestFrame 0x0A (payloadBytes (fun a => [a]) q))
  | .clearSlot _ q => some (requestFrame 0x0B (payloadBytes (fun a => [a]) q))
  | .setPolicy _ q => some (requestFrame 0x0C (payloadBytes policyFieldsBytes q))
  | .readPolicy _ q => some (requestFrame 0x0D (payloadBytes (fun _ => []) q))
  | .setLockMap _ q => some (requestFrame 0x0E (payloadBytes mapEntriesBytes q))
  | .wipe _ q => some (requestFrame 0x0F (payloadBytes (fun _ => []) q))
  | .keyDigit _ q => some (requestFrame 0x20 (payloadBytes (fun d => [BitVec.ofNat 8 d.val]) q))
  | .keyBack _ q => some (requestFrame 0x20 (payloadBytes (fun _ => [0x0A]) q))
  | .keyClear _ q => some (requestFrame 0x20 (payloadBytes (fun _ => [0x0B]) q))
  | .keyEnter _ q => some (requestFrame 0x20 (payloadBytes (fun _ => [0x0C]) q))
  | .keyLock _ q => some (requestFrame 0x20 (payloadBytes (fun _ => [0x0D]) q))
  | .keyAdmin _ q => some (requestFrame 0x20 (payloadBytes (fun _ => [0x0E]) q))
  | .keyRecover _ q => some (requestFrame 0x20 (payloadBytes (fun _ => [0x0F]) q))
  | .keyChange _ q => some (requestFrame 0x20 (payloadBytes (fun _ => [0x10]) q))
  | .keyExit _ q => some (requestFrame 0x20 (payloadBytes (fun _ => [0x11]) q))
  | .enrolBegin _ q => some (requestFrame 0x21 (payloadBytes enrolArgsBytes q))
  | .attach _ q => some (requestFrame 0x40 (payloadBytes (fun c => be32 c.toNat) q))
  | .detach _ q => some (requestFrame 0x41 (payloadBytes (fun _ => []) q))
  | .lock _ q => some (requestFrame 0x42 (payloadBytes (fun _ => []) q))
  | .activity _ q => some (requestFrame 0x43 (payloadBytes (fun _ => []) q))
  | .fetchKey _ q => some (requestFrame 0x44 (payloadBytes (fun a => [a]) q))
  | .lockReply _ q => some (requestFrame 0x45 (payloadBytes lockReplyBytes q))
  | .workFetch _ q => some (requestFrame 0x46 (payloadBytes (fun _ => []) q))
  | .workDone _ q => some (requestFrame 0x47 (payloadBytes workDoneBytes q))
  | .defineVolume _ q => some (requestFrame 0x48 (payloadBytes defineArgsBytes q))
  | .readVolumes _ q => some (requestFrame 0x49 (payloadBytes (fun _ => []) q))
  | .writeOptions _ q => some (requestFrame 0x4A (payloadBytes optionFieldsBytes q))
  | .unknownCommand _ code b => some (requestFrame code b)
  | .badFrame _ bytes => some bytes
  | .busy _ _ => none
  | .evaluationEnd => none
  | .enrolVerifierDone => none
  | .storeWriteEnd _ => none
  | .tick _ => none
  | .fallback => none
  | .crystalReturn => none
  | .crystalSilentAgain => none
  | .entryTimerExpiry => none
  | .penaltyExpiry => none
  | .idleExpiry => none
  | .attachExpiry => none
  | .deferExpiry => none
  | .configTimeout => none
  | .linkTimerExpiry => none
  | .orderTimerExpiry => none
  | .sleepTimerExpiry => none
  | .caseChange _ => none
  | .caseDebounceExpiry => none
  | .cellSleepEntry => none
  | .wakeN _ => none
  | .busPowerArrival => none
  | .busPowerLoss _ => none
  | .powerOn _ => none
  | .powerLoss _ => none
  | .resetN _ => none
  | .resetNRelease => none

/-- The command that a word spells by the opcode table's bits. The table gives bits for no row (log entry 28). -/
def decodeTableWord (_nbits _w : Nat) : Option Instr := none

end Sys2Proof
end

