-- ==== Sys2Proof/Machine/State.lean ====
section
/-! DEFINITION. The state of the KN4120 as plain data: the nonvolatile array, the state each of the eleven
blocks owns (spec 00 2.1), the two links, the pins, and the queue of commands that wait. -/

namespace Sys2Proof.Machine

/-! ## Faults and refusals -/

/-- Why a step could stop with a fault. It has no constructor: no command of the manual stops the part; HALTED
is an access state (R80). Safe: nothing is hidden behind a fault. -/
inductive Fault where
  deriving DecidableEq, Repr

/-- Why a step could answer that a command has no meaning. -/
inductive Refusal where
  /-- Raised by an arm of `exec` whose command has no meaning yet, under the row's mnemonic; no arm of this
  model raises it. Safe: the run stops and claims nothing. -/
  | notModelled (mnemonic : String)
  deriving DecidableEq, Repr

/-! ## Timers -/

/-- A timer of R149: `none` is stopped; `some n` holds a count. `some 0` is a count that has reached 0 and whose
expiry has not been taken yet (R150, R151; log entry 5). -/
abbrev Timer := Option Nat

/-! ## Credentials (chapter 1) -/

/-- The value of the one-way function V over a digit string. R2 gives one property: equal strings and only equal
strings give equal values. The model keeps an abstract injective image (log entry 9); no result carries it. -/
structure Verifier where
  preimage : List Digit
  deriving DecidableEq, Repr

/-- Slot states (1.2). -/
inductive SlotState where
  | empty | active | barred | spent
  deriving DecidableEq, Repr

/-- A slot record, fields present as R1's table gives. -/
structure SlotRecord where
  state : SlotState
  length : Option Nat
  verifier : Option Verifier
  mode : Option AccessMode
  mask : Option VolMask
  uses : Option Nat
  deriving DecidableEq, Repr

/-- A slot of the working copy: the record with its write fault mark and shadow verifier (R4). -/
structure SlotCell where
  record : SlotRecord
  fault : Bool
  shadow : Option Verifier
  deriving DecidableEq, Repr

/-- What the CTB holds (R4). -/
structure Ctb where
  slots : Vector SlotCell 10
  deriving DecidableEq, Repr

/-! ## Key entry (chapter 2) -/

/-- Entry intents (R20). -/
inductive Intent where
  | unlock | admin | recover | enrolFirst | enrolConfirm
  deriving DecidableEq, Repr

/-- States of the entry buffer (R20). -/
inductive BufferState where
  | empty | collecting | evaluating
  deriving DecidableEq, Repr

/-- Kinds of dialogue (R22). -/
inductive DialogueKind where
  | automatic | enrol | change
  deriving DecidableEq, Repr

/-- Steps of a dialogue (R22). -/
inductive DialogueStep where
  | first | confirm
  deriving DecidableEq, Repr

/-- The enrol candidate (R22). -/
structure Candidate where
  length : Nat
  verifier : Verifier
  deriving DecidableEq, Repr

/-- The dialogue record, fields present as R22's table gives. -/
structure Dialogue where
  kind : DialogueKind
  target : SlotIx
  mode : Option AccessMode
  mask : Option VolMask
  step : DialogueStep
  candidate : Option Candidate
  deriving DecidableEq, Repr

/-- What an EVALUATING buffer waits for: the points of an evaluation (R45 to R48) and of an enrolment step
(R37, R38). -/
inductive Flight where
  /-- the end of the pre-count write (R45) -/
  | preCount
  /-- the end of the evaluation time, holding the CTB's answer (R46) -/
  | judging (answer : Option SlotIx)
  /-- the refund after a match on slot 0 to 8 (R47 step 1) -/
  | refund (slot : SlotIx)
  /-- the uses write (R47 step 2) -/
  | uses (slot : SlotIx)
  /-- the recovery spend (R48 step 1) -/
  | spend
  /-- the refund after the spend (R48 step 2) -/
  | recoveryRefund
  /-- the verifier computation of a first entry (R37) -/
  | verifyFirst
  /-- the verifier computation of a confirming entry (R38) -/
  | verifyConfirm
  /-- the enrolment write (R38) -/
  | enrolWrite
  deriving DecidableEq, Repr

/-- What the KEU holds (R20, R21, R22). -/
structure Keu where
  digits : List Digit
  overlong : Bool
  intent : Intent
  bstate : BufferState
  dialogue : Option Dialogue
  entryTimer : Timer
  /-- what the ENTER in flight waits for; absent with no ENTER in flight -/
  flight : Option Flight
  /-- the access state or the gate changed during the flight (R39) -/
  disturbed : Bool
  deriving DecidableEq, Repr

/-! ## Attempt limiter (chapter 3) -/

/-- The Limiter Record (R40). -/
structure Limiter where
  fails : Nat
  served : Bool
  deriving DecidableEq, Repr

/-- What the ATL holds (R41, R52). -/
structure Atl where
  limiter : Limiter
  penalty : Timer
  phase : Bool
  deriving DecidableEq, Repr

/-! ## Access (chapter 4) -/

/-- Access states, in the order of 4.1's table. -/
inductive Access where
  | blank | locked | penalty | unlocked | locking | config | wiping | halted
  deriving DecidableEq, Repr

/-- Start causes (R79). -/
inductive StartCause where
  | powerOn | resetPin
  deriving DecidableEq, Repr

/-- Lock causes, in the order of R65's table. -/
inductive LockCause where
  | panelLock | idleExpiry | bridgeLock | bridgeDetach | busLoss | attachExpiry | cellCrit | configTimeout
  | bridgeLost | clockFault | caseOpen
  deriving DecidableEq, Repr

/-- Actions of a lock cause (R66): those of the map, and IMMEDIATE. -/
inductive CauseAction where
  | none | orderly | forced | immediate | wipe
  deriving DecidableEq, Repr

/-- What the ACC holds (R59). -/
structure Acc where
  access : Access
  openSlot : Option SlotIx
  startCause : StartCause
  clockFault : Bool
  caseOpen : Bool
  lockCause : Option LockCause
  deferrals : Option Nat
  heldWipe : Bool
  idleTimer : Timer
  attachTimer : Timer
  deferTimer : Timer
  configTimer : Timer
  deriving DecidableEq, Repr

/-! ## Volumes (chapter 5) -/

/-- Volume states (R81). -/
inductive VolumeState where
  | unused | present | erasing
  deriving DecidableEq, Repr

/-- Key states (R81). -/
inductive KeyState where
  | live | destroyed
  deriving DecidableEq, Repr

/-- A volume record, fields present as R81's table gives. -/
structure VolumeRecord where
  state : VolumeState
  first : Option Nat
  count : Option Nat
  key : Option Key
  keyState : KeyState
  kgen : Nat
  readOnly : Option Bool
  incomplete : Option Bool
  deriving DecidableEq, Repr

/-- What the KRU holds (R83), and the number of keys drawn so far (model's own, log entry 10). -/
structure Kru where
  volumes : Vector VolumeRecord 4
  keyDraws : Nat
  deriving DecidableEq, Repr

/-! ## Wipes (chapter 6) -/

/-- Wipe causes, in the order of R99's table. -/
inductive WipeCause where
  | threshold | caseOpen | panelAdmin | bridgeAdmin | storeDamage
  deriving DecidableEq, Repr

/-- Wipe depths (R99). -/
inductive WipeDepth where
  | keysOnly | keysAndMedia
  deriving DecidableEq, Repr

/-- Wipe steps (R106); CLOSE is reported and never recorded (R102). -/
inductive WipeStep where
  | keys | limiter | media | rekey | close
  deriving DecidableEq, Repr

/-- Run conditions, in the order of R103's table. -/
inductive RunCondition where
  | active | waitingBridge | paused | stalled
  deriving DecidableEq, Repr

/-- A volume cursor (R102). -/
structure Cursor where
  volume : VolIx
  first : Nat
  count : Nat
  next : Nat
  failed : Nat
  target : Nat
  deriving DecidableEq, Repr

/-- The fields of an active Erase Journal (R102). A KEYS_ONLY journal holds no list; `cursors` is then empty. -/
structure WipeRecord where
  cause : WipeCause
  depth : WipeDepth
  keepAdmin : Bool
  step : WipeStep
  cursors : List Cursor
  deriving DecidableEq, Repr

/-- The Erase Journal: `none` is the inactive record. -/
abbrev Journal := Option WipeRecord

/-- How far the current step has gone (R103): which destroy, pass or rekey is next. -/
inductive Position where
  /-- no wipe runs -/
  | idle
  /-- the write that marks the wipe active is waiting or running (R101) -/
  | starting
  /-- KEYS: the next destroy, the pass (1 to 3), and whether a destroy of this pass was answered STORE_FAULT -/
  | keys (next pass : Nat) (faulted : Bool)
  /-- KEYS has stalled (R107) -/
  | stalled
  /-- LIMITER: whether the reset has been answered done -/
  | limiter (done : Bool)
  | media
  /-- REKEY: the volume index to look at next -/
  | rekey (next : Nat)
  deriving DecidableEq, Repr

/-- The order in hand (R103): `number` is present when it is ISSUED. -/
structure EraseOrder where
  number : Option Nat
  first : Nat
  count : Nat
  deriving DecidableEq, Repr

/-- What the WPE holds (R103). -/
structure Wpe where
  journal : Journal
  /-- the record carried by the write that marks a wipe active, until that write ends (log entry 19) -/
  starting : Option WipeRecord
  position : Position
  counter : Nat
  run : RunCondition
  order : Option EraseOrder
  attempt : Nat
  orderTimer : Timer
  deriving DecidableEq, Repr

/-! ## Policy (chapter 7) -/

/-- The Policy Record (R120). -/
structure Policy where
  freeAttempts : Nat
  penaltyBase : Nat
  penaltyCap : Nat
  wipeThreshold : Nat
  pinMin : Nat
  entryGap : Nat
  idleLock : Nat
  attachWindow : Nat
  deferLimit : Nat
  deferWindow : Nat
  wipeDepth : WipeDepth
  wipeKeepAdmin : Bool
  driveReadOnly : Bool
  cellLowLevel : Nat
  cellFilter : Nat
  cellRiseReport : Bool
  deriving DecidableEq, Repr

/-- The Lock Source Map (R121). -/
structure LockMap where
  bridgeLost : LockAction
  clockFault : LockAction
  caseOpen : LockAction
  deriving DecidableEq, Repr

/-- A staged volume definition (R93, R123). -/
inductive VolumeDef where
  | range (first count : Nat) (readOnly : Bool)
  | unused
  deriving DecidableEq, Repr

/-- The staged map: an action for any subset of the entries (R123). -/
structure StagedMap where
  bridgeLost : Option LockAction
  clockFault : Option LockAction
  caseOpen : Option LockAction
  deriving DecidableEq, Repr

/-- The Pending Set (R123): staged policy by field number, staged map, staged definitions by volume index. -/
structure PendingSet where
  policy : Vector (Option Nat) 16
  map : StagedMap
  volumes : Vector (Option VolumeDef) 4
  deriving DecidableEq, Repr

/-- The factory options (R132); `caseOpenHigh` is CASE_OPEN_LEVEL high. -/
structure Options where
  cellFitted : Bool
  caseFitted : Bool
  caseOpenHigh : Bool
  factoryLocked : Bool
  deriving DecidableEq, Repr

/-- The command that asked for a staging (R124). -/
inductive StagingKind where
  | policy | map | volume (index : VolIx)
  deriving DecidableEq, Repr

/-- A staging whose write has not completed (R123): its parts, and the link that waits for it (`none` when that
link's slot has been cleared, R170). -/
structure Staging where
  id : Nat
  parts : PendingSet
  kind : StagingKind
  requester : Option Link
  deriving DecidableEq, Repr

/-- How a part being applied stands (R129, R130). -/
inductive PartStatus where
  | absent | waiting | done | failed
  deriving DecidableEq, Repr

/-- An application that has not settled (R129, R130): the parts it took and how each stands. -/
structure Application where
  taken : PendingSet
  policy : PartStatus
  map : PartStatus
  volumes : Vector PartStatus 4
  deriving DecidableEq, Repr

/-- What the PLU holds (R120 to R123, R130, R132). -/
structure Plu where
  policy : Policy
  map : LockMap
  committed : PendingSet
  inflight : List Staging
  nextStaging : Nat
  applying : Option Application
  removing : PendingSet
  policyFault : Bool
  mapFault : Bool
  psetFault : Bool
  inForce : Options
  stored : Options
  storedDamaged : Bool
  deriving DecidableEq, Repr

/-! ## Retained store (chapter 8) -/

/-- What a location's contents and check value are (R134, R135). -/
inductive Body (α : Type) where
  | erased
  /-- neither erased nor agreeing with the check value -/
  | spoiled
  /-- the check value agrees, but some field holds none of the values of its table (log entry 12) -/
  | alien
  /-- the check value agrees with the identity and these contents -/
  | valid (contents : α)
  deriving DecidableEq, Repr

/-- A location of the array (R134). -/
structure Location (α : Type) where
  written : Bool
  body : Body α
  deriving DecidableEq, Repr

/-- The twenty locations (R134). -/
structure Store where
  option : Location Options
  slots : Vector (Location SlotRecord) 10
  limiter : Location Limiter
  policy : Location Policy
  map : Location LockMap
  volumes : Vector (Location VolumeRecord) 4
  journal : Location Journal
  pset : Location PendingSet
  deriving DecidableEq, Repr

/-- The identity of a record (R134). -/
inductive RecordId where
  | option
  | slot (i : SlotIx)
  | limiter
  | policy
  | map
  | volume (i : VolIx)
  | journal
  | pset
  deriving DecidableEq, Repr

/-- The contents a write carries, with the record they are for (R136). -/
inductive Contents where
  | option (r : Options)
  | slot (i : SlotIx) (r : SlotRecord)
  | limiter (r : Limiter)
  | policy (r : Policy)
  | map (r : LockMap)
  | volume (i : VolIx) (r : VolumeRecord)
  | journal (r : Journal)
  | pset (r : PendingSet)
  deriving DecidableEq, Repr

/-- Which journal write a write is (R104). -/
inductive JournalWrite where
  | start | boundary | cursor | close
  deriving DecidableEq, Repr

/-- What a write was requested for: it decides what the owner does at its end. -/
inductive Purpose where
  | preCount
  | refund
  | served
  | reset
  | uses (i : SlotIx)
  | spend
  | enrol (i : SlotIx)
  /-- a slot administration command, by the link that waits -/
  | admin (requester : Option Link)
  /-- a wipe destroy of a slot, with the verifier it destroyed -/
  | slotDestroy (i : SlotIx) (old : Option Verifier)
  | volumeApply (i : VolIx)
  | volumeDestroy (i : VolIx)
  | volumeRekey (i : VolIx)
  | policyApply
  | mapApply
  /-- a Pending Set write: the stagings it carries, and whether a discard came after its request (R131) -/
  | pset (carried : List Nat) (discarded : Bool)
  | options (requester : Option Link)
  | journal (which : JournalWrite)
  deriving DecidableEq, Repr

/-- A write waiting in the queue (R136). -/
structure WriteEntry where
  contents : Contents
  purpose : Purpose
  deriving DecidableEq, Repr

/-- The current write (R136). -/
structure CurrentWrite where
  entry : WriteEntry
  attempt : Nat
  deriving DecidableEq, Repr

/-- What the RSC holds besides the array (R136). -/
structure Rsc where
  current : Option CurrentWrite
  queue : List WriteEntry
  deriving DecidableEq, Repr

/-! ## Timebase and supplies (chapters 9 and 10) -/

/-- Timebase states (R144). -/
inductive Timebase where
  | crystal | fallback
  deriving DecidableEq, Repr

/-- What the TBU holds (R144). `run` is present in FALLBACK. -/
structure Tbu where
  state : Timebase
  divider : Nat
  gap : Nat
  run : Option Nat
  deriving DecidableEq, Repr

/-- Supply modes, in the order of R153's table. -/
inductive SupplyMode where
  | off | bus | cellAwake | cellSleep
  deriving DecidableEq, Repr

/-- Cell levels (10.4). -/
inductive CellLevel where
  | good | low | crit
  deriving DecidableEq, Repr

/-- Directions of a filter run (10.4). -/
inductive FilterDir where
  | falling | rising
  deriving DecidableEq, Repr

/-- What the SSV holds (R153, R157, 10.4, R162). -/
structure Ssv where
  mode : SupplyMode
  level : CellLevel
  filterCount : Nat
  filterDir : Option FilterDir
  nearest : Option CellLevel
  samplePhase : Nat
  sleepTimer : Timer
  sleepDue : Bool
  caseIsOpen : Bool
  caseTimer : Timer
  deriving DecidableEq, Repr

/-! ## Links (chapters 5 and 11) -/

/-- Refusal reasons, in the order of their codes (11.8). -/
inductive Reason where
  | notNow | noAuthority | penalty | lowCell | condition | wiping | noSlot | slotState | noVolume | badRange
  | unreachable | notAttached | stale | storeFault | factoryLocked
  deriving DecidableEq, Repr

/-- Outcomes of KEY and ENROL_BEGIN, in the order of their codes (11.9). -/
inductive KeyOutcome where
  | none | empty | overlong | tooShort | granted | rejected | firstTaken | mismatch | enrolled | duplicate
  deriving DecidableEq, Repr

/-- The entry summary (R23). -/
structure Summary where
  digitsHeld : Nat
  overlong : Bool
  intent : Intent
  dialogue : Option (DialogueKind × SlotIx)
  deriving DecidableEq, Repr

/-- Bridge link states (R85). -/
inductive BridgeState where
  | absent | present | attached | lost
  deriving DecidableEq, Repr

/-- The payload of ACCESS_CHANGED (R60). -/
structure AccessReport where
  access : Access
  openSlot : Option SlotIx
  clockFault : Bool
  caseOpen : Bool
  deriving DecidableEq, Repr

/-- The payload of WIPE_STATE (R118). -/
structure WipeReport where
  cause : WipeCause
  depth : WipeDepth
  step : WipeStep
  run : RunCondition
  progress : Nat
  deriving DecidableEq, Repr

/-- An event with its payload (R169). -/
inductive Event where
  | wipeState (r : WipeReport)
  | accessChanged (r : AccessReport)
  | penaltyChanged (seconds attemptsLeft : Nat)
  | cellLevel (level : CellLevel) (mode : SupplyMode)
  | timebaseChanged (state : Timebase)
  | entryAbandoned
  | keysRevoked
  | lockPending (cause : LockCause) (deferrals : Nat)
  | eraseWork (progress : Nat)
  deriving DecidableEq, Repr

/-- The status record (R171). -/
structure StatusRecord where
  access : Access
  openSlot : Option SlotIx
  mode : SupplyMode
  level : CellLevel
  timebase : Timebase
  bridge : BridgeState
  fails : Nat
  threshold : Nat
  attemptsLeft : Nat
  penaltySeconds : Nat
  wipeStep : Option WipeStep
  run : Option RunCondition
  progress : Nat
  clockFault : Bool
  caseOpen : Bool
  startCause : StartCause
  deriving DecidableEq, Repr

/-- Roles of a slot (1.1). -/
inductive Role where
  | admin | user | recovery
  deriving DecidableEq, Repr

/-- A slot listing entry (R18). -/
structure SlotListing where
  index : SlotIx
  role : Role
  state : SlotState
  length : Option Nat
  mode : Option AccessMode
  mask : Option VolMask
  uses : Option Nat
  fault : Bool
  deriving DecidableEq, Repr

/-- The key release payload (R91). -/
structure KeyRelease where
  volume : VolIx
  kgen : Nat
  mode : AccessMode
  first : Nat
  count : Nat
  key : Key
  deriving DecidableEq, Repr

/-- A volume entry of READ_VOLUMES (R96). -/
structure VolumeListing where
  index : VolIx
  state : VolumeState
  keyState : KeyState
  first : Option Nat
  count : Option Nat
  kgen : Nat
  readOnly : Option Bool
  incomplete : Option Bool
  staged : Option VolumeDef
  deriving DecidableEq, Repr

/-- The result of READ_POLICY (R128). -/
structure PolicyListing where
  policy : Policy
  map : LockMap
  stagedPolicy : Vector (Option Nat) 16
  stagedMap : StagedMap
  policyFault : Bool
  mapFault : Bool
  psetFault : Bool
  deriving DecidableEq, Repr

/-- Outcomes of LOCK_REPLY (R69). -/
inductive LockOutcome where
  | locked
  | held (deferrals : Nat)
  | overruled
  deriving DecidableEq, Repr

/-- Outcomes of WORK_DONE (R114, R115). -/
inductive WorkOutcome where
  | advanced
  | retry (attempt : Nat)
  | abandoned
  deriving DecidableEq, Repr

/-- The fields of an OK result after the code of the command (11.9). -/
inductive Fields where
  | none
  | status (r : StatusRecord)
  /-- the event removed by GET_EVENT; `none` is the kind NONE -/
  | event (e : Option Event)
  | slots (l : List SlotListing)
  | key (outcome : KeyOutcome) (rejected : Option (Nat × Nat)) (summary : Summary)
  | lockReply (o : LockOutcome)
  | workDone (o : WorkOutcome)
  | attach (access : Access) (openSlot : Option SlotIx) (releaseMask : VolMask)
  | activity (seconds : Nat)
  | wipe (cause : WipeCause) (depth : WipeDepth) (keepAdmin : Bool)
  | policy (staged : Vector (Option Nat) 16)
  | map (staged : StagedMap)
  | volumeDef (index : VolIx) (d : VolumeDef)
  | options (o : Options)
  | policyListing (l : PolicyListing)
  | volumes (capacity : Nat) (l : List VolumeListing)
  | keyRelease (k : KeyRelease)
  /-- number, first block and count of the issued order; `none` is NO_WORK -/
  | work (order : Option (Nat × Nat × Nat))
  deriving DecidableEq, Repr

/-- A result waiting in a command slot: a status with its payload (11.8, 11.9). -/
inductive Result where
  | ok (code : Byte) (fields : Fields)
  /-- `seconds` is the remaining penalty, sent with the reason PENALTY -/
  | refused (code : Byte) (reason : Reason) (seconds : Nat)
  | unknownCommand (code : Byte)
  | wrongLink (code : Byte)
  | halted (code : Byte)
  | badFrame
  deriving DecidableEq, Repr

/-- Command classes (11.3). -/
inductive CmdClass where
  | short | long
  deriving DecidableEq, Repr

/-- A command slot (11.3); a RUNNING slot holds the code of the command being carried out. -/
inductive CmdSlot where
  | idle
  | running (cls : CmdClass) (code : Byte)
  | done (r : Result)
  deriving DecidableEq, Repr

/-- One link's command slot, one-shot note (R166), and what it shifted out in the last exchange (R163). -/
structure LinkPort where
  slot : CmdSlot
  note : Option Byte
  dout : List Byte
  deriving DecidableEq, Repr

/-- The P-link event queue: at most one event of each kind (R169), each with its payload. -/
structure PQueue where
  wipeState : Option WipeReport
  accessChanged : Option AccessReport
  penaltyChanged : Option (Nat × Nat)
  cellLevel : Option (CellLevel × SupplyMode)
  timebaseChanged : Option Timebase
  entryAbandoned : Bool
  deriving DecidableEq, Repr

/-- The B-link event queue (R169). -/
structure BQueue where
  keysRevoked : Bool
  lockPending : Option (LockCause × Nat)
  accessChanged : Option AccessReport
  eraseWork : Option Nat
  deriving DecidableEq, Repr

/-- What the LIU holds (R85, R89, 11.3 to 11.5). -/
structure Liu where
  p : LinkPort
  b : LinkPort
  pq : PQueue
  bq : BQueue
  bridge : BridgeState
  capacity : Option Nat
  linkTimer : Timer
  deriving DecidableEq, Repr

/-- The levels of the input pins (00 1.2). -/
structure Pins where
  busdet : Bool
  caseHigh : Bool
  wakeLow : Bool
  resetLow : Bool
  deriving DecidableEq, Repr

/-- The whole machine: the commands that wait, first in first out, and everything the manual gives the part. -/
structure State where
  pending : List Instr
  /-- what comes about during the start-ups to come, in their order: the model's own field (log entry 13) -/
  starts : List StartEvents
  pins : Pins
  store : Store
  rsc : Rsc
  ctb : Ctb
  keu : Keu
  atl : Atl
  acc : Acc
  kru : Kru
  wpe : Wpe
  plu : Plu
  tbu : Tbu
  ssv : Ssv
  liu : Liu
  deriving DecidableEq, Repr

/-! ## Starting values -/

/-- The EMPTY slot record (R1). -/
def SlotRecord.empty : SlotRecord :=
  { state := .empty, length := none, verifier := none, mode := none, mask := none, uses := none }

/-- A volume that is UNUSED with its key DESTROYED (R83). -/
def VolumeRecord.unused (kgen : Nat) : VolumeRecord :=
  { state := .unused, first := none, count := none, key := none, keyState := .destroyed, kgen := kgen,
    readOnly := none, incomplete := none }

/-- Every default of R120's table. -/
def Policy.default : Policy :=
  { freeAttempts := 3, penaltyBase := 5, penaltyCap := 900, wipeThreshold := 10, pinMin := 7, entryGap := 10,
    idleLock := 15, attachWindow := 30, deferLimit := 3, deferWindow := 2, wipeDepth := .keysAndMedia,
    wipeKeepAdmin := false, driveReadOnly := false, cellLowLevel := 2, cellFilter := 4, cellRiseReport := false }

/-- Every default of R121's table. -/
def LockMap.default : LockMap := { bridgeLost := .forced, clockFault := .none, caseOpen := .wipe }

/-- Every default of R132's table. -/
def Options.default : Options :=
  { cellFitted := true, caseFitted := false, caseOpenHigh := true, factoryLocked := false }

/-- A staged map with no entry. -/
def StagedMap.empty : StagedMap := { bridgeLost := none, clockFault := none, caseOpen := none }

/-- The empty Pending Set (R123). -/
def PendingSet.empty : PendingSet :=
  { policy := Vector.replicate 16 none, map := .empty, volumes := Vector.replicate 4 none }

/-- A location of a factory-new part (R134). -/
def Location.factoryNew {α : Type} : Location α := { written := false, body := .erased }

/-- The array of a factory-new part: twenty BLANK records (R135). -/
def Store.factoryNew : Store :=
  { option := .factoryNew, slots := Vector.replicate 10 .factoryNew, limiter := .factoryNew,
    policy := .factoryNew, map := .factoryNew, volumes := Vector.replicate 4 .factoryNew,
    journal := .factoryNew, pset := .factoryNew }

/-- No write current, none waiting (R142). -/
def Rsc.init : Rsc := { current := none, queue := [] }

/-- Ten EMPTY slots, every mark clear (R4). -/
def Ctb.init : Ctb := { slots := Vector.replicate 10 { record := .empty, fault := false, shadow := none } }

/-- The KEU after power-on, RESET_N or wake (R21). -/
def Keu.init : Keu :=
  { digits := [], overlong := false, intent := .unlock, bstate := .empty, dialogue := none, entryTimer := none,
    flight := none, disturbed := false }

/-- The Limiter Record of a factory-new part (R42), the penalty timer stopped (R41). -/
def Atl.init : Atl := { limiter := { fails := 0, served := true }, penalty := none, phase := false }

/-- The ACC with nothing open and every timer stopped; the access state is derived afterwards (R59). -/
def Acc.init : Acc :=
  { access := .blank, openSlot := none, startCause := .powerOn, clockFault := false, caseOpen := false,
    lockCause := none, deferrals := none, heldWipe := false, idleTimer := none, attachTimer := none,
    deferTimer := none, configTimer := none }

/-- Four UNUSED volumes, each with KGEN 1 (R83). -/
def Kru.init : Kru := { volumes := Vector.replicate 4 (.unused 1), keyDraws := 0 }

/-- The WPE with no wipe (R103, R105). -/
def Wpe.init : Wpe :=
  { journal := none, starting := none, position := .idle, counter := 0, run := .active, order := none,
    attempt := 1, orderTimer := none }

/-- The PLU with every default and an empty set (R122, R123, R132). -/
def Plu.init : Plu :=
  { policy := .default, map := .default, committed := .empty, inflight := [], nextStaging := 0,
    applying := none, removing := .empty, policyFault := false, mapFault := false, psetFault := false,
    inForce := .default, stored := .default, storedDamaged := false }

/-- The TBU at power-on and while RESET_N is low (R147). The run count is absent in CRYSTAL, as R144's table has it,
where R147 says 0: DESIGN CHOICE, log entry 41. -/
def Tbu.init : Tbu := { state := .crystal, divider := 0, gap := 0, run := none }

/-- The SSV at power-on and while RESET_N is low, but for its mode (R154). -/
def Ssv.init (mode : SupplyMode) : Ssv :=
  { mode := mode, level := .good, filterCount := 0, filterDir := none, nearest := none, samplePhase := 0,
    sleepTimer := none, sleepDue := false, caseIsOpen := false, caseTimer := none }

/-- A link cleared (R170). -/
def LinkPort.init : LinkPort := { slot := .idle, note := none, dout := [] }

/-- An empty P-link event queue. -/
def PQueue.empty : PQueue :=
  { wipeState := none, accessChanged := none, penaltyChanged := none, cellLevel := none,
    timebaseChanged := none, entryAbandoned := false }

/-- An empty B-link event queue. -/
def BQueue.empty : BQueue :=
  { keysRevoked := false, lockPending := none, accessChanged := none, eraseWork := none }

/-- Both links cleared, the bridge link in the state given, no capacity (R85, R170). -/
def Liu.init (bridge : BridgeState) : Liu :=
  { p := .init, b := .init, pq := .empty, bq := .empty, bridge := bridge, capacity := none, linkTimer := none }

/-- The part right after RESET_N is released, factory-new (every location BLANK, so BLANK by check 4 of R78,
with the automatic dialogue of R35), bus power present (log entries 1 and 2). ACCESS_CHANGED stands in both
queues (R79). `test_reset_is_release` shows that RESET_N_RELEASE gives exactly this state. -/
def State.reset : State :=
  { pending := []
    starts := []
    pins := { busdet := true, caseHigh := false, wakeLow := false, resetLow := false }
    store := .factoryNew
    rsc := .init
    ctb := .init
    keu := { Keu.init with
      intent := .enrolFirst
      dialogue := some { kind := .automatic, target := 0, mode := none, mask := none, step := .first,
                         candidate := none } }
    atl := .init
    acc := { Acc.init with access := .blank, startCause := .resetPin }
    kru := .init
    wpe := .init
    plu := .init
    tbu := .init
    ssv := .init .bus
    liu := { Liu.init .present with
      pq := { PQueue.empty with
        accessChanged := some { access := .blank, openSlot := none, clockFault := false, caseOpen := false } }
      bq := { BQueue.empty with
        accessChanged := some { access := .blank, openSlot := none, clockFault := false, caseOpen := false } } } }

end Sys2Proof.Machine
end

