-- ==== Sys2Proof/Machine/Ops.lean ====
section
/-! DEFINITION. The named operations every block shares: block-wise updates of the state, timers (9.3), events
(11.5), answers in a command slot (11.3), and write requests and locations of the retained store (chapter 8). -/

namespace Sys2Proof.Machine

/-! ## Block-wise updates -/

/-- Change what the RSC holds. -/
def State.onRsc (f : Rsc → Rsc) (s : State) : State := { s with rsc := f s.rsc }
/-- Change the array. -/
def State.onStore (f : Store → Store) (s : State) : State := { s with store := f s.store }
/-- Change what the CTB holds. -/
def State.onCtb (f : Ctb → Ctb) (s : State) : State := { s with ctb := f s.ctb }
/-- Change what the KEU holds. -/
def State.onKeu (f : Keu → Keu) (s : State) : State := { s with keu := f s.keu }
/-- Change what the ATL holds. -/
def State.onAtl (f : Atl → Atl) (s : State) : State := { s with atl := f s.atl }
/-- Change what the ACC holds. -/
def State.onAcc (f : Acc → Acc) (s : State) : State := { s with acc := f s.acc }
/-- Change what the KRU holds. -/
def State.onKru (f : Kru → Kru) (s : State) : State := { s with kru := f s.kru }
/-- Change what the WPE holds. -/
def State.onWpe (f : Wpe → Wpe) (s : State) : State := { s with wpe := f s.wpe }
/-- Change what the PLU holds. -/
def State.onPlu (f : Plu → Plu) (s : State) : State := { s with plu := f s.plu }
/-- Change what the TBU holds. -/
def State.onTbu (f : Tbu → Tbu) (s : State) : State := { s with tbu := f s.tbu }
/-- Change what the SSV holds. -/
def State.onSsv (f : Ssv → Ssv) (s : State) : State := { s with ssv := f s.ssv }
/-- Change what the LIU holds. -/
def State.onLiu (f : Liu → Liu) (s : State) : State := { s with liu := f s.liu }
/-- Change the levels of the input pins. -/
def State.onPins (f : Pins → Pins) (s : State) : State := { s with pins := f s.pins }

/-! ## Timers (R149 to R152) -/

/-- Start or restart a timer with a period in ticks (R149). -/
def Timer.start (ticks : Nat) : Timer := some ticks

/-- A tick taken by a timer (R150): a running count falls by one; a stopped or already expired timer is as it
was. -/
def Timer.tick : Timer → Timer
  | some (n + 1) => some n
  | t => t

/-- The count has reached 0 and the expiry is to be taken. -/
def Timer.due (t : Timer) : Bool := t == some 0

/-- Seconds reported for a count of ticks: ceil of the count divided by 8 (R53, R92); 0 when stopped. -/
def Timer.seconds (t : Timer) : Nat := (t.getD 0 + 7) / Config.ticksPerSecond

/-! ## Power (R153) -/

/-- The core domain is powered and not held in reset (R153, R147). -/
def State.corePowered (s : State) : Bool :=
  !s.pins.resetLow && (s.ssv.mode == .bus || s.ssv.mode == .cellAwake)

/-- The retain domain is powered and not held in reset (R153, R147). -/
def State.powered (s : State) : Bool := !s.pins.resetLow && s.ssv.mode != .off

/-! ## Events (R169) -/

/-- Post a P-link event: its kind becomes present, or its payload is replaced (R169). A kind of the B-link
changes nothing. -/
def PQueue.post (e : Event) (q : PQueue) : PQueue :=
  match e with
  | .wipeState r => { q with wipeState := some r }
  | .accessChanged r => { q with accessChanged := some r }
  | .penaltyChanged n k => { q with penaltyChanged := some (n, k) }
  | .cellLevel l m => { q with cellLevel := some (l, m) }
  | .timebaseChanged t => { q with timebaseChanged := some t }
  | .entryAbandoned => { q with entryAbandoned := true }
  | .keysRevoked => q
  | .lockPending _ _ => q
  | .eraseWork _ => q

/-- Post a B-link event (R169). A kind of the P-link alone changes nothing. -/
def BQueue.post (e : Event) (q : BQueue) : BQueue :=
  match e with
  | .keysRevoked => { q with keysRevoked := true }
  | .lockPending c n => { q with lockPending := some (c, n) }
  | .accessChanged r => { q with accessChanged := some r }
  | .eraseWork n => { q with eraseWork := some n }
  | .wipeState _ => q
  | .penaltyChanged _ _ => q
  | .cellLevel _ _ => q
  | .timebaseChanged _ => q
  | .entryAbandoned => q

/-- The highest-priority event of the P-link queue and the queue without it (R169). -/
def PQueue.take (q : PQueue) : Option Event × PQueue :=
  match q.wipeState with
  | some r => (some (.wipeState r), { q with wipeState := none })
  | none =>
    match q.accessChanged with
    | some r => (some (.accessChanged r), { q with accessChanged := none })
    | none =>
      match q.penaltyChanged with
      | some (n, k) => (some (.penaltyChanged n k), { q with penaltyChanged := none })
      | none =>
        match q.cellLevel with
        | some (l, m) => (some (.cellLevel l m), { q with cellLevel := none })
        | none =>
          match q.timebaseChanged with
          | some t => (some (.timebaseChanged t), { q with timebaseChanged := none })
          | none =>
            if q.entryAbandoned then (some .entryAbandoned, { q with entryAbandoned := false }) else (none, q)

/-- The highest-priority event of the B-link queue and the queue without it (R169). -/
def BQueue.take (q : BQueue) : Option Event × BQueue :=
  if q.keysRevoked then (some .keysRevoked, { q with keysRevoked := false })
  else
    match q.lockPending with
    | some (c, n) => (some (.lockPending c n), { q with lockPending := none })
    | none =>
      match q.accessChanged with
      | some r => (some (.accessChanged r), { q with accessChanged := none })
      | none =>
        match q.eraseWork with
        | some n => (some (.eraseWork n), { q with eraseWork := none })
        | none => (none, q)

/-- Post an event to the P-link queue; dropped while the core domain is unpowered (R169). -/
def State.postP (e : Event) (s : State) : State :=
  if s.corePowered then s.onLiu fun u => { u with pq := u.pq.post e } else s

/-- Post an event to the B-link queue; dropped while the bridge link state is ABSENT or the core domain is
unpowered (R169). -/
def State.postB (e : Event) (s : State) : State :=
  if s.corePowered && s.liu.bridge != .absent then s.onLiu fun u => { u with bq := u.bq.post e } else s

/-- The payload of ACCESS_CHANGED as things stand (R60). -/
def State.accessReport (s : State) : AccessReport :=
  { access := s.acc.access, openSlot := s.acc.openSlot, clockFault := s.acc.clockFault,
    caseOpen := s.acc.caseOpen }

/-- Post ACCESS_CHANGED to the P-link, and to the B-link when the bridge link state is other than ABSENT
(R60). -/
def State.postAccessChanged (s : State) : State :=
  (s.postP (.accessChanged s.accessReport)).postB (.accessChanged s.accessReport)

/-! ## Command slots (11.3) -/

/-- A link's port. -/
def Liu.port (l : Link) (u : Liu) : LinkPort :=
  match l with
  | .p => u.p
  | .b => u.b

/-- Change a link's port. -/
def Liu.onPort (l : Link) (f : LinkPort → LinkPort) (u : Liu) : Liu :=
  match l with
  | .p => { u with p := f u.p }
  | .b => { u with b := f u.b }

/-- Leave a result in a RUNNING slot, which becomes DONE (R165). A slot that no longer runs a command has been
cleared, and the answer is discarded (R170). -/
def CmdSlot.answer (mk : Byte → Result) (c : CmdSlot) : CmdSlot :=
  match c with
  | .running _ code => .done (mk code)
  | .idle => .idle
  | .done r => .done r

/-- Answer the command RUNNING on a link. -/
def State.answer (l : Link) (mk : Byte → Result) (s : State) : State :=
  s.onLiu fun u => u.onPort l fun p => { p with slot := p.slot.answer mk }

/-- Answer OK with the command's fields (11.9). -/
def State.replyOk (l : Link) (f : Fields) (s : State) : State := s.answer l fun code => .ok code f

/-- Answer REFUSED with a reason (11.9). -/
def State.refuse (l : Link) (r : Reason) (s : State) : State := s.answer l fun code => .refused code r 0

/-- Answer OK to the requester that still waits, if any (R170). -/
def State.replyOkTo (o : Option Link) (f : Fields) (s : State) : State :=
  match o with
  | some l => s.replyOk l f
  | none => s

/-- Answer REFUSED to the requester that still waits, if any (R170). -/
def State.refuseTo (o : Option Link) (r : Reason) (s : State) : State :=
  match o with
  | some l => s.refuse l r
  | none => s

/-- Class the RUNNING command LONG (11.3). -/
def State.runLong (l : Link) (s : State) : State :=
  s.onLiu fun u => u.onPort l fun p =>
    { p with slot := match p.slot with
                     | .running _ code => .running .long code
                     | .idle => .idle
                     | .done r => .done r }

/-! ## The write queue (R136 to R138) -/

/-- The record some contents are for. -/
def Contents.id : Contents → RecordId
  | .option _ => .option
  | .slot i _ => .slot i
  | .limiter _ => .limiter
  | .policy _ => .policy
  | .map _ => .map
  | .volume i _ => .volume i
  | .journal _ => .journal
  | .pset _ => .pset

/-- The record a waiting entry is for. -/
def WriteEntry.id (e : WriteEntry) : RecordId := e.contents.id

/-- Place a request: a waiting entry of the same record is replaced in its place, otherwise the request is
appended (R136). -/
def enqueueEntry (e : WriteEntry) (q : List WriteEntry) : List WriteEntry :=
  match q with
  | [] => [e]
  | w :: rest => if w.id = e.id then e :: rest else w :: enqueueEntry e rest

/-- The purpose of the waiting entry of a record, which a request for that record supersedes (R138). -/
def waitingPurpose (id : RecordId) (q : List WriteEntry) : Option Purpose :=
  match q with
  | [] => none
  | w :: rest => if w.id = id then some w.purpose else waitingPurpose id rest

/-- When no write is current, the oldest waiting entry becomes current with attempt number 1 (R137). -/
def Rsc.kick (r : Rsc) : Rsc :=
  match r.current with
  | some _ => r
  | none =>
    match r.queue with
    | [] => r
    | e :: rest => { current := some { entry := e, attempt := 1 }, queue := rest }

/-- A request is placed (R136). With no write current and none waiting it is the oldest waiting entry, so it becomes
current at once (R137); where a write has just ended and others wait, they come before it (log entry 25). -/
def Rsc.request (e : WriteEntry) (r : Rsc) : Rsc :=
  if r.current = none ∧ r.queue = [] then Rsc.kick { r with queue := [e] }
  else { r with queue := enqueueEntry e r.queue }

/-- Request a write (R136, R137). The owner that supersedes an entry of its own deals with its earlier requester. -/
def State.requestWrite (c : Contents) (p : Purpose) (s : State) : State :=
  s.onRsc (Rsc.request { contents := c, purpose := p })

/-- No write is current or waiting (R142). -/
def Rsc.isIdle (r : Rsc) : Bool := r.current.isNone && r.queue.isEmpty

/-- The purposes of the write being carried out and of those that wait. -/
def Rsc.purposes (r : Rsc) : List Purpose :=
  (match r.current with
   | some w => [w.entry.purpose]
   | none => []) ++ r.queue.map WriteEntry.purpose

/-- Every meaning ends here: where a write has ended and its owner is answered, the RSC takes the next waiting one (R137,
log entry 25), and the command answers a next state. -/
def finish (s : State) : Host.Outcome State Fault Refusal := .next (s.onRsc Rsc.kick)

/-! ## Locations (R134, R135, R139 to R141) -/

/-- What a record is at a load (R135). `alien` is VALID with a field outside its table. -/
inductive LoadClass (α : Type) where
  | valid (contents : α)
  | alien
  | blank
  | damaged
  deriving DecidableEq, Repr

/-- The class of a location at a load (R135). -/
def Location.read {α : Type} (l : Location α) : LoadClass α :=
  match l.written, l.body with
  | false, .erased => .blank
  | false, _ => .damaged
  | true, .valid c => .valid c
  | true, .alien => .alien
  | true, .spoiled => .damaged
  | true, .erased => .damaged

/-- A location after a write completed (R139). -/
def Location.complete {α : Type} (new : α) (_ : Location α) : Location α :=
  { written := true, body := .valid new }

/-- A location after a write failed, by what the second attempt left (R140). The written mark was set before the
first erase (R139). -/
def Location.fail {α : Type} (left : Residue) (new : α) (l : Location α) : Location α :=
  match left with
  | .old => { written := true, body := l.body }
  | .new => { written := true, body := .valid new }
  | .neither => { written := true, body := .spoiled }

/-- A location whose write was cut, by where the cut met it (R141). -/
def Location.cut {α : Type} (at_ : CutPoint) (new : α) (l : Location α) : Location α :=
  match at_ with
  | .settingMark set => { written := l.written || set, body := l.body }
  | .erase gone => { written := true, body := if gone then .erased else l.body }
  | .program finished => { written := true, body := if finished then .valid new else .spoiled }
  | .verify taken => { written := true, body := if taken then .valid new else .spoiled }
  | .afterPass => { written := true, body := .valid new }

/-- Change the location of the record that some contents are for. -/
def Store.onLocation (f : {α : Type} → α → Location α → Location α) (c : Contents) (st : Store) : Store :=
  match c with
  | .option r => { st with option := f r st.option }
  | .slot i r => { st with slots := st.slots.set i (f r (st.slots.get i)) }
  | .limiter r => { st with limiter := f r st.limiter }
  | .policy r => { st with policy := f r st.policy }
  | .map r => { st with map := f r st.map }
  | .volume i r => { st with volumes := st.volumes.set i (f r (st.volumes.get i)) }
  | .journal r => { st with journal := f r st.journal }
  | .pset r => { st with pset := f r st.pset }

/-- A power loss or RESET_N meets the store: the current write is cut, every waiting entry is lost (R141). -/
def State.cutStore (at_ : CutPoint) (s : State) : State :=
  match s.rsc.current with
  | some w => (s.onStore (Store.onLocation (Location.cut at_) w.entry.contents)).onRsc fun _ => Rsc.init
  | none => s.onRsc fun _ => Rsc.init

end Sys2Proof.Machine
end

