-- ==== Sys2Proof/Machine/Flags.lean ====
section
/-! DEFINITION. The conditions and status values computed from the state: condition bars and the entry gate
(R24, R67), penalty seconds and attempts left (R53, R58), the attention lines (R168), what a wipe reports
(R118, R119), and the sleep conditions (R158). -/

namespace Sys2Proof.Machine

/-- A map action as the action of a cause (R65). -/
def causeAction : LockAction → CauseAction
  | .none => .none
  | .orderly => .orderly
  | .forced => .forced
  | .wipe => .wipe

/-- CLOCK_FAULT is active and bars entries (R67). -/
def State.clockBars (s : State) : Bool := s.acc.clockFault && s.plu.map.clockFault != .none

/-- CASE_OPEN is active and bars entries (R67). -/
def State.caseBars (s : State) : Bool := s.acc.caseOpen && s.plu.map.caseOpen != .none

/-- The supply mode is CELL_AWAKE at cell level CRIT (R24 check 3, R117). -/
def State.cellCritAwake (s : State) : Bool := s.ssv.mode == .cellAwake && s.ssv.level == .crit

/-- The entry gate is open: checks 3 and 4 of R24 pass. -/
def State.gateOpen (s : State) : Bool := !s.cellCritAwake && !s.clockBars && !s.caseBars

/-- Attempts left, W minus the committed F (R58). -/
def State.attemptsLeft (s : State) : Nat := s.plu.policy.wipeThreshold - s.atl.limiter.fails

/-- The remaining penalty in seconds (R53). -/
def State.penaltySeconds (s : State) : Nat := s.atl.penalty.seconds

/-- An entry handed to the ATL is in flight (R33, R62; log entry 21). -/
def State.entryInFlight (s : State) : Bool :=
  match s.keu.flight with
  | some .preCount => true
  | some (.judging _) => true
  | some (.refund _) => true
  | some (.uses _) => true
  | some .spend => true
  | some .recoveryRefund => true
  | some .verifyFirst => false
  | some .verifyConfirm => false
  | some .enrolWrite => false
  | none => false

/-- The link is served: frames are taken and the data output is driven (R163, R85). -/
def State.served (l : Link) (s : State) : Bool :=
  match l with
  | .p => s.corePowered
  | .b => s.corePowered && s.liu.bridge != .absent

/-- The P-link queue holds no event. -/
def PQueue.isEmpty (q : PQueue) : Bool := q == PQueue.empty

/-- The B-link queue holds no event. -/
def BQueue.isEmpty (q : BQueue) : Bool := q == BQueue.empty

/-- A result is waiting in the slot. -/
def CmdSlot.isDone : CmdSlot → Bool
  | .done _ => true
  | .idle => false
  | .running _ _ => false

/-- The attention line of a link is asserted (R168). -/
def State.attention (l : Link) (s : State) : Bool :=
  s.served l && ((s.liu.port l).slot.isDone ||
    (match l with
     | .p => !s.liu.pq.isEmpty
     | .b => !s.liu.bq.isEmpty))

/-! ## What a wipe shows -/

/-- The cursor has reached its volume's end (R102). -/
def Cursor.finished (c : Cursor) : Bool := c.next == c.first + c.count

/-- Some cursor is unfinished. -/
def WipeRecord.unfinished (w : WipeRecord) : Bool := w.cursors.any fun c => !c.finished

/-- The wipe record in force: the committed journal, or before it the record being written (log entry 19). -/
def Wpe.view (w : Wpe) : Option WipeRecord :=
  match w.journal with
  | some r => some r
  | none => w.starting

/-- Blocks processed, over all cursors (R119). -/
def WipeRecord.processed (w : WipeRecord) : Nat := (w.cursors.map fun c => c.next - c.first).sum

/-- Blocks in all cursors (R119). -/
def WipeRecord.total (w : WipeRecord) : Nat := (w.cursors.map fun c => c.count).sum

/-- Progress of a wipe, 0 to 100 (R119). -/
def WipeRecord.progress (w : WipeRecord) : Nat :=
  match w.step with
  | .keys => 0
  | .limiter => 0
  | .media => 100 * w.processed / w.total
  | .rekey => 100
  | .close => 100

/-- The pause condition of R117; in CELL_SLEEP a pause that stood at sleep stands until the level leaves CRIT
(R159, log entry 20). -/
def State.pauseHolds (s : State) : Bool :=
  s.ssv.level == .crit &&
    (s.ssv.mode == .cellAwake || (s.ssv.mode == .cellSleep && s.wpe.run == .paused))

/-- Step MEDIA with an unfinished cursor and no attached bridge (R118). -/
def State.mediaWaits (s : State) : Bool :=
  match s.wpe.view with
  | some w => w.step == .media && w.unfinished && s.liu.bridge != .attached
  | none => false

/-- The run condition by R118's table. -/
def State.runCondition (s : State) : RunCondition :=
  if s.pauseHolds then .paused
  else if s.wpe.position = .stalled then .stalled
  else if s.mediaWaits then .waitingBridge
  else .active

/-- A write requested for the wipe (R117, R118). -/
def Purpose.isWipe : Purpose → Bool
  | .slotDestroy _ _ => true
  | .volumeDestroy _ => true
  | .volumeRekey _ => true
  | .reset => true
  | .journal _ => true
  | .preCount => false
  | .refund => false
  | .served => false
  | .uses _ => false
  | .spend => false
  | .enrol _ => false
  | .admin _ => false
  | .volumeApply _ => false
  | .policyApply => false
  | .mapApply => false
  | .pset _ _ => false
  | .options _ => false

/-- A store write of the wipe is waiting or running. -/
def State.wipeBusy (s : State) : Bool := s.rsc.purposes.any Purpose.isWipe

/-- The WPE reports no work it can do without the bridge (R118, last paragraph). -/
def State.wipeNoWork (s : State) : Bool :=
  !s.wipeBusy && (s.wpe.run != .active ||
    (match s.wpe.view with
     | some w => w.step == .media && w.unfinished
     | none => false))

/-- The KEU counts its buffer as EMPTY for sleep: no candidate is held either (R21). -/
def Keu.idleForSleep (k : Keu) : Bool :=
  k.bstate == .empty &&
    (match k.dialogue with
     | some d => d.candidate.isNone
     | none => true)

/-- The access state lets the part sleep (R158). -/
def State.accessLetsSleep (s : State) : Bool :=
  match s.acc.access with
  | .locked => true
  | .penalty => true
  | .blank => true
  | .wiping => s.wipeNoWork
  | .unlocked => false
  | .locking => false
  | .config => false
  | .halted => false

/-- Every condition of R158 holds, the sleep-due mark among them. -/
def State.sleepConditions (s : State) : Bool :=
  !s.pins.resetLow && s.ssv.sleepDue && s.ssv.mode == .cellAwake && s.accessLetsSleep && s.keu.idleForSleep
    && s.rsc.isIdle

end Sys2Proof.Machine
end

