-- ==== Sys2Proof/Machine/Operands.lean ====
section
/-! DEFINITION. The operands of commands as their owners read them: command codes and links (11.8), slot and
volume indices, policy fields with their ranges and clamps (R120, R126), map entries and the actions allowed
(R121, R127), options (R132, R133), and the authority checks shared by the administration commands (R15, R100,
R125). -/

namespace Sys2Proof

/-! ## Indices -/

/-- A slot index as sent; `none` is above 9 (R15 check 5). -/
def slotIx? (b : Byte) : Option SlotIx := if h : b.toNat < 10 then some ⟨b.toNat, h⟩ else none

/-- A volume index as sent; `none` is above 3 (R90 check 4, R93 check 5). -/
def volIx? (b : Byte) : Option VolIx := if h : b.toNat < 4 then some ⟨b.toNat, h⟩ else none

/-! ## Policy fields -/

/-- The field number (R120's order, 11.9). -/
def PolicyField.number : PolicyField → Fin 16
  | .freeAttempts => 0 | .penaltyBase => 1 | .penaltyCap => 2 | .wipeThreshold => 3
  | .pinMin => 4 | .entryGap => 5 | .idleLock => 6 | .attachWindow => 7
  | .deferLimit => 8 | .deferWindow => 9 | .wipeDepth => 10 | .wipeKeepAdmin => 11
  | .driveReadOnly => 12 | .cellLowLevel => 13 | .cellFilter => 14 | .cellRiseReport => 15

/-- Every field, in field-number order. -/
def PolicyField.all : List PolicyField :=
  [.freeAttempts, .penaltyBase, .penaltyCap, .wipeThreshold, .pinMin, .entryGap, .idleLock, .attachWindow,
   .deferLimit, .deferWindow, .wipeDepth, .wipeKeepAdmin, .driveReadOnly, .cellLowLevel, .cellFilter,
   .cellRiseReport]

/-- The limits of a numeric field (R120); the coded fields run over their codes. -/
def PolicyField.range : PolicyField → Nat × Nat
  | .freeAttempts => (0, 7)
  | .penaltyBase => (1, 60)
  | .penaltyCap => (60, 3600)
  | .wipeThreshold => (4, 32)
  | .pinMin => (6, 12)
  | .entryGap => (5, 30)
  | .idleLock => (0, 240)
  | .attachWindow => (5, 120)
  | .deferLimit => (0, 7)
  | .deferWindow => (1, 10)
  | .wipeDepth => (0, 1)
  | .wipeKeepAdmin => (0, 1)
  | .driveReadOnly => (0, 1)
  | .cellLowLevel => (0, 7)
  | .cellFilter => (1, 8)
  | .cellRiseReport => (0, 1)

/-- A stored or staged value lies within its field's range (R120, R122, R123). -/
def PolicyField.inRange (f : PolicyField) (v : Nat) : Bool :=
  match f with
  | .cellFilter => v == 1 || v == 2 || v == 4 || v == 8
  | _ => decide (f.range.1 ≤ v ∧ v ≤ f.range.2)

/-- Bring a numeric value into a range (R126). -/
def clampTo (lo hi v : Nat) : Nat := if v < lo then lo else if hi < v then hi else v

/-- The clamp of CELL_FILTER (R126). -/
def clampFilter (v : Nat) : Nat :=
  if v = 0 then 1 else if v = 3 then 4 else if v ≤ 2 ∨ v = 4 then v else 8

/-- The value staged for a value given (R126). -/
def PolicyField.clamp (f : PolicyField) (v : Nat) : Nat :=
  match f with
  | .cellFilter => clampFilter v
  | .wipeDepth => if v = 0 then 0 else 1
  | .wipeKeepAdmin => if v = 0 then 0 else 1
  | .driveReadOnly => if v = 0 then 0 else 1
  | .cellRiseReport => if v = 0 then 0 else 1
  | _ => clampTo f.range.1 f.range.2 v

/-- The four fields of the Attempt Limiter, held back while F is above 0 (R43). -/
def PolicyField.held : PolicyField → Bool
  | .freeAttempts => true
  | .penaltyBase => true
  | .penaltyCap => true
  | .wipeThreshold => true
  | _ => false

namespace Machine

/-- A Boolean as 11.9 codes yes and no. -/
def codeBool (b : Bool) : Nat := if b then 1 else 0

/-- A wipe depth as 11.9 codes it. -/
def WipeDepth.code : WipeDepth → Nat
  | .keysOnly => 0
  | .keysAndMedia => 1

/-- The value of a field as coded in a payload (11.9). -/
def Policy.value (p : Policy) : PolicyField → Nat
  | .freeAttempts => p.freeAttempts
  | .penaltyBase => p.penaltyBase
  | .penaltyCap => p.penaltyCap
  | .wipeThreshold => p.wipeThreshold
  | .pinMin => p.pinMin
  | .entryGap => p.entryGap
  | .idleLock => p.idleLock
  | .attachWindow => p.attachWindow
  | .deferLimit => p.deferLimit
  | .deferWindow => p.deferWindow
  | .wipeDepth => p.wipeDepth.code
  | .wipeKeepAdmin => codeBool p.wipeKeepAdmin
  | .driveReadOnly => codeBool p.driveReadOnly
  | .cellLowLevel => p.cellLowLevel
  | .cellFilter => p.cellFilter
  | .cellRiseReport => codeBool p.cellRiseReport

/-- The policy with one field at a coded value. -/
def Policy.put (p : Policy) (f : PolicyField) (v : Nat) : Policy :=
  match f with
  | .freeAttempts => { p with freeAttempts := v }
  | .penaltyBase => { p with penaltyBase := v }
  | .penaltyCap => { p with penaltyCap := v }
  | .wipeThreshold => { p with wipeThreshold := v }
  | .pinMin => { p with pinMin := v }
  | .entryGap => { p with entryGap := v }
  | .idleLock => { p with idleLock := v }
  | .attachWindow => { p with attachWindow := v }
  | .deferLimit => { p with deferLimit := v }
  | .deferWindow => { p with deferWindow := v }
  | .wipeDepth => { p with wipeDepth := if v = 0 then .keysOnly else .keysAndMedia }
  | .wipeKeepAdmin => { p with wipeKeepAdmin := v != 0 }
  | .driveReadOnly => { p with driveReadOnly := v != 0 }
  | .cellLowLevel => { p with cellLowLevel := v }
  | .cellFilter => { p with cellFilter := v }
  | .cellRiseReport => { p with cellRiseReport := v != 0 }

/-- Staged values by field number. -/
abbrev StagedPolicy := Vector (Option Nat) 16

/-- The value staged for a field. -/
def StagedPolicy.at (v : StagedPolicy) (f : PolicyField) : Option Nat := v.get f.number

/-- Lay staged values over a policy. -/
def Policy.overlay (p : Policy) (v : StagedPolicy) : Policy :=
  PolicyField.all.foldl (fun q f => match v.at f with
                                    | some n => q.put f n
                                    | none => q) p

/-- WIPE_THRESHOLD raised to FREE_ATTEMPTS + 1 where it is at most FREE_ATTEMPTS (R126, R129). -/
def Policy.raiseThreshold (p : Policy) : Policy :=
  if p.wipeThreshold ≤ p.freeAttempts then { p with wipeThreshold := p.freeAttempts + 1 } else p

/-- A stored Policy Record is well formed (R122). -/
def Policy.wellFormed (p : Policy) : Bool :=
  (PolicyField.all.all fun f => f.inRange (p.value f)) && decide (p.freeAttempts < p.wipeThreshold)

/-! ## The Lock Source Map -/

/-- The actions R121 allows for an entry. -/
def mapAllows (e : MapEntry) (a : LockAction) : Bool :=
  match e, a with
  | .bridgeLost, .orderly => true
  | .bridgeLost, .forced => true
  | .bridgeLost, _ => false
  | .clockFault, .wipe => false
  | .clockFault, _ => true
  | .caseOpen, _ => true

/-- A stored map is well formed: every entry holds an action allowed for it (R122). -/
def LockMap.wellFormed (m : LockMap) : Bool :=
  mapAllows .bridgeLost m.bridgeLost && mapAllows .clockFault m.clockFault && mapAllows .caseOpen m.caseOpen

/-- Stage an action for an entry; a later action replaces an earlier one (R127). -/
def StagedMap.put (m : StagedMap) (e : MapEntry) (a : LockAction) : StagedMap :=
  match e with
  | .bridgeLost => { m with bridgeLost := some a }
  | .clockFault => { m with clockFault := some a }
  | .caseOpen => { m with caseOpen := some a }

/-- Lay later entries over earlier ones. -/
def StagedMap.overlay (m later : StagedMap) : StagedMap :=
  { bridgeLost := later.bridgeLost.or m.bridgeLost
    clockFault := later.clockFault.or m.clockFault
    caseOpen := later.caseOpen.or m.caseOpen }

/-- Lay a staged map over the applied map (R129). -/
def LockMap.overlay (m : LockMap) (v : StagedMap) : LockMap :=
  { bridgeLost := v.bridgeLost.getD m.bridgeLost
    clockFault := v.clockFault.getD m.clockFault
    caseOpen := v.caseOpen.getD m.caseOpen }

/-! ## Options -/

/-- An option set from its code: 0 is no (or high, for CASE_OPEN_LEVEL), any other code is yes (or low) (R133). -/
def Options.put (o : Options) (f : OptionField) (code : Byte) : Options :=
  match f with
  | .cellFitted => { o with cellFitted := code != 0 }
  | .caseFitted => { o with caseFitted := code != 0 }
  | .caseOpenLevel => { o with caseOpenHigh := code == 0 }
  | .factoryLocked => { o with factoryLocked := code != 0 }

/-- The values of a WRITE_OPTIONS laid over a copy, in the order given (R133). An option given twice takes its later
value: DESIGN CHOICE, log entry 39. -/
def Options.overlay (o : Options) (l : List (OptionField × Byte)) : Options :=
  l.foldl (fun q e => q.put e.1 e.2) o

/-- The options after the record loaded DAMAGED: free values (log entry 11). -/
def Options.whenDamaged : Options :=
  { cellFitted := Config.optionWhenDamaged 0, caseFitted := Config.optionWhenDamaged 1,
    caseOpenHigh := Config.optionWhenDamaged 2, factoryLocked := Config.optionWhenDamaged 3 }

/-! ## Command codes (11.8) -/

/-- The links a command code is defined on, P-link first; `none` is a code absent from the table (11.8). -/
def codeLinks (code : Byte) : Option (Bool × Bool) :=
  match code.toNat with
  | 0x00 => some (true, true)
  | 0x01 => some (true, true)
  | 0x02 => some (true, true)
  | 0x08 => some (true, true)
  | 0x09 => some (true, true)
  | 0x0A => some (true, true)
  | 0x0B => some (true, true)
  | 0x0C => some (true, true)
  | 0x0D => some (true, true)
  | 0x0E => some (true, true)
  | 0x0F => some (true, true)
  | 0x20 => some (true, false)
  | 0x21 => some (true, false)
  | 0x40 => some (false, true)
  | 0x41 => some (false, true)
  | 0x42 => some (false, true)
  | 0x43 => some (false, true)
  | 0x44 => some (false, true)
  | 0x45 => some (false, true)
  | 0x46 => some (false, true)
  | 0x47 => some (false, true)
  | 0x48 => some (false, true)
  | 0x49 => some (false, true)
  | 0x4A => some (false, true)
  | _ => none

/-- The code is defined on the link (R165 check 2). -/
def codeOnLink (code : Byte) (l : Link) : Bool :=
  match codeLinks code, l with
  | some (p, _), .p => p
  | some (_, b), .b => b
  | none, _ => false

/-! ## Authority (R15, R100, R125) -/

/-- The access state a link administers in: CONFIG for the P-link, UNLOCKED for the B-link (check 3). -/
def adminState : Link → Access
  | .p => .config
  | .b => .unlocked

/-- Checks 1 to 4 shared by slot administration (R15), WIPE (R100) and the settings commands (R125): the first
check that fails gives the reason. -/
def State.adminRefusal (l : Link) (s : State) : Option Reason :=
  if l = .b ∧ s.liu.bridge ≠ .attached then some .notAttached
  else if s.acc.access = .wiping then some .wiping
  else if s.acc.access ≠ adminState l then some .notNow
  else if s.acc.openSlot ≠ some 0 then some .noAuthority
  else none

end Machine
end Sys2Proof
end

