-- ==== Sys2Proof/Machine/Credentials.lean ====
section
/-! DEFINITION. The Credential Table (chapter 1): well-formed records, the load and its cross-checks, matching,
the duplicate rule, eligibility, slot writes and their ends. -/

namespace Sys2Proof.Machine

/-- The slots in index order. -/
def allSlots : List SlotIx := [0, 1, 2, 3, 4, 5, 6, 7, 8, 9]

/-- The volumes in index order. -/
def allVolumes : List VolIx := [0, 1, 2, 3]

/-- Slots 1 to 8 are user slots (1.1). -/
def isUserSlot (i : SlotIx) : Bool := i != 0 && i != 9

/-- The role an index fixes (1.1). -/
def slotRole (i : SlotIx) : Role := if i = 0 then .admin else if i = 9 then .recovery else .user

/-- The value of V over a digit string (R2, log entry 9). -/
def verifierOf (digits : List Digit) : Verifier := { preimage := digits }

/-- A slot of the working copy. -/
def State.cell (i : SlotIx) (s : State) : SlotCell := s.ctb.slots.get i

/-- The record of a slot in the working copy. -/
def State.slotRec (i : SlotIx) (s : State) : SlotRecord := (s.cell i).record

/-- Set a slot of the working copy. -/
def State.setCell (i : SlotIx) (c : SlotCell) (s : State) : State :=
  s.onCtb fun t => { t with slots := t.slots.set i c }

/-! ## Well-formed records and the load (R1, R3, R5, R6) -/

/-- The slot record of an index is well formed: states of its role (R3), fields present and in range (R1). -/
def slotWellFormed (i : SlotIx) (r : SlotRecord) : Bool :=
  match r.state with
  | .empty => r == SlotRecord.empty
  | .spent => i == 9 && r == { SlotRecord.empty with state := .spent }
  | .barred => isUserSlot i && slotFieldsOk i r
  | .active => slotFieldsOk i r
where
  /-- The fields of an ACTIVE or BARRED record (R1). -/
  slotFieldsOk (i : SlotIx) (r : SlotRecord) : Bool :=
    (match r.length with
     | some n => decide (Config.minDigits ≤ n ∧ n ≤ Config.maxDigits)
     | none => false) &&
    r.verifier.isSome &&
    (match r.uses with
     | some n => decide (n ≤ Config.max16)
     | none => false) &&
    (if isUserSlot i then
       r.mode.isSome && (match r.mask with
                         | some m => m != 0
                         | none => false)
     else r.mode.isNone && r.mask.isNone)

/-- A record with its write fault mark clear (R4). -/
def SlotCell.of (r : SlotRecord) : SlotCell := { record := r, fault := false, shadow := none }

/-- A slot as it enters the working copy, and whether its record is DAMAGED or taken as DAMAGED (R5). -/
def loadSlot (i : SlotIx) (l : Location SlotRecord) : SlotCell × Bool :=
  match l.read with
  | .valid r => if slotWellFormed i r then (SlotCell.of r, false) else (SlotCell.of .empty, true)
  | .alien => (SlotCell.of .empty, true)
  | .blank => (SlotCell.of .empty, false)
  | .damaged => (SlotCell.of .empty, true)

/-- The slot is ACTIVE or BARRED, and so holds a verifier that counts for the duplicate rule (R7). -/
def SlotRecord.holds (r : SlotRecord) : Bool := r.state == .active || r.state == .barred

/-- Cross-check 1 of R6: a slot whose verifier a lower-indexed slot also holds is taken as DAMAGED. -/
def dropDuplicates (v : Vector SlotCell 10) : Vector SlotCell 10 :=
  Vector.ofFn fun i =>
    let r := (v.get i).record
    if r.holds && (allSlots.any fun j =>
        decide (j < i) && (v.get j).record.holds && (v.get j).record.verifier == r.verifier)
    then SlotCell.of .empty else v.get i

/-- The working copy at start-up, and whether slot-0 damage is reported (R5, R6). -/
def loadSlots (st : Store) : Ctb × Bool :=
  let raw := Vector.ofFn fun i => (loadSlot i (st.slots.get i)).1
  let v := dropDuplicates raw
  let damaged := (loadSlot 0 (st.slots.get 0)).2
  let orphaned := (v.get 0).record.state == .empty &&
    (allSlots.any fun i => i != 0 && (v.get i).record.state != .empty)
  ({ slots := v }, damaged || orphaned)

/-! ## Match, duplicates, eligibility (R7, R10, R13) -/

/-- The slots an intent selects (R10). -/
def intentSelects (t : Intent) (i : SlotIx) : Bool :=
  match t with
  | .unlock => i != 9
  | .admin => i == 0
  | .recover => i == 9
  | .enrolFirst => false
  | .enrolConfirm => false

/-- The CTB's answer to a match: the slot, or NO_MATCH (R10). -/
def State.matchEntry (t : Intent) (v : Verifier) (s : State) : Option SlotIx :=
  allSlots.find? fun i =>
    intentSelects t i && (s.slotRec i).state == .active && !(s.cell i).fault && (s.slotRec i).verifier == some v

/-- The candidate verifier is found in another slot (R7). -/
def State.isDuplicate (target : SlotIx) (v : Verifier) (s : State) : Bool :=
  allSlots.any fun i =>
    i != target && (((s.slotRec i).holds && (s.slotRec i).verifier == some v) ||
      ((s.cell i).fault && (s.cell i).shadow == some v))

/-- The target of an enrolment or PIN change is in an eligible state (R13). -/
def State.eligible (k : DialogueKind) (i : SlotIx) (s : State) : Bool :=
  let c := s.cell i
  match k with
  | .change => c.record.state == .active && !c.fault
  | _ =>
    if i = 0 then c.record.state == .empty || c.record.state == .active
    else if i = 9 then c.record.state == .empty || c.record.state == .spent
    else c.record.state == .empty

/-- The mask of a user enrolment without the volumes that are UNUSED (R13). -/
def State.checkedMask (m : VolMask) (s : State) : VolMask :=
  allVolumes.foldl (fun acc v =>
    if (s.kru.volumes.get v).state == .unused then acc &&& ~~~(1#4 <<< v.val) else acc) m

/-! ## Slot writes and their ends (R8, R9, R11, R12, R14, R16, R17, R19) -/

/-- Queue the write of a slot record (R8). -/
def State.writeSlot (i : SlotIx) (r : SlotRecord) (p : Purpose) (s : State) : State :=
  s.requestWrite (.slot i r) p

/-- A completed slot write: the working copy takes the record, the mark and shadow clear (R8, R9). -/
def State.slotDone (i : SlotIx) (r : SlotRecord) (s : State) : State := s.setCell i (SlotCell.of r)

/-- A failed slot write: the write fault mark, the failed record's verifier as shadow, contents as they were
(R9). -/
def State.slotFailed (i : SlotIx) (r : SlotRecord) (s : State) : State :=
  s.setCell i { s.cell i with fault := true, shadow := r.verifier }

/-- A failed wipe destroy: EMPTY, with the destroyed verifier as shadow (R19). -/
def State.destroyFailed (i : SlotIx) (old : Option Verifier) (s : State) : State :=
  s.setCell i { record := .empty, fault := true, shadow := old }

/-- The record of a uses increment (R11). -/
def SlotRecord.bump (r : SlotRecord) : SlotRecord := { r with uses := r.uses.map (· + 1) }

/-- The uses count has saturated (R11). -/
def SlotRecord.saturated (r : SlotRecord) : Bool := r.uses == some Config.max16

/-- The SPENT record (R12). -/
def SlotRecord.spentRecord : SlotRecord := { SlotRecord.empty with state := .spent }

/-- The record an enrolment write builds (R14): mode and mask as R13 gives for the target. -/
def State.enrolRecord (d : Dialogue) (c : Candidate) (s : State) : SlotRecord :=
  { state := .active, length := some c.length, verifier := some c.verifier,
    mode := if isUserSlot d.target then
              (if d.kind = .change then (s.slotRec d.target).mode else d.mode) else none
    mask := if isUserSlot d.target then
              (if d.kind = .change then (s.slotRec d.target).mask else d.mask) else none
    uses := some 0 }

/-- A slot listing entry (R18). -/
def State.listing (s : State) (i : SlotIx) : SlotListing :=
  let c := s.cell i
  { index := i, role := slotRole i, state := c.record.state, length := c.record.length, mode := c.record.mode,
    mask := c.record.mask, uses := c.record.uses, fault := c.fault }

end Sys2Proof.Machine
end

