-- ==== Sys2Proof/Machine/Volumes.lean ====
section
/-! DEFINITION. The Key Release Unit (chapter 5): the load of the Volume Table, volume writes, key release,
definitions and their application, and the requests of the Wipe Engine. -/

namespace Sys2Proof.Machine

/-- A volume of the working copy. -/
def State.volume (i : VolIx) (s : State) : VolumeRecord := s.kru.volumes.get i

/-- Set a volume of the working copy. -/
def State.setVolume (i : VolIx) (v : VolumeRecord) (s : State) : State :=
  s.onKru fun k => { k with volumes := k.volumes.set i v }

/-- The next key generation (R82). -/
def nextKgen (n : Nat) : Nat := if n = Config.max16 then 1 else n + 1

/-- Two runs of blocks have a block in common (R81). -/
def rangesOverlap (f1 c1 f2 c2 : Nat) : Bool := decide (f1 < f2 + c2 ∧ f2 < f1 + c1)

/-- Whole granules, at least one, ending within the last block number (R81). -/
def rangeOk (first count : Nat) : Bool :=
  decide (first % Config.granule = 0 ∧ count % Config.granule = 0 ∧ Config.granule ≤ count ∧
    first + count ≤ Config.maxBlock)

/-! ## The load (R81, R83) -/

/-- A volume record is well formed (R81). -/
def VolumeRecord.wellFormed (v : VolumeRecord) : Bool :=
  decide (1 ≤ v.kgen ∧ v.kgen ≤ Config.max16) &&
  (match v.state with
   | .unused => v == VolumeRecord.unused v.kgen
   | .present => v.keyState == .live && v.key.isSome && defined v
   | .erasing => v.keyState == .destroyed && v.key.isNone && defined v)
where
  /-- Range and flags are present, the range is a run of granules. -/
  defined (v : VolumeRecord) : Bool :=
    (match v.first, v.count with
     | some f, some c => rangeOk f c
     | _, _ => false) && v.readOnly.isSome && v.incomplete.isSome

/-- A volume as it enters the working copy (R83). -/
def loadVolume (journalActive : Bool) (l : Location VolumeRecord) : VolumeRecord :=
  match l.read with
  | .valid v =>
    if !v.wellFormed then .unused 1
    else if v.state = .erasing ∧ !journalActive then .unused 1
    else v
  | .alien => .unused 1
  | .blank => .unused 1
  | .damaged => .unused 1

/-- Two volume records that are PRESENT or ERASING cover a block in common (R83). -/
def VolumeRecord.overlaps (v w : VolumeRecord) : Bool :=
  match v.first, v.count, w.first, w.count with
  | some f1, some c1, some f2, some c2 => rangesOverlap f1 c1 f2 c2
  | _, _, _, _ => false

/-- Take a volume that overlaps a standing lower-indexed one as DAMAGED (R83, log entry 23). -/
def dropOverlap (t : Vector VolumeRecord 4) (i : VolIx) : Vector VolumeRecord 4 :=
  if allVolumes.any fun j => decide (j < i) && (t.get j).overlaps (t.get i) then t.set i (.unused 1) else t

/-- The Volume Table at start-up (R83). -/
def loadVolumes (journalActive : Bool) (st : Store) : Vector VolumeRecord 4 :=
  allVolumes.foldl dropOverlap (Vector.ofFn fun i => loadVolume journalActive (st.volumes.get i))

/-! ## Volume writes (R82, R84) -/

/-- Change a volume: the working copy takes the record at once, and its write is queued (R84). -/
def State.writeVolume (i : VolIx) (v : VolumeRecord) (p : Purpose) (s : State) : State :=
  (s.setVolume i v).requestWrite (.volume i v) p

/-- Draw a fresh key (R82, log entry 10). -/
def State.drawKey (s : State) : Key × State :=
  (Config.freshKey s.kru.keyDraws, s.onKru fun k => { k with keyDraws := k.keyDraws + 1 })

/-- A failed volume write: the volume is taken as DAMAGED, keeping its KGEN, unless a later write of it has been
requested (R84). -/
def State.volumeFailed (i : VolIx) (s : State) : State :=
  match waitingPurpose (.volume i) s.rsc.queue with
  | some _ => s
  | none => s.setVolume i (.unused (s.volume i).kgen)

/-! ## Key release (R90, R91) -/

/-- The open slot's volume set holds the volume (R1, R90 check 5). -/
def State.inOpenSet (v : VolIx) (s : State) : Bool :=
  match s.acc.openSlot with
  | none => false
  | some i =>
    if i = 0 then true
    else match (s.slotRec i).mask with
         | some m => m.getLsbD v.val
         | none => false

/-- The volume ends within the attached capacity (R90 check 6). -/
def State.reachable (v : VolIx) (s : State) : Bool :=
  match (s.volume v).first, (s.volume v).count, s.liu.capacity with
  | some f, some c, some cap => decide (f + c ≤ cap)
  | _, _, _ => false

/-- The volume is PRESENT with a LIVE key (R90 check 4). -/
def State.keyLive (v : VolIx) (s : State) : Bool :=
  (s.volume v).state == .present && (s.volume v).keyState == .live && (s.volume v).key.isSome

/-- Checks 4 to 6 of R90 for an index within range. -/
def State.volumeRefusal (v : VolIx) (s : State) : Option Reason :=
  if !s.keyLive v then some .noVolume
  else if !s.inOpenSet v then some .noAuthority
  else if !s.reachable v then some .unreachable
  else none

/-- Checks 1 to 3 of R90. -/
def State.releaseRefusal (s : State) : Option Reason :=
  if s.liu.bridge ≠ .attached then some .notAttached
  else if s.acc.access = .wiping then some .wiping
  else if s.acc.access ≠ .unlocked then some .notNow
  else none

/-- The volumes a FETCH_KEY would release now (R87 step 7). -/
def State.releaseMask (s : State) : VolMask :=
  allVolumes.foldl (fun m v =>
    if s.releaseRefusal.isNone && (s.volumeRefusal v).isNone then m ||| (1#4 <<< v.val) else m) 0

/-- The open slot says READ_ONLY (R91). -/
def State.slotReadOnly (s : State) : Bool :=
  match s.acc.openSlot with
  | some i => i != 0 && (s.slotRec i).mode == some .readOnly
  | none => false

/-- The access mode of a released key (R91). -/
def State.releaseMode (v : VolIx) (s : State) : AccessMode :=
  if s.slotReadOnly || s.plu.policy.driveReadOnly || (s.volume v).readOnly == some true then .readOnly
  else .readWrite

/-- The key release payload (R91). -/
def State.keyRelease (v : VolIx) (s : State) : KeyRelease :=
  { volume := v, kgen := (s.volume v).kgen, mode := s.releaseMode v, first := (s.volume v).first.getD 0,
    count := (s.volume v).count.getD 0, key := (s.volume v).key.getD 0 }

/-! ## Definitions (R93, R95) -/

/-- The first block rounded up to a whole granule (R93). -/
def roundUp (n : Nat) : Nat := (n + Config.granule - 1) / Config.granule * Config.granule

/-- The count rounded down to whole granules (R93). -/
def roundDown (n : Nat) : Nat := n / Config.granule * Config.granule

/-- Apply a staged definition; `true` says that a write was queued (R95). -/
def State.applyDef (i : VolIx) (d : VolumeDef) (s : State) : State × Bool :=
  let v := s.volume i
  match d with
  | .range first count ro =>
    if v.state = .present ∧ v.first = some first ∧ v.count = some count then
      if v.readOnly = some ro then (s, false)
      else (s.writeVolume i { v with readOnly := some ro } (.volumeApply i), true)
    else
      let key := s.drawKey
      (key.2.writeVolume i
        { state := .present, first := some first, count := some count, key := some key.1, keyState := .live,
          kgen := nextKgen v.kgen, readOnly := some ro, incomplete := some false } (.volumeApply i), true)
  | .unused =>
    if v.state = .unused then (s, false)
    else (s.writeVolume i (.unused v.kgen) (.volumeApply i), true)

/-! ## Requests of the Wipe Engine (R97, R98) -/

/-- The record a destroy leaves (R97). -/
def VolumeRecord.destroyed (v : VolumeRecord) : VolumeRecord :=
  match v.state with
  | .unused => { v with key := none, keyState := .destroyed }
  | .present => { v with key := none, keyState := .destroyed, state := .erasing }
  | .erasing => { v with key := none, keyState := .destroyed, state := .erasing }

/-- Destroy a volume key (R97). -/
def State.destroyVolume (i : VolIx) (s : State) : State :=
  s.writeVolume i (s.volume i).destroyed (.volumeDestroy i)

/-- Rekey a volume (R98). -/
def State.rekeyVolume (i : VolIx) (first count target : Nat) (incomplete : Bool) (s : State) : State :=
  let key := s.drawKey
  key.2.writeVolume i
    { state := .present, first := some first, count := some count, key := some key.1, keyState := .live,
      kgen := target,
      readOnly := some (if (s.volume i).state = .unused then false else (s.volume i).readOnly.getD false)
      incomplete := some incomplete } (.volumeRekey i)

/-- A volume entry of READ_VOLUMES (R96). -/
def State.volumeListing (s : State) (i : VolIx) : VolumeListing :=
  let v := s.volume i
  { index := i, state := v.state, keyState := v.keyState, first := v.first, count := v.count, kgen := v.kgen,
    readOnly := v.readOnly, incomplete := v.incomplete, staged := s.plu.committed.volumes.get i }

end Sys2Proof.Machine
end

