-- ==== Sys2Proof/Machine/KeyEntry.lean ====
section
/-! DEFINITION. The Key Entry Unit (chapter 2): the entry buffer, dialogues, the entry timer, the entry gate, and
how an ENTER in flight is answered. -/

namespace Sys2Proof.Machine

/-- The default intent of the dialogue as it stands (R20). -/
def Keu.defaultIntent (k : Keu) : Intent :=
  match k.dialogue with
  | none => .unlock
  | some d =>
    match d.step with
    | .first => .enrolFirst
    | .confirm => .enrolConfirm

/-- The buffer emptied (R20). -/
def Keu.emptied (k : Keu) : Keu :=
  { k with digits := [], overlong := false, intent := k.defaultIntent, bstate := .empty }

/-- Empty the buffer (R20). -/
def State.emptyBuffer (s : State) : State := s.onKeu Keu.emptied

/-- A buffer not EVALUATING is EMPTY or COLLECTING by what it holds (R20). -/
def Keu.settleState (k : Keu) : Keu :=
  { k with bstate := if k.digits.isEmpty && !k.overlong && k.intent == k.defaultIntent then .empty
                     else .collecting }

/-- A candidate is held (R22). -/
def Keu.hasCandidate (k : Keu) : Bool :=
  match k.dialogue with
  | some d => d.candidate.isSome
  | none => false

/-- An ENROL or CHANGE dialogue is running (R30). -/
def Keu.inBegunDialogue (k : Keu) : Bool :=
  match k.dialogue with
  | some d => d.kind != .automatic
  | none => false

/-- An entry is in hand (R30). -/
def Keu.entryInHand (k : Keu) : Bool := k.bstate == .collecting || k.hasCandidate || k.inBegunDialogue

/-- The entry timer starts afresh if an entry is in hand, and stops otherwise (R30). -/
def State.touchEntryTimer (s : State) : State :=
  s.onKeu fun k =>
    { k with entryTimer := if k.entryInHand then Timer.start (s.plu.policy.entryGap * Config.ticksPerSecond)
                           else none }

/-- Begin a dialogue at step FIRST with the buffer emptied (R22). -/
def State.beginDialogue (kind : DialogueKind) (target : SlotIx) (mode : Option AccessMode)
    (mask : Option VolMask) (s : State) : State :=
  s.onKeu fun k =>
    Keu.emptied { k with dialogue := some { kind := kind, target := target, mode := mode, mask := mask,
                                            step := .first, candidate := none } }

/-- The automatic dialogue for slot 0 begins in BLANK while no dialogue runs (R35). -/
def State.autoDialogue (s : State) : State :=
  if s.corePowered && s.acc.access == .blank && s.keu.dialogue.isNone then
    s.beginDialogue .automatic 0 none none
  else s

/-- End the dialogue, if one runs: candidate and record removed, buffer emptied, timer stopped; in BLANK a new
automatic dialogue begins (R22, R30, R35). -/
def State.endDialogue (s : State) : State :=
  State.autoDialogue (s.onKeu fun k => { Keu.emptied { k with dialogue := none } with entryTimer := none })

/-- The access state or the gate changed: a buffer that is not EVALUATING is emptied and its dialogue ends; a
flight continues, and the change is remembered for its answer (R39). -/
def State.interruptEntry (s : State) : State :=
  if s.keu.bstate = .evaluating then s.onKeu fun k => { k with disturbed := true } else s.endDialogue

/-- Tell the KEU of an opening or closing of the entry gate, given how the gate stood (R39, R67). -/
def State.tellGate (wasOpen : Bool) (s : State) : State :=
  if !s.corePowered then s
  else if wasOpen && !s.gateOpen then s.interruptEntry
  else if !wasOpen && s.gateOpen && s.keu.bstate == .evaluating then
    s.onKeu fun k => { k with disturbed := true }
  else s

/-- The entry summary (R23). -/
def State.summary (s : State) : Summary :=
  { digitsHeld := s.keu.digits.length, overlong := s.keu.overlong, intent := s.keu.intent,
    dialogue := s.keu.dialogue.map fun d => (d.kind, d.target) }

/-- Answer a KEY or ENROL_BEGIN command OK with an outcome and the summary (R23). -/
def State.answerKey (o : KeyOutcome) (s : State) : State := s.replyOk .p (.key o none s.summary)

/-- Refuse a key with PENALTY and the remaining seconds (R24 check 2, R53). -/
def State.refusePenalty (s : State) : State := s.answer .p fun code => .refused code .penalty s.penaltySeconds

/-- Checks 1 to 4 of R24: the refusal of an entry key before the access state and dialogue are looked at. -/
def State.entryRefusal (s : State) : Option Reason :=
  if s.acc.access = .wiping then some .wiping
  else if s.acc.access = .penalty then some .penalty
  else if s.cellCritAwake then some .lowCell
  else if s.clockBars || s.caseBars then some .condition
  else none

/-- Answer a refused entry key; PENALTY carries its seconds (R24). -/
def State.refuseEntry (r : Reason) (s : State) : State :=
  if r = .penalty then s.refusePenalty else s.refuse .p r

/-- DIGIT and ENTER pass check 5 of R24 (R25). Where an expiry has ended the dialogue in UNLOCKED or CONFIG they are
refused NOT_NOW by R25, although R31 speaks of an emptied buffer: DESIGN CHOICE, log entry 35. -/
def State.entryAllowed (s : State) : Bool :=
  match s.acc.access with
  | .locked => true
  | .blank => s.keu.dialogue.isSome
  | .unlocked => s.keu.dialogue.isSome
  | .config => s.keu.dialogue.isSome
  | .penalty => false
  | .locking => false
  | .wiping => false
  | .halted => false

/-! ## Answers of an ENTER in flight -/

/-- The flight is over. -/
def Keu.landed (k : Keu) : Keu := { k with flight := none, disturbed := false }

/-- What the ATL answers the KEU (R33 step 3). -/
inductive AttemptAnswer where
  | granted
  | rejected (attemptsLeft seconds : Nat)
  | refusal (r : Reason)
  deriving DecidableEq, Repr

/-- Answer an attempt: the buffer is emptied, the timer follows R30, the ATL's answer is the result (R33). -/
def State.answerAttempt (a : AttemptAnswer) (s : State) : State :=
  let t := (s.onKeu fun k => k.landed.emptied).touchEntryTimer
  match a with
  | .granted => t.answerKey .granted
  | .rejected n secs => t.replyOk .p (.key .rejected (some (n, secs)) t.summary)
  | .refusal r => t.refuse .p r

/-- End the enrolment step in flight together with its dialogue (R38, R39). -/
def State.landEnrolment (s : State) : State := State.endDialogue (s.onKeu Keu.landed)

/-- Answer an enrolment step with an outcome; the dialogue ends (R38). -/
def State.answerEnrolment (o : KeyOutcome) (s : State) : State := s.landEnrolment.answerKey o

/-- Answer an enrolment step with a refusal; the dialogue ends (R38). -/
def State.refuseEnrolment (r : Reason) (s : State) : State := s.landEnrolment.refuse .p r

/-- The first entry is taken: the candidate is recorded, the step becomes CONFIRM (R37). -/
def State.takeFirst (s : State) : State :=
  let t := s.onKeu fun k =>
    Keu.emptied { k.landed with
      dialogue := k.dialogue.map fun d =>
        { d with step := .confirm
                 candidate := some { length := k.digits.length, verifier := verifierOf k.digits } } }
  t.touchEntryTimer.answerKey .firstTaken

/-- Hand an ENTER on: the buffer becomes EVALUATING, the timer stops, the command is LONG (R30, R23). -/
def State.handOn (f : Flight) (s : State) : State :=
  (s.onKeu fun k => { k with bstate := .evaluating, entryTimer := none, flight := some f,
                             disturbed := false }).runLong .p

end Sys2Proof.Machine
end

