-- ==== Sys2Proof/Machine/Policy.lean ====
section
/-! DEFINITION. The Policy Unit (chapter 7): loads, staging, the Pending Set's writes, application, settling,
discard, and the Option Record. -/

namespace Sys2Proof.Machine

/-! ## Pending Sets (R123) -/

/-- Lay a later set over an earlier one; a later part replaces the earlier (R123). -/
def PendingSet.overlay (a later : PendingSet) : PendingSet :=
  { policy := Vector.zipWith (fun x y => y.or x) a.policy later.policy
    map := a.map.overlay later.map
    volumes := Vector.zipWith (fun x y => y.or x) a.volumes later.volumes }

/-- A part that equals the one being removed is gone; another part stays (R130). -/
def dropEqual {α : Type} [DecidableEq α] (x gone : Option α) : Option α := if x = gone then none else x

/-- A set less the parts being removed (R124, R130). -/
def PendingSet.less (a gone : PendingSet) : PendingSet :=
  { policy := Vector.zipWith dropEqual a.policy gone.policy
    map := { bridgeLost := dropEqual a.map.bridgeLost gone.map.bridgeLost
             clockFault := dropEqual a.map.clockFault gone.map.clockFault
             caseOpen := dropEqual a.map.caseOpen gone.map.caseOpen }
    volumes := Vector.zipWith dropEqual a.volumes gone.volumes }

/-- A stored set is well formed (R123). -/
def PendingSet.wellFormed (a : PendingSet) : Bool :=
  (PolicyField.all.all fun f => match a.policy.get f.number with
                                | some n => f.inRange n
                                | none => true) &&
  optAllows .bridgeLost a.map.bridgeLost && optAllows .clockFault a.map.clockFault &&
  optAllows .caseOpen a.map.caseOpen &&
  (allVolumes.all fun v => match a.volumes.get v with
                           | some (.range f c _) =>
                             decide (f % Config.granule = 0 ∧ c % Config.granule = 0 ∧ Config.granule ≤ c)
                           | some .unused => true
                           | none => true)
where
  /-- A staged action, if any, is allowed for its entry. -/
  optAllows (e : MapEntry) (a : Option LockAction) : Bool :=
    match a with
    | some x => mapAllows e x
    | none => true

/-- The committed set with the in-flight stagings laid over it (R123). -/
def State.prospective (s : State) : PendingSet :=
  s.plu.inflight.foldl (fun a g => a.overlay g.parts) s.plu.committed

/-! ## Loads (R122, R123, R132) -/

/-- The applied policy at start-up (R122). -/
def loadPolicy (l : Location Policy) : Policy :=
  match l.read with
  | .valid p => if p.wellFormed then p else .default
  | .alien => .default
  | .blank => .default
  | .damaged => .default

/-- The applied map at start-up (R122). -/
def loadMap (l : Location LockMap) : LockMap :=
  match l.read with
  | .valid m => if m.wellFormed then m else .default
  | .alien => .default
  | .blank => .default
  | .damaged => .default

/-- The committed set at start-up (R123). -/
def loadPendingSet (l : Location PendingSet) : PendingSet :=
  match l.read with
  | .valid a => if a.wellFormed then a else .empty
  | .alien => .empty
  | .blank => .empty
  | .damaged => .empty

/-- Both copies of the options at start-up, and whether the record loaded DAMAGED (R132). -/
def loadOptions (l : Location Options) : Options × Bool :=
  match l.read with
  | .valid o => (o, false)
  | .alien => (.whenDamaged, true)
  | .blank => (.default, false)
  | .damaged => (.whenDamaged, true)

/-! ## Staging (R124) -/

/-- Request a Pending Set write: the committed set less the parts being removed, with every in-flight staging
laid over it in the order taken (R124). -/
def State.requestPendingSet (s : State) : State :=
  s.requestWrite
    (.pset (s.plu.inflight.foldl (fun a g => a.overlay g.parts) (s.plu.committed.less s.plu.removing)))
    (.pset (s.plu.inflight.map Staging.id) false)

/-- Stage parts for the command RUNNING on a link: LONG until the write ends (R124). -/
def State.stage (l : Link) (parts : PendingSet) (kind : StagingKind) (s : State) : State :=
  let g : Staging := { id := s.plu.nextStaging, parts := parts, kind := kind, requester := some l }
  let t := s.onPlu fun p => { p with inflight := p.inflight ++ [g], nextStaging := p.nextStaging + 1 }
  t.requestPendingSet.runLong l

/-- The OK result of a staging (R94, R126, R127). -/
def Staging.result (g : Staging) : Fields :=
  match g.kind with
  | .policy => .policy g.parts.policy
  | .map => .map g.parts.map
  | .volume i =>
    match g.parts.volumes.get i with
    | some d => .volumeDef i d
    | none => .none

/-- The staged values of a SET_POLICY: each clamped, a later value for a field replacing an earlier (R126). -/
def stagedValues (l : List (PolicyField × BitVec 16)) : StagedPolicy :=
  l.foldl (fun v e => v.set e.1.number (some (e.1.clamp e.2.toNat))) (Vector.replicate 16 none)

/-- WIPE_THRESHOLD joins the staged values, raised, where the result would not exceed FREE_ATTEMPTS (R126). -/
def State.withRaisedThreshold (v : StagedPolicy) (s : State) : StagedPolicy :=
  let q := (s.plu.policy.overlay s.prospective.policy).overlay v
  if q.wipeThreshold ≤ q.freeAttempts then
    v.set PolicyField.wipeThreshold.number (some (q.freeAttempts + 1))
  else v

/-- The staged map of a SET_LOCK_MAP (R127). -/
def stagedEntries (l : List (MapEntry × LockAction)) : StagedMap :=
  l.foldl (fun m e => m.put e.1 e.2) .empty

/-- A Pending Set that stages one volume definition (R94). -/
def stagedVolume (i : VolIx) (d : VolumeDef) : PendingSet :=
  { PendingSet.empty with volumes := PendingSet.empty.volumes.set i (some d) }

/-! ## The applied map (R121) -/

/-- The applied map changes: the gate is settled afresh, and ACCESS_CHANGED is posted where the set of conditions
barring entries has changed (R121, R67). -/
def State.setMap (m : LockMap) (s : State) : State :=
  let t := s.onPlu fun p => { p with map := m }
  let u := if t.clockBars = s.clockBars ∧ t.caseBars = s.caseBars then t else t.postAccessChanged
  u.tellGate s.gateOpen

/-! ## Application and settling (R129, R130) -/

/-- The staged policy fields an application takes: the four of the Attempt Limiter only while F is 0 (R43,
R129). -/
def State.takenPolicy (s : State) : StagedPolicy :=
  if s.atl.limiter.fails = 0 then s.plu.committed.policy
  else PolicyField.all.foldl (fun v f => if f.held then v.set f.number none else v) s.plu.committed.policy

/-- No field is staged. -/
def StagedPolicy.isEmpty (v : StagedPolicy) : Bool := v.all Option.isNone

/-- Step 1 of R129: the policy part, and how it stands. -/
def State.applyPolicy (s : State) : State × PartStatus :=
  let v := s.takenPolicy
  if StagedPolicy.isEmpty v then (s, .absent)
  else
    let q := (s.plu.policy.overlay v).raiseThreshold
    if q = s.plu.policy then (s, .done)
    else ((s.onPlu fun p => { p with policy := q }).requestWrite (.policy q) .policyApply, .waiting)

/-- Step 2 of R129: the map part. -/
def State.applyMap (s : State) : State × PartStatus :=
  let v := s.plu.committed.map
  if v = .empty then (s, .absent)
  else
    let m := s.plu.map.overlay v
    if m = s.plu.map then (s, .done)
    else ((s.setMap m).requestWrite (.map m) .mapApply, .waiting)

/-- Step 3 of R129 for one volume index. -/
def State.applyVolume (i : VolIx) (s : State) : State × PartStatus :=
  match s.plu.committed.volumes.get i with
  | none => (s, .absent)
  | some d =>
    let r := s.applyDef i d
    (r.1, if r.2 then .waiting else .done)

/-- Step 3 of R129, in index order. -/
def State.applyVolumes (s : State) : State × Vector PartStatus 4 :=
  allVolumes.foldl (fun a i =>
    let r := a.1.applyVolume i
    (r.1, a.2.set i r.2)) (s, Vector.replicate 4 .absent)

/-- Some part still waits for its write. -/
def Application.waits (a : Application) : Bool :=
  a.policy == .waiting || a.map == .waiting || a.volumes.any (· == .waiting)

/-- The parts of an application that are done (R130). -/
def Application.doneParts (a : Application) : PendingSet :=
  { policy := if a.policy = .done then a.taken.policy else PendingSet.empty.policy
    map := if a.map = .done then a.taken.map else .empty
    volumes := Vector.zipWith (fun st d => if st = PartStatus.done then d else none) a.volumes a.taken.volumes }

/-- When every write of an application has been answered, its done parts are removed by a Pending Set write
(R130). -/
def State.settle (s : State) : State :=
  match s.plu.applying with
  | none => s
  | some a =>
    if a.waits then s
    else
      let t := s.onPlu fun p => { p with applying := none, removing := p.removing.overlay a.doneParts }
      if a.doneParts = .empty then t else t.requestPendingSet

/-- The application of the committed set at an entry into LOCKED (R129). -/
def State.applyPendingSet (s : State) : State :=
  let taken : PendingSet := { s.plu.committed with policy := s.takenPolicy }
  let r1 := s.applyPolicy
  let r2 := r1.1.applyMap
  let r3 := r2.1.applyVolumes
  State.settle (r3.1.onPlu fun p =>
    { p with applying := some { taken := taken, policy := r1.2, map := r2.2, volumes := r3.2 } })

/-- Record how a part of the application ended, and settle if it was the last (R130). -/
def State.partEnded (f : Application → Application) (s : State) : State :=
  State.settle (s.onPlu fun p => { p with applying := p.applying.map f })

/-- The Policy write completed (R130). -/
def State.policyDone (s : State) : State :=
  (s.onPlu fun p => { p with policyFault := false }).partEnded fun a => { a with policy := .done }

/-- The defaults in every field except the four held ones (R130). -/
def Policy.fallback (p : Policy) : Policy :=
  { Policy.default with freeAttempts := p.freeAttempts, penaltyBase := p.penaltyBase,
                        penaltyCap := p.penaltyCap, wipeThreshold := p.wipeThreshold }

/-- The Policy write failed (R130). -/
def State.policyFailed (s : State) : State :=
  (s.onPlu fun p => { p with policy := p.policy.fallback, policyFault := true }).partEnded
    fun a => { a with policy := .failed }

/-- The map write completed (R130). -/
def State.mapDone (s : State) : State :=
  (s.onPlu fun p => { p with mapFault := false }).partEnded fun a => { a with map := .done }

/-- The map write failed (R130). -/
def State.mapFailed (s : State) : State :=
  ((s.setMap .default).onPlu fun p => { p with mapFault := true }).partEnded fun a => { a with map := .failed }

/-- The write of an applied definition ended (R95, R130). -/
def State.volumePartEnded (i : VolIx) (st : PartStatus) (s : State) : State :=
  s.partEnded fun a => { a with volumes := a.volumes.set i st }

/-! ## Ends of Pending Set writes (R124) -/

/-- Answer the stagings a write carried (R124). -/
def State.answerStagings (mk : Staging → State → State) (carried : List Nat) (s : State) : State :=
  let gs := s.plu.inflight.filter fun g => carried.contains g.id
  gs.foldl (fun t g => mk g t)
    (s.onPlu fun p => { p with inflight := p.inflight.filter fun g => !carried.contains g.id })

/-- A Pending Set write waits in the queue. -/
def State.psetWaits (s : State) : Bool := (waitingPurpose .pset s.rsc.queue).isSome

/-- The waiting Pending Set write carries one of the stagings given (R124). -/
def State.psetWaitsWith (carried : List Nat) (s : State) : Bool :=
  match waitingPurpose .pset s.rsc.queue with
  | some (.pset ids _) => ids.any carried.contains
  | _ => false

/-- A Pending Set write completed (R124); one requested before a discard leaves the committed set empty (R131). -/
def State.psetDone (a : PendingSet) (carried : List Nat) (discarded : Bool) (s : State) : State :=
  let t := s.onPlu fun p =>
    { p with committed := if discarded then p.committed else a
             psetFault := false
             removing := if s.psetWaits then p.removing else .empty }
  t.answerStagings (fun g u => u.replyOkTo g.requester g.result) carried

/-- A Pending Set write failed (R124). -/
def State.psetFailed (carried : List Nat) (s : State) : State :=
  let t := s.onPlu fun p => { p with psetFault := true
                                     removing := if s.psetWaits then p.removing else .empty }
  let u := t.answerStagings (fun g w => w.refuseTo g.requester .storeFault) carried
  if s.psetWaitsWith carried then u.requestPendingSet else u

/-! ## Discard (R131) -/

/-- Mark a Pending Set write as requested before a discard. -/
def Purpose.markDiscarded : Purpose → Purpose
  | .pset ids _ => .pset ids true
  | p => p

/-- Mark every Pending Set write that is being carried out or waits. -/
def Rsc.markDiscarded (r : Rsc) : Rsc :=
  { current := r.current.map fun w =>
      { w with entry := { w.entry with purpose := w.entry.purpose.markDiscarded } }
    queue := r.queue.map fun e => { e with purpose := e.purpose.markDiscarded } }

/-- The discard of the Pending Set at the start of a wipe (R131). -/
def State.discardPendingSet (s : State) : State :=
  let gs := s.plu.inflight
  let t := (s.onPlu fun p =>
    { p with committed := .empty, inflight := [], applying := none, removing := .empty }).onRsc Rsc.markDiscarded
  let u := gs.foldl (fun w g => w.refuseTo g.requester .wiping) t
  if s.plu.committed ≠ .empty ∨ s.plu.psetFault ∨ gs ≠ [] then
    u.requestWrite (.pset .empty) (.pset [] false)
  else u

/-! ## The Option Record (R133) -/

/-- The copy new values are laid over (R133). -/
def Plu.optionBase (p : Plu) : Options := if p.storedDamaged then .default else p.stored

/-- The Option write completed (R133). -/
def State.optionsDone (o : Options) (req : Option Link) (s : State) : State :=
  (s.onPlu fun p => { p with stored := o, storedDamaged := false }).replyOkTo req (.options o)

/-- The Option write failed (R133). -/
def State.optionsFailed (req : Option Link) (s : State) : State :=
  (s.onPlu fun p => { p with storedDamaged := true }).refuseTo req .storeFault

/-- The listing of READ_POLICY (R128). -/
def State.policyListing (s : State) : PolicyListing :=
  { policy := s.plu.policy, map := s.plu.map, stagedPolicy := s.plu.committed.policy,
    stagedMap := s.plu.committed.map, policyFault := s.plu.policyFault, mapFault := s.plu.mapFault,
    psetFault := s.plu.psetFault }

end Sys2Proof.Machine
end

