-- ==== Sys2Proof/Machine/Access.lean ====
section
/-! DEFINITION. The Access Controller's changes of state (chapter 4): lock completion, entry into LOCKED, LOCKING,
the end of CONFIG, opens, and HALTED. -/

namespace Sys2Proof.Machine

/-- Change the access state and open slot: the KEU is told (R39) and ACCESS_CHANGED is posted (R60). -/
def State.changeAccess (a : Access) (o : Option SlotIx) (s : State) : State :=
  ((s.onAcc fun c => { c with access := a, openSlot := o }).interruptEntry).postAccessChanged

/-- Withdraw an uncollected LOCK_PENDING (R169). -/
def State.withdrawLockPending (s : State) : State :=
  s.onLiu fun u => { u with bq := { u.bq with lockPending := none } }

/-- Post KEYS_REVOKED to an attached bridge (R72). -/
def State.revokeKeys (s : State) : State :=
  if s.liu.bridge = .attached then s.postB .keysRevoked else s

/-- Steps 1 to 3 of a lock completion (R72): open slot, timers, lock cause, deferrals, LOCK_PENDING,
KEYS_REVOKED. -/
def State.closeOpen (s : State) : State :=
  ((s.onAcc fun c => { c with openSlot := none, idleTimer := none, attachTimer := none, deferTimer := none,
                              lockCause := none, deferrals := none }).withdrawLockPending).revokeKeys

/-- Enter LOCKED: the Pending Set is applied, the state changes, ACCESS_CHANGED is posted (R73). -/
def State.enterLocked (s : State) : State := s.applyPendingSet.changeAccess .locked none

/-- A lock completes without a WIPE action (R72). -/
def State.completeLock (s : State) : State := s.closeOpen.enterLocked

/-- The open slot is removed and the config timer stops (R75, R76). -/
def State.leaveConfig (s : State) : State := s.onAcc fun c => { c with openSlot := none, configTimer := none }

/-- CONFIG ends (R75). -/
def State.endConfig (s : State) : State := s.leaveConfig.enterLocked

/-- Post LOCK_PENDING with the lock cause in progress and deferrals left (R68, R69). -/
def State.offerLock (c : LockCause) (n : Nat) (s : State) : State := s.postB (.lockPending c n)

/-- The defer timer's period (R68). -/
def Policy.deferTicks (p : Policy) : Nat := p.deferWindow * Config.ticksPerSecond

/-- An ORDERLY cause with the bridge ATTACHED moves UNLOCKED to LOCKING (R68). -/
def State.enterLocking (c : LockCause) (s : State) : State :=
  let n := s.plu.policy.deferLimit
  let t := s.onAcc fun a => { a with idleTimer := none, lockCause := some c, deferrals := some n,
                                     deferTimer := Timer.start s.plu.policy.deferTicks }
  (t.offerLock c n).changeAccess .locking t.acc.openSlot

/-- The idle timer started with IDLE_LOCK, or left stopped at 0 (R63). -/
def Policy.idleTimer (p : Policy) : Timer :=
  if p.idleLock = 0 then none else Timer.start (p.idleLock * Config.ticksPerMinute)

/-- The attach timer started with ATTACH_WINDOW (R64). -/
def Policy.attachTimer (p : Policy) : Timer := Timer.start (p.attachWindow * Config.ticksPerSecond)

/-- Open UNLOCKED through a slot: the idle timer runs with an attached bridge, the attach timer otherwise (R61,
R63, R64). -/
def State.openUnlocked (i : SlotIx) (s : State) : State :=
  let t := if s.liu.bridge = .attached then
             s.onAcc fun c => { c with idleTimer := s.plu.policy.idleTimer }
           else
             s.onAcc fun c => { c with attachTimer := s.plu.policy.attachTimer }
  t.changeAccess .unlocked (some i)

/-- Open CONFIG through slot 0 or 9: the config timer starts (R61, R74). -/
def State.openConfig (i : SlotIx) (s : State) : State :=
  (s.onAcc fun c => { c with configTimer := Timer.start Config.configTicks }).changeAccess .config (some i)

/-- The penalty timer stops and its count is discarded (R52, R56). -/
def State.stopPenalty (s : State) : State := s.onAtl fun a => { a with penalty := none, phase := false }

/-- Enter HALTED on a reported store failure (R80). The WPE's items are present in WIPING alone (R103). -/
def State.enterHalted (s : State) : State :=
  if s.acc.access = .halted then s
  else
    let t := s.onAcc fun c =>
      { c with idleTimer := none, attachTimer := none, deferTimer := none, configTimer := none,
               lockCause := none, deferrals := none, heldWipe := false }
    let u := (t.stopPenalty.onWpe fun _ => Wpe.init).withdrawLockPending.revokeKeys
    u.changeAccess .halted none

end Sys2Proof.Machine
end

