-- ==== Sys2Proof/Machine/Wipe.lean ====
section
/-! DEFINITION. The Wipe Engine (chapter 6): the start of a wipe, its steps, destroys, erase orders, pause and
reports. -/

namespace Sys2Proof.Machine

/-! ## Reports (R118) -/

/-- The payload of WIPE_STATE, while a wipe is known. -/
def State.wipeReport (s : State) : Option WipeReport :=
  s.wpe.view.map fun w =>
    { cause := w.cause, depth := w.depth, step := w.step, run := s.wpe.run, progress := w.progress }

/-- Post WIPE_STATE to the P-link (R118). -/
def State.postWipeState (s : State) : State :=
  match s.wipeReport with
  | some r => s.postP (.wipeState r)
  | none => s

/-- Bring the run condition up to date; a change posts WIPE_STATE (R118). -/
def State.refreshRun (s : State) : State :=
  if s.acc.access = .wiping ∧ s.runCondition ≠ s.wpe.run then
    (s.onWpe fun w => { w with run := s.runCondition }).postWipeState
  else s

/-! ## Starting a wipe (R76, R99, R101) -/

/-- The depth a cause reads (R99). -/
def State.depthOf (c : WipeCause) (s : State) : WipeDepth :=
  if c = .storeDamage then .keysAndMedia else s.plu.policy.wipeDepth

/-- The keep-administrator value a cause reads (R99). -/
def State.keepOf (c : WipeCause) (s : State) : Bool :=
  if c = .storeDamage ∨ c = .threshold then false else s.plu.policy.wipeKeepAdmin

/-- The cursor of a volume that is not UNUSED (R101). -/
def State.cursorOf (s : State) (i : VolIx) : Option Cursor :=
  let v := s.volume i
  if v.state = .unused then none
  else
    match v.first, v.count with
    | some f, some c => some { volume := i, first := f, count := c, next := f, failed := 0,
                               target := nextKgen v.kgen }
    | _, _ => none

/-- The record that marks a wipe active (R101). -/
def State.wipeRecord (c : WipeCause) (s : State) : WipeRecord :=
  { cause := c, depth := s.depthOf c, keepAdmin := s.keepOf c, step := .keys,
    cursors := if s.depthOf c = .keysAndMedia then allVolumes.filterMap s.cursorOf else [] }

/-- The ACC's actions before a wipe starts, by the state the cause meets (R76). -/
def State.quitForWipe (s : State) : State :=
  match s.acc.access with
  | .unlocked => s.closeOpen
  | .locking => s.closeOpen
  | .config => s.leaveConfig
  | .blank => s
  | .locked => s
  | .penalty => s
  | .wiping => s
  | .halted => s

/-- The WPE takes the start request: it builds the record and requests the write that marks the wipe active
(R101). -/
def State.armWipe (c : WipeCause) (s : State) : State :=
  (s.onWpe fun w => { Wpe.init with journal := w.journal, starting := some (s.wipeRecord c),
                                    position := .starting }).requestWrite
    (.journal (some (s.wipeRecord c))) (.journal .start)

/-- A wipe cause: ignored in WIPING and HALTED, otherwise the wipe starts and the state is WIPING (R76). -/
def State.startWipe (c : WipeCause) (s : State) : State :=
  if s.acc.access = .wiping ∨ s.acc.access = .halted then s
  else
    let t := ((s.quitForWipe.stopPenalty.discardPendingSet).armWipe c).changeAccess .wiping none
    t.onWpe fun w => { w with run := t.runCondition }

/-! ## The steps (R106 to R111) -/

/-- A destroy of the KEYS step (R107). -/
inductive Destroy where
  | volume (i : VolIx)
  | slot (i : SlotIx)
  deriving DecidableEq, Repr

/-- The destroys of KEYS, in order: volumes 0 to 3, slots 9 to 1, and slot 0 unless the administrator is kept
(R107). -/
def destroyList (keepAdmin : Bool) : List Destroy :=
  allVolumes.map .volume ++ [.slot 9, .slot 8, .slot 7, .slot 6, .slot 5, .slot 4, .slot 3, .slot 2, .slot 1] ++
    (if keepAdmin then [] else [.slot 0])

/-- Answer the requester of a slot write that a destroy supersedes (R8). -/
def State.answerSuperseded (i : SlotIx) (s : State) : State :=
  match waitingPurpose (.slot i) s.rsc.queue with
  | some (.admin req) => s.refuseTo req .wiping
  | some (.enrol _) => s.refuseEnrolment .wiping
  | _ => s

/-- Destroy a slot: EMPTY in the working copy at once, and the write of an EMPTY record queued, which remembers the
verifier the slot held (R9, R19, log entry 22). -/
def State.destroySlot (i : SlotIx) (s : State) : State :=
  let c := s.cell i
  ((s.answerSuperseded i).setCell i { c with record := .empty }).writeSlot i .empty
    (.slotDestroy i c.record.verifier)

/-- Carry out a destroy of KEYS (R107). -/
def State.destroy (d : Destroy) (s : State) : State :=
  match d with
  | .volume i => s.destroyVolume i
  | .slot i => s.destroySlot i

/-- Request the boundary write that records a step (R106). -/
def State.boundaryWrite (w : WipeRecord) (step : WipeStep) (s : State) : State :=
  s.requestWrite (.journal (some { w with step := step })) (.journal .boundary)

/-- The step after LIMITER (R106). -/
def WipeRecord.afterLimiter (w : WipeRecord) : WipeStep :=
  if w.depth = .keysAndMedia then .media else .rekey

/-- The record with one cursor replaced; it records REKEY when no cursor is left unfinished (R106, R114). -/
def WipeRecord.advance (w : WipeRecord) (c : Cursor) : WipeRecord :=
  let cs := w.cursors.map fun d => if d.volume = c.volume then c else d
  let r := { w with cursors := cs }
  if r.unfinished then r else { r with step := .rekey }

/-- Request the write of an advanced cursor (R104). -/
def State.cursorWrite (w : WipeRecord) (c : Cursor) (s : State) : State :=
  s.requestWrite (.journal (some (w.advance c))) (.journal .cursor)

/-- The first unfinished cursor (R111). -/
def WipeRecord.current (w : WipeRecord) : Option Cursor := w.cursors.find? fun c => !c.finished

/-- Post ERASE_WORK with the wipe's progress (R112). -/
def State.postEraseWork (w : WipeRecord) (s : State) : State := s.postB (.eraseWork w.progress)

/-- The count of the order formed for a cursor within a capacity (R111). -/
def Cursor.orderCount (c : Cursor) (cap : Nat) : Nat :=
  min Config.orderBlocks (min (c.first + c.count - c.next) (cap - c.next))

/-- The cursor with every block from its next block counted as failed (R111). -/
def Cursor.giveUp (c : Cursor) : Cursor :=
  { c with failed := c.failed + (c.first + c.count - c.next), next := c.first + c.count }

/-- Form an order in MEDIA, count what lies beyond the capacity, or go on to REKEY when no cursor is unfinished
(R106, R111). -/
def State.formOrder (w : WipeRecord) (s : State) : State :=
  match w.current with
  | none => s.boundaryWrite w .rekey
  | some c =>
    match s.liu.bridge, s.wpe.order, s.liu.capacity with
    | .attached, none, some cap =>
      if c.next < cap then
        (s.onWpe fun e => { e with order := some { number := none, first := c.next,
                                                   count := c.orderCount cap } }).postEraseWork w
      else s.cursorWrite w c.giveUp
    | _, _, _ => s

/-- The cursor of a volume, if it has one. -/
def WipeRecord.cursorFor (w : WipeRecord) (i : VolIx) : Option Cursor := w.cursors.find? fun c => c.volume == i

/-- A volume takes part in REKEY: it has a cursor, or it is ERASING (R109). -/
def State.needsRekey (w : WipeRecord) (s : State) (i : VolIx) : Bool :=
  (w.cursorFor i).isSome || (s.volume i).state == .erasing

/-- Ask for the rekey of a volume (R109). -/
def State.rekeyOne (w : WipeRecord) (i : VolIx) (s : State) : State :=
  match w.cursorFor i with
  | some c => s.rekeyVolume i c.first c.count c.target (decide (0 < c.failed))
  | none =>
    s.rekeyVolume i ((s.volume i).first.getD 0) ((s.volume i).count.getD 0) (nextKgen (s.volume i).kgen) false

/-- Ask for the next rekey in index order, or for the write that closes the wipe (R109, R110). -/
def State.rekeyNext (w : WipeRecord) (k : Nat) (s : State) : State :=
  match allVolumes.find? fun i => decide (k ≤ i.val) && s.needsRekey w i with
  | some i => (s.onWpe fun e => { e with position := .rekey i.val }).rekeyOne w i
  | none => s.requestWrite (.journal none) (.journal .close)

/-- What follows the last destroy of a pass (R107). -/
def State.passEnded (w : WipeRecord) (pass : Nat) (faulted : Bool) (s : State) : State :=
  if !faulted then s.boundaryWrite w .limiter
  else if pass < 3 then
    State.destroy (.volume 0) (s.onWpe fun e => { e with position := .keys 0 (pass + 1) false })
  else (s.onWpe fun e => { e with position := .stalled }).refreshRun

/-- The WPE's next action from its position; nothing while paused or stalled, while a write of the wipe is waiting
or running (R104, R117), or while the core domain is unpowered. -/
def State.proceed (s : State) : State :=
  if s.acc.access ≠ .wiping ∨ !s.corePowered ∨ s.wipeBusy ∨ s.wpe.run = .paused ∨ s.wpe.run = .stalled then s
  else
    match s.wpe.journal with
    | none => s
    | some w =>
      match s.wpe.position with
      | .idle => s
      | .starting => s
      | .stalled => s
      | .keys k pass faulted =>
        match (destroyList w.keepAdmin)[k]? with
        | some d => s.destroy d
        | none => s.passEnded w pass faulted
      | .limiter false => s.stopPenalty.requestWrite (.limiter { fails := 0, served := true }) .reset
      | .limiter true => s.boundaryWrite w w.afterLimiter
      | .media => s.formOrder w
      | .rekey k => s.rekeyNext w k

/-- The position at the beginning of a recorded step (R103, R106). -/
def WipeStep.begin : WipeStep → Position
  | .keys => .keys 0 1 false
  | .limiter => .limiter false
  | .media => .media
  | .rekey => .rekey 0
  | .close => .idle

/-! ## Answers to the WPE -/

/-- The WPE is told of a supply mode or cell level: pause, continuation, run condition (R117, R118). -/
def State.wpeTold (s : State) : State := s.refreshRun.proceed

/-- A destroy was answered (R107). -/
def State.destroyAnswered (ok : Bool) (s : State) : State :=
  State.proceed (s.onWpe fun w => { w with
    position := match w.position with
                | .keys k p f => .keys (k + 1) p (f || !ok)
                | q => q })

/-- The reset of the Limiter Record was answered done (R108). -/
def State.resetAnswered (s : State) : State :=
  State.proceed (s.onWpe fun w => { w with
    position := match w.position with
                | .limiter _ => .limiter true
                | q => q })

/-- A rekey was answered, done or STORE_FAULT (R109). -/
def State.rekeyAnswered (s : State) : State :=
  State.proceed (s.onWpe fun w => { w with
    position := match w.position with
                | .rekey k => .rekey (k + 1)
                | q => q })

/-- The wipe closes: the items go, WIPE_STATE is posted, the drive enters LOCKED or BLANK (R77, R110). -/
def State.closeWipe (w : WipeRecord) (s : State) : State :=
  let t := (s.onWpe fun _ => Wpe.init).postP
    (.wipeState { cause := w.cause, depth := w.depth, step := .close, run := .active, progress := 100 })
  if (t.slotRec 0).state = .active then t.enterLocked else t.changeAccess .blank none

/-- A journal write completed (R101, R104, R106, R110); outside WIPING the WPE holds no working copy (R103). -/
def State.journalDone (which : JournalWrite) (j : Journal) (s : State) : State :=
  let t := s.onWpe fun w => { w with journal := j, starting := none }
  if s.acc.access ≠ .wiping then s
  else
    match j with
    | none =>
      match s.wpe.journal with
      | some w => t.closeWipe w
      | none => t
    | some w =>
      match which with
      | .cursor =>
        let u := t.onWpe fun e => { e with attempt := 1, position := w.step.begin }
        u.refreshRun.postWipeState.proceed
      | _ =>
        let u := t.onWpe fun e => { e with position := w.step.begin }
        u.refreshRun.postWipeState.proceed

/-- A journal write failed: HALTED (R101, R104). -/
def State.journalFailed (s : State) : State := s.enterHalted

/-! ## The order in hand (R114 to R116) -/

/-- The order is removed and the order timer stops (R116). -/
def State.dropOrder (s : State) : State := s.onWpe fun w => { w with order := none, orderTimer := none }

/-- The bridge has left ATTACHED (R116, R118). -/
def State.bridgeLeft (s : State) : State := s.dropOrder.refreshRun

/-- The bridge has attached: an order is formed afresh (R116). -/
def State.bridgeAttached (s : State) : State := s.dropOrder.refreshRun.proceed

/-- The cursor after an order's blocks, with some more counted as failed (R114, R115). -/
def Cursor.past (c : Cursor) (o : EraseOrder) (failed : Nat) : Cursor :=
  { c with next := o.first + o.count, failed := c.failed + failed }

/-- The issued order ends and its cursor advances, `failed` more blocks counted as failed (R114, R115). -/
def State.finishOrder (o : EraseOrder) (failed : Nat) (s : State) : State :=
  match s.wpe.journal with
  | some w =>
    match w.current with
    | some c => s.dropOrder.cursorWrite w (c.past o failed)
    | none => s.dropOrder
  | none => s.dropOrder

/-- The issued order's attempt fails: another attempt, or the order is abandoned (R115). -/
def State.failAttempt (o : EraseOrder) (s : State) : State × WorkOutcome :=
  if s.wpe.attempt < 3 then
    let t := s.onWpe fun w => { w with attempt := w.attempt + 1, order := some { o with number := none },
                                       orderTimer := none }
    let u := match t.wpe.journal with
             | some w => t.postEraseWork w
             | none => t
    (u, .retry (s.wpe.attempt + 1))
  else (s.finishOrder o o.count, .abandoned)

/-- The order number carried matches the issued order (R114 check 2). -/
def State.issuedOrder (n : Nat) (s : State) : Option EraseOrder :=
  match s.wpe.order with
  | some o => if s.acc.access = .wiping ∧ o.number = some n then some o else none
  | none => none

/-- The next order number (R113). -/
def nextOrderNumber (n : Nat) : Nat := if n = Config.max16 then 1 else n + 1

/-! ## The journal at start-up (R102, R105) -/

/-- A cursor's values lie within their ranges (R102). -/
def Cursor.wellFormed (c : Cursor) : Bool :=
  decide (c.first ≤ c.next ∧ c.next ≤ c.first + c.count ∧ c.failed ≤ c.next - c.first ∧
    1 ≤ c.target ∧ c.target ≤ Config.max16) && rangeOk c.first c.count

/-- Cursors in volume-index order, at most one per volume, with no overlapping ranges (R102). -/
def cursorsOrdered : List Cursor → Bool
  | [] => true
  | c :: rest =>
    (rest.all fun d => decide (c.volume < d.volume) && !rangesOverlap c.first c.count d.first d.count) &&
      cursorsOrdered rest

/-- An active journal record is well formed (R102). KEYS_ONLY at step MEDIA is not: DESIGN CHOICE, log entry 37. -/
def WipeRecord.wellFormed (w : WipeRecord) : Bool :=
  w.step != .close && (w.depth == .keysAndMedia || (w.cursors.isEmpty && w.step != .media)) &&
    w.cursors.all Cursor.wellFormed && cursorsOrdered w.cursors

/-- The journal's working copy at start-up, and whether it loaded DAMAGED or is taken so (R105). -/
def loadJournal (l : Location Journal) : Journal × Bool :=
  match l.read with
  | .valid none => (none, false)
  | .valid (some w) => if w.wellFormed then (some w, false) else (none, true)
  | .alien => (none, true)
  | .blank => (none, false)
  | .damaged => (none, true)

/-- A wipe resumes at its recorded step (R105). -/
def State.resumeWipe (w : WipeRecord) (s : State) : State :=
  let t := s.onWpe fun e => { Wpe.init with journal := e.journal, position := w.step.begin }
  let u := t.changeAccess .wiping none
  let v := u.onWpe fun e => { e with run := u.runCondition }
  v.postWipeState.proceed

end Sys2Proof.Machine
end

