-- ==== Sys2Proof/Machine/Causes.lean ====
section
/-! DEFINITION. Lock causes and conditions (R65 to R67): what a cause does in the state it meets, and the onset and
end of CLOCK_FAULT and CASE_OPEN. -/

namespace Sys2Proof.Machine

/-- An ORDERLY action in the state it meets (R66). -/
def State.orderly (c : LockCause) (s : State) : State :=
  match s.acc.access with
  | .unlocked => if s.liu.bridge = .attached then s.enterLocking c else s.completeLock
  | .config => s.endConfig
  | .blank => s
  | .locked => s
  | .penalty => s
  | .locking => s
  | .wiping => s
  | .halted => s

/-- A FORCED or IMMEDIATE action in the state it meets (R66). -/
def State.forced (s : State) : State :=
  match s.acc.access with
  | .unlocked => s.completeLock
  | .locking => s.completeLock
  | .config => s.endConfig
  | .blank => s
  | .locked => s
  | .penalty => s
  | .wiping => s
  | .halted => s

/-- A WIPE action: with an entry in flight in LOCKED it sets the held wipe (R62, R66); otherwise the wipe starts. -/
def State.wipeAction (s : State) : State :=
  if s.acc.access = .locked ∧ s.entryInFlight then s.onAcc fun c => { c with heldWipe := true }
  else s.startWipe .caseOpen

/-- A lock cause is decided by its action and the access state it meets (R66). -/
def State.raise (c : LockCause) (a : CauseAction) (s : State) : State :=
  match a with
  | .none => s
  | .orderly => s.orderly c
  | .forced => s.forced
  | .immediate => s.forced
  | .wipe => s.wipeAction

/-! ## Conditions (R67) -/

/-- The set of active conditions changed: the KEU is told of the gate and ACCESS_CHANGED is posted (R60, R67). -/
def State.conditionChanged (wasOpen : Bool) (s : State) : State := s.postAccessChanged.tellGate wasOpen

/-- The onset of CLOCK_FAULT (R67, R145). -/
def State.clockFaultOnset (s : State) : State :=
  ((s.onAcc fun c => { c with clockFault := true }).conditionChanged s.gateOpen).raise .clockFault
    (causeAction s.plu.map.clockFault)

/-- The end of CLOCK_FAULT (R67, R146). -/
def State.clockFaultEnd (s : State) : State :=
  (s.onAcc fun c => { c with clockFault := false }).conditionChanged s.gateOpen

/-- The onset of CASE_OPEN (R67, R162). -/
def State.caseOpenOnset (s : State) : State :=
  ((s.onAcc fun c => { c with caseOpen := true }).conditionChanged s.gateOpen).raise .caseOpen
    (causeAction s.plu.map.caseOpen)

/-- The end of CASE_OPEN (R67, R162). -/
def State.caseOpenEnd (s : State) : State :=
  (s.onAcc fun c => { c with caseOpen := false }).conditionChanged s.gateOpen

/-- CONFIG_TIMEOUT is raised: it arises in CONFIG alone and ends it (R66, R75). -/
def State.configTimedOut (s : State) : State :=
  if s.acc.access = .config then s.endConfig else s

end Sys2Proof.Machine
end

