-- ==== Sys2Proof/Machine/Limiter.lean ====
section
/-! DEFINITION. The Attempt Limiter (chapter 3): the load, the penalty schedule and timer, and an evaluation from
its pre-count to the end of the flight (R62). -/

namespace Sys2Proof.Machine

/-! ## The load (R42) -/

/-- A Limiter Record that reads DAMAGED (R42). -/
def Limiter.damaged (w : Nat) : Limiter := { fails := w, served := false }

/-- The working copy at start-up, measured against the W loaded with it (R42). -/
def loadLimiter (w : Nat) (l : Location Limiter) : Limiter :=
  match l.read with
  | .valid r =>
    if 32 < r.fails then .damaged w
    else if r.fails ≤ w then r
    else { r with fails := w }
  | .alien => .damaged w
  | .blank => { fails := 0, served := true }
  | .damaged => .damaged w

/-! ## The schedule and the timer (R51 to R54) -/

/-- P(F) in ticks (R51). -/
def Policy.penaltyTicks (p : Policy) (f : Nat) : Nat :=
  if f ≤ p.freeAttempts then 0
  else min (Config.ticksPerSecond * p.penaltyBase * 2 ^ min (f - p.freeAttempts - 1) 15)
    (Config.ticksPerSecond * p.penaltyCap)

/-- The penalty timer starts with the pair phase at zero (R52). -/
def State.startPenalty (ticks : Nat) (s : State) : State :=
  s.onAtl fun a => { a with penalty := Timer.start ticks, phase := false }

/-- A penalty runs: its timer has not expired. -/
def State.penaltyRuns (s : State) : Bool := 0 < s.atl.penalty.getD 0

/-- Post PENALTY_CHANGED (R54). -/
def State.postPenaltyChanged (s : State) : State := s.postP (.penaltyChanged s.penaltySeconds s.attemptsLeft)

/-- A tick taken by the penalty timer: every tick in CRYSTAL, every second one in FALLBACK (R52). -/
def Atl.tick (t : Timebase) (a : Atl) : Atl :=
  match a.penalty with
  | some (n + 1) =>
    match t with
    | .crystal => { a with penalty := some n }
    | .fallback => if a.phase then { a with penalty := some n, phase := false } else { a with phase := true }
  | _ => a

/-- A change of timebase: the pair phase returns to zero, and a running penalty is reported (R52, R54). -/
def State.penaltyRateChanged (s : State) : State :=
  let t := s.onAtl fun a => { a with phase := false }
  if t.penaltyRuns then t.postPenaltyChanged else t

/-! ## The end of the flight (R62) -/

/-- An action that the re-check raises again (R62). -/
def rechecked (a : LockAction) : Bool := a == .orderly || a == .forced

/-- The re-check after a grant: a barring condition's cause with action ORDERLY or FORCED, then CELL_CRIT (R62; the
order is log entry 24). -/
def State.recheck (s : State) : State :=
  let a := if s.acc.clockFault && rechecked s.plu.map.clockFault then
             s.raise .clockFault (causeAction s.plu.map.clockFault) else s
  let b := if s.acc.caseOpen && rechecked s.plu.map.caseOpen then
             a.raise .caseOpen (causeAction s.plu.map.caseOpen) else a
  if s.cellCritAwake then b.raise .cellCrit .forced else b

/-- The end of the flight: a held wipe acts, or the part's standing is checked (R62). -/
def State.endOfFlight (s : State) : State :=
  if s.acc.heldWipe then (s.onAcc fun c => { c with heldWipe := false }).startWipe .caseOpen
  else if s.acc.access = .unlocked ∨ s.acc.access = .config then s.recheck
  else s

/-- Answer the KEU and end the flight (R33, R62). -/
def State.endAttempt (a : AttemptAnswer) (s : State) : State := (s.answerAttempt a).endOfFlight

/-! ## Evaluation (R44 to R49) -/

/-- What the flight waits for next. -/
def State.setFlight (f : Flight) (s : State) : State := s.onKeu fun k => { k with flight := some f }

/-- The ATL takes an entry: the pre-count is requested, or at the threshold nothing is judged and a wipe starts
(R44, R45). -/
def State.evaluate (s : State) : State :=
  if s.atl.limiter.fails < s.plu.policy.wipeThreshold then
    (s.handOn .preCount).requestWrite (.limiter { fails := s.atl.limiter.fails + 1, served := false }) .preCount
  else ((s.handOn .preCount).startWipe .threshold).endAttempt (.refusal .wiping)

/-- The working copy takes a Limiter write that completed (R40). -/
def State.setLimiter (r : Limiter) (s : State) : State := s.onAtl fun a => { a with limiter := r }

/-- The pre-count completed: the verifier is computed and the CTB answers (R45, R46). -/
def State.preCountDone (r : Limiter) (s : State) : State :=
  (s.setLimiter r).setFlight (.judging (s.matchEntry s.keu.intent (verifierOf s.keu.digits)))

/-- A Limiter write of an evaluation failed: HALTED, and the KEU is answered STORE_FAULT (R45, R47, R48). -/
def State.evaluationHalted (s : State) : State := s.enterHalted.endAttempt (.refusal .storeFault)

/-- The ATL reports a penalty; the ACC acts on it in LOCKED alone (R61). -/
def State.reportPenalty (s : State) : State :=
  if s.acc.access = .locked then s.changeAccess .penalty none else s

/-- The answer of a failure: REJECTED, or STORE_FAULT after a failed spend (R48, R49). -/
def failureAnswer (storeFault : Bool) (left seconds : Nat) : AttemptAnswer :=
  if storeFault then .refusal .storeFault else .rejected left seconds

/-- The failure of an entry, counted already by its pre-count (R49). -/
def State.failAttemptOfEntry (storeFault : Bool) (s : State) : State :=
  let f := s.atl.limiter.fails
  let left := s.attemptsLeft
  let n := s.plu.policy.penaltyTicks f
  if f = s.plu.policy.wipeThreshold then
    (s.startWipe .threshold).endAttempt (failureAnswer storeFault 0 0)
  else if n = 0 then s.endAttempt (failureAnswer storeFault left 0)
  else ((s.startPenalty n).reportPenalty.postPenaltyChanged).endAttempt
    (failureAnswer storeFault left (n / Config.ticksPerSecond))

/-- Request the refund write (R47, R48). -/
def State.requestRefund (s : State) : State := s.requestWrite (.limiter { fails := 0, served := true }) .refund

/-- A grant: the ACC opens UNLOCKED or CONFIG by the intent in LOCKED alone, and the KEU is answered GRANTED (R47,
R48, R61). -/
def State.grant (i : SlotIx) (s : State) : State :=
  let t := if s.acc.access = .locked then
             (if s.keu.intent = .unlock then s.openUnlocked i else s.openConfig i)
           else s
  t.endAttempt .granted

/-- Step 2 of R47: the uses increment of the matched slot; a saturated count is answered at once (R11). -/
def State.requestUses (i : SlotIx) (s : State) : State :=
  if (s.slotRec i).saturated then s.grant i
  else (s.setFlight (.uses i)).writeSlot i (s.slotRec i).bump (.uses i)

/-- The refund completed (R47, R48). -/
def State.refundDone (r : Limiter) (s : State) : State :=
  let t := s.setLimiter r
  match s.keu.flight with
  | some (.refund i) => t.requestUses i
  | some .recoveryRefund => t.grant 9
  | _ => t

/-- The end of the evaluation time: success writes, or the failure (R46). -/
def State.judge (answer : Option SlotIx) (s : State) : State :=
  match answer with
  | some i =>
    if i = 9 then (s.setFlight .spend).writeSlot 9 .spentRecord .spend
    else (s.setFlight (.refund i)).requestRefund
  | none => s.failAttemptOfEntry false

/-- The spend completed (R48). -/
def State.spendDone (s : State) : State := (s.setFlight .recoveryRefund).requestRefund

/-! ## The served write (R55) -/

/-- The served write completed: the ACC takes the notice in PENALTY alone (R55, R61). -/
def State.servedDone (r : Limiter) (s : State) : State :=
  let t := s.setLimiter r
  if s.acc.access = .penalty then
    let u := t.enterLocked
    u.postP (.penaltyChanged 0 u.attemptsLeft)
  else t

/-- Request the served write (R55). -/
def State.requestServed (s : State) : State :=
  s.requestWrite (.limiter { s.atl.limiter with served := true }) .served

end Sys2Proof.Machine
end

