-- ==== Sys2Proof/Machine/Supply.lean ====
section
/-! DEFINITION. The Timebase Unit and the Supply Supervisor (chapters 9 and 10): the tick, changes of timebase, the
cell monitor, the CASE input, sleep, wake, bus power, and the loss of a domain. -/

namespace Sys2Proof.Machine

/-! ## Losing and initialising state (R147, R153, R154, R159) -/

/-- The ACC after its core-domain items are lost (R59). -/
def Acc.coreLost (c : Acc) : Acc :=
  { c with lockCause := none, deferrals := none, heldWipe := false, idleTimer := none, attachTimer := none,
           deferTimer := none, configTimer := none }

/-- The WPE after its core-domain items are lost (R103). -/
def Wpe.coreLost (w : Wpe) : Wpe := { w with order := none, attempt := 1, orderTimer := none }

/-- Every core-domain state is lost, or initialised (R153, R159), with the bridge link in the state given. -/
def State.coreInit (bridge : BridgeState) (s : State) : State :=
  (((((s.onRsc fun _ => Rsc.init).onKeu fun _ => Keu.init).onAcc Acc.coreLost).onWpe Wpe.coreLost).onPlu
    fun p => { p with inflight := [] }).onLiu fun _ => Liu.init bridge

/-- Every volatile state at its starting value, with the supply mode given: what OFF, RESET_N held low, and the
start of start-up hold (R147, R153, R154; log entry 14). The keys drawn are counted on. -/
def State.volatileInit (mode : SupplyMode) (bridge : BridgeState) (s : State) : State :=
  { s with rsc := .init, ctb := .init, keu := .init, atl := .init, acc := .init,
           kru := { Kru.init with keyDraws := s.kru.keyDraws }, wpe := .init, plu := .init, tbu := .init,
           ssv := .init mode, liu := .init bridge }

/-- The bridge link state that bus power gives (R85). -/
def bridgeBy (bus : Bool) : BridgeState := if bus then .present else .absent

/-- The supply mode that BUSDET gives at power-on (R154). -/
def modeBy (bus : Bool) : SupplyMode := if bus then .bus else .cellAwake

/-- A passage to OFF: the store is cut and both domains lose their state (R141, R153). -/
def State.powerOff (at_ : CutPoint) (s : State) : State := (s.cutStore at_).volatileInit .off .absent

/-- The sleep timer starts with 160 ticks (R157). -/
def State.startSleepTimer (s : State) : State :=
  s.onSsv fun v => { v with sleepTimer := Timer.start Config.sleepTicks }

/-- The sleep timer stops and the sleep-due mark clears (R155, R158). -/
def State.stopSleepTimer (s : State) : State := s.onSsv fun v => { v with sleepTimer := none, sleepDue := false }

/-! ## Wake and sleep (R158, R159) -/

/-- Post CELL_LEVEL as things stand (R161). -/
def State.postCellLevel (s : State) : State := s.postP (.cellLevel s.ssv.level s.ssv.mode)

/-- Steps 1 to 3 of the wake sequence (R159). -/
def State.powerCore (mode : SupplyMode) (s : State) : State :=
  let t := ((s.onSsv fun v => { v with mode := mode }).coreInit (bridgeBy (mode == .bus))).autoDialogue
  if mode = .cellAwake then t.startSleepTimer else t

/-- Step 5 of the wake sequence (R159). -/
def State.wakeLevel (s : State) : State :=
  let t := if s.ssv.level = .good then s else s.postCellLevel
  if t.cellCritAwake then t.raise .cellCrit .forced else t

/-- The wake sequence, and the wipe's continuation from its position (R103, R159). A wake cause's own action
follows. -/
def State.wake (mode : SupplyMode) (s : State) : State :=
  let t := (s.powerCore mode).postAccessChanged
  let u := if t.acc.access = .wiping then t.refreshRun.postWipeState else t
  u.wakeLevel.proceed

/-- Entry into CELL_SLEEP (R158); with WAKE_N low the part wakes at once (R159). -/
def State.enterSleep (s : State) : State :=
  let t := (s.onSsv fun v => { v with mode := .cellSleep, sleepTimer := none, sleepDue := false,
                                      samplePhase := 0 }).coreInit .absent
  if t.pins.wakeLow then t.wake .cellAwake else t

/-! ## Cell monitor (R160, R161) -/

/-- How severe a level is. -/
def CellLevel.severity : CellLevel → Nat
  | .good => 0
  | .low => 1
  | .crit => 2

/-- The LOW threshold L, in millivolts (R160). -/
def Policy.lowMillivolts (p : Policy) : Nat := 3400 + 50 * p.cellLowLevel

/-- The candidate level of a sample (R160). -/
def candidate (level : CellLevel) (low mv : Nat) : CellLevel :=
  match level with
  | .good => if mv < Config.critMillivolts then .crit else if mv < low then .low else .good
  | .low =>
    if mv < Config.critMillivolts then .crit else if mv < low + Config.marginMillivolts then .low else .good
  | .crit =>
    if mv < Config.critMillivolts + Config.marginMillivolts then .crit
    else if mv < low + Config.marginMillivolts then .low else .good

/-- The direction of a candidate from the current level; none when inside (R160). -/
def direction (level c : CellLevel) : Option FilterDir :=
  if c = level then none else if level.severity < c.severity then some .falling else some .rising

/-- How far a candidate lies from the current level. -/
def levelGap (level c : CellLevel) : Nat := (c.severity - level.severity) + (level.severity - c.severity)

/-- Whichever of two candidates is nearer the current level (R160). -/
def nearer (level : CellLevel) (held : Option CellLevel) (c : CellLevel) : CellLevel :=
  match held with
  | some h => if levelGap level c < levelGap level h then c else h
  | none => c

/-- The filter acts on a candidate (R160). -/
def Ssv.filter (c : CellLevel) (v : Ssv) : Ssv :=
  match direction v.level c with
  | none => { v with filterCount := 0, filterDir := none, nearest := none }
  | some d =>
    if v.filterCount = 0 then { v with filterCount := 1, filterDir := some d, nearest := some c }
    else if v.filterDir = some d then
      { v with filterCount := v.filterCount + 1, nearest := some (nearer v.level v.nearest c) }
    else { v with filterCount := 1, filterDir := some d, nearest := some c }

/-- The level that the filter adopts, when its count has reached CELL_FILTER (R160). -/
def Ssv.adopts (filter : Nat) (v : Ssv) : Option CellLevel :=
  if 0 < v.filterCount ∧ filter ≤ v.filterCount then v.nearest else none

/-- The level leaves CRIT in sleep while a wipe is paused outside MEDIA: a wake cause (R159). -/
def State.pauseWake (new : CellLevel) (s : State) : Bool :=
  s.ssv.mode == .cellSleep && s.ssv.level == .crit && new != .crit && s.acc.access == .wiping &&
    s.wpe.run == .paused &&
    (match s.wpe.view with
     | some w => w.step != .media
     | none => false)

/-- The level adopted, and no filter run in progress (R160). -/
def Ssv.atLevel (new : CellLevel) (v : Ssv) : Ssv :=
  { v with level := new, filterCount := 0, filterDir := none, nearest := none }

/-- A change of level is adopted (R160, R161). -/
def State.adoptLevel (new : CellLevel) (s : State) : State :=
  let t := s.onSsv (Ssv.atLevel new)
  let u := if s.ssv.level.severity < new.severity ∨ s.plu.policy.cellRiseReport then t.postCellLevel else t
  let w := u.tellGate s.gateOpen
  let x := if w.cellCritAwake then w.raise .cellCrit .forced else w
  if s.pauseWake new then x.wake .cellAwake else x.wpeTold

/-- A sample is taken (R160). -/
def State.sample (mv : Nat) (s : State) : State :=
  let t := s.onSsv fun v => v.filter (candidate v.level s.plu.policy.lowMillivolts mv)
  match t.ssv.adopts s.plu.policy.cellFilter with
  | some l => t.adoptLevel l
  | none => t

/-- The cell monitor takes a tick: a sample each tick, or each eighth in CELL_SLEEP; none with CELL_FITTED no
(R160). -/
def State.sampleTick (mv : Nat) (s : State) : State :=
  if !s.plu.inForce.cellFitted then s
  else
    match s.ssv.mode with
    | .bus => s.sample mv
    | .cellAwake => s.sample mv
    | .cellSleep =>
      if s.ssv.samplePhase < 7 then s.onSsv fun v => { v with samplePhase := v.samplePhase + 1 }
      else (s.onSsv fun v => { v with samplePhase := 0 }).sample mv
    | .off => s

/-! ## The timebase (R144 to R148) -/

/-- Every running timer but the penalty timer takes a tick (R150); core timers are stopped while the core domain
is unpowered. -/
def State.tickTimers (s : State) : State :=
  ((((s.onKeu fun k => { k with entryTimer := k.entryTimer.tick }).onAcc fun c =>
      { c with idleTimer := c.idleTimer.tick, attachTimer := c.attachTimer.tick,
               deferTimer := c.deferTimer.tick, configTimer := c.configTimer.tick }).onWpe fun w =>
      { w with orderTimer := w.orderTimer.tick }).onSsv fun v =>
      { v with sleepTimer := v.sleepTimer.tick, caseTimer := v.caseTimer.tick }).onLiu fun u =>
      { u with linkTimer := u.linkTimer.tick }

/-- A tick reaches the timers, the penalty timer and the cell monitor (R144). -/
def State.takeTick (mv : Nat) (s : State) : State :=
  let t := s.onTbu fun b => { b with divider := 0 }
  State.sampleTick mv (t.tickTimers.onAtl fun a => a.tick s.tbu.state)

/-- Post TIMEBASE_CHANGED (R148). -/
def State.postTimebase (s : State) : State := s.postP (.timebaseChanged s.tbu.state)

/-- The timebase state becomes FALLBACK (R145). -/
def Tbu.fallen (b : Tbu) : Tbu := { b with state := .fallback, gap := 0, run := some 0 }

/-- The timebase state becomes CRYSTAL (R146). -/
def Tbu.returned (b : Tbu) : Tbu := { b with state := .crystal, gap := 0, run := none }

/-- The TBU enters FALLBACK (R145). -/
def State.enterFallback (s : State) : State :=
  ((s.onTbu Tbu.fallen).penaltyRateChanged.postTimebase).clockFaultOnset

/-- The TBU returns to CRYSTAL (R146). -/
def State.enterCrystal (s : State) : State :=
  ((s.onTbu Tbu.returned).penaltyRateChanged.postTimebase).clockFaultEnd

/-! ## The CASE input (R162) -/

/-- The level of the input means open (R132, R162). -/
def State.caseInputOpen (s : State) : Bool := s.pins.caseHigh == s.plu.inForce.caseOpenHigh

/-- The debounce timer starts when the input differs from the debounced state, and stops when it returns (R162). -/
def State.debounceCase (s : State) : State :=
  if !s.plu.inForce.caseFitted then s
  else if s.caseInputOpen = s.ssv.caseIsOpen then s.onSsv fun v => { v with caseTimer := none }
  else if s.ssv.caseTimer.isNone then s.onSsv fun v => { v with caseTimer := Timer.start Config.caseTicks }
  else s

/-- The debounced state takes the input's level: an onset, which first wakes a sleeping part, or an end (R159,
R162). -/
def State.caseDebounced (s : State) : State :=
  let t := s.onSsv fun v => { v with caseTimer := none, caseIsOpen := s.caseInputOpen }
  if s.caseInputOpen = s.ssv.caseIsOpen then t
  else if s.caseInputOpen then
    (if s.ssv.mode = .cellSleep then t.wake .cellAwake else t).caseOpenOnset
  else t.caseOpenEnd

/-! ## Bus power (R86, R155, R156) -/

/-- A command RUNNING on the B-link loses its result: what it started is no longer answered (R86, R170; log entry
27). -/
def dropB (o : Option Link) : Option Link := if o = some .b then none else o

/-- A purpose that no longer names a cleared B-link. -/
def Purpose.dropB : Purpose → Purpose
  | .admin o => .admin (Machine.dropB o)
  | .options o => .options (Machine.dropB o)
  | p => p

/-- Every write and staging asked for on the B-link loses its requester. -/
def State.orphanB (s : State) : State :=
  (s.onRsc fun r =>
    { current := r.current.map fun w => { w with entry := { w.entry with purpose := w.entry.purpose.dropB } }
      queue := r.queue.map fun e => { e with purpose := e.purpose.dropB } }).onPlu fun p =>
    { p with inflight := p.inflight.map fun g => { g with requester := dropB g.requester } }

/-- The bridge link in a state other than ATTACHED: no capacity, link timer stopped (R85, R88, R89). -/
def Liu.leave (b : BridgeState) (u : Liu) : Liu := { u with bridge := b, capacity := none, linkTimer := none }

/-- The LIU's part in a bus power loss: ABSENT, capacity and link timer gone, B-link cleared; the WPE is told when
the loss finds the link ATTACHED (R86, R170). -/
def State.bridgeUnpowered (s : State) : State :=
  let t := (s.onLiu fun u => { u.leave .absent with b := .init, bq := .empty }).orphanB
  if s.liu.bridge = .attached then t.bridgeLeft else t

/-- Bus power arrives in CELL_AWAKE (R86, R155). -/
def State.busArrives (s : State) : State :=
  let t := (s.onSsv fun v => { v with mode := .bus }).stopSleepTimer
  let u := t.onLiu fun l => l.leave .present
  (u.tellGate s.gateOpen).wpeTold

/-- The part stays on the cell at a bus power loss (R156). -/
def Ssv.staysOnCell (cellFitted : Bool) (v : Ssv) : Bool := cellFitted && v.level != .crit

/-- Bus power is lost and the part moves to CELL_AWAKE (R156). -/
def State.busLost (s : State) : State :=
  let t := (s.onSsv fun v => { v with mode := .cellAwake }).startSleepTimer
  ((t.bridgeUnpowered).raise .busLoss .forced).wpeTold

end Sys2Proof.Machine
end

