-- ==== Sys2Proof/Machine/Startup.lean ====
section
/-! DEFINITION. Start-up (R78, R79, R135, R154): the load of the twenty records, the derivation of the access state,
and the posts that follow. It is one step (log entry 13). -/

namespace Sys2Proof.Machine

/-- What the load reports besides the working copies (R5, R6, R105, R132). -/
structure LoadReport where
  optionDamaged : Bool
  slotZeroDamage : Bool
  journalDamaged : Bool
  deriving DecidableEq, Repr

/-- The load report of an array. -/
def Store.report (st : Store) : LoadReport :=
  { optionDamaged := (loadOptions st.option).2, slotZeroDamage := (loadSlots st).2,
    journalDamaged := (loadJournal st.journal).2 }

/-- The PLU's working copies at start-up (R122, R123, R132). -/
def loadPlu (st : Store) : Plu :=
  { Plu.init with policy := loadPolicy st.policy, map := loadMap st.map,
                  committed := loadPendingSet st.pset, inForce := (loadOptions st.option).1,
                  stored := (loadOptions st.option).1 }

/-- Every owner builds its working copy (R135); the access state is a placeholder until the derivation enters its
own. -/
def State.load (cause : StartCause) (s : State) : State :=
  let plu := loadPlu s.store
  let journal := (loadJournal s.store.journal).1
  { s with plu := plu, ctb := (loadSlots s.store).1,
           atl := { Atl.init with limiter := loadLimiter plu.policy.wipeThreshold s.store.limiter },
           kru := { s.kru with volumes := loadVolumes journal.isSome s.store },
           wpe := { Wpe.init with journal := journal },
           acc := { Acc.init with access := .locked, startCause := cause } }

/-- The ATL answers that a penalty starts (R57). -/
def State.owesPenalty (s : State) : Bool :=
  decide (s.plu.policy.freeAttempts < s.atl.limiter.fails) && !s.atl.limiter.served

/-- The ATL starts the penalty of start-up and the ACC enters PENALTY (R57, R78 check 5). -/
def State.resumePenalty (s : State) : State :=
  ((s.startPenalty (s.plu.policy.penaltyTicks s.atl.limiter.fails)).postPenaltyChanged).changeAccess .penalty none

/-- The derivation: the first check of R78's table that holds decides. -/
def State.derive (r : LoadReport) (s : State) : State :=
  if r.optionDamaged then s.enterHalted
  else
    match s.wpe.journal with
    | some w => s.resumeWipe w
    | none =>
      if r.slotZeroDamage || r.journalDamaged then s.startWipe .storeDamage
      else if s.atl.limiter.fails = s.plu.policy.wipeThreshold then s.startWipe .threshold
      else if (s.slotRec 0).state = .empty then s.changeAccess .blank none
      else if s.owesPenalty then s.resumePenalty
      else s.enterLocked

/-! ## What comes about before the derivation is complete (R79, R147, R154)

The TBU and the SSV hold it; nothing is reported until the end of the derivation (log entry 13). -/

/-- A part with no cell fitted goes to OFF without bus power (R154); a damaged Option Record fits nothing and
HALTED decides (R78 check 0, log entry 11). -/
def State.noSupply (s : State) : Bool :=
  !(loadOptions s.store.option).2 && !(loadOptions s.store.option).1.cellFitted && !s.pins.busdet

/-- A sample of the cell during start-up: a level is adopted unreported (R154, R160). -/
def State.startSample (mv : Nat) (s : State) : State :=
  let t := s.onSsv fun v => v.filter (candidate v.level s.plu.policy.lowMillivolts mv)
  match t.ssv.adopts s.plu.policy.cellFilter with
  | some l => t.onSsv (Ssv.atLevel l)
  | none => t

/-- Bus power comes or goes during start-up (R154 to R156); with no supply the part goes to OFF. A loss before the load
is decided by R156's table with CELL_FITTED yes, since no Option Record is in force yet: DESIGN CHOICE, log entry 43. -/
def State.startBus (bus : Bool) (s : State) : State :=
  let t := s.onPins fun p => { p with busdet := bus }
  if bus then ((t.onSsv fun v => { v with mode := .bus }).stopSleepTimer).onLiu (Liu.leave .present)
  else if s.ssv.staysOnCell s.plu.inForce.cellFitted then
    ((t.onSsv fun v => { v with mode := .cellAwake }).startSleepTimer).onLiu (Liu.leave .absent)
  else t.volatileInit .off .absent

/-- The case debounce timer expires during start-up: the debounced state takes the input's level unreported (R154,
R162). -/
def State.startDebounced (s : State) : State :=
  s.onSsv fun v => { v with caseTimer := none, caseIsOpen := s.caseInputOpen }

/-- What one event of start-up changes; an event that cannot arise changes nothing (log entry 4). -/
def State.startEvent (s : State) (e : StartEvent) : State :=
  if s.ssv.mode = .off then s
  else
    match e with
    | .tick mv =>
      let t := s.onSsv fun v => { v with caseTimer := v.caseTimer.tick, sleepTimer := v.sleepTimer.tick }
      if s.plu.inForce.cellFitted then t.startSample mv else t
    | .fallback => if s.tbu.state = .crystal then s.onTbu Tbu.fallen else s
    | .crystalReturn => if s.tbu.state = .fallback then s.onTbu Tbu.returned else s
    | .caseChange high => (s.onPins fun p => { p with caseHigh := high }).debounceCase
    | .caseDebounced => if s.ssv.caseTimer.due then s.startDebounced else s
    | .busArrives => if s.pins.busdet then s else s.startBus true
    | .busLost => if s.pins.busdet then s.startBus false else s

/-- The SSV acts on the Option Record in force: with no cell fitted the level is GOOD, and the debounce begins
(R154). -/
def State.optionsInForce (s : State) : State :=
  State.debounceCase (if s.plu.inForce.cellFitted then s else s.onSsv (Ssv.atLevel .good))

/-! ## What the SSV holds for the end of the derivation (R79, R154) -/

/-- A report of the SSV that is held until the derivation is complete (R154). -/
inductive HeldReport where
  /-- a level adopted, and whether it was a falling change -/
  | level (falling : Bool) (new : CellLevel)
  /-- the CASE onset -/
  | caseOpened
  /-- the end of the condition CASE_OPEN -/
  | caseClosed
  /-- a bus power loss that left the part on its cell -/
  | busLost
  deriving DecidableEq, Repr

/-- The reports of one event of start-up: what it changed in the level, the debounced CASE state and bus power. -/
def State.startReports (s : State) (e : StartEvent) : List HeldReport :=
  let t := s.startEvent e
  if t.ssv.mode = .off then []
  else
    (if t.ssv.level = s.ssv.level then []
     else [.level (decide (s.ssv.level.severity < t.ssv.level.severity)) t.ssv.level]) ++
    (if t.ssv.caseIsOpen = s.ssv.caseIsOpen then []
     else [if t.ssv.caseIsOpen then .caseOpened else .caseClosed]) ++
    (if s.pins.busdet && !t.pins.busdet then [.busLost] else [])

/-- The reports of the events of start-up, in the order in which they were taken (R154). -/
def heldReports (events : List StartEvent) (s : State) : List HeldReport :=
  match events with
  | [] => []
  | e :: rest => s.startReports e ++ heldReports rest (s.startEvent e)

/-! ## The end of the derivation (R79, R147, R154) -/

/-- A timebase found in FALLBACK is reported, and CLOCK_FAULT raised as an onset (R79, R147). -/
def State.reportTimebase (s : State) : State :=
  if s.tbu.state = .fallback then s.postTimebase.clockFaultOnset else s

/-- A report held by the SSV is taken in the derived state (R79, R154): a level as R161 reports it, an onset or end of
CASE_OPEN as R67 takes it, a bus loss as a FORCED cause. An onset is taken even where the enclosure has closed again
before the derivation is complete (log entry 42). -/
def State.takeReport (s : State) (r : HeldReport) : State :=
  match r with
  | .level falling new =>
    if falling || s.plu.policy.cellRiseReport then s.postP (.cellLevel new s.ssv.mode) else s
  | .caseOpened => s.caseOpenOnset
  | .caseClosed => s.caseOpenEnd
  | .busLost => s.raise .busLoss .forced

/-- A level already CRIT in CELL_AWAKE raises CELL_CRIT (R154). -/
def State.reportCrit (s : State) : State := if s.cellCritAwake then s.raise .cellCrit .forced else s

/-- What was held is taken in the derived state, and in CELL_AWAKE the sleep timer starts (R79, R147, R154; the order
is log entry 24). -/
def State.reportStart (held : List HeldReport) (s : State) : State :=
  let t := ((held.foldl State.takeReport s.reportTimebase).reportCrit).wpeTold
  if t.ssv.mode = .cellAwake then t.startSleepTimer else t

/-- The part after the load, with the Option Record in force (R135, R154). -/
def State.loaded (cause : StartCause) (s : State) : State := (s.load cause).optionsInForce

/-- The load and the derivation, with what comes about between them; `held` is what the SSV holds by then. -/
def State.loadAndDerive (cause : StartCause) (events : List StartEvent) (held : List HeldReport) (s : State) : State :=
  let u := s.loaded cause
  let t := events.foldl State.startEvent u
  if t.ssv.mode = .off then t else (t.derive s.store.report).reportStart (held ++ heldReports events u)

/-- The part at the beginning of start-up (R147, R154). -/
def State.startBegins (s : State) : State := s.volatileInit (modeBy s.pins.busdet) (bridgeBy s.pins.busdet)

/-- Start-up at power-on from OFF and at the release of RESET_N, with what comes about during it (R78, R79, R147,
R154). -/
def State.startWith (cause : StartCause) (start : StartEvents) (s : State) : State :=
  let u := s.startBegins
  let t := start.beforeLoad.foldl State.startEvent u
  if t.ssv.mode = .off then t
  else if t.noSupply then t.volatileInit .off .absent
  else t.loadAndDerive cause start.afterLoad (heldReports start.beforeLoad u)

/-- What comes about during the next start-up: the front of `starts`, or nothing (log entry 13). -/
def State.nextStart (s : State) : StartEvents := s.starts.headD .quiet

/-- Start-up takes the front of `starts` (R78, R79, R147, R154; log entry 13). -/
def State.startUp (cause : StartCause) (s : State) : State :=
  State.startWith cause s.nextStart { s with starts := s.starts.tail }

end Sys2Proof.Machine
end

