-- ==== Sys2Proof/Machine/Layout.lean ====
section
/-! DEFINITION. Response frames (R164, R167, 11.8, 11.9): status and reason codes, the codings of enumerations and
absent fields, the fields of each result, and the frames a link shifts out. -/

namespace Sys2Proof.Machine

/-! ## Codes (11.8, 11.9; orders of enumerations: log entry 15) -/

/-- One byte. -/
def byte (n : Nat) : Byte := BitVec.ofNat 8 n

/-- An optional one-byte field; absent is 0xFF. -/
def optByte (o : Option Nat) : Byte := byte (o.getD 0xFF)

/-- An optional two-byte field; absent is 0xFFFF. -/
def opt16 (o : Option Nat) : List Byte := be16 (o.getD 0xFFFF)

/-- An optional four-byte field; absent is 0xFFFFFFFF. -/
def opt32 (o : Option Nat) : List Byte := be32 (o.getD 0xFFFFFFFF)

/-- Access states, BLANK 0 to HALTED 7. -/
def Access.code : Access → Nat
  | .blank => 0
  | .locked => 1
  | .penalty => 2
  | .unlocked => 3
  | .locking => 4
  | .config => 5
  | .wiping => 6
  | .halted => 7

/-- Supply modes, in the order of R153's table. -/
def SupplyMode.code : SupplyMode → Nat
  | .off => 0
  | .bus => 1
  | .cellAwake => 2
  | .cellSleep => 3

/-- Cell levels (10.4). -/
def CellLevel.code : CellLevel → Nat
  | .good => 0
  | .low => 1
  | .crit => 2

/-- Timebase states (R144). -/
def Timebase.code : Timebase → Nat
  | .crystal => 0
  | .fallback => 1

/-- Bridge link states (R85). -/
def BridgeState.code : BridgeState → Nat
  | .absent => 0
  | .present => 1
  | .attached => 2
  | .lost => 3

/-- Wipe steps, KEYS 0 to CLOSE 4. -/
def WipeStep.code : WipeStep → Nat
  | .keys => 0
  | .limiter => 1
  | .media => 2
  | .rekey => 3
  | .close => 4

/-- Run conditions, in the order of R103's table. -/
def RunCondition.code : RunCondition → Nat
  | .active => 0
  | .waitingBridge => 1
  | .paused => 2
  | .stalled => 3

/-- Wipe causes (R99). -/
def WipeCause.code : WipeCause → Nat
  | .threshold => 0
  | .caseOpen => 1
  | .panelAdmin => 2
  | .bridgeAdmin => 3
  | .storeDamage => 4

/-- Lock causes (R65). -/
def LockCause.code : LockCause → Nat
  | .panelLock => 0
  | .idleExpiry => 1
  | .bridgeLock => 2
  | .bridgeDetach => 3
  | .busLoss => 4
  | .attachExpiry => 5
  | .cellCrit => 6
  | .configTimeout => 7
  | .bridgeLost => 8
  | .clockFault => 9
  | .caseOpen => 10

/-- Start causes (R59). -/
def StartCause.code : StartCause → Nat
  | .powerOn => 0
  | .resetPin => 1

/-- Slot states (R1). -/
def SlotState.code : SlotState → Nat
  | .empty => 0
  | .active => 1
  | .barred => 2
  | .spent => 3

/-- Roles (R18). -/
def Role.code : Role → Nat
  | .admin => 0
  | .user => 1
  | .recovery => 2

/-- Access modes (R1). -/
def modeCode : AccessMode → Nat
  | .readWrite => 0
  | .readOnly => 1

/-- Intents (R20). -/
def Intent.code : Intent → Nat
  | .unlock => 0
  | .admin => 1
  | .recover => 2
  | .enrolFirst => 3
  | .enrolConfirm => 4

/-- Dialogue kinds (R22). -/
def DialogueKind.code : DialogueKind → Nat
  | .automatic => 0
  | .enrol => 1
  | .change => 2

/-- Volume states (R81). -/
def VolumeState.code : VolumeState → Nat
  | .unused => 0
  | .present => 1
  | .erasing => 2

/-- Key states (R81). -/
def KeyState.code : KeyState → Nat
  | .live => 0
  | .destroyed => 1

/-- Outcomes of KEY and ENROL_BEGIN (11.9). -/
def KeyOutcome.code : KeyOutcome → Nat
  | .none => 0
  | .empty => 1
  | .overlong => 2
  | .tooShort => 3
  | .granted => 4
  | .rejected => 5
  | .firstTaken => 6
  | .mismatch => 7
  | .enrolled => 8
  | .duplicate => 9

/-- Refusal reasons (11.8). -/
def Reason.code : Reason → Nat
  | .notNow => 0x01
  | .noAuthority => 0x02
  | .penalty => 0x03
  | .lowCell => 0x04
  | .condition => 0x05
  | .wiping => 0x06
  | .noSlot => 0x07
  | .slotState => 0x08
  | .noVolume => 0x09
  | .badRange => 0x0A
  | .unreachable => 0x0B
  | .notAttached => 0x0C
  | .stale => 0x0D
  | .storeFault => 0x0E
  | .factoryLocked => 0x0F

/-- A map action's code as a number. -/
def actionCode (a : LockAction) : Nat := (lockActionByte a).toNat

/-! ## Records -/

/-- Active conditions: 1 CLOCK_FAULT, 2 CASE_OPEN, summed. -/
def conditionsByte (clockFault caseOpen : Bool) : Byte := byte (codeBool clockFault + 2 * codeBool caseOpen)

/-- An optional slot index. -/
def optSlot (o : Option SlotIx) : Byte := optByte (o.map Fin.val)

/-- An optional Boolean. -/
def optBool (o : Option Bool) : Byte := optByte (o.map codeBool)

/-- The status record, 16 bytes. -/
def StatusRecord.bytes (r : StatusRecord) : List Byte :=
  [byte r.access.code, optSlot r.openSlot, byte r.mode.code, byte r.level.code, byte r.timebase.code,
   byte r.bridge.code, byte r.fails, byte r.threshold, byte r.attemptsLeft] ++ be16 r.penaltySeconds ++
  [optByte (r.wipeStep.map WipeStep.code), optByte (r.run.map RunCondition.code), byte r.progress,
   conditionsByte r.clockFault r.caseOpen, byte r.startCause.code]

/-- An event's kind number in its link's priority order. -/
def Event.kind (l : Link) : Event → Nat
  | .wipeState _ => 1
  | .accessChanged _ => match l with
    | .p => 2
    | .b => 3
  | .penaltyChanged _ _ => 3
  | .cellLevel _ _ => 4
  | .timebaseChanged _ => 5
  | .entryAbandoned => 6
  | .keysRevoked => 1
  | .lockPending _ _ => 2
  | .eraseWork _ => 4

/-- An event's payload fields. -/
def Event.payload : Event → List Byte
  | .wipeState r => [byte r.cause.code, byte r.depth.code, byte r.step.code, byte r.run.code, byte r.progress]
  | .accessChanged r => [byte r.access.code, optSlot r.openSlot, conditionsByte r.clockFault r.caseOpen]
  | .penaltyChanged n k => be16 n ++ [byte k]
  | .cellLevel l m => [byte l.code, byte m.code]
  | .timebaseChanged t => [byte t.code]
  | .entryAbandoned => []
  | .keysRevoked => []
  | .lockPending c n => [byte c.code, byte n]
  | .eraseWork n => [byte n]

/-- The event record. -/
def eventBytes (l : Link) : Option Event → List Byte
  | none => [0]
  | some e => byte (e.kind l) :: e.payload

/-- A slot listing entry, 9 bytes. -/
def SlotListing.bytes (e : SlotListing) : List Byte :=
  [byte e.index.val, byte e.role.code, byte e.state.code, optByte e.length, optByte (e.mode.map modeCode),
   optByte (e.mask.map BitVec.toNat)] ++ opt16 e.uses ++ [boolByte e.fault]

/-- A key, 32 bytes. -/
def keyBytes (k : Key) : List Byte := List.ofFn fun i : Fin 32 => k.extractLsb' (8 * (31 - i.val)) 8

/-- The key release payload, 44 bytes. -/
def KeyRelease.bytes (k : KeyRelease) : List Byte :=
  byte k.volume.val :: be16 k.kgen ++ [byte (modeCode k.mode)] ++ be32 k.first ++ be32 k.count ++ keyBytes k.key

/-- The erase order of WORK_FETCH. -/
def orderBytes : Option (Nat × Nat × Nat) → List Byte
  | some (n, first, count) => 0 :: be16 n ++ be32 first ++ be32 count
  | none => [1]

/-- The fields of a KEY or ENROL_BEGIN result. -/
def keyFields (o : KeyOutcome) (r : Option (Nat × Nat)) (s : Summary) : List Byte :=
  [byte o.code, optByte (r.map Prod.fst)] ++ opt16 (r.map Prod.snd) ++
  [byte s.digitsHeld, boolByte s.overlong, byte s.intent.code, optByte (s.dialogue.map fun d => d.1.code),
   optByte (s.dialogue.map fun d => d.2.val)]

/-- A definition as staged, laid out as its request. -/
def volumeDefBytes (i : VolIx) : VolumeDef → List Byte
  | .range f c ro => 0 :: byte i.val :: be32 f ++ be32 c ++ [boolByte ro]
  | .unused => [1, byte i.val]

/-- The staged definition in a volume entry: form, first block, count, READ_ONLY flag. -/
def stagedVolumeBytes : Option VolumeDef → List Byte
  | some (.range f c ro) => 0 :: be32 f ++ be32 c ++ [boolByte ro]
  | some .unused => 1 :: opt32 none ++ opt32 none ++ [optByte none]
  | none => optByte none :: opt32 none ++ opt32 none ++ [optByte none]

/-- A volume entry, 25 bytes. -/
def VolumeListing.bytes (v : VolumeListing) : List Byte :=
  [byte v.index.val, byte v.state.code, byte v.keyState.code] ++ opt32 v.first ++ opt32 v.count ++
  be16 v.kgen ++ [optBool v.readOnly, optBool v.incomplete] ++ stagedVolumeBytes v.staged

/-- The four options, one byte each; CASE_OPEN_LEVEL is 0 for high and 1 for low (R133). -/
def Options.bytes (o : Options) : List Byte :=
  [boolByte o.cellFitted, boolByte o.caseFitted, boolByte (!o.caseOpenHigh), boolByte o.factoryLocked]

/-- Staged map actions, absent where nothing is staged. -/
def StagedMap.bytes (m : StagedMap) : List Byte :=
  [optByte (m.bridgeLost.map actionCode), optByte (m.clockFault.map actionCode), optByte (m.caseOpen.map actionCode)]

/-- The READ_POLICY listing. -/
def PolicyListing.bytes (l : PolicyListing) : List Byte :=
  (PolicyField.all.flatMap fun f => be16 (l.policy.value f)) ++
  [lockActionByte l.map.bridgeLost, lockActionByte l.map.clockFault, lockActionByte l.map.caseOpen] ++
  (PolicyField.all.flatMap fun f => opt16 (l.stagedPolicy.get f.number)) ++ l.stagedMap.bytes ++
  [boolByte l.policyFault, boolByte l.mapFault, boolByte l.psetFault]

/-- The staged values of SET_POLICY, in field-number order. -/
def stagedPolicyBytes (v : Vector (Option Nat) 16) : List Byte :=
  PolicyField.all.flatMap fun f =>
    match v.get f.number with
    | some n => byte f.number.val :: be16 n
    | none => []

/-- One staged entry of SET_LOCK_MAP. -/
def stagedEntryBytes (e : MapEntry) : Option LockAction → List Byte
  | some a => [mapEntryByte e, lockActionByte a]
  | none => []

/-- The staged entries of SET_LOCK_MAP, in entry-number order. -/
def stagedMapBytes (m : StagedMap) : List Byte :=
  stagedEntryBytes .bridgeLost m.bridgeLost ++ stagedEntryBytes .clockFault m.clockFault ++
    stagedEntryBytes .caseOpen m.caseOpen

/-- An absent one-byte field. -/
def absentByte : Byte := 0xFF

/-- The fields of an OK result (11.9). -/
def Fields.bytes (l : Link) : Fields → List Byte
  | .none => []
  | .status r => r.bytes
  | .event e => eventBytes l e
  | .slots es => es.flatMap SlotListing.bytes
  | .key o r s => keyFields o r s
  | .lockReply .locked => [0, absentByte]
  | .lockReply (.held n) => [1, byte n]
  | .lockReply .overruled => [2, absentByte]
  | .workDone .advanced => [0, absentByte]
  | .workDone (.retry n) => [1, byte n]
  | .workDone .abandoned => [2, absentByte]
  | .attach a o m => [byte a.code, optSlot o, byte m.toNat]
  | .activity n => be16 n
  | .wipe c d k => [byte c.code, byte d.code, boolByte k]
  | .policy v => stagedPolicyBytes v
  | .map m => stagedMapBytes m
  | .volumeDef i d => volumeDefBytes i d
  | .options o => o.bytes
  | .policyListing p => p.bytes
  | .volumes cap vs => be32 cap ++ vs.flatMap VolumeListing.bytes
  | .keyRelease k => k.bytes
  | .work o => orderBytes o

/-- A result's status code (11.8). -/
def Result.status : Result → Byte
  | .ok _ _ => 0x00
  | .refused _ _ _ => 0x01
  | .badFrame => 0x03
  | .unknownCommand _ => 0x04
  | .wrongLink _ => 0x05
  | .halted _ => 0x06

/-- A result's payload (11.9). -/
def Result.payload (l : Link) : Result → List Byte
  | .ok c f => c :: f.bytes l
  | .refused c r n => c :: byte r.code :: (if r = .penalty then be16 n else [])
  | .unknownCommand c => [c]
  | .wrongLink c => [c]
  | .halted c => [c]
  | .badFrame => []

/-! ## Response frames (R164, R166, R167) -/

/-- A response frame. -/
def responseFrame (status : Byte) (payload : List Byte) : List Byte :=
  let body := status :: byte payload.length :: payload
  body ++ [crc8 body]

/-- The frame of the one-shot note (R166). -/
def noteFrame (note : Option Byte) : List Byte :=
  match note with
  | some c => responseFrame 0x02 [c]
  | none => []

/-- The frame of a command slot (R167). -/
def CmdSlot.frame (l : Link) : CmdSlot → List Byte
  | .idle => responseFrame 0x10 []
  | .running .short _ => responseFrame 0x11 []
  | .running .long _ => responseFrame 0x12 []
  | .done r => responseFrame r.status (r.payload l)

/-- The response of an exchange: the note's frame, then the slot's frame as it stood when select fell (R163). -/
def LinkPort.response (x : Exchange) (p : LinkPort) : List Byte :=
  noteFrame p.note ++ (if x.wasRunning then responseFrame 0x12 [] else p.slot.frame x.link)

/-- What the master reads of an exchange that meets an unserved link: what was shifted out while it was served, then
all-ones (R163). -/
def unservedBytes (x : Exchange) : List Byte :=
  (x.broken.getD [] ++ List.replicate x.clocked 0xFF#8).take x.clocked

/-- The bytes shifted out: the response, then 0xFF for as long as the master clocks (R163). -/
def LinkPort.shifted (x : Exchange) (p : LinkPort) : List Byte :=
  (p.response x ++ List.replicate x.clocked 0xFF#8).take x.clocked

end Sys2Proof.Machine
end

