-- ==== Sys2Proof/Machine/Link.lean ====
section
/-! DEFINITION. Exchanges and command slots (R163 to R167): what every exchange does, what a valid frame restarts,
and how a command is taken. -/

namespace Sys2Proof.Machine

/-! ## Exchanges -/

/-- The exchange meets a link that is served from the fall of select to its rise (R163). -/
def State.serves (x : Exchange) (s : State) : Bool := s.served x.link && x.broken.isNone

/-- The exchange shifts its response out; an unserved link reads all-ones, from the fall or from where it stopped being
served (R163). -/
def State.shiftOut (x : Exchange) (s : State) : State :=
  s.onLiu fun u => u.onPort x.link fun p =>
    { p with dout := if s.serves x then p.shifted x else unservedBytes x }

/-- The whole BUSY frame was shifted out (R166). -/
def LinkPort.noteShown (x : Exchange) (p : LinkPort) : Bool :=
  p.note.isSome && decide ((noteFrame p.note).length ≤ x.clocked)

/-- A valid frame clears a note that was shifted out whole (R166). -/
def State.clearNote (x : Exchange) (s : State) : State :=
  s.onLiu fun u => u.onPort x.link fun p => { p with note := if p.noteShown x then none else p.note }

/-- A valid frame restarts the link timer of an attached bridge (R89), or the sleep timer in CELL_AWAKE, clearing
the sleep-due mark (R157). -/
def State.restartWatch (l : Link) (s : State) : State :=
  match l with
  | .p =>
    if s.ssv.mode = .cellAwake then
      s.onSsv fun v => { v with sleepTimer := Timer.start Config.sleepTicks, sleepDue := false }
    else s
  | .b =>
    if s.liu.bridge = .attached then s.onLiu fun u => { u with linkTimer := Timer.start Config.linkTicks } else s

/-- What every exchange with a valid frame does on a served link. -/
def State.validFrame (x : Exchange) (s : State) : State := ((s.shiftOut x).clearNote x).restartWatch x.link

/-! ## Taking a command (R165, R166) -/

/-- Set the slot. -/
def State.setSlot (l : Link) (c : CmdSlot) (s : State) : State :=
  s.onLiu fun u => u.onPort l fun p => { p with slot := c }

/-- Hold a code as the one-shot note (R166). -/
def State.setNote (l : Link) (code : Byte) (s : State) : State :=
  s.onLiu fun u => u.onPort l fun p => { p with note := some code }

/-- STATUS and GET_EVENT (R75, R165). -/
def isQuery (code : Byte) : Bool := code == 0x01 || code == 0x02

/-- A command taken on the P-link in CONFIG restarts the config timer, other than STATUS and GET_EVENT (R75). -/
def State.restartConfig (l : Link) (code : Byte) (s : State) : State :=
  if l = .p ∧ s.acc.access = .config ∧ isQuery code = false then
    s.onAcc fun c => { c with configTimer := Timer.start Config.configTicks }
  else s

/-- The command is taken: the slot becomes RUNNING, and a result it held is discarded (R165). -/
def State.occupy (l : Link) (code : Byte) (s : State) : State :=
  (s.setSlot l (.running .short code)).restartConfig l code

/-- Checks 2 to 4 of R165 on a command of a defined code, and the hand-over to its owner. -/
def State.checked {α : Type} (l : Link) (code : Byte) (q : Payload α) (owner : α → State → State) (s : State) :
    State :=
  if !codeOnLink code l then s.answer l .wrongLink
  else if s.acc.access = .halted ∧ isQuery code = false then s.answer l .halted
  else
    match q with
    | .ok a => owner a s
    | .malformed _ => s.refuse l .badRange

/-- The command slot is RUNNING. -/
def CmdSlot.isRunning : CmdSlot → Bool
  | .running _ _ => true
  | .idle => false
  | .done _ => false

/-- A valid frame other than POLL: met by an unserved link it has no effect on the part (R163); with the slot RUNNING
its code becomes the one-shot note (R166); otherwise the command is taken (R165). -/
def State.command (x : Exchange) (code : Byte) (body : State → State) (s : State) : State :=
  if !s.serves x then s.shiftOut x
  else if (s.liu.port x.link).slot.isRunning then (s.validFrame x).setNote x.link code
  else body ((s.validFrame x).occupy x.link code)

/-- A command of a defined code with its payload and its owner. -/
def State.take {α : Type} (x : Exchange) (code : Byte) (q : Payload α) (owner : α → State → State) (s : State) :
    State :=
  s.command x code fun t => t.checked x.link code q owner

/-! ## Collection (R167) -/

/-- The result's frame was shifted out whole, and was the one waiting when select fell (R167). -/
def LinkPort.collected (x : Exchange) (p : LinkPort) : Bool :=
  !x.wasRunning && p.slot.isDone && decide ((p.response x).length ≤ x.clocked)

/-- A valid POLL frame collects a result shifted out whole (R167). -/
def State.collect (x : Exchange) (s : State) : State :=
  if (s.liu.port x.link).collected x then (s.validFrame x).setSlot x.link .idle else s.validFrame x

/-! ## STATUS (R58, R118, R171) -/

/-- The status record as things stand (R171). -/
def State.statusRecord (s : State) : StatusRecord :=
  let wiping := s.acc.access == .wiping
  { access := s.acc.access, openSlot := s.acc.openSlot, mode := s.ssv.mode, level := s.ssv.level,
    timebase := s.tbu.state, bridge := s.liu.bridge, fails := s.atl.limiter.fails,
    threshold := s.plu.policy.wipeThreshold, attemptsLeft := s.attemptsLeft,
    penaltySeconds := s.penaltySeconds,
    wipeStep := if wiping then s.wpe.view.map WipeRecord.step else none
    run := if wiping then some s.wpe.run else none
    progress := if wiping then (s.wpe.view.map WipeRecord.progress).getD 0 else 0
    clockFault := s.acc.clockFault, caseOpen := s.acc.caseOpen, startCause := s.acc.startCause }

end Sys2Proof.Machine
end

