-- ==== Sys2Proof/Machine/BridgeCommands.lean ====
section
/-! DEFINITION. The bridge's commands: ATTACH, DETACH, LOCK, ACTIVITY, FETCH_KEY, LOCK_REPLY, WORK_FETCH, WORK_DONE,
DEFINE_VOLUME and READ_VOLUMES (chapters 4 to 6). -/

namespace Sys2Proof.Machine

/-! ## ATTACH, DETACH (R87, R88) -/

/-- Steps 1 to 4 of R87. -/
def Liu.attach (capacity : Nat) (u : Liu) : Liu :=
  { u with capacity := some capacity, bridge := .attached, bq := .empty, linkTimer := Timer.start Config.linkTicks }

/-- Step 5 of R87: what the ACC does with an ATTACH (R63, R71). -/
def State.accAttached (s : State) : State :=
  match s.acc.access with
  | .unlocked => s.onAcc fun c => { c with attachTimer := none, idleTimer := s.plu.policy.idleTimer }
  | .locking => s.completeLock
  | .blank => s
  | .locked => s
  | .penalty => s
  | .config => s
  | .wiping => s
  | .halted => s

/-- ATTACH after its frame is taken (R87). -/
def State.attach (capacity : Nat) (s : State) : State :=
  if capacity = 0 then s.refuse .b .badRange
  else
    let t := ((s.onLiu fun u => u.attach capacity).accAttached).bridgeAttached
    t.replyOk .b (.attach t.acc.access t.acc.openSlot t.releaseMask)

/-- ATTACH (R87). -/
def execAttach (x : Exchange) (q : Payload (BitVec 32)) (s : State) : Host.Outcome State Fault Refusal :=
  finish (s.take x 0x40 q fun c t => t.attach c.toNat)

/-- DETACH after its frame is taken (R88). -/
def State.detach (s : State) : State :=
  match s.liu.bridge with
  | .attached =>
    (((s.onLiu fun u => u.leave .present).bridgeLeft).raise .bridgeDetach .immediate).replyOk .b .none
  | .lost => (s.onLiu fun u => u.leave .present).replyOk .b .none
  | .present => s.refuse .b .notAttached
  | .absent => s.refuse .b .notAttached

/-- DETACH (R88). -/
def execDetach (x : Exchange) (q : Payload Unit) (s : State) : Host.Outcome State Fault Refusal :=
  finish (s.take x 0x41 q fun _ t => t.detach)

/-! ## LOCK, ACTIVITY, LOCK_REPLY (R63, R65, R69, R92) -/

/-- LOCK (R65). -/
def execLock (x : Exchange) (q : Payload Unit) (s : State) : Host.Outcome State Fault Refusal :=
  finish (s.take x 0x42 q fun _ t => (t.raise .bridgeLock .immediate).replyOk .b .none)

/-- A running idle timer restarts in UNLOCKED; every other case has no effect on the ACC (R63). -/
def State.hostActive (s : State) : State :=
  if s.acc.access = .unlocked ∧ s.acc.idleTimer.isSome then
    s.onAcc fun c => { c with idleTimer := s.plu.policy.idleTimer }
  else s

/-- ACTIVITY after its frame is taken (R92). -/
def State.activity (s : State) : State :=
  if s.liu.bridge ≠ .attached then s.refuse .b .notAttached
  else
    let t := s.hostActive
    t.replyOk .b (.activity t.acc.idleTimer.seconds)

/-- ACTIVITY (R92). -/
def execActivity (x : Exchange) (q : Payload Unit) (s : State) : Host.Outcome State Fault Refusal :=
  finish (s.take x 0x43 q fun _ t => t.activity)

/-- A HOLD with deferrals left (R69). -/
def State.hold (n : Nat) (s : State) : State :=
  let t := s.onAcc fun c => { c with deferrals := some n, deferTimer := Timer.start s.plu.policy.deferTicks }
  (t.offerLock (s.acc.lockCause.getD .panelLock) n).replyOk .b (.lockReply (.held n))

/-- LOCK_REPLY after its frame is taken (R69). -/
def State.lockReply (r : LockReplyCode) (s : State) : State :=
  if s.liu.bridge ≠ .attached then s.refuse .b .notAttached
  else if s.acc.access ≠ .locking then s.refuse .b .stale
  else
    match r with
    | .ready => s.completeLock.replyOk .b (.lockReply .locked)
    | .hold =>
      match s.acc.deferrals.getD 0 with
      | n + 1 => s.hold n
      | 0 => s.completeLock.replyOk .b (.lockReply .overruled)

/-- LOCK_REPLY (R69). -/
def execLockReply (x : Exchange) (q : Payload LockReplyCode) (s : State) : Host.Outcome State Fault Refusal :=
  finish (s.take x 0x45 q fun r t => t.lockReply r)

/-! ## FETCH_KEY (R90, R91) -/

/-- FETCH_KEY after its frame is taken (R90). -/
def State.fetchKey (b : Byte) (s : State) : State :=
  match s.releaseRefusal with
  | some r => s.refuse .b r
  | none =>
    match volIx? b with
    | none => s.refuse .b .noVolume
    | some v =>
      match s.volumeRefusal v with
      | some r => s.refuse .b r
      | none => s.replyOk .b (.keyRelease (s.keyRelease v))

/-- FETCH_KEY (R90). -/
def execFetchKey (x : Exchange) (q : Payload Byte) (s : State) : Host.Outcome State Fault Refusal :=
  finish (s.take x 0x44 q fun b t => t.fetchKey b)

/-! ## WORK_FETCH, WORK_DONE (R113, R114, R115) -/

/-- Withdraw an uncollected ERASE_WORK (R112). -/
def State.withdrawEraseWork (s : State) : State :=
  s.onLiu fun u => { u with bq := { u.bq with eraseWork := none } }

/-- A READY order is issued under the next number (R113). -/
def State.issueOrder (o : EraseOrder) (s : State) : State :=
  let n := nextOrderNumber s.wpe.counter
  let t := s.onWpe fun w => { w with counter := n, order := some { o with number := some n },
                                     orderTimer := Timer.start Config.orderTicks }
  (t.withdrawEraseWork).replyOk .b (.work (some (n, o.first, o.count)))

/-- WORK_FETCH after its frame is taken (R113). -/
def State.workFetch (s : State) : State :=
  if s.liu.bridge ≠ .attached then s.refuse .b .notAttached
  else if s.acc.access ≠ .wiping then s.refuse .b .notNow
  else
    match s.wpe.order with
    | none => s.replyOk .b (.work none)
    | some o =>
      match o.number with
      | none => s.issueOrder o
      | some n => s.replyOk .b (.work (some (n, o.first, o.count)))

/-- WORK_FETCH (R113). -/
def execWorkFetch (x : Exchange) (q : Payload Unit) (s : State) : Host.Outcome State Fault Refusal :=
  finish (s.take x 0x46 q fun _ t => t.workFetch)

/-- WORK_DONE after its frame is taken (R114). -/
def State.workDone (n : Nat) (r : WorkReport) (s : State) : State :=
  if s.liu.bridge ≠ .attached then s.refuse .b .notAttached
  else
    match s.issuedOrder n with
    | none => s.refuse .b .stale
    | some o =>
      match r with
      | .ok => (s.finishOrder o 0).replyOk .b (.workDone .advanced)
      | .fail => (s.failAttempt o).1.replyOk .b (.workDone (s.failAttempt o).2)

/-- WORK_DONE (R114). -/
def execWorkDone (x : Exchange) (q : Payload (BitVec 16 × WorkReport)) (s : State) :
    Host.Outcome State Fault Refusal :=
  finish (s.take x 0x47 q fun a t => t.workDone a.1.toNat a.2)

/-! ## DEFINE_VOLUME, READ_VOLUMES (R93, R94, R96) -/

/-- Checks 1 to 5 of R93. -/
def State.defineRefusal (b : Byte) (s : State) : Option Reason :=
  if s.liu.bridge ≠ .attached then some .notAttached
  else if s.acc.access = .wiping then some .wiping
  else if s.acc.access ≠ .unlocked then some .notNow
  else if s.acc.openSlot ≠ some 0 then some .noAuthority
  else if (volIx? b).isNone then some .noVolume
  else none

/-- The range of an index in the prospective table, while it is PRESENT or ERASING there (R94). -/
def State.prospectiveRange (s : State) (i : VolIx) : Option (Nat × Nat) :=
  match s.prospective.volumes.get i with
  | some (.range f c _) => some (f, c)
  | some .unused => none
  | none =>
    match (s.volume i).state, (s.volume i).first, (s.volume i).count with
    | .unused, _, _ => none
    | .present, some f, some c => some (f, c)
    | .erasing, some f, some c => some (f, c)
    | .present, _, _ => none
    | .erasing, _, _ => none

/-- A rounded range covers a block in common with another index of the prospective table (R93, R94). -/
def State.overlapsOther (i : VolIx) (first count : Nat) (s : State) : Bool :=
  allVolumes.any fun j => j != i &&
    (match s.prospectiveRange j with
     | some (f, c) => rangesOverlap first count f c
     | none => false)

/-- The rounded range is refused with BAD_RANGE (R93). -/
def State.rangeRefused (i : VolIx) (first count : Nat) (s : State) : Bool :=
  decide (count < Config.granule) || decide (s.liu.capacity.getD 0 < first + count) || s.overlapsOther i first count

/-- Stage a definition for the bridge (R94). -/
def State.stageDef (i : VolIx) (d : VolumeDef) (s : State) : State := s.stage .b (stagedVolume i d) (.volume i)

/-- The index of a definition. -/
def defineIx : DefineArgs → Byte
  | .range i _ _ _ => i
  | .unused i => i

/-- The range form is rounded and checked; the UNUSED form passes on (R93). -/
def State.defineAt (i : VolIx) (a : DefineArgs) (s : State) : State :=
  match a with
  | .unused _ => s.stageDef i .unused
  | .range _ f c ro =>
    if s.rangeRefused i (roundUp f.toNat) (roundDown c.toNat) then s.refuse .b .badRange
    else s.stageDef i (.range (roundUp f.toNat) (roundDown c.toNat) ro)

/-- DEFINE_VOLUME after its frame is taken (R93). -/
def State.defineVolume (a : DefineArgs) (s : State) : State :=
  match s.defineRefusal (defineIx a) with
  | some r => s.refuse .b r
  | none =>
    match volIx? (defineIx a) with
    | some i => s.defineAt i a
    | none => s.refuse .b .noVolume

/-- DEFINE_VOLUME (R93). -/
def execDefineVolume (x : Exchange) (q : Payload DefineArgs) (s : State) : Host.Outcome State Fault Refusal :=
  finish (s.take x 0x48 q fun a t => t.defineVolume a)

/-- READ_VOLUMES after its frame is taken (R96). -/
def State.readVolumes (s : State) : State :=
  if s.liu.bridge ≠ .attached then s.refuse .b .notAttached
  else s.replyOk .b (.volumes (s.liu.capacity.getD 0) (allVolumes.map s.volumeListing))

/-- READ_VOLUMES (R96). -/
def execReadVolumes (x : Exchange) (q : Payload Unit) (s : State) : Host.Outcome State Fault Refusal :=
  finish (s.take x 0x49 q fun _ t => t.readVolumes)

end Sys2Proof.Machine
end

