-- ==== Sys2Proof/Machine/KeyCommands.lean ====
section
/-! DEFINITION. The panel's KEY commands and ENROL_BEGIN (chapter 2). -/

namespace Sys2Proof.Machine

/-- A key carried out or ignored: the timer follows R30, and the answer is OK with the summary (R23). -/
def State.keyTaken (s : State) : State := s.touchEntryTimer.answerKey .none

/-- Checks 1 to 4 of R24, then check 5 as given, then the key's work. -/
def State.entryKey (allowed : State → Bool) (work : State → State) (s : State) : State :=
  match s.entryRefusal with
  | some r => s.refuseEntry r
  | none => if allowed s then work s else s.refuse .p .notNow

/-! ## DIGIT, BACK, CLEAR (R26, R27) -/

/-- A digit arrives: appended, or the OVERLONG mark set (R26). With the mark set a digit is discarded, also where BACK
has left fewer than 15 digits: DESIGN CHOICE, log entry 34. -/
def Keu.digit (d : Digit) (k : Keu) : Keu :=
  if k.digits.length < Config.maxDigits ∧ k.overlong = false then { k with digits := k.digits ++ [d], bstate := .collecting }
  else { k with overlong := true, bstate := .collecting }

/-- KEY_DIGIT (R26). -/
def execKeyDigit (x : Exchange) (q : Payload Digit) (s : State) : Host.Outcome State Fault Refusal :=
  finish (s.take x 0x20 q fun d t =>
    t.entryKey State.entryAllowed fun u => (u.onKeu fun k => k.digit d).keyTaken)

/-- BACK removes the newest digit (R27). An EVALUATING buffer is held unchanged (R20); no key reaches it (R23). -/
def Keu.back (k : Keu) : Keu :=
  if k.bstate = .evaluating then k else Keu.settleState { k with digits := k.digits.dropLast }

/-- KEY_BACK (R27). -/
def execKeyBack (x : Exchange) (q : Payload Unit) (s : State) : Host.Outcome State Fault Refusal :=
  finish (s.take x 0x20 q fun _ t => (t.onKeu Keu.back).keyTaken)

/-- CLEAR empties the buffer (R27). -/
def Keu.clear (k : Keu) : Keu := if k.bstate = .evaluating then k else k.emptied

/-- KEY_CLEAR (R27). -/
def execKeyClear (x : Exchange) (q : Payload Unit) (s : State) : Host.Outcome State Fault Refusal :=
  finish (s.take x 0x20 q fun _ t => (t.onKeu Keu.clear).keyTaken)

/-! ## ENTER (R32, R33, R37, R38) -/

/-- The form checks of an ENTER: the outcome of the first that fails (R32). -/
def Keu.formOutcome (k : Keu) : Option KeyOutcome :=
  if k.digits = [] then some .empty
  else if k.overlong then some .overlong
  else if k.digits.length < Config.minDigits then some .tooShort
  else none

/-- An ENTER that ends at once: the buffer is emptied and the outcome answered (R32, R37). -/
def State.enterEnds (o : KeyOutcome) (s : State) : State := s.emptyBuffer.touchEntryTimer.answerKey o

/-- The low cell check of an attempt (R33 step 1). -/
def State.lowCellRefuses (s : State) : Bool :=
  (s.keu.intent == .admin || s.keu.intent == .recover) && s.ssv.mode == .cellAwake && s.ssv.level == .low

/-- An attempt whose form passed (R33). -/
def State.enterAttempt (s : State) : State :=
  if s.lowCellRefuses then s.emptyBuffer.touchEntryTimer.refuse .p .lowCell else s.evaluate

/-- An entry of a dialogue whose form passed: the first entry must reach PIN_MIN (R37, R38). -/
def State.enterDialogue (d : Dialogue) (s : State) : State :=
  match d.step with
  | .first =>
    if s.keu.digits.length < s.plu.policy.pinMin then s.enterEnds .tooShort else s.handOn .verifyFirst
  | .confirm => s.handOn .verifyConfirm

/-- An ENTER that passed the gate (R32). -/
def State.enter (s : State) : State :=
  match s.keu.formOutcome with
  | some o => s.enterEnds o
  | none =>
    match s.keu.dialogue with
    | some d => s.enterDialogue d
    | none => s.enterAttempt

/-- KEY_ENTER (R32). -/
def execKeyEnter (x : Exchange) (q : Payload Unit) (s : State) : Host.Outcome State Fault Refusal :=
  finish (s.take x 0x20 q fun _ t => t.entryKey State.entryAllowed State.enter)

/-! ## LOCK, ADMIN, RECOVER, CHANGE, EXIT (R28, R29, R36) -/

/-- LOCK also empties the buffer in LOCKED and BLANK (R29). -/
def State.lockEmpties (s : State) : State :=
  if s.acc.access = .locked ∨ s.acc.access = .blank then s.onKeu Keu.clear else s

/-- KEY_LOCK (R29). -/
def execKeyLock (x : Exchange) (q : Payload Unit) (s : State) : Host.Outcome State Fault Refusal :=
  finish (s.take x 0x20 q fun _ t => (t.lockEmpties.raise .panelLock .orderly).keyTaken)

/-- ADMIN and RECOVER are allowed in LOCKED (R25). -/
def State.intentAllowed (s : State) : Bool := s.acc.access == .locked

/-- An EMPTY buffer takes the intent; otherwise the key is ignored (R28). -/
def Keu.setIntent (i : Intent) (k : Keu) : Keu :=
  if k.bstate = .empty then { k with intent := i, bstate := .collecting } else k

/-- KEY_ADMIN (R28). -/
def execKeyAdmin (x : Exchange) (q : Payload Unit) (s : State) : Host.Outcome State Fault Refusal :=
  finish (s.take x 0x20 q fun _ t =>
    t.entryKey State.intentAllowed fun u => (u.onKeu fun k => k.setIntent .admin).keyTaken)

/-- KEY_RECOVER (R28). -/
def execKeyRecover (x : Exchange) (q : Payload Unit) (s : State) : Host.Outcome State Fault Refusal :=
  finish (s.take x 0x20 q fun _ t =>
    t.entryKey State.intentAllowed fun u => (u.onKeu fun k => k.setIntent .recover).keyTaken)

/-- CHANGE is allowed in UNLOCKED with no dialogue running (R25). -/
def State.changeAllowed (s : State) : Bool := s.acc.access == .unlocked && s.keu.dialogue.isNone

/-- A PIN change begins for the open slot if it is eligible (R36). -/
def State.beginChange (s : State) : State :=
  match s.acc.openSlot with
  | some i =>
    if s.eligible .change i then (s.beginDialogue .change i none none).keyTaken else s.refuse .p .slotState
  | none => s.refuse .p .slotState

/-- KEY_CHANGE (R36). -/
def execKeyChange (x : Exchange) (q : Payload Unit) (s : State) : Host.Outcome State Fault Refusal :=
  finish (s.take x 0x20 q fun _ t => t.entryKey State.changeAllowed State.beginChange)

/-- A CHANGE dialogue is running (R29). -/
def Keu.inChange (k : Keu) : Bool :=
  match k.dialogue with
  | some d => d.kind == .change
  | none => false

/-- EXIT leaves CONFIG, or ends a CHANGE dialogue in UNLOCKED (R29). -/
def State.exitKey (s : State) : State :=
  if s.acc.access = .config then s.endConfig.keyTaken
  else if s.acc.access = .unlocked ∧ s.keu.inChange then s.endDialogue.keyTaken
  else s.refuse .p .notNow

/-- KEY_EXIT (R29). -/
def execKeyExit (x : Exchange) (q : Payload Unit) (s : State) : Host.Outcome State Fault Refusal :=
  finish (s.take x 0x20 q fun _ t => t.exitKey)

/-! ## ENROL_BEGIN (R13, R34) -/

/-- Checks 1 to 5 of R34, for an index within range. -/
def State.enrolRefusal (b : Byte) (s : State) : Option Reason :=
  if s.acc.access = .wiping then some .wiping
  else if s.acc.access ≠ .config then some .notNow
  else
    match slotIx? b with
    | none => some .noSlot
    | some i =>
      if s.acc.openSlot ≠ some 0 ∧ i ≠ 0 then some .noAuthority
      else if s.clockBars || s.caseBars then some .condition
      else none

/-- Check 6 of R34: the CTB finds the target eligible, and the checked mask of a user slot non-empty (R13). Where both
fail the refusal is SLOT_STATE: DESIGN CHOICE, log entry 33. -/
def State.enrolTargetRefusal (i : SlotIx) (m : VolMask) (s : State) : Option Reason :=
  if !s.eligible .enrol i then some .slotState
  else if isUserSlot i && s.checkedMask m == 0 then some .noVolume
  else none

/-- An ENROL dialogue begins, ending any other (R34). -/
def State.beginEnrol (i : SlotIx) (a : EnrolArgs) (s : State) : State :=
  (s.endDialogue.beginDialogue .enrol i (if isUserSlot i then some a.mode else none)
    (if isUserSlot i then some (s.checkedMask a.mask) else none)).keyTaken

/-- ENROL_BEGIN after its frame is taken (R34). -/
def State.enrolBegin (a : EnrolArgs) (s : State) : State :=
  match s.enrolRefusal a.index with
  | some r => s.refuse .p r
  | none =>
    match slotIx? a.index with
    | none => s.refuse .p .noSlot
    | some i =>
      match s.enrolTargetRefusal i a.mask with
      | some r => s.refuse .p r
      | none => s.beginEnrol i a

/-- ENROL_BEGIN (R34). -/
def execEnrolBegin (x : Exchange) (q : Payload EnrolArgs) (s : State) : Host.Outcome State Fault Refusal :=
  finish (s.take x 0x21 q fun a t => t.enrolBegin a)

end Sys2Proof.Machine
end

