-- ==== Sys2Proof/Machine/LinkCommands.lean ====
section
/-! DEFINITION. The commands of the Link Interface Unit: POLL, STATUS, GET_EVENT, and the frames that are not carried
out (chapter 11). -/

namespace Sys2Proof.Machine

/-- POLL (R163, R166, R167): never taken; its payload is not examined. -/
def execPoll (x : Exchange) (_payload : List Byte) (s : State) : Host.Outcome State Fault Refusal :=
  finish (if s.serves x then s.collect x else s.shiftOut x)

/-- STATUS (R171). -/
def execStatus (x : Exchange) (q : Payload Unit) (s : State) : Host.Outcome State Fault Refusal :=
  finish (s.take x 0x01 q fun _ t => t.replyOk x.link (.status t.statusRecord))

/-- GET_EVENT takes the highest-priority event of its link's queue (R169). -/
def State.takeEvent (l : Link) (s : State) : State :=
  match l with
  | .p => (s.onLiu fun u => { u with pq := u.pq.take.2 }).replyOk .p (.event s.liu.pq.take.1)
  | .b => (s.onLiu fun u => { u with bq := u.bq.take.2 }).replyOk .b (.event s.liu.bq.take.1)

/-- GET_EVENT (R169). -/
def execGetEvent (x : Exchange) (q : Payload Unit) (s : State) : Host.Outcome State Fault Refusal :=
  finish (s.take x 0x02 q fun _ t => t.takeEvent x.link)

/-- A discarded request: with the slot IDLE it becomes DONE with BAD_FRAME (R164). -/
def State.discardFrame (x : Exchange) (s : State) : State :=
  let t := s.shiftOut x
  if !s.serves x then t
  else
    match (s.liu.port x.link).slot with
    | .idle => t.setSlot x.link (.done .badFrame)
    | .running _ _ => t
    | .done _ => t

/-- BAD_FRAME (R163, R164): an exchange of fewer than eight clocks is ignored. Bytes that pass the checks are not a
bad frame, and leave the state as it was (log entry 4). -/
def execBadFrame (x : Exchange) (bytes : List Byte) (s : State) : Host.Outcome State Fault Refusal :=
  finish (if (checkFrame bytes).isSome then s else if bytes = [] then s.shiftOut x else s.discardFrame x)

/-- BUSY (R165, R166): a valid frame other than POLL that meets a RUNNING slot. Met by another slot, or with the
code of POLL, it is another row, and leaves the state as it was (log entry 4). -/
def execBusy (x : Exchange) (code : Byte) (s : State) : Host.Outcome State Fault Refusal :=
  finish (if !s.serves x then s.shiftOut x
          else if code ≠ 0 ∧ (s.liu.port x.link).slot.isRunning then (s.validFrame x).setNote x.link code
          else s)

/-- UNKNOWN_COMMAND (R165 check 1): a defined code is another row, and leaves the state as it was (log entry 4). -/
def execUnknownCommand (x : Exchange) (code : Byte) (_payload : List Byte) (s : State) :
    Host.Outcome State Fault Refusal :=
  finish (if (codeLinks code).isSome then s
          else s.command x code fun t => t.answer x.link .unknownCommand)

end Sys2Proof.Machine
end

