-- ==== Sys2Proof/Machine/SettingsCommands.lean ====
section
/-! DEFINITION. The commands of both links that administer the table and the settings: LIST_SLOTS, BAR_SLOT,
UNBAR_SLOT, CLEAR_SLOT (R15 to R18), SET_POLICY, READ_POLICY, SET_LOCK_MAP (R125 to R128), WIPE (R100), and the
bridge's WRITE_OPTIONS (R133). -/

namespace Sys2Proof.Machine

/-- The authority checks, then the command's own work (R15, R100, R125). -/
def State.asAdmin (l : Link) (work : State → State) (s : State) : State :=
  match s.adminRefusal l with
  | some r => s.refuse l r
  | none => work s

/-- LIST_SLOTS (R18). -/
def execListSlots (x : Exchange) (q : Payload Unit) (s : State) : Host.Outcome State Fault Refusal :=
  finish (s.take x 0x08 q fun _ t => t.asAdmin x.link fun u =>
    u.replyOk x.link (.slots (allSlots.map u.listing)))

/-- Queue the write of a slot administration command, LONG until the CTB answers (R8, R15). -/
def State.adminWrite (l : Link) (i : SlotIx) (r : SlotRecord) (s : State) : State :=
  (s.writeSlot i r (.admin (some l))).runLong l

/-- The state change of BAR_SLOT or UNBAR_SLOT on slots 1 to 8, after checks 5 and 6 of R15 (R16). -/
def State.moveSlot (l : Link) (b : Byte) (old new : SlotState) (s : State) : State :=
  match slotIx? b with
  | some i =>
    if !isUserSlot i then s.refuse l .noSlot
    else if (s.slotRec i).state ≠ old then s.refuse l .slotState
    else s.adminWrite l i { s.slotRec i with state := new }
  | none => s.refuse l .noSlot

/-- BAR_SLOT (R16). -/
def execBarSlot (x : Exchange) (q : Payload Byte) (s : State) : Host.Outcome State Fault Refusal :=
  finish (s.take x 0x09 q fun b t => t.asAdmin x.link fun u => u.moveSlot x.link b .active .barred)

/-- UNBAR_SLOT (R16). -/
def execUnbarSlot (x : Exchange) (q : Payload Byte) (s : State) : Host.Outcome State Fault Refusal :=
  finish (s.take x 0x0A q fun b t => t.asAdmin x.link fun u => u.moveSlot x.link b .barred .active)

/-- CLEAR_SLOT after the authority checks (R17). -/
def State.clearSlot (l : Link) (b : Byte) (s : State) : State :=
  match slotIx? b with
  | some i =>
    if i = 0 then s.refuse l .noSlot
    else if (s.slotRec i).state = .empty ∧ (s.cell i).fault = false then s.replyOk l .none
    else s.adminWrite l i .empty
  | none => s.refuse l .noSlot

/-- CLEAR_SLOT (R17). -/
def execClearSlot (x : Exchange) (q : Payload Byte) (s : State) : Host.Outcome State Fault Refusal :=
  finish (s.take x 0x0B q fun b t => t.asAdmin x.link fun u => u.clearSlot x.link b)

/-- SET_POLICY after the authority checks (R126). -/
def State.setPolicy (l : Link) (values : List (PolicyField × BitVec 16)) (s : State) : State :=
  if values = [] then s.replyOk l (.policy PendingSet.empty.policy)
  else s.stage l { PendingSet.empty with policy := s.withRaisedThreshold (stagedValues values) } .policy

/-- SET_POLICY (R126). -/
def execSetPolicy (x : Exchange) (q : Payload (List (PolicyField × BitVec 16))) (s : State) :
    Host.Outcome State Fault Refusal :=
  finish (s.take x 0x0C q fun values t => t.asAdmin x.link fun u => u.setPolicy x.link values)

/-- READ_POLICY (R128). -/
def execReadPolicy (x : Exchange) (q : Payload Unit) (s : State) : Host.Outcome State Fault Refusal :=
  finish (s.take x 0x0D q fun _ t => t.asAdmin x.link fun u => u.replyOk x.link (.policyListing u.policyListing))

/-- SET_LOCK_MAP after the authority checks (R127). An action that is not allowed refuses the command also where the
same entry is given an allowed action later: DESIGN CHOICE, log entry 38. -/
def State.setLockMap (l : Link) (entries : List (MapEntry × LockAction)) (s : State) : State :=
  if entries.any fun e => !mapAllows e.1 e.2 then s.refuse l .badRange
  else if entries = [] then s.replyOk l (.map .empty)
  else s.stage l { PendingSet.empty with map := stagedEntries entries } .map

/-- SET_LOCK_MAP (R127). -/
def execSetLockMap (x : Exchange) (q : Payload (List (MapEntry × LockAction))) (s : State) :
    Host.Outcome State Fault Refusal :=
  finish (s.take x 0x0E q fun entries t => t.asAdmin x.link fun u => u.setLockMap x.link entries)

/-- The wipe cause of a link (R99). -/
def adminCause : Link → WipeCause
  | .p => .panelAdmin
  | .b => .bridgeAdmin

/-- WIPE after the authority checks: answered once the state is WIPING (R100). -/
def State.adminWipe (l : Link) (s : State) : State :=
  (s.startWipe (adminCause l)).replyOk l
    (.wipe (adminCause l) (s.depthOf (adminCause l)) (s.keepOf (adminCause l)))

/-- WIPE (R100). -/
def execWipe (x : Exchange) (q : Payload Unit) (s : State) : Host.Outcome State Fault Refusal :=
  finish (s.take x 0x0F q fun _ t => t.asAdmin x.link fun u => u.adminWipe x.link)

/-- WRITE_OPTIONS after its frame is taken (R133). -/
def State.writeOptions (l : Link) (values : List (OptionField × Byte)) (s : State) : State :=
  if s.liu.bridge ≠ .attached then s.refuse l .notAttached
  else if s.plu.stored.factoryLocked then s.refuse l .factoryLocked
  else if s.acc.access ≠ .blank then s.refuse l .notNow
  else if values = [] then s.replyOk l (.options s.plu.stored)
  else (s.requestWrite (.option (s.plu.optionBase.overlay values)) (.options (some l))).runLong l

/-- WRITE_OPTIONS (R133). -/
def execWriteOptions (x : Exchange) (q : Payload (List (OptionField × Byte))) (s : State) :
    Host.Outcome State Fault Refusal :=
  finish (s.take x 0x4A q fun values t => t.writeOptions x.link values)

end Sys2Proof.Machine
end

