-- ==== Sys2Proof/Machine/StoreEvents.lean ====
section
/-! DEFINITION. The ends of operations: EVALUATION_END (R46), ENROL_VERIFIER_DONE (R37, R38) and STORE_WRITE_END (R139,
R140) with what each owner does at the end of its write. -/

namespace Sys2Proof.Machine

/-! ## EVALUATION_END (R46) -/

/-- EVALUATION_END: the 150 ms of a judgement have passed (R46). With no judgement running the event cannot arise,
and the state is as it was (log entry 4). -/
def execEvaluationEnd (s : State) : Host.Outcome State Fault Refusal :=
  finish (match s.keu.flight with
          | some (.judging a) => s.judge a
          | _ => s)

/-! ## ENROL_VERIFIER_DONE (R14, R37, R38, R39) -/

/-- The CTB takes an enrolment write: eligibility and duplicates are checked, then the write is queued (R14). -/
def State.enrolWrite (d : Dialogue) (c : Candidate) (s : State) : State :=
  if !s.eligible d.kind d.target then s.refuseEnrolment .slotState
  else if s.isDuplicate d.target c.verifier then s.answerEnrolment .duplicate
  else (s.setFlight .enrolWrite).writeSlot d.target (s.enrolRecord d c) (.enrol d.target)

/-- The confirming entry is compared with the candidate (R38). -/
def State.confirmEntry (s : State) : State :=
  match s.keu.dialogue with
  | none => s.answerEnrolment .mismatch
  | some d =>
    match d.candidate with
    | none => s.answerEnrolment .mismatch
    | some c =>
      if c.verifier = verifierOf s.keu.digits then s.enrolWrite d c else s.answerEnrolment .mismatch

/-- ENROL_VERIFIER_DONE: the 150 ms of a verifier computation have passed (R37, R38); a change of access state or
gate meanwhile makes it MISMATCH (R39). With no computation running the state is as it was (log entry 4). -/
def execEnrolVerifierDone (s : State) : Host.Outcome State Fault Refusal :=
  finish (match s.keu.flight with
          | some .verifyFirst => if s.keu.disturbed then s.answerEnrolment .mismatch else s.takeFirst
          | some .verifyConfirm => if s.keu.disturbed then s.answerEnrolment .mismatch else s.confirmEntry
          | _ => s)

/-! ## Completed writes -/

/-- An AUTOMATIC dialogue is running (R38). -/
def Keu.inAutomatic (k : Keu) : Bool :=
  match k.dialogue with
  | some d => d.kind == .automatic
  | none => false

/-- A completed enrolment write: an AUTOMATIC dialogue in BLANK is reported to the ACC, which enters LOCKED, and the
key is answered ENROLLED (R14, R38, R73). -/
def State.enrolled (s : State) : State :=
  (if s.keu.inAutomatic && s.acc.access == .blank then s.enterLocked else s).answerEnrolment .enrolled

/-- A Limiter write completed (R40, R45, R47, R48, R55, R56). -/
def State.limiterWritten (p : Purpose) (r : Limiter) (s : State) : State :=
  match p with
  | .preCount => s.preCountDone r
  | .refund => s.refundDone r
  | .served => s.servedDone r
  | .reset => (s.setLimiter r).resetAnswered
  | _ => s.setLimiter r

/-- A slot write completed (R8). -/
def State.slotWritten (p : Purpose) (i : SlotIx) (r : SlotRecord) (s : State) : State :=
  let t := s.slotDone i r
  match p with
  | .uses _ => t.grant i
  | .spend => t.spendDone
  | .enrol _ => t.enrolled
  | .admin req => t.replyOkTo req .none
  | .slotDestroy _ _ => t.destroyAnswered true
  | _ => t

/-- A volume write completed (R84). -/
def State.volumeWritten (p : Purpose) (i : VolIx) (s : State) : State :=
  match p with
  | .volumeApply _ => s.volumePartEnded i .done
  | .volumeDestroy _ => s.destroyAnswered true
  | .volumeRekey _ => s.rekeyAnswered
  | _ => s

/-- The owner of a completed write is answered done (R139). -/
def State.writeDone (e : WriteEntry) (s : State) : State :=
  match e.contents with
  | .limiter r => s.limiterWritten e.purpose r
  | .slot i r => s.slotWritten e.purpose i r
  | .volume i _ => s.volumeWritten e.purpose i
  | .policy _ => s.policyDone
  | .map _ => s.mapDone
  | .journal j =>
    match e.purpose with
    | .journal w => s.journalDone w j
    | _ => s
  | .pset a =>
    match e.purpose with
    | .pset carried discarded => s.psetDone a carried discarded
    | _ => s
  | .option o =>
    match e.purpose with
    | .options req => s.optionsDone o req
    | _ => s

/-! ## Failed writes (R140) -/

/-- A Limiter write failed: HALTED; an evaluation is answered STORE_FAULT (R45, R47, R48, R55, R56). -/
def State.limiterFailed (p : Purpose) (s : State) : State :=
  match p with
  | .preCount => s.evaluationHalted
  | .refund => s.evaluationHalted
  | _ => s.enterHalted

/-- A slot write failed (R9, R11, R12, R14, R16, R17, R19). -/
def State.slotWriteFailed (p : Purpose) (i : SlotIx) (r : SlotRecord) (s : State) : State :=
  match p with
  | .uses _ => (s.slotFailed i r).grant i
  | .spend => (s.slotFailed i r).failAttemptOfEntry true
  | .enrol _ => (s.slotFailed i r).refuseEnrolment .storeFault
  | .admin req => (s.slotFailed i r).refuseTo req .storeFault
  | .slotDestroy _ old => (s.destroyFailed i old).destroyAnswered false
  | _ => s.slotFailed i r

/-- A volume write failed (R84). -/
def State.volumeWriteFailed (p : Purpose) (i : VolIx) (s : State) : State :=
  let t := s.volumeFailed i
  match p with
  | .volumeApply _ => t.volumePartEnded i .failed
  | .volumeDestroy _ => t.destroyAnswered false
  | .volumeRekey _ => t.rekeyAnswered
  | _ => t

/-- The owner of a failed write is answered failed (R140). -/
def State.writeFailed (e : WriteEntry) (s : State) : State :=
  match e.contents with
  | .limiter _ => s.limiterFailed e.purpose
  | .slot i r => s.slotWriteFailed e.purpose i r
  | .volume i _ => s.volumeWriteFailed e.purpose i
  | .policy _ => s.policyFailed
  | .map _ => s.mapFailed
  | .journal _ => s.journalFailed
  | .pset _ =>
    match e.purpose with
    | .pset carried _ => s.psetFailed carried
    | _ => s
  | .option _ =>
    match e.purpose with
    | .options req => s.optionsFailed req
    | _ => s

/-! ## STORE_WRITE_END (R139, R140) -/

/-- A location whose first attempt failed keeps its mark for the second (R139). -/
def Location.retried {α : Type} (_ : α) (l : Location α) : Location α := { l with written := true }

/-- No write is current (R137). -/
def State.clearCurrent (s : State) : State := s.onRsc fun r => { r with current := none }

/-- What a failed write leaves, by the record: a failed Option write leaves neither contents whole, so that the next
start-up finds it DAMAGED (R133): DESIGN CHOICE, log entry 40. The other records may read old, new or DAMAGED (R140). -/
def Contents.residue (c : Contents) (left : Residue) : Residue :=
  match c with
  | .option _ => .neither
  | _ => left

/-- An attempt of the current write ends (R139, R140). -/
def State.attemptEnds (w : CurrentWrite) (r : AttemptEnd) (s : State) : State :=
  match r with
  | .passed => ((s.onStore (Store.onLocation Location.complete w.entry.contents)).clearCurrent).writeDone w.entry
  | .failed left =>
    if w.attempt = 1 then
      (s.onStore (Store.onLocation Location.retried w.entry.contents)).onRsc fun c =>
        { c with current := some { w with attempt := 2 } }
    else
      ((s.onStore (Store.onLocation (Location.fail (w.entry.contents.residue left)) w.entry.contents)).clearCurrent).writeFailed w.entry

/-- STORE_WRITE_END: an attempt ends with its verify (R139). With no write current the state is as it was (log entry
4). -/
def execStoreWriteEnd (result : AttemptEnd) (s : State) : Host.Outcome State Fault Refusal :=
  finish (match s.rsc.current with
          | some w => s.attemptEnds w result
          | none => s)

end Sys2Proof.Machine
end

