-- ==== Sys2Proof/Machine/SupplyEvents.lean ====
section
/-! DEFINITION. The CASE input, sleep, wake, the supplies and RESET_N (chapter 10; R141, R147). -/

namespace Sys2Proof.Machine

/-- CASE_CHANGE: the input moves to a level; the debounce starts or stops (R162). The debounce stands still while
the retain domain is unpowered or held in reset. -/
def execCaseChange (high : Bool) (s : State) : Host.Outcome State Fault Refusal :=
  let t := s.onPins fun p => { p with caseHigh := high }
  finish (if s.powered then t.debounceCase else t)

/-- CASE_DEBOUNCE_EXPIRY (R162). -/
def execCaseDebounceExpiry (s : State) : Host.Outcome State Fault Refusal :=
  finish (if s.ssv.caseTimer.due then s.caseDebounced else s)

/-- CELL_SLEEP_ENTRY: every sleep condition holds with the mark set (R158). -/
def execCellSleepEntry (s : State) : Host.Outcome State Fault Refusal :=
  finish (if s.sleepConditions then s.enterSleep else s)

/-- WAKE_N: taken by its level in CELL_SLEEP; without effect in the other modes (R159). -/
def execWakeN (low : Bool) (s : State) : Host.Outcome State Fault Refusal :=
  let t := s.onPins fun p => { p with wakeLow := low }
  finish (if low ∧ s.powered ∧ s.ssv.mode = .cellSleep then t.wake .cellAwake else t)

/-- A part held in reset: its starting state, the mode following BUSDET (R147, R154); in OFF nothing is held (log
entry 31). -/
def State.held (s : State) : State :=
  if s.ssv.mode = .off then s else s.volatileInit (modeBy s.pins.busdet) (bridgeBy s.pins.busdet)

/-- Power-on from OFF: start-up, or, with RESET_N low, the held starting state (R78, R154, log entry 31). -/
def State.powerUp (s : State) : State :=
  if s.pins.resetLow then s.volatileInit (modeBy s.pins.busdet) (bridgeBy s.pins.busdet)
  else s.startUp .powerOn

/-- Bus power arrives, by the mode it meets (R155). -/
def State.busPowerArrives (s : State) : State :=
  match s.ssv.mode with
  | .off => s.powerUp
  | .bus => if s.pins.resetLow then s.held else s
  | .cellAwake => if s.pins.resetLow then s.held else s.busArrives
  | .cellSleep => if s.pins.resetLow then s.held else s.wake .bus

/-- BUS_POWER_ARRIVAL: BUSDET changes from absent to present (R155). -/
def execBusPowerArrival (s : State) : Host.Outcome State Fault Refusal :=
  finish (if s.pins.busdet then s else (s.onPins fun p => { p with busdet := true }).busPowerArrives)

/-- Bus power is lost in BUS: the part stays on the cell, or goes to OFF (R156). -/
def State.busPowerLost (cut : CutPoint) (s : State) : State :=
  if s.pins.resetLow then s.held
  else if s.ssv.staysOnCell s.plu.inForce.cellFitted then s.busLost
  else s.powerOff cut

/-- BUS_POWER_LOSS: BUSDET changes from present to absent (R156). -/
def execBusPowerLoss (cut : CutPoint) (s : State) : Host.Outcome State Fault Refusal :=
  finish (if s.pins.busdet then
            (let t := s.onPins fun p => { p with busdet := false }
             if s.ssv.mode = .bus then t.busPowerLost cut else t)
          else s)

/-- POWER_ON: a supply appears with the part in OFF (R78, R154). In another mode it cannot arise (log entry 4). -/
def execPowerOn (bus : Bool) (s : State) : Host.Outcome State Fault Refusal :=
  finish (if s.ssv.mode = .off then (s.onPins fun p => { p with busdet := bus }).powerUp else s)

/-- POWER_LOSS: no supply is left, and the part goes to OFF (R141, R153, log entry 32). -/
def execPowerLoss (cut : CutPoint) (s : State) : Host.Outcome State Fault Refusal :=
  finish (if s.ssv.mode = .off then s
          else (s.onPins fun p => { p with busdet := false }).powerOff cut)

/-- RESET_N low: the current write is cut, and the part is held in its starting state, its mode following BUSDET
(R141, R147, R154). -/
def State.holdReset (cut : CutPoint) (s : State) : State :=
  if s.ssv.mode = .off then s else (s.cutStore cut).held

/-- RESET_N (R141, R147, R154). -/
def execResetN (cut : CutPoint) (s : State) : Host.Outcome State Fault Refusal :=
  finish (if s.pins.resetLow then s else (s.onPins fun p => { p with resetLow := true }).holdReset cut)

/-- Release of RESET_N: start-up with cause RESET_PIN (R79, R147, R154), also where the part was powered on with RESET_N
low (DESIGN CHOICE, log entry 36); in OFF only the pin changes. -/
def execResetNRelease (s : State) : Host.Outcome State Fault Refusal :=
  let t := s.onPins fun p => { p with resetLow := false }
  finish (if s.pins.resetLow ∧ s.ssv.mode ≠ .off then t.startUp .resetPin else t)

end Sys2Proof.Machine
end

