-- ==== Sys2Proof/Machine/TimerEvents.lean ====
section
/-! DEFINITION. TICK, the changes of timebase, and the expiries (chapter 9). An expiry acts when the timer's count has
reached 0 and has been neither restarted nor stopped since (R150, R151, log entry 5); otherwise it cannot arise, and
the state is as it was (log entry 4). -/

namespace Sys2Proof.Machine

/-- TICK, with the cell voltage a sample at this tick reads, in millivolts (R144, log entry 17). -/
def execTick (cellMillivolts : Nat) (s : State) : Host.Outcome State Fault Refusal :=
  finish (if s.powered then s.takeTick cellMillivolts else s)

/-- FALLBACK: the gap count reaches 32 in CRYSTAL (R145). -/
def execFallback (s : State) : Host.Outcome State Fault Refusal :=
  finish (if s.powered ∧ s.tbu.state = .crystal then s.enterFallback else s)

/-- CRYSTAL_RETURN: the run count reaches 8,192 in FALLBACK (R146). -/
def execCrystalReturn (s : State) : Host.Outcome State Fault Refusal :=
  finish (if s.powered ∧ s.tbu.state = .fallback then s.enterCrystal else s)

/-- CRYSTAL_SILENT_AGAIN: the gap count reaches 32 in FALLBACK (R146). -/
def execCrystalSilentAgain (s : State) : Host.Outcome State Fault Refusal :=
  finish (if s.powered ∧ s.tbu.state = .fallback then s.onTbu fun b => { b with gap := 0, run := some 0 } else s)

/-- ENTRY_TIMER_EXPIRY: the entry is abandoned (R31). -/
def execEntryTimerExpiry (s : State) : Host.Outcome State Fault Refusal :=
  finish (if s.keu.entryTimer.due then s.endDialogue.postP .entryAbandoned else s)

/-- The expiry of a penalty: the timer stops, a sleeping part wakes, the served write is requested (R55). -/
def State.penaltyExpires (s : State) : State :=
  let t := s.stopPenalty
  (if s.ssv.mode = .cellSleep then t.wake .cellAwake else t).requestServed

/-- PENALTY_EXPIRY (R55). -/
def execPenaltyExpiry (s : State) : Host.Outcome State Fault Refusal :=
  finish (if s.atl.penalty.due then s.penaltyExpires else s)

/-- IDLE_EXPIRY (R63). -/
def execIdleExpiry (s : State) : Host.Outcome State Fault Refusal :=
  finish (if s.acc.idleTimer.due then
            (s.onAcc fun c => { c with idleTimer := none }).raise .idleExpiry .orderly else s)

/-- ATTACH_EXPIRY (R64). -/
def execAttachExpiry (s : State) : Host.Outcome State Fault Refusal :=
  finish (if s.acc.attachTimer.due then
            (s.onAcc fun c => { c with attachTimer := none }).raise .attachExpiry .forced else s)

/-- The defer timer expires: in LOCKING the lock completes (R70). -/
def State.deferExpires (s : State) : State :=
  let t := s.onAcc fun c => { c with deferTimer := none }
  if s.acc.access = .locking then t.completeLock else t

/-- DEFER_EXPIRY (R70). -/
def execDeferExpiry (s : State) : Host.Outcome State Fault Refusal :=
  finish (if s.acc.deferTimer.due then s.deferExpires else s)

/-- CONFIG_TIMEOUT (R75). -/
def execConfigTimeout (s : State) : Host.Outcome State Fault Refusal :=
  finish (if s.acc.configTimer.due then (s.onAcc fun c => { c with configTimer := none }).configTimedOut else s)

/-- The link timer expires: LOST, the WPE is told, BRIDGE_LOST is raised (R89). -/
def State.linkLost (s : State) : State :=
  ((s.onLiu fun u => u.leave .lost).bridgeLeft).raise .bridgeLost
    (causeAction s.plu.map.bridgeLost)

/-- LINK_TIMER_EXPIRY (R89). -/
def execLinkTimerExpiry (s : State) : Host.Outcome State Fault Refusal :=
  finish (if s.liu.linkTimer.due then s.linkLost else s)

/-- The order timer expires: the issued order's attempt fails (R115). -/
def State.orderExpires (s : State) : State :=
  let t := s.onWpe fun w => { w with orderTimer := none }
  match s.wpe.order with
  | some o => (t.failAttempt o).1
  | none => t

/-- ORDER_TIMER_EXPIRY (R115). -/
def execOrderTimerExpiry (s : State) : Host.Outcome State Fault Refusal :=
  finish (if s.wpe.orderTimer.due then s.orderExpires else s)

/-- SLEEP_TIMER_EXPIRY: the sleep-due mark is set; entry into sleep is the row CELL_SLEEP_ENTRY (R157, log entry
18). -/
def execSleepTimerExpiry (s : State) : Host.Outcome State Fault Refusal :=
  finish (if s.ssv.sleepTimer.due then s.onSsv fun v => { v with sleepTimer := none, sleepDue := true } else s)

end Sys2Proof.Machine
end

