-- ==== Sys2Proof/Machine/Dispatch.lean ====
section
/-! DEFINITION. One arm per command of spec/opcode_table.json, each one call of that command's meaning. -/

namespace Sys2Proof.Machine

/-- The effect of a command on everything but the queue, by the row's own rules. -/
def exec (i : Instr) (s : State) : Host.Outcome State Fault Refusal :=
  match i with
  | .poll x payload => Sys2Proof.Machine.execPoll x payload s
  | .status x q => Sys2Proof.Machine.execStatus x q s
  | .getEvent x q => Sys2Proof.Machine.execGetEvent x q s
  | .listSlots x q => Sys2Proof.Machine.execListSlots x q s
  | .barSlot x q => Sys2Proof.Machine.execBarSlot x q s
  | .unbarSlot x q => Sys2Proof.Machine.execUnbarSlot x q s
  | .clearSlot x q => Sys2Proof.Machine.execClearSlot x q s
  | .setPolicy x q => Sys2Proof.Machine.execSetPolicy x q s
  | .readPolicy x q => Sys2Proof.Machine.execReadPolicy x q s
  | .setLockMap x q => Sys2Proof.Machine.execSetLockMap x q s
  | .wipe x q => Sys2Proof.Machine.execWipe x q s
  | .keyDigit x q => Sys2Proof.Machine.execKeyDigit x q s
  | .keyBack x q => Sys2Proof.Machine.execKeyBack x q s
  | .keyClear x q => Sys2Proof.Machine.execKeyClear x q s
  | .keyEnter x q => Sys2Proof.Machine.execKeyEnter x q s
  | .keyLock x q => Sys2Proof.Machine.execKeyLock x q s
  | .keyAdmin x q => Sys2Proof.Machine.execKeyAdmin x q s
  | .keyRecover x q => Sys2Proof.Machine.execKeyRecover x q s
  | .keyChange x q => Sys2Proof.Machine.execKeyChange x q s
  | .keyExit x q => Sys2Proof.Machine.execKeyExit x q s
  | .enrolBegin x q => Sys2Proof.Machine.execEnrolBegin x q s
  | .attach x q => Sys2Proof.Machine.execAttach x q s
  | .detach x q => Sys2Proof.Machine.execDetach x q s
  | .lock x q => Sys2Proof.Machine.execLock x q s
  | .activity x q => Sys2Proof.Machine.execActivity x q s
  | .fetchKey x q => Sys2Proof.Machine.execFetchKey x q s
  | .lockReply x q => Sys2Proof.Machine.execLockReply x q s
  | .workFetch x q => Sys2Proof.Machine.execWorkFetch x q s
  | .workDone x q => Sys2Proof.Machine.execWorkDone x q s
  | .defineVolume x q => Sys2Proof.Machine.execDefineVolume x q s
  | .readVolumes x q => Sys2Proof.Machine.execReadVolumes x q s
  | .writeOptions x q => Sys2Proof.Machine.execWriteOptions x q s
  | .badFrame x bytes => Sys2Proof.Machine.execBadFrame x bytes s
  | .busy x code => Sys2Proof.Machine.execBusy x code s
  | .unknownCommand x code payload => Sys2Proof.Machine.execUnknownCommand x code payload s
  | .evaluationEnd => Sys2Proof.Machine.execEvaluationEnd s
  | .enrolVerifierDone => Sys2Proof.Machine.execEnrolVerifierDone s
  | .storeWriteEnd result => Sys2Proof.Machine.execStoreWriteEnd result s
  | .tick cellMillivolts => Sys2Proof.Machine.execTick cellMillivolts s
  | .fallback => Sys2Proof.Machine.execFallback s
  | .crystalReturn => Sys2Proof.Machine.execCrystalReturn s
  | .crystalSilentAgain => Sys2Proof.Machine.execCrystalSilentAgain s
  | .entryTimerExpiry => Sys2Proof.Machine.execEntryTimerExpiry s
  | .penaltyExpiry => Sys2Proof.Machine.execPenaltyExpiry s
  | .idleExpiry => Sys2Proof.Machine.execIdleExpiry s
  | .attachExpiry => Sys2Proof.Machine.execAttachExpiry s
  | .deferExpiry => Sys2Proof.Machine.execDeferExpiry s
  | .configTimeout => Sys2Proof.Machine.execConfigTimeout s
  | .linkTimerExpiry => Sys2Proof.Machine.execLinkTimerExpiry s
  | .orderTimerExpiry => Sys2Proof.Machine.execOrderTimerExpiry s
  | .sleepTimerExpiry => Sys2Proof.Machine.execSleepTimerExpiry s
  | .caseChange high => Sys2Proof.Machine.execCaseChange high s
  | .caseDebounceExpiry => Sys2Proof.Machine.execCaseDebounceExpiry s
  | .cellSleepEntry => Sys2Proof.Machine.execCellSleepEntry s
  | .wakeN low => Sys2Proof.Machine.execWakeN low s
  | .busPowerArrival => Sys2Proof.Machine.execBusPowerArrival s
  | .busPowerLoss cut => Sys2Proof.Machine.execBusPowerLoss cut s
  | .powerOn bus => Sys2Proof.Machine.execPowerOn bus s
  | .powerLoss cut => Sys2Proof.Machine.execPowerLoss cut s
  | .resetN cut => Sys2Proof.Machine.execResetN cut s
  | .resetNRelease => Sys2Proof.Machine.execResetNRelease s

end Sys2Proof.Machine
end

