-- ==== Sys2Proof/Safety.lean ====
section
/-! DEFINITION. What holds of the part between steps: for each block, the relations between its items that the manual
gives, gathered in one invariant. -/

namespace Sys2Proof

namespace Machine

/-- The access states in which a slot is open (R59). -/
def Access.isOpen (a : Access) : Bool := a == .unlocked || a == .locking || a == .config

/-- The ACC's items are present in the states of R59's table. -/
structure State.AccOk (s : State) : Prop where
  /-- the open slot is present in UNLOCKED, LOCKING and CONFIG, and in no other state -/
  openSlot : s.acc.openSlot.isSome = s.acc.access.isOpen
  lockCause : s.acc.lockCause.isSome = true → s.acc.access = .locking
  deferrals : s.acc.deferrals.isSome = true → s.acc.access = .locking
  idle : s.acc.idleTimer.isSome = true → s.acc.access = .unlocked
  attach : s.acc.attachTimer.isSome = true → s.acc.access = .unlocked ∨ s.acc.access = .locking
  defer : s.acc.deferTimer.isSome = true → s.acc.access = .locking
  config : s.acc.configTimer.isSome = true → s.acc.access = .config

/-- What a dialogue record holds: a candidate of 6 to 15 digits exactly at step CONFIRM, slot 0 as an automatic target,
and for the enrolment of a user slot a mode and a mask with a volume (R13, R22). -/
structure Dialogue.Ok (d : Dialogue) : Prop where
  candidate : d.candidate.isSome = true ↔ d.step = .confirm
  length : ∀ c, d.candidate = some c → Config.minDigits ≤ c.length ∧ c.length ≤ Config.maxDigits
  automatic : d.kind = .automatic → d.target = 0
  user : d.kind = .enrol → isUserSlot d.target = true → d.mode.isSome = true ∧ ∃ m, d.mask = some m ∧ m ≠ 0

/-- The entry buffer holds at most 15 digits and is EVALUATING exactly while an ENTER is in flight, with the entry timer
stopped (R20, R30); the digits of an enrolment step in flight are at least 6 (R33). -/
structure State.KeyOk (s : State) : Prop where
  digits : s.keu.digits.length ≤ Config.maxDigits
  dialogue : ∀ d, s.keu.dialogue = some d → d.Ok
  flight : s.keu.flight.isSome = true ↔ s.keu.bstate = .evaluating
  timer : s.keu.flight.isSome = true → s.keu.entryTimer = none
  form : s.keu.flight = some .verifyFirst ∨ s.keu.flight = some .verifyConfirm →
    Config.minDigits ≤ s.keu.digits.length

/-- The conditions and the pair phase stand as the timebase and the enclosure give them (R52, R67, R144). -/
structure State.TimeOk (s : State) : Prop where
  run : s.tbu.run.isSome = true ↔ s.tbu.state = .fallback
  phase : s.atl.phase = true → s.tbu.state = .fallback
  clockFault : s.acc.clockFault = true ↔ s.tbu.state = .fallback
  caseOpen : s.acc.caseOpen = s.ssv.caseIsOpen

/-- The bridge link, its capacity and its timer (R85, R89), against the supply mode (R153). -/
structure State.LinkOk (s : State) : Prop where
  absent : s.liu.bridge = .absent ↔ s.ssv.mode ≠ .bus
  capacity : s.liu.capacity.isSome = true ↔ s.liu.bridge = .attached
  linkTimer : s.liu.linkTimer.isSome = true → s.liu.bridge = .attached

/-- The sleep timer and mark stand in CELL_AWAKE alone (R157), and a filter run has a direction and a nearest
candidate, which is not the current level (10.4, R160). -/
structure State.SupplyOk (s : State) : Prop where
  sleepTimer : s.ssv.sleepTimer.isSome = true → s.ssv.mode = .cellAwake
  sleepDue : s.ssv.sleepDue = true → s.ssv.mode = .cellAwake
  filterDir : s.ssv.filterDir.isSome = true ↔ 0 < s.ssv.filterCount
  nearest : s.ssv.nearest.isSome = true ↔ 0 < s.ssv.filterCount
  off : s.ssv.nearest ≠ some s.ssv.level

/-- At most one waiting write per record (R136), the current write at attempt 1 or 2, and a write is current whenever
one waits (R137). -/
structure State.StoreOk (s : State) : Prop where
  waiting : (s.rsc.queue.map WriteEntry.id).Nodup
  attempt : ∀ w, s.rsc.current = some w → w.attempt = 1 ∨ w.attempt = 2
  served : s.rsc.current = none → s.rsc.queue = []

/-- The contents of the writes that are waiting or being carried out. -/
def Rsc.contents (r : Rsc) : List Contents :=
  (match r.current with
   | some w => [w.entry.contents]
   | none => []) ++ r.queue.map WriteEntry.contents

/-- Every slot of the working copy, and every slot record on its way to the array, is well formed (R1, R3); a shadow
verifier stands only with the write fault mark (R4). -/
structure State.TableOk (s : State) : Prop where
  slots : ∀ i : SlotIx, slotWellFormed i (s.slotRec i) = true
  shadow : ∀ i : SlotIx, (s.cell i).shadow.isSome = true → (s.cell i).fault = true
  written : ∀ i r, Contents.slot i r ∈ s.rsc.contents → slotWellFormed i r = true

/-- A volume record has the fields that its state gives it (R81). -/
def VolumeRecord.shaped (v : VolumeRecord) : Bool :=
  match v.state with
  | .unused => v == VolumeRecord.unused v.kgen
  | .present => v.keyState == .live && v.key.isSome && v.first.isSome && v.count.isSome && v.readOnly.isSome &&
      v.incomplete.isSome
  | .erasing => v.keyState == .destroyed && v.key.isNone && v.first.isSome && v.count.isSome && v.readOnly.isSome &&
      v.incomplete.isSome

/-- Every volume of the working copy has the fields that its state gives it (R81). -/
def State.VolumesOk (s : State) : Prop := ∀ v : VolIx, (s.volume v).shaped = true

/-- Outside WIPING the WPE is at rest (R103). An order in hand belongs to an attached bridge (R116) and is on attempt 1
to 3 (R115), and the order timer runs only for an issued one (R113). -/
structure State.WipeOk (s : State) : Prop where
  rest : s.acc.access ≠ .wiping → s.wpe = .init
  order : s.wpe.order.isSome = true → s.liu.bridge = .attached
  timer : s.wpe.orderTimer.isSome = true → ∃ o, s.wpe.order = some o ∧ o.number.isSome = true
  attempt : 1 ≤ s.wpe.attempt ∧ s.wpe.attempt ≤ 3

/-- The applied policy and map hold values within their ranges, with WIPE_THRESHOLD above FREE_ATTEMPTS (R120, R121), and
so do the staged parts, committed, in flight and on their way to the array (R123). -/
structure State.PolicyOk (s : State) : Prop where
  policy : s.plu.policy.wellFormed = true
  map : s.plu.map.wellFormed = true
  committed : s.plu.committed.wellFormed = true
  inflight : ∀ g ∈ s.plu.inflight, g.parts.wellFormed = true
  written : ∀ a, Contents.pset a ∈ s.rsc.contents → a.wellFormed = true

/-- A write carries on the ENTER in flight (R45 to R48, R38). -/
def Purpose.ofFlight : Purpose → Bool
  | .preCount => true
  | .refund => true
  | .uses _ => true
  | .spend => true
  | .enrol _ => true
  | .served => false
  | .reset => false
  | .admin _ => false
  | .slotDestroy _ _ => false
  | .volumeApply _ => false
  | .volumeDestroy _ => false
  | .volumeRekey _ => false
  | .policyApply => false
  | .mapApply => false
  | .pset _ _ => false
  | .options _ => false
  | .journal _ => false

/-- The write a flight waits for. -/
def Flight.awaits (f : Flight) (p : Purpose) : Bool :=
  match f with
  | .preCount => p == .preCount
  | .judging _ => false
  | .refund _ => p == .refund
  | .uses i => p == .uses i
  | .spend => p == .spend
  | .recoveryRefund => p == .refund
  | .verifyFirst => false
  | .verifyConfirm => false
  | .enrolWrite =>
    match p with
    | .enrol _ => true
    | _ => false

/-- The link that waits for the end of a write. -/
def Purpose.waiter : Purpose → Option Link
  | .admin o => o
  | .options o => o
  | _ => none

/-- The links whose RUNNING command something in the part will answer: the ENTER in flight, the stagings, the slot and
option writes. -/
def State.waiters (s : State) : List Link :=
  (if s.keu.flight.isSome then [Link.p] else []) ++ s.plu.inflight.filterMap Staging.requester ++
    s.rsc.purposes.filterMap Purpose.waiter

/-- Every answer that is still to come goes to a slot that runs the command it answers, and to no other (11.3). -/
structure State.WaitOk (s : State) : Prop where
  once : s.waiters.Nodup
  running : ∀ l ∈ s.waiters, (s.liu.port l).slot.isRunning = true
  flight : ∀ p ∈ s.rsc.purposes, p.ofFlight = true → ∃ f, s.keu.flight = some f ∧ f.awaits p = true
  single : (s.rsc.purposes.filter Purpose.ofFlight).length ≤ 1

/-- What holds between steps. -/
structure State.Inv (s : State) : Prop where
  acc : s.AccOk
  key : s.KeyOk
  time : s.TimeOk
  link : s.LinkOk
  supply : s.SupplyOk
  store : s.StoreOk
  wait : s.WaitOk
  table : s.TableOk
  volumes : s.VolumesOk
  wipe : s.WipeOk
  plu : s.PolicyOk

end Machine

/-! ## The words the claims use -/

/-- The exchange of a command that arrives on a link; absent for the other rows. -/
def Instr.exchange (i : Instr) : Option Exchange :=
  match i with
  | .poll x _ => some x
  | .status x _ => some x
  | .getEvent x _ => some x
  | .listSlots x _ => some x
  | .barSlot x _ => some x
  | .unbarSlot x _ => some x
  | .clearSlot x _ => some x
  | .setPolicy x _ => some x
  | .readPolicy x _ => some x
  | .setLockMap x _ => some x
  | .wipe x _ => some x
  | .keyDigit x _ => some x
  | .keyBack x _ => some x
  | .keyClear x _ => some x
  | .keyEnter x _ => some x
  | .keyLock x _ => some x
  | .keyAdmin x _ => some x
  | .keyRecover x _ => some x
  | .keyChange x _ => some x
  | .keyExit x _ => some x
  | .enrolBegin x _ => some x
  | .attach x _ => some x
  | .detach x _ => some x
  | .lock x _ => some x
  | .activity x _ => some x
  | .fetchKey x _ => some x
  | .lockReply x _ => some x
  | .workFetch x _ => some x
  | .workDone x _ => some x
  | .defineVolume x _ => some x
  | .readVolumes x _ => some x
  | .writeOptions x _ => some x
  | .badFrame x _ => some x
  | .busy x _ => some x
  | .unknownCommand x _ _ => some x
  | .evaluationEnd => none
  | .enrolVerifierDone => none
  | .fallback => none
  | .crystalReturn => none
  | .crystalSilentAgain => none
  | .entryTimerExpiry => none
  | .penaltyExpiry => none
  | .idleExpiry => none
  | .attachExpiry => none
  | .deferExpiry => none
  | .configTimeout => none
  | .linkTimerExpiry => none
  | .orderTimerExpiry => none
  | .sleepTimerExpiry => none
  | .caseDebounceExpiry => none
  | .cellSleepEntry => none
  | .busPowerArrival => none
  | .resetNRelease => none
  | .storeWriteEnd _ => none
  | .tick _ => none
  | .caseChange _ => none
  | .wakeN _ => none
  | .busPowerLoss _ => none
  | .powerOn _ => none
  | .powerLoss _ => none
  | .resetN _ => none

/-- The command code a frame carries (11.8); absent for a frame that fails R164 and for the rows that are no
frame. -/
def Instr.code (i : Instr) : Option Byte :=
  match i with
  | .poll _ _ => some 0x00
  | .status _ _ => some 0x01
  | .getEvent _ _ => some 0x02
  | .listSlots _ _ => some 0x08
  | .barSlot _ _ => some 0x09
  | .unbarSlot _ _ => some 0x0A
  | .clearSlot _ _ => some 0x0B
  | .setPolicy _ _ => some 0x0C
  | .readPolicy _ _ => some 0x0D
  | .setLockMap _ _ => some 0x0E
  | .wipe _ _ => some 0x0F
  | .keyDigit _ _ => some 0x20
  | .keyBack _ _ => some 0x20
  | .keyClear _ _ => some 0x20
  | .keyEnter _ _ => some 0x20
  | .keyLock _ _ => some 0x20
  | .keyAdmin _ _ => some 0x20
  | .keyRecover _ _ => some 0x20
  | .keyChange _ _ => some 0x20
  | .keyExit _ _ => some 0x20
  | .enrolBegin _ _ => some 0x21
  | .attach _ _ => some 0x40
  | .detach _ _ => some 0x41
  | .lock _ _ => some 0x42
  | .activity _ _ => some 0x43
  | .fetchKey _ _ => some 0x44
  | .lockReply _ _ => some 0x45
  | .workFetch _ _ => some 0x46
  | .workDone _ _ => some 0x47
  | .defineVolume _ _ => some 0x48
  | .readVolumes _ _ => some 0x49
  | .writeOptions _ _ => some 0x4A
  | .badFrame _ _ => none
  | .busy _ c => some c
  | .unknownCommand _ c _ => some c
  | .evaluationEnd => none
  | .enrolVerifierDone => none
  | .fallback => none
  | .crystalReturn => none
  | .crystalSilentAgain => none
  | .entryTimerExpiry => none
  | .penaltyExpiry => none
  | .idleExpiry => none
  | .attachExpiry => none
  | .deferExpiry => none
  | .configTimeout => none
  | .linkTimerExpiry => none
  | .orderTimerExpiry => none
  | .sleepTimerExpiry => none
  | .caseDebounceExpiry => none
  | .cellSleepEntry => none
  | .busPowerArrival => none
  | .resetNRelease => none
  | .storeWriteEnd _ => none
  | .tick _ => none
  | .caseChange _ => none
  | .wakeN _ => none
  | .busPowerLoss _ => none
  | .powerOn _ => none
  | .powerLoss _ => none
  | .resetN _ => none

/-- Check 4 of R165 refuses the payload. -/
def Payload.isMalformed {α : Type} : Payload α → Bool
  | .ok _ => false
  | .malformed _ => true

/-- The command's payload is not of the length and codings that 11.9 gives it. -/
def Instr.malformed (i : Instr) : Bool :=
  match i with
  | .poll _ _ => false
  | .status _ q => q.isMalformed
  | .getEvent _ q => q.isMalformed
  | .listSlots _ q => q.isMalformed
  | .barSlot _ q => q.isMalformed
  | .unbarSlot _ q => q.isMalformed
  | .clearSlot _ q => q.isMalformed
  | .setPolicy _ q => q.isMalformed
  | .readPolicy _ q => q.isMalformed
  | .setLockMap _ q => q.isMalformed
  | .wipe _ q => q.isMalformed
  | .keyDigit _ q => q.isMalformed
  | .keyBack _ q => q.isMalformed
  | .keyClear _ q => q.isMalformed
  | .keyEnter _ q => q.isMalformed
  | .keyLock _ q => q.isMalformed
  | .keyAdmin _ q => q.isMalformed
  | .keyRecover _ q => q.isMalformed
  | .keyChange _ q => q.isMalformed
  | .keyExit _ q => q.isMalformed
  | .enrolBegin _ q => q.isMalformed
  | .attach _ q => q.isMalformed
  | .detach _ q => q.isMalformed
  | .lock _ q => q.isMalformed
  | .activity _ q => q.isMalformed
  | .fetchKey _ q => q.isMalformed
  | .lockReply _ q => q.isMalformed
  | .workFetch _ q => q.isMalformed
  | .workDone _ q => q.isMalformed
  | .defineVolume _ q => q.isMalformed
  | .readVolumes _ q => q.isMalformed
  | .writeOptions _ q => q.isMalformed
  | .badFrame _ _ => false
  | .busy _ _ => false
  | .unknownCommand _ _ _ => false
  | .evaluationEnd => false
  | .enrolVerifierDone => false
  | .fallback => false
  | .crystalReturn => false
  | .crystalSilentAgain => false
  | .entryTimerExpiry => false
  | .penaltyExpiry => false
  | .idleExpiry => false
  | .attachExpiry => false
  | .deferExpiry => false
  | .configTimeout => false
  | .linkTimerExpiry => false
  | .orderTimerExpiry => false
  | .sleepTimerExpiry => false
  | .caseDebounceExpiry => false
  | .cellSleepEntry => false
  | .busPowerArrival => false
  | .resetNRelease => false
  | .storeWriteEnd _ => false
  | .tick _ => false
  | .caseChange _ => false
  | .wakeN _ => false
  | .busPowerLoss _ => false
  | .powerOn _ => false
  | .powerLoss _ => false
  | .resetN _ => false

/-- The row for a frame that meets a RUNNING slot. -/
def Instr.isBusyRow : Instr → Bool
  | .busy _ _ => true
  | _ => false

namespace Machine

/-- The parts of the state, each owned by one block (00 2.1), with the pins, the array and the queue. -/
inductive Block where
  | pending | starts | pins | store | rsc | ctb | keu | atl | acc | kru | wpe | plu | tbu | ssv | liu
  deriving DecidableEq, Repr

/-- A part is the same in two states. -/
def Block.same (b : Block) (s t : State) : Prop :=
  match b with
  | .pending => t.pending = s.pending
  | .starts => t.starts = s.starts
  | .pins => t.pins = s.pins
  | .store => t.store = s.store
  | .rsc => t.rsc = s.rsc
  | .ctb => t.ctb = s.ctb
  | .keu => t.keu = s.keu
  | .atl => t.atl = s.atl
  | .acc => t.acc = s.acc
  | .kru => t.kru = s.kru
  | .wpe => t.wpe = s.wpe
  | .plu => t.plu = s.plu
  | .tbu => t.tbu = s.tbu
  | .ssv => t.ssv = s.ssv
  | .liu => t.liu = s.liu

/-- Every part outside a list is the same. -/
def State.changesOnly (l : List Block) (s t : State) : Prop := ∀ b : Block, b ∉ l → b.same s t

/-- A valid frame of the exchange is taken: the link is served from the fall of select to its rise, and its slot runs no
command (R163, R165). -/
def State.takes (x : Exchange) (s : State) : Prop :=
  s.serves x = true ∧ (s.liu.port x.link).slot.isRunning = false

/-- A frame with this code is taken and passes checks 2 and 3 of R165. -/
def State.accepts (x : Exchange) (code : Byte) (s : State) : Prop :=
  s.takes x ∧ codeOnLink code x.link = true ∧ (s.acc.access ≠ .halted ∨ isQuery code = true)

/-- Checks 1 to 4 of R15, R100 and R125 pass: the link may administer. -/
def State.administers (l : Link) (s : State) : Prop :=
  (l = .b → s.liu.bridge = .attached) ∧ s.acc.access = adminState l ∧ s.acc.openSlot = some 0

/-- The timers that a taken frame restarts (R75, R89, R157): the sleep timer and the config timer on the P-link, the
link timer on the B-link. -/
def State.frameTaken (x : Exchange) (code : Byte) (s : State) : State :=
  match x.link with
  | .p => { s with
      ssv := if s.ssv.mode = .cellAwake then { s.ssv with sleepTimer := some 160, sleepDue := false } else s.ssv
      acc := if s.acc.access = .config ∧ isQuery code = false then { s.acc with configTimer := some 480 }
             else s.acc }
  | .b => { s with
      liu := if s.liu.bridge = .attached then { s.liu with linkTimer := some 16 } else s.liu }

/-- A link's port after an exchange with a valid frame: the slot is `c`, a note whose 4-byte BUSY frame was shifted out
whole is cleared (R166), and the master read the note's frame, the slot's frame and then 0xFF (R163). -/
def LinkPort.exchanged (x : Exchange) (c : CmdSlot) (p : LinkPort) : LinkPort :=
  { slot := c, note := if 4 ≤ x.clocked then none else p.note,
    dout := (p.response x ++ List.replicate x.clocked 0xFF#8).take x.clocked }

/-- `t` is `u` but for the link's port after the exchange, whose slot is `c`, and the RSC has taken the next write if it
was free (R137). -/
def State.leaves (x : Exchange) (c : CmdSlot) (u t : State) : Prop :=
  t = { u with liu := u.liu.onPort x.link (LinkPort.exchanged x c), rsc := u.rsc.kick }

/-- A taken frame is answered, and besides its timers nothing else of the part changes. -/
def State.answersOnly (x : Exchange) (code : Byte) (r : Result) (s t : State) : Prop :=
  (s.frameTaken x code).leaves x (.done r) t

/-- The code of the command a slot is carrying out. -/
def CmdSlot.runningCode : CmdSlot → Option Byte
  | .running _ code => some code
  | .idle => none
  | .done _ => none

/-- The state with a write request placed in the queue (R136). -/
def State.withWrite (c : Contents) (p : Purpose) (s : State) : State :=
  { s with rsc := { s.rsc with queue := enqueueEntry { contents := c, purpose := p } s.rsc.queue } }

/-- The state with a staging taken for a link (R124): it joins those in flight, and the write of the committed set less
the parts being removed, with every staging laid over it in the order taken, is requested. -/
def State.withStaging (l : Link) (kind : StagingKind) (parts : PendingSet) (s : State) : State :=
  let g : Staging := { id := s.plu.nextStaging, parts := parts, kind := kind, requester := some l }
  let gs := s.plu.inflight ++ [g]
  State.withWrite (.pset (gs.foldl (fun a h => a.overlay h.parts) (s.plu.committed.less s.plu.removing)))
    (.pset (gs.map Staging.id) false)
    { s with plu := { s.plu with inflight := gs, nextStaging := s.plu.nextStaging + 1 } }

/-- The last value given for a key: a later value replaces an earlier one (R126, R127). -/
def lastOf {κ ν : Type} [DecidableEq κ] (l : List (κ × ν)) (k : κ) : Option ν :=
  (l.reverse.find? fun e => e.1 = k).map Prod.snd

/-- The events of a P-link queue, highest priority first (R169). -/
def PQueue.events (q : PQueue) : List Event :=
  (q.wipeState.map Event.wipeState).toList ++ (q.accessChanged.map Event.accessChanged).toList ++
    (q.penaltyChanged.map fun e => Event.penaltyChanged e.1 e.2).toList ++
    (q.cellLevel.map fun e => Event.cellLevel e.1 e.2).toList ++
    (q.timebaseChanged.map Event.timebaseChanged).toList ++ (if q.entryAbandoned then [Event.entryAbandoned] else [])

/-- The events of a B-link queue, highest priority first (R169). -/
def BQueue.events (q : BQueue) : List Event :=
  (if q.keysRevoked then [Event.keysRevoked] else []) ++
    (q.lockPending.map fun e => Event.lockPending e.1 e.2).toList ++
    (q.accessChanged.map Event.accessChanged).toList ++ (q.eraseWork.map Event.eraseWork).toList

/-- The events that wait on a link. -/
def State.events (l : Link) (s : State) : List Event :=
  match l with
  | .p => s.liu.pq.events
  | .b => s.liu.bq.events

/-- What ACCESS_CHANGED reports of a lock (R60). -/
def State.lockedReport (s : State) : AccessReport :=
  { access := .locked, openSlot := none, clockFault := s.acc.clockFault, caseOpen := s.acc.caseOpen }

/-- The drive has gone from an open state to LOCKED by a lock completion (R72): nothing is open, the timers of the open
states are stopped, the offer is withdrawn, an attached bridge is told to drop its keys, and ACCESS_CHANGED waits for
the panel. -/
def State.locksDown (s t : State) : Prop :=
  t.acc = { s.acc with access := .locked, openSlot := none, idleTimer := none, attachTimer := none,
                       deferTimer := none, lockCause := none, deferrals := none } ∧
  t.liu.bq.lockPending = none ∧ (s.liu.bridge = .attached → t.liu.bq.keysRevoked = true) ∧
  t.liu.pq.accessChanged = some { access := .locked, openSlot := none, clockFault := s.acc.clockFault,
                                  caseOpen := s.acc.caseOpen }

/-- CONFIG has ended into LOCKED (R75). -/
def State.configEnds (s t : State) : Prop :=
  t.acc = { s.acc with access := .locked, openSlot := none, configTimer := none } ∧
  t.liu.pq.accessChanged = some { access := .locked, openSlot := none, clockFault := s.acc.clockFault,
                                  caseOpen := s.acc.caseOpen }

/-- What a FORCED or IMMEDIATE lock cause does in the state it meets (R66). -/
def State.forcedBy (s t : State) : Prop :=
  if s.acc.access = .unlocked ∨ s.acc.access = .locking then s.locksDown t
  else if s.acc.access = .config then s.configEnds t
  else t.acc = s.acc

/-- An ORDERLY lock of an attached bridge: LOCKING with the offer made (R68). -/
def State.offersLock (c : LockCause) (s t : State) : Prop :=
  t.acc = { s.acc with access := .locking, idleTimer := none, lockCause := some c,
                       deferrals := some s.plu.policy.deferLimit,
                       deferTimer := some (s.plu.policy.deferWindow * 8) } ∧
  t.liu.bq.lockPending = some (c, s.plu.policy.deferLimit) ∧ t.kru = s.kru ∧ t.plu = s.plu

/-- The KEU with an ENTER handed on (R30, R33). -/
def Keu.handedOn (f : Flight) (k : Keu) : Keu :=
  { k with bstate := .evaluating, entryTimer := none, flight := some f, disturbed := false }

/-- The drive is shut after an open state: nothing open, every timer and item of the open states gone (R72). -/
def Acc.shut (c : Acc) : Acc :=
  { c with access := .locked, openSlot := none, idleTimer := none, attachTimer := none, deferTimer := none,
           lockCause := none, deferrals := none }

/-- Every running timer takes a tick (R150); the penalty timer takes every second one in FALLBACK (R52). -/
def State.ticked (s : State) : State :=
  { s with
    tbu := { s.tbu with divider := 0 }
    keu := { s.keu with entryTimer := s.keu.entryTimer.map (· - 1) }
    acc := { s.acc with idleTimer := s.acc.idleTimer.map (· - 1), attachTimer := s.acc.attachTimer.map (· - 1),
                        deferTimer := s.acc.deferTimer.map (· - 1), configTimer := s.acc.configTimer.map (· - 1) }
    wpe := { s.wpe with orderTimer := s.wpe.orderTimer.map (· - 1) }
    ssv := { s.ssv with sleepTimer := s.ssv.sleepTimer.map (· - 1), caseTimer := s.ssv.caseTimer.map (· - 1) }
    liu := { s.liu with linkTimer := s.liu.linkTimer.map (· - 1) }
    atl := if s.atl.penalty.getD 0 = 0 then s.atl
           else if s.tbu.state = .crystal then { s.atl with penalty := s.atl.penalty.map (· - 1) }
           else if s.atl.phase then { s.atl with penalty := s.atl.penalty.map (· - 1), phase := false }
           else { s.atl with phase := true } }

/-- A write is waiting or being carried out. -/
def State.writing (c : Contents) (p : Purpose) (s : State) : Prop :=
  { contents := c, purpose := p } ∈ s.rsc.queue ∨
    ∃ w, s.rsc.current = some w ∧ w.entry = { contents := c, purpose := p }

/-- Checks 1 to 4 of R24 pass for an entry key. -/
def State.gatePasses (s : State) : Prop :=
  s.acc.access ≠ .wiping ∧ s.acc.access ≠ .penalty ∧ s.gateOpen = true

/-- DIGIT and ENTER are taken in LOCKED, and during a dialogue in BLANK, UNLOCKED and CONFIG (R25). -/
def State.entryOpen (s : State) : Prop :=
  s.acc.access = .locked ∨
    (s.keu.dialogue.isSome = true ∧
      (s.acc.access = .blank ∨ s.acc.access = .unlocked ∨ s.acc.access = .config))

/-- The entry timer restarts with ENTRY_GAP if an entry is in hand, and stops otherwise (R30). -/
def State.timed (s : State) : State :=
  { s with keu := { s.keu with
      entryTimer := if s.keu.entryInHand then some (s.plu.policy.entryGap * 8) else none } }

/-- A key is answered OK with an outcome and the summary of `u`; besides `u` nothing changes (R23). -/
def State.keyAnswered (x : Exchange) (code : Byte) (o : KeyOutcome) (u t : State) : Prop :=
  u.leaves x (.done (.ok code (.key o none u.summary))) t

/-- The buffer emptied: no digits, no mark, the default intent of the dialogue's step (R20). -/
def Keu.cleared (k : Keu) : Keu :=
  { k with digits := [], overlong := false, intent := k.defaultIntent, bstate := .empty }

/-! ## The ends of writes -/

/-- An application stands while a part of it still waits; after the last part its done parts are being removed and, if
any, the Pending Set write without them is requested, with the stagings in flight laid over (R124, R130). -/
def State.concludes (a : Application) (s t : State) : Prop :=
  t.plu.committed = s.plu.committed ∧
  (if a.policy = .waiting ∨ a.map = .waiting ∨ ∃ v : VolIx, a.volumes.get v = .waiting then
     t.plu.applying = some a ∧ t.plu.removing = s.plu.removing
   else t.plu.applying = none ∧ t.plu.removing = s.plu.removing.overlay a.doneParts ∧
     (a.doneParts ≠ .empty → t.writing
       (.pset (t.plu.inflight.foldl (fun b g => b.overlay g.parts) (s.plu.committed.less t.plu.removing)))
       (.pset (t.plu.inflight.map Staging.id) false)))

/-- The end of one write of an application is taken, and no staging in flight changes (R130). -/
def State.settles (a : Application) (s t : State) : Prop :=
  t.plu.inflight = s.plu.inflight ∧ s.concludes a t

/-! ## Entry into LOCKED -/

/-- A volume keeps its key through its staged definition: the definition is UNUSED, or names the range that the volume,
PRESENT, has (R95). -/
def VolumeRecord.keeps (v : VolumeRecord) (d : VolumeDef) : Bool :=
  match d with
  | .unused => true
  | .range first count _ => decide (v.state = .present ∧ v.first = some first ∧ v.count = some count)

/-- How many fresh keys the application has drawn before it comes to a volume: those of the lower indices whose range
changes, in index order (R82, R95). -/
def State.drawnBefore (v : VolIx) (s : State) : Nat :=
  (([0, 1, 2, 3] : List VolIx).filter fun u =>
    u < v && (s.plu.committed.volumes.get u).any fun d => !(s.volume u).keeps d).length

/-- A volume after the application of its staged definition (R95): unchanged with none; UNUSED with its KGEN; with the
range it has, the flag set; with another range, PRESENT with the next KGEN and a fresh LIVE key, one not drawn before
(R82). -/
def State.appliedVolume (v : VolIx) (s : State) : VolumeRecord :=
  let r := s.volume v
  match s.plu.committed.volumes.get v with
  | none => r
  | some .unused => if r.state = .unused then r else VolumeRecord.unused r.kgen
  | some (.range first count ro) =>
    if r.keeps (.range first count ro) then { r with readOnly := some ro }
    else { state := .present, first := some first, count := some count,
           key := some (Config.freshKey (s.kru.keyDraws + s.drawnBefore v)), keyState := .live,
           kgen := if r.kgen = 65535 then 1 else r.kgen + 1, readOnly := some ro, incomplete := some false }

/-- The parts an application takes and how each stands: absent with nothing staged, done where it needs no write, and
waiting otherwise (R129). `f` is the committed F: above 0 the four fields of the Attempt Limiter stay staged (R43). -/
def State.takesParts (f : Nat) (a : Application) (s t : State) : Prop :=
  (∀ p ∈ PolicyField.all, a.taken.policy.get p.number =
    if f ≠ 0 ∧ p.held = true then none else s.plu.committed.policy.get p.number) ∧
  a.taken.map = s.plu.committed.map ∧ a.taken.volumes = s.plu.committed.volumes ∧
  a.policy = (if ∀ p ∈ PolicyField.all, a.taken.policy.get p.number = none then .absent
              else if t.plu.policy = s.plu.policy then .done else .waiting) ∧
  a.map = (if s.plu.committed.map = .empty then .absent
           else if t.plu.map = s.plu.map then .done else .waiting) ∧
  (∀ v : VolIx, a.volumes.get v = (if s.plu.committed.volumes.get v = none then .absent
                                   else if t.volume v = s.volume v then .done else .waiting))

/-- The committed Pending Set is applied at an entry into LOCKED (R129). Each staged policy field takes its value, but
the four of the Attempt Limiter only while F is 0, and WIPE_THRESHOLD stays above FREE_ATTEMPTS; the map takes its
staged actions; each volume its staged definition. What changed is requested to be written, what did not is not, and the
application stands until its writes are answered, or settles at once with none (R130). -/
def State.appliesSet (s t : State) : Prop :=
  (∀ p ∈ PolicyField.all, p ≠ .wipeThreshold →
    t.plu.policy.value p = (match s.plu.committed.policy.get p.number with
      | some n => if t.atl.limiter.fails ≠ 0 ∧ p.held = true then s.plu.policy.value p
                  else (s.plu.policy.put p n).value p
      | none => s.plu.policy.value p)) ∧
  (s.plu.policy.freeAttempts < s.plu.policy.wipeThreshold →
    t.plu.policy.wipeThreshold =
      (let w := (s.plu.committed.policy.get 3).getD s.plu.policy.wipeThreshold
       if t.atl.limiter.fails ≠ 0 then s.plu.policy.wipeThreshold
       else if w ≤ t.plu.policy.freeAttempts then t.plu.policy.freeAttempts + 1 else w) ∧
    t.plu.policy.freeAttempts < t.plu.policy.wipeThreshold) ∧
  t.plu.map = { bridgeLost := s.plu.committed.map.bridgeLost.getD s.plu.map.bridgeLost
                clockFault := s.plu.committed.map.clockFault.getD s.plu.map.clockFault
                caseOpen := s.plu.committed.map.caseOpen.getD s.plu.map.caseOpen } ∧
  (∀ v : VolIx, t.volume v = s.appliedVolume v) ∧
  (if t.plu.policy = s.plu.policy then ∀ q, t.writing (.policy q) .policyApply → s.writing (.policy q) .policyApply
   else t.writing (.policy t.plu.policy) .policyApply) ∧
  (if t.plu.map = s.plu.map then ∀ m, t.writing (.map m) .mapApply → s.writing (.map m) .mapApply
   else t.writing (.map t.plu.map) .mapApply) ∧
  (∀ v : VolIx,
    if t.volume v = s.volume v then
      ∀ r, t.writing (.volume v r) (.volumeApply v) → s.writing (.volume v r) (.volumeApply v)
    else t.writing (.volume v (t.volume v)) (.volumeApply v)) ∧
  ∃ a, s.takesParts t.atl.limiter.fails a t ∧ s.concludes a t

/-! ## Wipes -/

/-- The destroys of the KEYS step in order: volumes 0 to 3, slots 9 to 1, then slot 0 unless the administrator is kept
(R107). -/
def keysOrder (keepAdmin : Bool) : List Destroy :=
  [.volume 0, .volume 1, .volume 2, .volume 3, .slot 9, .slot 8, .slot 7, .slot 6, .slot 5, .slot 4, .slot 3, .slot 2,
    .slot 1] ++ (if keepAdmin then [] else [.slot 0])

/-- The write of a destroy (R19, R97). -/
def Destroy.writes (d : Destroy) (e : WriteEntry) : Prop :=
  match d with
  | .volume v => ∃ r, e = { contents := .volume v r, purpose := .volumeDestroy v }
  | .slot i => ∃ old, e = { contents := .slot i .empty, purpose := .slotDestroy i old }

/-- A destroy has acted on the working copy and its write is requested (R19, R97): a volume's key is DESTROYED and the
volume, unless UNUSED, is ERASING; a slot is EMPTY, and its write remembers the verifier that the slot held. -/
def State.destroys (d : Destroy) (s t : State) : Prop :=
  match d with
  | .volume v =>
      t.volume v = { s.volume v with
        key := none, keyState := .destroyed,
        state := if (s.volume v).state = .unused then .unused else .erasing } ∧
      t.writing (.volume v (t.volume v)) (.volumeDestroy v)
  | .slot i => t.cell i = { s.cell i with record := .empty } ∧
      t.writing (.slot i .empty) (.slotDestroy i (s.slotRec i).verifier)

/-- The rekey of the first volume, from an index on, that has a cursor or is ERASING is requested with a fresh key; with
none left, the write that closes the wipe (R98, R109). -/
def State.rekeysFrom (k : Nat) (w : WipeRecord) (s t : State) : Prop :=
  match ([0, 1, 2, 3] : List VolIx).find? fun i =>
      k ≤ i.val ∧ ((w.cursors.find? fun c => c.volume = i).isSome = true ∨ (s.volume i).state = .erasing) with
  | none => t.kru = s.kru ∧ t.writing (.journal none) (.journal .close)
  | some i =>
    t.wpe.position = .rekey i.val ∧ t.writing (.volume i (t.volume i)) (.volumeRekey i) ∧
    (∀ u : VolIx, u ≠ i → t.volume u = s.volume u) ∧
    (match w.cursors.find? fun c => c.volume = i with
     | some c =>
       t.volume i = { state := .present, first := some c.first, count := some c.count,
                      key := some (Config.freshKey s.kru.keyDraws), keyState := .live, kgen := c.target,
                      readOnly := some (if (s.volume i).state = .unused then false
                                        else (s.volume i).readOnly.getD false),
                      incomplete := some (decide (0 < c.failed)) }
     | none =>
       t.volume i = { s.volume i with
         state := .present, first := some ((s.volume i).first.getD 0), count := some ((s.volume i).count.getD 0),
         key := some (Config.freshKey s.kru.keyDraws), keyState := .live,
         kgen := if (s.volume i).kgen = 65535 then 1 else (s.volume i).kgen + 1,
         readOnly := some ((s.volume i).readOnly.getD false), incomplete := some false })

/-- What a wipe that is not paused does next at its position (R106 to R111): the destroy that is due or the end of its
pass, the reset, the boundary write, the wait for the bridge in MEDIA, or the rekey that is due. The bridge is not
attached. -/
def State.carriesOn (w : WipeRecord) (p : Position) (s t : State) : Prop :=
  match p with
  | .idle => True
  | .starting => True
  | .stalled => t.wpe.position = .stalled ∧ t.wpe.run = .stalled
  | .keys k pass faulted =>
    match (keysOrder w.keepAdmin)[k]? with
    | some d => t.wpe.position = .keys k pass faulted ∧ s.destroys d t
    | none =>
      if faulted = false then t.writing (.journal (some { w with step := .limiter })) (.journal .boundary)
      else if pass < 3 then t.wpe.position = .keys 0 (pass + 1) false ∧ s.destroys (.volume 0) t
      else t.wpe.position = .stalled ∧ t.wpe.run = .stalled
  | .limiter false =>
    t.atl = { limiter := s.atl.limiter, penalty := none, phase := false } ∧
      t.writing (.limiter { fails := 0, served := true }) .reset
  | .limiter true =>
    t.writing (.journal (some { w with step := if w.depth = .keysAndMedia then .media else .rekey }))
      (.journal .boundary)
  | .media =>
    match w.cursors.find? fun d => d.next ≠ d.first + d.count with
    | none => t.writing (.journal (some { w with step := .rekey })) (.journal .boundary)
    | some _ => w.step = .media → s.wpe.order = none → t.wpe.run = .waitingBridge ∧ t.wpe.order = none
  | .rekey k => s.rekeysFrom k w t

/-- A wipe reported to the panel as it stands (R118). -/
def State.reportsWipe (w : WipeRecord) (t : State) : Prop :=
  t.liu.pq.wipeState = some { cause := w.cause, depth := w.depth, step := w.step, run := t.wpe.run,
                              progress := w.progress }

/-- Where a recorded step begins (R106). -/
def stepBegins (s : WipeStep) : Position :=
  match s with
  | .keys => .keys 0 1 false
  | .limiter => .limiter false
  | .media => .media
  | .rekey => .rekey 0
  | .close => .idle

/-! ## Which parts a command may change -/

/-- The parts a frame's passage may change: its link's port, the link timer, the sleep timer and mark. -/
def watches (x : Exchange) : List Block :=
  match x.link with
  | .p => [.liu, .ssv]
  | .b => [.liu]

/-- The parts a taken frame may change besides its owner's work: the config timer too. -/
def frames (x : Exchange) : List Block :=
  match x.link with
  | .p => [.liu, .ssv, .acc]
  | .b => [.liu]

/-- The parts a lock completion or an end of CONFIG may change, with the application of the Pending Set (R72, R73). -/
def lockBlocks : List Block := [.acc, .keu, .plu, .rsc, .kru, .liu]

/-- The parts a wipe's start may change (R76, R101). -/
def wipeBlocks : List Block := [.acc, .keu, .atl, .wpe, .plu, .rsc, .liu]

/-- Every part but the queue, the start-ups to come, the pins, the array and the timebase. -/
def ownerBlocks : List Block := [.rsc, .ctb, .keu, .atl, .acc, .kru, .wpe, .plu, .ssv, .liu]

/-- The parts a command may change. -/
def touches (i : Instr) : List Block :=
  match i with
  | .poll x _ => watches x
  | .status x _ => watches x
  | .getEvent x _ => watches x
  | .listSlots x _ => frames x
  | .barSlot x _ => .rsc :: frames x
  | .unbarSlot x _ => .rsc :: frames x
  | .clearSlot x _ => .rsc :: frames x
  | .setPolicy x _ => .rsc :: .plu :: frames x
  | .readPolicy x _ => frames x
  | .setLockMap x _ => .rsc :: .plu :: frames x
  | .wipe x _ => wipeBlocks ++ frames x
  | .keyDigit x _ => .keu :: frames x
  | .keyBack x _ => .keu :: frames x
  | .keyClear x _ => .keu :: frames x
  | .keyEnter x _ => wipeBlocks ++ frames x
  | .keyLock x _ => lockBlocks ++ frames x
  | .keyAdmin x _ => .keu :: frames x
  | .keyRecover x _ => .keu :: frames x
  | .keyChange x _ => .keu :: frames x
  | .keyExit x _ => lockBlocks ++ frames x
  | .enrolBegin x _ => .keu :: frames x
  | .attach x _ => [.ctb, .atl, .wpe] ++ lockBlocks ++ frames x
  | .detach x _ => .wpe :: lockBlocks ++ frames x
  | .lock x _ => lockBlocks ++ frames x
  | .activity x _ => .acc :: frames x
  | .fetchKey x _ => frames x
  | .lockReply x _ => lockBlocks ++ frames x
  | .workFetch x _ => .wpe :: frames x
  | .workDone x _ => .rsc :: .wpe :: frames x
  | .defineVolume x _ => .rsc :: .plu :: frames x
  | .readVolumes x _ => frames x
  | .writeOptions x _ => .rsc :: frames x
  | .badFrame _ _ => [.liu]
  | .busy x _ => watches x
  | .unknownCommand x _ _ => frames x
  | .evaluationEnd => .kru :: wipeBlocks
  | .enrolVerifierDone => [.keu, .liu, .rsc]
  | .storeWriteEnd _ => [.store, .rsc, .ctb, .keu, .atl, .acc, .kru, .wpe, .plu, .liu]
  | .tick _ => .tbu :: ownerBlocks
  | .fallback => .tbu :: .kru :: wipeBlocks
  | .crystalReturn => [.tbu, .atl, .acc, .keu, .liu]
  | .crystalSilentAgain => [.tbu]
  | .entryTimerExpiry => [.keu, .liu]
  | .penaltyExpiry => ownerBlocks
  | .idleExpiry => lockBlocks
  | .attachExpiry => lockBlocks
  | .deferExpiry => lockBlocks
  | .configTimeout => lockBlocks
  | .linkTimerExpiry => .wpe :: .atl :: lockBlocks
  | .orderTimerExpiry => [.wpe, .rsc, .liu]
  | .sleepTimerExpiry => [.ssv]
  | .caseChange _ => [.pins, .ssv]
  | .caseDebounceExpiry => ownerBlocks
  | .cellSleepEntry => ownerBlocks
  | .wakeN _ => .pins :: ownerBlocks
  | .busPowerArrival => .starts :: .pins :: .tbu :: ownerBlocks
  | .busPowerLoss _ => .pins :: .tbu :: .store :: ownerBlocks
  | .powerOn _ => .starts :: .pins :: .tbu :: ownerBlocks
  | .powerLoss _ => .pins :: .tbu :: .store :: ownerBlocks
  | .resetN _ => .pins :: .tbu :: .store :: ownerBlocks
  | .resetNRelease => .starts :: .pins :: .tbu :: ownerBlocks

/-- The location of a record reads these contents (R135). -/
def Contents.landed (c : Contents) (st : Store) : Prop :=
  match c with
  | .option r => st.option.read = .valid r
  | .slot i r => (st.slots.get i).read = .valid r
  | .limiter r => st.limiter.read = .valid r
  | .policy r => st.policy.read = .valid r
  | .map r => st.map.read = .valid r
  | .volume i r => (st.volumes.get i).read = .valid r
  | .journal r => st.journal.read = .valid r
  | .pset r => st.pset.read = .valid r

end Machine

end Sys2Proof
end

