-- ==== Sys2Proof/WellFormed.lean ====
section
/-! DEFINITION. Which commands a sender can send: a payload stands as malformed only where 11.9 does not allow it, a
frame fits its length and its exchange, and the rows for frames not carried out hold frames that are not carried
out. -/

namespace Sys2Proof

/-- A payload is as the decoder would give it: malformed only where the parse of the bytes fails, and at most 48
bytes (R164). -/
def Payload.wellFormed {α : Type} (send : α → List Byte) (parses : List Byte → Bool) : Payload α → Bool
  | .ok a => decide ((send a).length ≤ Config.maxPayload)
  | .malformed b => decide (b.length ≤ Config.maxPayload) && !parses b

/-- The parse of an empty payload. -/
def parsesNone (b : List Byte) : Bool := b.isEmpty

/-- The parse of a one-byte payload. -/
def parsesByte (b : List Byte) : Bool := b.length == 1

/-- The parse of a key code (11.9). -/
def parsesKey (b : List Byte) : Bool :=
  match b with
  | [k] => decide (k.toNat ≤ 17)
  | _ => false

/-- A KEY row other than KEY_DIGIT carries no malformed payload (log entry 7). -/
def keyOk : Payload Unit → Bool
  | .ok _ => true
  | .malformed _ => false

/-- A broken exchange shifted out no more than was clocked (R163). -/
def Exchange.sound (x : Exchange) : Bool :=
  match x.broken with
  | none => true
  | some b => decide (b.length ≤ x.clocked)

/-- The exchange clocked the bytes of a frame with a payload of `n` bytes (R164 check 2). -/
def Exchange.carries (x : Exchange) (n : Nat) : Bool := x.sound && decide (n + 4 ≤ x.clocked)

/-- The payload of a frame command, as sent, fits its exchange; true for the other rows. -/
def Instr.fits (i : Instr) (x : Exchange) : Bool :=
  match encodeRequest i with
  | some b => x.sound && decide (b.length ≤ x.clocked)
  | none => true

/-- The command can be sent. -/
def Instr.wellFormed (i : Instr) : Bool :=
  match i with
  | .poll x b => decide (b.length ≤ Config.maxPayload) && i.fits x
  | .status x q => q.wellFormed (fun _ => []) parsesNone && i.fits x
  | .getEvent x q => q.wellFormed (fun _ => []) parsesNone && i.fits x
  | .listSlots x q => q.wellFormed (fun _ => []) parsesNone && i.fits x
  | .barSlot x q => q.wellFormed (fun a => [a]) parsesByte && i.fits x
  | .unbarSlot x q => q.wellFormed (fun a => [a]) parsesByte && i.fits x
  | .clearSlot x q => q.wellFormed (fun a => [a]) parsesByte && i.fits x
  | .setPolicy x q => q.wellFormed policyFieldsBytes (fun b => (policyFields? b).isSome) && i.fits x
  | .readPolicy x q => q.wellFormed (fun _ => []) parsesNone && i.fits x
  | .setLockMap x q => q.wellFormed mapEntriesBytes (fun b => (mapEntries? b).isSome) && i.fits x
  | .wipe x q => q.wellFormed (fun _ => []) parsesNone && i.fits x
  | .keyDigit x q => q.wellFormed (fun d => [BitVec.ofNat 8 d.val]) parsesKey && i.fits x
  | .keyBack x q => keyOk q && i.fits x
  | .keyClear x q => keyOk q && i.fits x
  | .keyEnter x q => keyOk q && i.fits x
  | .keyLock x q => keyOk q && i.fits x
  | .keyAdmin x q => keyOk q && i.fits x
  | .keyRecover x q => keyOk q && i.fits x
  | .keyChange x q => keyOk q && i.fits x
  | .keyExit x q => keyOk q && i.fits x
  | .enrolBegin x q => q.wellFormed enrolArgsBytes (fun b => (enrolArgs? b).isSome) && i.fits x
  | .attach x q => q.wellFormed (fun c => be32 c.toNat) (fun b => (capacity? b).isSome) && i.fits x
  | .detach x q => q.wellFormed (fun _ => []) parsesNone && i.fits x
  | .lock x q => q.wellFormed (fun _ => []) parsesNone && i.fits x
  | .activity x q => q.wellFormed (fun _ => []) parsesNone && i.fits x
  | .fetchKey x q => q.wellFormed (fun a => [a]) parsesByte && i.fits x
  | .lockReply x q => q.wellFormed lockReplyBytes (fun b => (lockReply? b).isSome) && i.fits x
  | .workFetch x q => q.wellFormed (fun _ => []) parsesNone && i.fits x
  | .workDone x q => q.wellFormed workDoneBytes (fun b => (workDone? b).isSome) && i.fits x
  | .defineVolume x q => q.wellFormed defineArgsBytes (fun b => (defineArgs? b).isSome) && i.fits x
  | .readVolumes x q => q.wellFormed (fun _ => []) parsesNone && i.fits x
  | .writeOptions x q => q.wellFormed optionFieldsBytes (fun b => (optionFields? b).isSome) && i.fits x
  | .badFrame x bytes => (checkFrame bytes).isNone && x.sound && x.clocked == bytes.length
  | .busy x code => code != 0 && x.carries 0
  | .unknownCommand x code b =>
    decide (commandOf x code b = .unknownCommand x code b) && decide (b.length ≤ Config.maxPayload) && i.fits x
  | .evaluationEnd => true
  | .enrolVerifierDone => true
  | .storeWriteEnd _ => true
  | .tick _ => true
  | .fallback => true
  | .crystalReturn => true
  | .crystalSilentAgain => true
  | .entryTimerExpiry => true
  | .penaltyExpiry => true
  | .idleExpiry => true
  | .attachExpiry => true
  | .deferExpiry => true
  | .configTimeout => true
  | .linkTimerExpiry => true
  | .orderTimerExpiry => true
  | .sleepTimerExpiry => true
  | .caseChange _ => true
  | .caseDebounceExpiry => true
  | .cellSleepEntry => true
  | .wakeN _ => true
  | .busPowerArrival => true
  | .busPowerLoss _ => true
  | .powerOn _ => true
  | .powerLoss _ => true
  | .resetN _ => true
  | .resetNRelease => true

end Sys2Proof
end

