-- ==== Sys2Proof/Certificates/Slice0/Obligations.lean ====
section
/-! DEFINITION. The statements for the provers. Each speaks of `exec` or `step` in the words of Sys2Proof/Safety.lean;
rule numbers are those of the manual. -/

open Sys2Proof Sys2Proof.Machine

/-! ## The machine as a whole -/

/-- Whatever the state, a step with the command c at the front of the queue is exec of c on the same state with the
rest of the queue. -/
def Obligations.StepRunsFrontCommand : Prop :=
  ∀ (c : Instr) (rest : List Instr) (s : State),
    s.pending = c :: rest →
    step s = exec c { s with pending := rest }

/-- Every command answers a next state from every state, and leaves the queue of waiting commands as it was: no
command of the manual stops the part. An event that cannot arise in a state leaves it as it was (log entry 4). -/
def Obligations.EveryCommandAnswers : Prop :=
  ∀ (c : Instr) (s : State),
    ∃ t, exec c s = .next t ∧ t.pending = s.pending

/-- Every command leaves unchanged each part of the state that `touches` does not list for it. In particular only
STORE_WRITE_END and the rows that can cut a write (RESET_N, POWER_LOSS, BUS_POWER_LOSS) change the nonvolatile array,
and only the supply rows and the timebase rows change the timebase. The premise is the store's invariant. -/
def Obligations.OnlyListedPartsChange : Prop :=
  ∀ (c : Instr) (s t : State),
    s.StoreOk →
    exec c s = .next t →
    State.changesOnly (touches c) s t

/-- The state after reset satisfies the invariant `Inv`, whose clauses the next statement lists. That state is the
model's choice where the manual gives the pins and the array no value (log entries 1 and 2). -/
def Obligations.InvAtReset : Prop :=
  State.reset.Inv

/-- From every state that satisfies the invariant, every step gives a state that satisfies it: the open slot is
present exactly in UNLOCKED, LOCKING and CONFIG (R59), the timers and lock items stand only in their states, the
bridge link is ABSENT exactly without bus power (R85), the capacity stands exactly in ATTACHED, at most one write of a
record waits (R136), every answer still to come goes to the RUNNING command it answers, every slot record is well
formed (R1, R3), every volume has the fields its state gives it (R81), the applied policy is within its ranges with
WIPE_THRESHOLD above FREE_ATTEMPTS (R120), and outside WIPING the Wipe Engine is at rest (R103). The run count of the
timebase stands in FALLBACK alone (log entry 41). -/
def Obligations.StepKeepsInv : Prop :=
  ∀ (s t : State),
    s.Inv →
    step s = .next t →
    t.Inv

/-- A key release appears in a command slot only as the answer to a FETCH_KEY on the B-link, taken with the bridge
ATTACHED and the drive UNLOCKED, for a volume that is PRESENT with a LIVE key, in the open slot's set and within the
capacity; the key released is that volume's. -/
def Obligations.KeyLeavesOnlyByFetchKey : Prop :=
  ∀ (c : Instr) (l : Link) (code : Byte) (k : KeyRelease) (s t : State),
    exec c s = .next t →
    (t.liu.port l).slot = .done (.ok code (.keyRelease k)) →
    (s.liu.port l).slot ≠ (t.liu.port l).slot →
    ∃ x b v, c = .fetchKey x (.ok b) ∧ x.link = .b ∧ l = .b ∧ volIx? b = some v ∧ k.volume = v ∧
      s.liu.bridge = .attached ∧ s.acc.access = .unlocked ∧ (s.volume v).state = .present ∧
      (s.volume v).keyState = .live ∧ (s.volume v).key = some k.key ∧ s.inOpenSet v = true ∧ s.reachable v = true

/-- UNLOCKED and CONFIG are entered only from LOCKED, at the end of a store write: no command of either master, no
expiry, no supply change and no start-up opens the drive. -/
def Obligations.OpensOnlyFromLocked : Prop :=
  ∀ (c : Instr) (s t : State),
    exec c s = .next t →
    t.acc.access = .unlocked ∨ t.acc.access = .config →
    t.acc.access ≠ s.acc.access →
    s.acc.access = .locked ∧ ∃ r, c = .storeWriteEnd r

/-- HALTED is left only by RESET_N or its release, or by a loss or return of power. -/
def Obligations.HaltedIsLeftOnlyByRestart : Prop :=
  ∀ (c : Instr) (s t : State),
    s.acc.access = .halted →
    exec c s = .next t →
    t.acc.access ≠ .halted →
    (∃ k, c = .resetN k ∨ c = .powerLoss k ∨ c = .busPowerLoss k) ∨
      (∃ b, c = .resetNRelease ∨ c = .powerOn b ∨ c = .busPowerArrival)

/-- While F is above 0 before and after a command other than a supply or reset row, FREE_ATTEMPTS, PENALTY_BASE,
PENALTY_CAP and WIPE_THRESHOLD stay as they are: no application shortens a penalty or moves the threshold under a
failure already counted. The premise is that W exceeds FREE, as after every clamp. -/
def Obligations.ScheduleStandsWhileFailing : Prop :=
  ∀ (c : Instr) (s t : State),
    s.plu.policy.freeAttempts < s.plu.policy.wipeThreshold →
    0 < s.atl.limiter.fails →
    exec c s = .next t →
    0 < t.atl.limiter.fails →
    (∀ k, c ≠ .resetN k ∧ c ≠ .powerLoss k ∧ c ≠ .busPowerLoss k) →
    (∀ b, c ≠ .powerOn b ∧ c ≠ .resetNRelease ∧ c ≠ .busPowerArrival) →
    t.plu.policy.freeAttempts = s.plu.policy.freeAttempts ∧ t.plu.policy.penaltyBase = s.plu.policy.penaltyBase ∧
      t.plu.policy.penaltyCap = s.plu.policy.penaltyCap ∧ t.plu.policy.wipeThreshold = s.plu.policy.wipeThreshold

/-! ## Frames and command slots (chapter 11) -/

/-- For every well-formed command that a valid frame carries, decoding the bytes sent, with any bytes clocked after
the CRC, gives the command back with every operand; an exchange whose bytes fail the checks of R164 decodes to itself.
A KEY payload that is no key code stands under KEY_DIGIT (log entry 7). -/
def Obligations.DecodeOfEncode : Prop :=
  ∀ (i : Instr) (x : Exchange) (b f : List Byte),
    i.wellFormed = true →
    i.exchange = some x →
    encodeRequest i = some b →
    i.code.isSome = true ∨ f = [] →
    decodeRequest x (b ++ f) = i

/-- The frames of a STATUS, a DIGIT 7, an ATTACH of 4,096 blocks and a LOCK_REPLY HOLD, written out with their CRC-8,
decode to those commands; the STATUS frame with one CRC bit turned is a bad frame. -/
def Obligations.WrittenFramesDecode : Prop :=
  ∀ (x : Exchange),
    decodeRequest x [0x5A, 0x01, 0x00, 0x15] = .status x (.ok ()) ∧
    decodeRequest x [0x5A, 0x20, 0x01, 0x07, 0x43] = .keyDigit x (.ok 7) ∧
    decodeRequest x [0x5A, 0x40, 0x04, 0x00, 0x00, 0x10, 0x00, 0xAE] = .attach x (.ok 4096#32) ∧
    decodeRequest x [0x5A, 0x45, 0x01, 0x01, 0x54] = .lockReply x (.ok .hold) ∧
    decodeRequest x [0x5A, 0x01, 0x00, 0x14] = .badFrame x [0x5A, 0x01, 0x00, 0x14]

/-- An exchange of any kind that meets a link that is not served, or whose link was not served from the fall of select
to its rise, has no effect on the part: nothing changes but what the master reads, which is all-ones from the point at
which the link was not served. That point and what was read before it are operands (log entries 6 and 8). -/
def Obligations.UnservedExchangeHasNoEffect : Prop :=
  ∀ (c : Instr) (x : Exchange) (s : State),
    c.exchange = some x →
    c.wellFormed = true →
    s.StoreOk →
    s.serves x = false →
    ∃ t, exec c s = .next t ∧
      t = { s with liu := s.liu.onPort x.link fun p => { p with
        dout := (x.broken.getD [] ++ List.replicate x.clocked 0xFF#8).take x.clocked } }

/-- A valid frame other than POLL that meets a RUNNING slot is not taken: the slot stays as it was, the code becomes
the link's one-shot note, the sleep timer of the P-link or the link timer of the B-link restarts, and nothing else
changes: neither link's events, the other port, the supply mode, nor the config timer. -/
def Obligations.RunningSlotTakesNoCommand : Prop :=
  ∀ (c : Instr) (x : Exchange) (code : Byte) (s : State),
    c.exchange = some x →
    c.code = some code →
    code ≠ 0 →
    c.wellFormed = true →
    s.serves x = true →
    (s.liu.port x.link).slot.isRunning = true →
    ∃ t, exec c s = .next t ∧
      t = { s.frameTaken x 0x01 with
        rsc := s.rsc.kick
        liu := (s.frameTaken x 0x01).liu.onPort x.link fun p => { p.exchanged x p.slot with note := some code } }

/-- A valid POLL frame, whatever its payload, reads the note and the slot's frame and then 0xFF; it collects a DONE
result exactly when the result was waiting when select fell and its frame was shifted out whole, and clears a note whose
BUSY frame of 4 bytes was shifted out whole (R166). The sleep timer of the P-link or the link timer of the B-link
restarts, and nothing else changes: neither link's events, the other port, nor the supply mode. The attention line is
then asserted if a result or an event still waits, and released otherwise (R168). The bytes clocked and what was RUNNING
when select fell are operands (log entries 6 and 8). -/
def Obligations.PollCollectsAWholeResult : Prop :=
  ∀ (x : Exchange) (b : List Byte) (s : State),
    s.serves x = true →
    ∃ t, exec (.poll x b) s = .next t ∧
      t = { s.frameTaken x 0x01 with
        rsc := s.rsc.kick
        liu := (s.frameTaken x 0x01).liu.onPort x.link fun p =>
          { slot := if p.slot.isDone = true ∧ x.wasRunning = false ∧ (p.response x).length ≤ x.clocked then .idle
                    else p.slot
            note := if 4 ≤ x.clocked then none else p.note
            dout := (p.response x ++ List.replicate x.clocked 0xFF#8).take x.clocked } } ∧
      (t.attention x.link = true ↔
        (∃ r, (t.liu.port x.link).slot = .done r) ∨ s.events x.link ≠ [])

/-- A request that fails the checks of R164 makes an IDLE slot DONE with BAD_FRAME, has no effect on a RUNNING or DONE
slot, and restarts no timer: nothing else of the part changes. The master reads the note and the slot's frame as they
stood when select fell, and then 0xFF, as in any exchange (R163, R167). -/
def Obligations.BadFrameIsDiscarded : Prop :=
  ∀ (x : Exchange) (b : List Byte) (s : State),
    s.StoreOk →
    s.serves x = true →
    b ≠ [] →
    checkFrame b = none →
    ∃ t, exec (.badFrame x b) s = .next t ∧
      t = { s with liu := s.liu.onPort x.link fun p =>
              { slot := (if p.slot = .idle then .done .badFrame else p.slot), note := p.note,
                dout := (p.response x ++ List.replicate x.clocked 0xFF#8).take x.clocked } }

/-- A command that is taken and fails one of checks 1 to 4 of R165 is answered at once by the first that fails:
UNKNOWN_COMMAND, WRONG_LINK, HALTED, or REFUSED with BAD_RANGE; besides the timers a taken frame restarts, nothing
else changes. The command of an unknown code completes so. -/
def Obligations.TakenCommandIsChecked : Prop :=
  ∀ (c : Instr) (x : Exchange) (code : Byte) (s : State),
    c.exchange = some x →
    c.code = some code →
    code ≠ 0 →
    c.wellFormed = true →
    c.isBusyRow = false →
    s.takes x →
    (codeLinks code = none ∨ codeOnLink code x.link = false ∨
      (s.acc.access = .halted ∧ isQuery code = false) ∨ c.malformed = true) →
    ∃ t, exec c s = .next t ∧
      s.answersOnly x code
        (if codeLinks code = none then .unknownCommand code
         else if codeOnLink code x.link = false then .wrongLink code
         else if s.acc.access = .halted ∧ isQuery code = false then .halted code
         else .refused code .badRange 0) t

/-- STATUS, taken on either link in every access state, answers one status record read from the owners of its fields:
attempts left is W minus F, the penalty is in seconds rounded up, and the wipe's step, run condition and progress
stand in WIPING alone. It changes nothing else, and the config timer is not restarted. While the write that marks a
wipe active has not completed, the step is KEYS by log entry 19. -/
def Obligations.StatusReportsTheOwners : Prop :=
  ∀ (x : Exchange) (s : State),
    s.takes x →
    ∃ t, exec (.status x (.ok ())) s = .next t ∧
      s.answersOnly x 0x01 (.ok 0x01 (.status
        { access := s.acc.access, openSlot := s.acc.openSlot, mode := s.ssv.mode, level := s.ssv.level,
          timebase := s.tbu.state, bridge := s.liu.bridge, fails := s.atl.limiter.fails,
          threshold := s.plu.policy.wipeThreshold,
          attemptsLeft := s.plu.policy.wipeThreshold - s.atl.limiter.fails,
          penaltySeconds := (s.atl.penalty.getD 0 + 7) / 8,
          wipeStep := if s.acc.access = .wiping then (s.wpe.view.map fun w => w.step) else none,
          run := if s.acc.access = .wiping then some s.wpe.run else none,
          progress := if s.acc.access = .wiping then (s.wpe.view.map WipeRecord.progress).getD 0 else 0,
          clockFault := s.acc.clockFault, caseOpen := s.acc.caseOpen, startCause := s.acc.startCause })) t

/-- GET_EVENT answers the highest-priority event that waits on its link, or NONE, and removes it. The other link's
events stay, the sleep timer of the P-link or the link timer of the B-link restarts, and nothing else changes: neither
the other port, the bridge link state, nor the supply mode. In every state a link's attention line is asserted exactly
while the link is served and an event waits on it or its slot is DONE (R168). -/
def Obligations.GetEventTakesTheHighest : Prop :=
  ∀ (x : Exchange) (s : State),
    (s.attention .p = true ↔ s.pins.resetLow = false ∧ (s.ssv.mode = .bus ∨ s.ssv.mode = .cellAwake) ∧
      (s.events .p ≠ [] ∨ ∃ r, s.liu.p.slot = .done r)) ∧
    (s.attention .b = true ↔ s.pins.resetLow = false ∧ (s.ssv.mode = .bus ∨ s.ssv.mode = .cellAwake) ∧
      s.liu.bridge ≠ .absent ∧ (s.events .b ≠ [] ∨ ∃ r, s.liu.b.slot = .done r)) ∧
    (s.takes x →
    ∃ t, exec (.getEvent x (.ok ())) s = .next t ∧ t.events x.link = (s.events x.link).tail ∧
      (if x.link = .p then t.liu.bq = s.liu.bq else t.liu.pq = s.liu.pq) ∧
      State.leaves x (.done (.ok 0x02 (.event (s.events x.link).head?)))
        { s.frameTaken x 0x02 with liu := { (s.frameTaken x 0x02).liu with pq := t.liu.pq, bq := t.liu.bq } } t)

/-! ## Administration (chapters 1, 5, 6, 7) -/

/-- LIST_SLOTS, READ_POLICY and READ_VOLUMES answer what their rules list, as the working copies stand, in index order
and with no verifier and no key, and change nothing else. -/
def Obligations.ListingsShowTheWorkingCopies : Prop :=
  ∀ (x : Exchange) (s : State),
    (s.accepts x 0x08 ∧ s.administers x.link →
      ∃ t, exec (.listSlots x (.ok ())) s = .next t ∧
        s.answersOnly x 0x08 (.ok 0x08 (.slots (allSlots.map fun i =>
          { index := i, role := if i = 0 then .admin else if i = 9 then .recovery else .user,
            state := (s.slotRec i).state, length := (s.slotRec i).length, mode := (s.slotRec i).mode,
            mask := (s.slotRec i).mask, uses := (s.slotRec i).uses, fault := (s.cell i).fault }))) t) ∧
    (s.accepts x 0x0D ∧ s.administers x.link →
      ∃ t, exec (.readPolicy x (.ok ())) s = .next t ∧
        s.answersOnly x 0x0D (.ok 0x0D (.policyListing
          { policy := s.plu.policy, map := s.plu.map, stagedPolicy := s.plu.committed.policy,
            stagedMap := s.plu.committed.map, policyFault := s.plu.policyFault, mapFault := s.plu.mapFault,
            psetFault := s.plu.psetFault })) t) ∧
    (s.accepts x 0x49 →
      ∃ t, exec (.readVolumes x (.ok ())) s = .next t ∧
        s.answersOnly x 0x49
          (if s.liu.bridge = .attached then
             .ok 0x49 (.volumes (s.liu.capacity.getD 0) (allVolumes.map fun i =>
               { index := i, state := (s.volume i).state, keyState := (s.volume i).keyState,
                 first := (s.volume i).first, count := (s.volume i).count, kgen := (s.volume i).kgen,
                 readOnly := (s.volume i).readOnly, incomplete := (s.volume i).incomplete,
                 staged := s.plu.committed.volumes.get i }))
           else .refused 0x49 .notAttached 0) t)

/-- A slot administration, WIPE or settings command from a link that may not administer is refused with the reason of
the first authority check that fails: NOT_ATTACHED (B-link), WIPING, NOT_NOW, NO_AUTHORITY; nothing else changes. -/
def Obligations.AdministrationNeedsAuthority : Prop :=
  ∀ (c : Instr) (x : Exchange) (code : Byte) (s : State),
    c.exchange = some x →
    c.code = some code →
    code ∈ [0x08#8, 0x09#8, 0x0A#8, 0x0B#8, 0x0C#8, 0x0D#8, 0x0E#8, 0x0F#8] →
    c.wellFormed = true →
    c.malformed = false →
    c.isBusyRow = false →
    s.accepts x code →
    ¬ s.administers x.link →
    ∃ t, exec c s = .next t ∧
      s.answersOnly x code (.refused code
        (if x.link = .b ∧ s.liu.bridge ≠ .attached then .notAttached
         else if s.acc.access = .wiping then .wiping
         else if s.acc.access ≠ adminState x.link then .notNow
         else .noAuthority) 0) t

/-- BAR_SLOT requires an ACTIVE slot 1 to 8 and UNBAR_SLOT a BARRED one: the record with only its state changed is
requested to be written, LONG, and nothing else changes until the write ends; another index is NO_SLOT, another state
SLOT_STATE. CLEAR_SLOT requests the write of an EMPTY record for slot 1 to 9, LONG; a slot that is EMPTY with its mark
clear is answered OK at once with no write; index 0 or above 9 is NO_SLOT. -/
def Obligations.SlotCommandsQueueTheRecord : Prop :=
  ∀ (x : Exchange) (b : Byte) (s : State),
    (s.accepts x 0x09 ∧ s.administers x.link →
      ∃ t, exec (.barSlot x (.ok b)) s = .next t ∧
        (if b.toNat = 0 ∨ 9 ≤ b.toNat then s.answersOnly x 0x09 (.refused 0x09 .noSlot 0) t
         else if (s.slotRec (Fin.ofNat 10 b.toNat)).state ≠ .active then
           s.answersOnly x 0x09 (.refused 0x09 .slotState 0) t
         else ((s.frameTaken x 0x09).withWrite
           (.slot (Fin.ofNat 10 b.toNat) { s.slotRec (Fin.ofNat 10 b.toNat) with state := .barred })
           (.admin (some x.link))).leaves x (.running .long 0x09) t)) ∧
    (s.accepts x 0x0A ∧ s.administers x.link →
      ∃ t, exec (.unbarSlot x (.ok b)) s = .next t ∧
        (if b.toNat = 0 ∨ 9 ≤ b.toNat then s.answersOnly x 0x0A (.refused 0x0A .noSlot 0) t
         else if (s.slotRec (Fin.ofNat 10 b.toNat)).state ≠ .barred then
           s.answersOnly x 0x0A (.refused 0x0A .slotState 0) t
         else ((s.frameTaken x 0x0A).withWrite
           (.slot (Fin.ofNat 10 b.toNat) { s.slotRec (Fin.ofNat 10 b.toNat) with state := .active })
           (.admin (some x.link))).leaves x (.running .long 0x0A) t)) ∧
    (s.accepts x 0x0B ∧ s.administers x.link →
      ∃ t, exec (.clearSlot x (.ok b)) s = .next t ∧
        (if b.toNat = 0 ∨ 10 ≤ b.toNat then s.answersOnly x 0x0B (.refused 0x0B .noSlot 0) t
         else if (s.slotRec (Fin.ofNat 10 b.toNat)).state = .empty ∧ (s.cell (Fin.ofNat 10 b.toNat)).fault = false then
           s.answersOnly x 0x0B (.ok 0x0B .none) t
         else ((s.frameTaken x 0x0B).withWrite (.slot (Fin.ofNat 10 b.toNat) .empty)
           (.admin (some x.link))).leaves x (.running .long 0x0B) t))

/-- When the write of a slot administration command completes, the working copy takes the record with its mark and
shadow clear and the command is answered OK; when its second attempt fails, the slot keeps its contents, takes the
write fault mark and the failed record's verifier as shadow, and the command is refused STORE_FAULT. No other slot, no
access state and no key item changes. -/
def Obligations.AdminSlotWriteEnds : Prop :=
  ∀ (l : Link) (i : SlotIx) (r : SlotRecord) (n : Nat) (left : Residue) (cls : CmdClass) (code : Byte) (s : State),
    s.rsc.current = some { entry := { contents := .slot i r, purpose := .admin (some l) }, attempt := n } →
    (s.liu.port l).slot = .running cls code →
    (∃ t, exec (.storeWriteEnd .passed) s = .next t ∧
      t.ctb = { slots := s.ctb.slots.set i { record := r, fault := false, shadow := none } } ∧
      (t.liu.port l).slot = .done (.ok code .none) ∧ (t.store.slots.get i).read = .valid r ∧
      State.changesOnly [.store, .rsc, .ctb, .liu] s t) ∧
    (n ≠ 1 →
      ∃ t, exec (.storeWriteEnd (.failed left)) s = .next t ∧
        t.ctb = { slots := s.ctb.slots.set i { record := s.slotRec i, fault := true, shadow := r.verifier } } ∧
        (t.liu.port l).slot = .done (.refused code .storeFault 0) ∧
        State.changesOnly [.store, .rsc, .ctb, .liu] s t)

/-- Every policy value given is brought into its field's range by the table of R126: a value in range is kept; below the
lower limit it becomes the lower limit, above the upper limit the upper; CELL_FILTER takes 1 for 0, 4 for 3 and 8 for
everything from 5; a field coded with two values takes code 0 for 0 and code 1 for anything else. -/
def Obligations.ClampBringsIntoRange : Prop :=
  ∀ (f : PolicyField) (v : Nat),
    f.inRange (f.clamp v) = true ∧ (f.inRange v = true → f.clamp v = v) ∧
    f.clamp v = (match f with
      | .freeAttempts => if v > 7 then 7 else v
      | .penaltyBase => if v < 1 then 1 else if v > 60 then 60 else v
      | .penaltyCap => if v < 60 then 60 else if v > 3600 then 3600 else v
      | .wipeThreshold => if v < 4 then 4 else if v > 32 then 32 else v
      | .pinMin => if v < 6 then 6 else if v > 12 then 12 else v
      | .entryGap => if v < 5 then 5 else if v > 30 then 30 else v
      | .idleLock => if v > 240 then 240 else v
      | .attachWindow => if v < 5 then 5 else if v > 120 then 120 else v
      | .deferLimit => if v > 7 then 7 else v
      | .deferWindow => if v < 1 then 1 else if v > 10 then 10 else v
      | .wipeDepth => if v = 0 then 0 else 1
      | .wipeKeepAdmin => if v = 0 then 0 else 1
      | .driveReadOnly => if v = 0 then 0 else 1
      | .cellLowLevel => if v > 7 then 7 else v
      | .cellFilter => if v = 0 then 1 else if v = 3 then 4 else if 5 ≤ v then 8 else v
      | .cellRiseReport => if v = 0 then 0 else 1)

/-- SET_POLICY with fields stages one set of parts: for each field the clamp of the last value given for it, and no
field that was not given, except that WIPE_THRESHOLD joins as FREE_ATTEMPTS + 1 where the result would otherwise not
exceed FREE_ATTEMPTS. The command is LONG, the write of the committed set less the parts being removed with every
staging laid over it is requested, and nothing else changes. With no field it is answered OK at once. -/
def Obligations.SetPolicyStagesClampedValues : Prop :=
  ∀ (x : Exchange) (values : List (PolicyField × BitVec 16)) (s : State),
    s.accepts x 0x0C →
    s.administers x.link →
    ∃ t, exec (.setPolicy x (.ok values)) s = .next t ∧
      (if values = [] then s.answersOnly x 0x0C (.ok 0x0C (.policy (Vector.replicate 16 none))) t
       else ∃ v : StagedPolicy,
        (∀ f ∈ PolicyField.all, f ≠ .wipeThreshold →
          v.get f.number = (lastOf values f).map fun n => f.clamp n.toNat) ∧
        (let asked := (lastOf values .wipeThreshold).map fun n => PolicyField.wipeThreshold.clamp n.toNat
         let free := (v.get 0).getD ((s.prospective.policy.get 0).getD s.plu.policy.freeAttempts)
         let w := asked.getD ((s.prospective.policy.get 3).getD s.plu.policy.wipeThreshold)
         v.get 3 = if w ≤ free then some (free + 1) else asked) ∧
        ((s.frameTaken x 0x0C).withStaging x.link .policy
          { policy := v, map := .empty, volumes := Vector.replicate 4 none }).leaves x (.running .long 0x0C) t)

/-- SET_LOCK_MAP refuses the whole command with BAD_RANGE where an action is not allowed for its entry (BRIDGE_LOST
takes ORDERLY and FORCED, CLOCK_FAULT does not take WIPE), even one that a later action for the same entry would replace
(log entry 38); otherwise it stages the last action given for each entry, LONG, and requests the Pending Set write; with
no entry it is answered OK at once. -/
def Obligations.SetLockMapStagesAllowedActions : Prop :=
  ∀ (x : Exchange) (entries : List (MapEntry × LockAction)) (s : State),
    s.accepts x 0x0E →
    s.administers x.link →
    ∃ t, exec (.setLockMap x (.ok entries)) s = .next t ∧
      (if (MapEntry.bridgeLost, LockAction.none) ∈ entries ∨ (MapEntry.bridgeLost, LockAction.wipe) ∈ entries ∨
          (MapEntry.clockFault, LockAction.wipe) ∈ entries then
         s.answersOnly x 0x0E (.refused 0x0E .badRange 0) t
       else if entries = [] then
         s.answersOnly x 0x0E (.ok 0x0E (.map { bridgeLost := none, clockFault := none, caseOpen := none })) t
       else ((s.frameTaken x 0x0E).withStaging x.link .map
         { policy := Vector.replicate 16 none, volumes := Vector.replicate 4 none,
           map := { bridgeLost := lastOf entries .bridgeLost, clockFault := lastOf entries .clockFault,
                    caseOpen := lastOf entries .caseOpen } }).leaves x (.running .long 0x0E) t)

/-- WIPE from a link that may administer is answered OK once the state is WIPING, with the cause of its link and the
depth and keep-administrator value of the applied policy. The write that marks the wipe active is requested with a
cursor for each volume that is not UNUSED at depth KEYS_AND_MEDIA, the penalty stops, the Pending Set is emptied, an
attached bridge whose access was UNLOCKED is told KEYS_REVOKED, and the credentials, the volumes and the Limiter
Record still stand. -/
def Obligations.WipeCommandStartsAWipe : Prop :=
  ∀ (x : Exchange) (s : State),
    s.WaitOk →
    s.accepts x 0x0F →
    s.administers x.link →
    ∃ t, exec (.wipe x (.ok ())) s = .next t ∧
      (t.liu.port x.link).slot = .done (.ok 0x0F (.wipe (if x.link = .p then .panelAdmin else .bridgeAdmin)
        s.plu.policy.wipeDepth s.plu.policy.wipeKeepAdmin)) ∧
      t.acc.access = .wiping ∧ t.acc.openSlot = none ∧ t.atl.penalty = none ∧ t.atl.limiter = s.atl.limiter ∧
      t.plu.committed = .empty ∧ t.plu.inflight = [] ∧ t.ctb = s.ctb ∧ t.kru = s.kru ∧ t.store = s.store ∧
      (s.acc.access = .unlocked → t.liu.bq.keysRevoked = true) ∧
      t.liu.pq.accessChanged = some { access := .wiping, openSlot := none, clockFault := s.acc.clockFault,
                                      caseOpen := s.acc.caseOpen } ∧
      ∃ w, t.writing (.journal (some w)) (.journal .start) ∧
        w.cause = (if x.link = .p then .panelAdmin else .bridgeAdmin) ∧ w.depth = s.plu.policy.wipeDepth ∧
        w.keepAdmin = s.plu.policy.wipeKeepAdmin ∧ w.step = .keys ∧
        (w.depth = .keysOnly → w.cursors = []) ∧
        (w.depth = .keysAndMedia → w.cursors = allVolumes.filterMap s.cursorOf)

/-- WRITE_OPTIONS is refused NOT_ATTACHED, FACTORY_LOCKED or NOT_NOW (outside BLANK), in that order; with no value it
is answered OK with the stored copy; otherwise the values are laid over the stored copy (the defaults where the
record's write has failed) in the order given, the write is requested, LONG, and nothing else changes: the copy in
force stays. When that write completes, the stored copy takes it, the mark clears, and the command is answered OK with
the values as stored; when its second attempt fails, the stored copy stays, the mark is set, the record reads DAMAGED
and the command is refused STORE_FAULT. An option given twice takes its later value (log entry 39), and DAMAGED alone
is left by a failed option write (log entry 40). -/
def Obligations.WriteOptionsQueuesTheRecord : Prop :=
  ∀ (x : Exchange) (values : List (OptionField × Byte)) (o : Options) (n : Nat) (left : Residue) (cls : CmdClass)
    (code : Byte) (s : State),
    (s.accepts x 0x4A →
      ∃ t, exec (.writeOptions x (.ok values)) s = .next t ∧
        (if s.liu.bridge ≠ .attached then s.answersOnly x 0x4A (.refused 0x4A .notAttached 0) t
         else if s.plu.stored.factoryLocked = true then s.answersOnly x 0x4A (.refused 0x4A .factoryLocked 0) t
         else if s.acc.access ≠ .blank then s.answersOnly x 0x4A (.refused 0x4A .notNow 0) t
         else if values = [] then s.answersOnly x 0x4A (.ok 0x4A (.options s.plu.stored)) t
         else ((s.frameTaken x 0x4A).withWrite
           (.option ((if s.plu.storedDamaged then Options.default else s.plu.stored).overlay values))
           (.options (some .b))).leaves x (.running .long 0x4A) t)) ∧
    (s.rsc.current = some { entry := { contents := .option o, purpose := .options (some .b) }, attempt := n } →
      s.liu.b.slot = .running cls code →
      (∃ t, exec (.storeWriteEnd .passed) s = .next t ∧
        t.plu = { s.plu with stored := o, storedDamaged := false } ∧ t.store.option.read = .valid o ∧
        t.liu = { s.liu with b := { s.liu.b with slot := .done (.ok code (.options o)) } } ∧
        State.changesOnly [.store, .rsc, .plu, .liu] s t) ∧
      (n ≠ 1 →
        ∃ t, exec (.storeWriteEnd (.failed left)) s = .next t ∧
          t.plu = { s.plu with storedDamaged := true } ∧ t.store.option.read = .damaged ∧
          t.liu = { s.liu with b := { s.liu.b with slot := .done (.refused code .storeFault 0) } } ∧
          State.changesOnly [.store, .rsc, .plu, .liu] s t))

/-! ## Keys (chapter 2) -/

/-- DIGIT, ENTER, ADMIN, RECOVER and CHANGE that fail a check of the entry gate are refused with the reason of the
first that fails: WIPING, PENALTY with the remaining seconds, LOW_CELL, CONDITION, NOT_NOW (also after an expiry ended
a dialogue in UNLOCKED or CONFIG, log entry 35); the entry buffer and everything else stay as they were. -/
def Obligations.EntryKeysMeetTheGate : Prop :=
  ∀ (c : Instr) (x : Exchange) (d : Digit) (s : State),
    c ∈ [.keyDigit x (.ok d), .keyEnter x (.ok ()), .keyAdmin x (.ok ()), .keyRecover x (.ok ()), .keyChange x (.ok ())] →
    s.accepts x 0x20 →
    ¬ (s.gatePasses ∧ (c ∈ [.keyDigit x (.ok d), .keyEnter x (.ok ())] → s.entryOpen) ∧
      (c ∈ [.keyAdmin x (.ok ()), .keyRecover x (.ok ())] → s.acc.access = .locked) ∧
      (c = .keyChange x (.ok ()) → s.acc.access = .unlocked ∧ s.keu.dialogue = none)) →
    ∃ t, exec c s = .next t ∧
      s.answersOnly x 0x20 (.refused 0x20
        (if s.acc.access = .wiping then .wiping
         else if s.acc.access = .penalty then .penalty
         else if s.ssv.mode = .cellAwake ∧ s.ssv.level = .crit then .lowCell
         else if s.clockBars = true ∨ s.caseBars = true then .condition
         else .notNow)
        (if s.acc.access = .penalty then (s.atl.penalty.getD 0 + 7) / 8 else 0)) t

/-- A DIGIT that passes the gate is appended as the newest digit; with 15 held it sets the OVERLONG mark and is
discarded, and while that mark is set every later digit is discarded (with fewer than 15 held, after BACK, the model's
choice: log entry 34). BACK removes the newest digit and keeps the mark and the intent; CLEAR empties the buffer and keeps the
dialogue with its step and candidate; both are taken in every access state but HALTED. ADMIN and RECOVER that pass the
gate in LOCKED set the intent of an EMPTY buffer, which becomes COLLECTING, and are otherwise ignored. Each changes
the buffer and the entry timer alone, and is answered OK with the summary. -/
def Obligations.BufferKeysEditTheBuffer : Prop :=
  ∀ (x : Exchange) (d : Digit) (s : State),
    s.accepts x 0x20 →
    (s.gatePasses ∧ s.entryOpen →
      ∃ t, exec (.keyDigit x (.ok d)) s = .next t ∧
        State.keyAnswered x 0x20 .none
          (State.timed { s.frameTaken x 0x20 with keu := { s.keu with
            digits := (if s.keu.overlong = false ∧ s.keu.digits.length < 15 then s.keu.digits ++ [d]
                       else s.keu.digits),
            overlong := (if s.keu.digits.length < 15 then s.keu.overlong else true), bstate := .collecting } }) t) ∧
    (s.keu.bstate ≠ .evaluating →
      (∃ t, exec (.keyBack x (.ok ())) s = .next t ∧
        State.keyAnswered x 0x20 .none
          (State.timed { s.frameTaken x 0x20 with keu := { s.keu with
            digits := s.keu.digits.dropLast,
            bstate := (if s.keu.digits.dropLast = [] ∧ s.keu.overlong = false ∧ s.keu.intent = s.keu.defaultIntent
                       then .empty else .collecting) } }) t) ∧
      (∃ t, exec (.keyClear x (.ok ())) s = .next t ∧
        State.keyAnswered x 0x20 .none (State.timed { s.frameTaken x 0x20 with keu := s.keu.cleared }) t)) ∧
    (s.gatePasses ∧ s.acc.access = .locked →
      (∃ t, exec (.keyAdmin x (.ok ())) s = .next t ∧
        State.keyAnswered x 0x20 .none (State.timed { s.frameTaken x 0x20 with
          keu := if s.keu.bstate = .empty then { s.keu with intent := .admin, bstate := .collecting } else s.keu }) t) ∧
      (∃ t, exec (.keyRecover x (.ok ())) s = .next t ∧
        State.keyAnswered x 0x20 .none (State.timed { s.frameTaken x 0x20 with
          keu := if s.keu.bstate = .empty then { s.keu with intent := .recover, bstate := .collecting } else s.keu }) t))

/-- An ENTER that passes the gate with no digits, with the OVERLONG mark, or with 1 to 5 digits is answered OK with
EMPTY, OVERLONG or TOO_SHORT, in that order; the buffer is emptied, a dialogue stays at its step with its candidate,
nothing is counted and no write is requested. -/
def Obligations.EnterChecksItsForm : Prop :=
  ∀ (x : Exchange) (s : State),
    s.accepts x 0x20 →
    s.gatePasses →
    s.entryOpen →
    (s.keu.digits = [] ∨ s.keu.overlong = true ∨ s.keu.digits.length < 6) →
    ∃ t, exec (.keyEnter x (.ok ())) s = .next t ∧
      State.keyAnswered x 0x20
        (if s.keu.digits = [] then .empty else if s.keu.overlong = true then .overlong else .tooShort)
        (State.timed { s.frameTaken x 0x20 with keu := s.keu.cleared }) t

/-- An ENTER of an attempt whose form passes is held LONG with the buffer EVALUATING and the entry timer stopped, and
the pre-count (F one higher, SERVED no) is requested before anything is judged; with F at W nothing is written for it,
it is refused WIPING and the threshold wipe starts. With the cell LOW in CELL_AWAKE, ADMIN and RECOVER entries are
refused LOW_CELL and the buffer emptied. An ENTER of a dialogue is held LONG while its verifier is computed; a first
entry shorter than PIN_MIN is answered TOO_SHORT with the dialogue kept at its step, and neither is counted. -/
def Obligations.EnterHandsTheEntryOn : Prop :=
  ∀ (x : Exchange) (s : State),
    s.WaitOk →
    s.accepts x 0x20 →
    s.gatePasses →
    s.entryOpen →
    s.keu.overlong = false →
    6 ≤ s.keu.digits.length →
    (s.keu.dialogue = none →
      ∃ t, exec (.keyEnter x (.ok ())) s = .next t ∧
        (if (s.keu.intent = .admin ∨ s.keu.intent = .recover) ∧ s.ssv.mode = .cellAwake ∧ s.ssv.level = .low then
           State.leaves x (.done (.refused 0x20 .lowCell 0))
             (State.timed { s.frameTaken x 0x20 with keu := s.keu.cleared }) t
         else if s.atl.limiter.fails < s.plu.policy.wipeThreshold then
           State.leaves x (.running .long 0x20)
             (State.withWrite (.limiter { fails := s.atl.limiter.fails + 1, served := false }) .preCount
               { s.frameTaken x 0x20 with keu := s.keu.handedOn .preCount }) t
         else (t.liu.port x.link).slot = .done (.refused 0x20 .wiping 0) ∧ t.acc.access = .wiping ∧
           t.atl.limiter = s.atl.limiter ∧ t.ctb = s.ctb ∧ t.keu.digits = [] ∧ t.keu.flight = none)) ∧
    (∀ d, s.keu.dialogue = some d →
      ∃ t, exec (.keyEnter x (.ok ())) s = .next t ∧
        (if d.step = .first ∧ s.keu.digits.length < s.plu.policy.pinMin then
           State.keyAnswered x 0x20 .tooShort (State.timed { s.frameTaken x 0x20 with keu := s.keu.cleared }) t
         else State.leaves x (.running .long 0x20)
           { s.frameTaken x 0x20 with
             keu := s.keu.handedOn (if d.step = .first then .verifyFirst else .verifyConfirm) } t))

/-- The LOCK key is answered OK in every access state but HALTED. In UNLOCKED it is an orderly lock: offered to an
attached bridge as LOCK_PENDING with DEFER_LIMIT deferrals, completed at once with none. In CONFIG it ends CONFIG. In
every other state no access item, volume or setting changes, and in LOCKED and BLANK it empties the buffer. -/
def Obligations.LockKeyLocksInOrder : Prop :=
  ∀ (x : Exchange) (s : State),
    s.StoreOk →
    s.accepts x 0x20 →
    ∃ t, exec (.keyLock x (.ok ())) s = .next t ∧
      (t.liu.port x.link).slot = .done (.ok 0x20 (.key .none none t.summary)) ∧
      (if s.acc.access = .unlocked ∧ s.liu.bridge = .attached then s.offersLock .panelLock t
       else if s.acc.access = .unlocked then s.locksDown t
       else if s.acc.access = .config then s.configEnds t
       else State.changesOnly [.liu, .ssv, .keu] s t ∧ t.liu.pq = s.liu.pq ∧ t.liu.bq = s.liu.bq ∧
         ((s.acc.access = .locked ∨ s.acc.access = .blank) ∧ s.keu.bstate ≠ .evaluating →
           t.keu.digits = [] ∧ t.keu.overlong = false ∧ t.keu.intent = s.keu.defaultIntent ∧
           t.keu.dialogue = s.keu.dialogue))

/-- CHANGE in UNLOCKED with no dialogue begins a CHANGE dialogue on the open slot at step FIRST if that slot is ACTIVE
with its mark clear, and is refused SLOT_STATE otherwise. The open state, its timers and the slots stay. EXIT ends
CONFIG into LOCKED, or in UNLOCKED ends a CHANGE dialogue with its entry and leaves the slot and the access state as
they were, and is answered OK; in every other case it is refused NOT_NOW and nothing changes. -/
def Obligations.ChangeAndExitBeginAndEndADialogue : Prop :=
  ∀ (x : Exchange) (s : State),
    s.accepts x 0x20 →
    (∀ i, s.gatePasses → s.acc.access = .unlocked → s.keu.dialogue = none → s.acc.openSlot = some i →
      ∃ t, exec (.keyChange x (.ok ())) s = .next t ∧
        (if (s.slotRec i).state = .active ∧ (s.cell i).fault = false then
           State.keyAnswered x 0x20 .none (State.timed { s.frameTaken x 0x20 with keu := { s.keu with
             digits := [], overlong := false, intent := .enrolFirst, bstate := .empty,
             dialogue := some { kind := .change, target := i, mode := none, mask := none, step := .first,
                                candidate := none } } }) t
         else s.answersOnly x 0x20 (.refused 0x20 .slotState 0) t)) ∧
    (∃ t, exec (.keyExit x (.ok ())) s = .next t ∧
        (if s.acc.access = .config then
           s.configEnds t ∧ (t.liu.port x.link).slot = .done (.ok 0x20 (.key .none none t.summary)) ∧ t.ctb = s.ctb
         else if s.acc.access = .unlocked ∧ s.keu.inChange = true then
           State.keyAnswered x 0x20 .none { s.frameTaken x 0x20 with keu := { s.keu with
             digits := [], overlong := false, intent := .unlock, bstate := .empty, dialogue := none,
             entryTimer := none } } t
         else s.answersOnly x 0x20 (.refused 0x20 .notNow 0) t))

/-- ENROL_BEGIN is refused by the first check that fails (WIPING, NOT_NOW outside CONFIG, NO_SLOT, NO_AUTHORITY when
slot 0 is not the open slot and the target is not slot 0, CONDITION, SLOT_STATE, NO_VOLUME, the last two in the order of
log entry 33); otherwise an ENROL dialogue for the target begins at step FIRST, ending any other, the mask of a user slot
losing its UNUSED volumes, and the slots stay. -/
def Obligations.EnrolBeginBeginsADialogue : Prop :=
  ∀ (x : Exchange) (a : EnrolArgs) (s : State),
    s.accepts x 0x21 →
    ∃ t, exec (.enrolBegin x (.ok a)) s = .next t ∧
      (let i : SlotIx := Fin.ofNat 10 a.index.toNat
       let user := i ≠ 0 ∧ i ≠ 9
       let st := (s.slotRec i).state
       if s.acc.access = .wiping then s.answersOnly x 0x21 (.refused 0x21 .wiping 0) t
       else if s.acc.access ≠ .config then s.answersOnly x 0x21 (.refused 0x21 .notNow 0) t
       else if 10 ≤ a.index.toNat then s.answersOnly x 0x21 (.refused 0x21 .noSlot 0) t
       else if s.acc.openSlot ≠ some 0 ∧ i ≠ 0 then s.answersOnly x 0x21 (.refused 0x21 .noAuthority 0) t
       else if s.clockBars = true ∨ s.caseBars = true then s.answersOnly x 0x21 (.refused 0x21 .condition 0) t
       else if ¬ (st = .empty ∨ (i = 0 ∧ st = .active) ∨ (i = 9 ∧ st = .spent)) then
         s.answersOnly x 0x21 (.refused 0x21 .slotState 0) t
       else if user ∧ ∀ v : VolIx, a.mask.getLsbD v.val = true → (s.volume v).state = .unused then
         s.answersOnly x 0x21 (.refused 0x21 .noVolume 0) t
       else ∃ m : VolMask,
         (∀ v : VolIx, m.getLsbD v.val = (a.mask.getLsbD v.val && !((s.volume v).state == .unused))) ∧
         State.keyAnswered x 0x21 .none (State.timed { s.frameTaken x 0x21 with keu := { s.keu with
           digits := [], overlong := false, intent := .enrolFirst, bstate := .empty,
           dialogue := some { kind := .enrol, target := i, mode := if user then some a.mode else none,
                              mask := if user then some m else none, step := .first, candidate := none } } }) t)

/-! ## The bridge (chapters 4 to 6) -/

/-- ATTACH with a capacity stores it, makes the bridge ATTACHED, discards the events of its earlier view and starts
the 2 s link timer. In UNLOCKED the attach timer stops and the idle timer starts afresh; in LOCKING the lock completes
with KEYS_REVOKED; in every other state the ACC stays. The answer carries the access state, the open slot and the set
of volumes a FETCH_KEY would release now. A capacity of 0 is BAD_RANGE and changes nothing. -/
def Obligations.AttachTakesTheBridge : Prop :=
  ∀ (x : Exchange) (n : BitVec 32) (s : State),
    s.WaitOk →
    s.accepts x 0x40 →
    ∃ t, exec (.attach x (.ok n)) s = .next t ∧
      (if n = 0 then s.answersOnly x 0x40 (.refused 0x40 .badRange 0) t
       else t.liu.bridge = .attached ∧ t.liu.capacity = some n.toNat ∧ t.liu.linkTimer = some 16 ∧
         t.wpe.orderTimer = none ∧ t.atl.limiter = s.atl.limiter ∧
         (∃ m : VolMask, (t.liu.port x.link).slot = .done (.ok 0x40 (.attach t.acc.access t.acc.openSlot m)) ∧
           ∀ v : VolIx, m.getLsbD v.val =
             (t.acc.access == .unlocked && t.keyLive v && t.inOpenSet v && t.reachable v)) ∧
         (if s.acc.access = .unlocked then
            t.acc = { s.acc with attachTimer := none,
                                 idleTimer := if s.plu.policy.idleLock = 0 then none
                                              else some (s.plu.policy.idleLock * 480) } ∧ t.liu.bq = BQueue.empty
          else if s.acc.access = .locking then s.locksDown t ∧ t.liu.bq.keysRevoked = true
          else t.acc = s.acc ∧ (s.acc.access ≠ .wiping → t.liu.bq = BQueue.empty ∧ t.ctb = s.ctb ∧ t.kru = s.kru)))

/-- DETACH from ATTACHED makes the link PRESENT with no capacity, no link timer and no erase order, and then locks the
drive at once without KEYS_REVOKED; from LOST it makes the link PRESENT; from PRESENT it is refused NOT_ATTACHED. LOCK
locks the drive at once. Both leave every event of the B-link's queue in place but for what the lock posts and
withdraws (ACCESS_CHANGED, LOCK_PENDING, after LOCK from an attached bridge KEYS_REVOKED), and answer OK. ACTIVITY
from an attached bridge restarts a running idle timer in UNLOCKED with IDLE_LOCK and answers the idle time remaining
after the command in seconds, rounded up, or 0 when no idle timer runs; it is refused NOT_ATTACHED otherwise, and
nothing else changes. -/
def Obligations.DetachLockAndActivity : Prop :=
  ∀ (x : Exchange) (s : State),
    (s.accepts x 0x41 →
      ∃ t, exec (.detach x (.ok ())) s = .next t ∧
        (if s.liu.bridge = .attached then
           t.liu.bridge = .present ∧ t.liu.capacity = none ∧ t.liu.linkTimer = none ∧ t.wpe.order = none ∧
           t.wpe.orderTimer = none ∧ (t.liu.port x.link).slot = .done (.ok 0x41 .none) ∧
           t.wpe.journal = s.wpe.journal ∧ t.ctb = s.ctb ∧
           (if s.acc.access = .unlocked ∨ s.acc.access = .locking then
              t.acc = { s.acc with access := .locked, openSlot := none, idleTimer := none, attachTimer := none,
                                   deferTimer := none, lockCause := none, deferrals := none } ∧
              t.liu.bq = { s.liu.bq with lockPending := none, accessChanged := some s.lockedReport } ∧
              t.liu.pq.accessChanged = some s.lockedReport
            else if s.acc.access = .config then
              s.configEnds t ∧ t.liu.bq = { s.liu.bq with accessChanged := some s.lockedReport }
            else t.acc = s.acc ∧ t.plu = s.plu ∧ t.kru = s.kru ∧ t.liu.bq = s.liu.bq)
         else if s.liu.bridge = .lost then
           State.leaves x (.done (.ok 0x41 .none))
             { s with liu := { s.liu with bridge := .present, capacity := none, linkTimer := none } } t
         else s.answersOnly x 0x41 (.refused 0x41 .notAttached 0) t)) ∧
    (s.accepts x 0x42 →
      ∃ t, exec (.lock x (.ok ())) s = .next t ∧ (t.liu.port x.link).slot = .done (.ok 0x42 .none) ∧
        s.forcedBy t ∧ t.liu.bridge = s.liu.bridge ∧ t.ctb = s.ctb ∧ t.wpe = s.wpe ∧ t.atl = s.atl ∧
        t.liu.bq = (if s.acc.access = .unlocked ∨ s.acc.access = .locking then
                      { s.liu.bq with lockPending := none, accessChanged := some s.lockedReport,
                                      keysRevoked := s.liu.bq.keysRevoked || s.liu.bridge == .attached }
                    else if s.acc.access = .config then
                      { s.liu.bq with accessChanged := some s.lockedReport }
                    else s.liu.bq)) ∧
    (s.accepts x 0x43 →
      ∃ t, exec (.activity x (.ok ())) s = .next t ∧
        (if s.liu.bridge ≠ .attached then s.answersOnly x 0x43 (.refused 0x43 .notAttached 0) t
         else if s.acc.access = .unlocked ∧ s.acc.idleTimer.isSome = true then
           State.leaves x (.done (.ok 0x43 (.activity (60 * s.plu.policy.idleLock))))
             { s.frameTaken x 0x43 with acc := { s.acc with
               idleTimer := if s.plu.policy.idleLock = 0 then none else some (s.plu.policy.idleLock * 480) } } t
         else s.answersOnly x 0x43 (.ok 0x43 (.activity ((s.acc.idleTimer.getD 0 + 7) / 8))) t))

/-- FETCH_KEY is refused by the first check that fails (NOT_ATTACHED, WIPING, NOT_NOW outside UNLOCKED, NO_VOLUME,
NO_AUTHORITY, UNREACHABLE); otherwise it releases the volume's key with its KGEN and range, READ_ONLY when the open
user slot, the policy DRIVE_READ_ONLY or the volume says so. Nothing else changes. -/
def Obligations.FetchKeyReleasesTheKey : Prop :=
  ∀ (x : Exchange) (b : Byte) (s : State),
    s.accepts x 0x44 →
    ∃ t, exec (.fetchKey x (.ok b)) s = .next t ∧
      (let v : VolIx := Fin.ofNat 4 b.toNat
       if s.liu.bridge ≠ .attached then s.answersOnly x 0x44 (.refused 0x44 .notAttached 0) t
       else if s.acc.access = .wiping then s.answersOnly x 0x44 (.refused 0x44 .wiping 0) t
       else if s.acc.access ≠ .unlocked then s.answersOnly x 0x44 (.refused 0x44 .notNow 0) t
       else if 4 ≤ b.toNat ∨ s.keyLive v = false then s.answersOnly x 0x44 (.refused 0x44 .noVolume 0) t
       else if s.inOpenSet v = false then s.answersOnly x 0x44 (.refused 0x44 .noAuthority 0) t
       else if s.reachable v = false then s.answersOnly x 0x44 (.refused 0x44 .unreachable 0) t
       else s.answersOnly x 0x44 (.ok 0x44 (.keyRelease
         { volume := v, kgen := (s.volume v).kgen,
           mode := if s.slotReadOnly = true ∨ s.plu.policy.driveReadOnly = true ∨ (s.volume v).readOnly = some true
                   then .readOnly else .readWrite,
           first := (s.volume v).first.getD 0, count := (s.volume v).count.getD 0,
           key := (s.volume v).key.getD 0 })) t)

/-- LOCK_REPLY from an attached bridge in LOCKING: READY completes the lock (LOCKED); HOLD with deferrals left spends
one, restarts the defer timer and offers the lock again (HELD); HOLD with none left completes it (OVERRULED). Without
an attached bridge it is refused NOT_ATTACHED, outside LOCKING STALE, and nothing changes. -/
def Obligations.LockReplyReadyOrHold : Prop :=
  ∀ (x : Exchange) (r : LockReplyCode) (s : State),
    s.accepts x 0x45 →
    ∃ t, exec (.lockReply x (.ok r)) s = .next t ∧
      (if s.liu.bridge ≠ .attached then s.answersOnly x 0x45 (.refused 0x45 .notAttached 0) t
       else if s.acc.access ≠ .locking then s.answersOnly x 0x45 (.refused 0x45 .stale 0) t
       else if r = .hold ∧ 0 < s.acc.deferrals.getD 0 then
         t.acc = { s.acc with deferrals := some (s.acc.deferrals.getD 0 - 1),
                              deferTimer := some (s.plu.policy.deferWindow * 8) } ∧
         (t.liu.port x.link).slot = .done (.ok 0x45 (.lockReply (.held (s.acc.deferrals.getD 0 - 1)))) ∧
         (∀ c, s.acc.lockCause = some c → t.liu.bq.lockPending = some (c, s.acc.deferrals.getD 0 - 1)) ∧
         t.keu = s.keu ∧ t.plu = s.plu ∧ t.kru = s.kru ∧ t.liu.pq = s.liu.pq
       else s.locksDown t ∧
         (t.liu.port x.link).slot = .done (.ok 0x45 (.lockReply (if r = .ready then .locked else .overruled))))

/-- WORK_FETCH from an attached bridge in WIPING issues a READY order under the next order number, starts the 60 s
order timer and withdraws ERASE_WORK; an ISSUED order is answered again unchanged, and with no order the answer is
NO_WORK. It is refused NOT_ATTACHED or NOT_NOW otherwise. WORK_DONE that does not name the issued order in WIPING is
STALE. OK ends the order, requests the write of the cursor advanced past its blocks and answers ADVANCED. FAIL on
attempts 1 and 2 makes the order READY again under the next attempt (RETRY); on attempt 3 the order is abandoned, its
blocks counted as failed. When a journal write that leaves the wipe in MEDIA completes with the bridge ATTACHED, the
next order is formed from the first unfinished cursor: the least of 262,144 blocks, the rest of the cursor and the rest
of the capacity; a cursor that stands at the capacity or beyond has its rest counted as failed and written. -/
def Obligations.WorkIsFetchedAndDone : Prop :=
  ∀ (x : Exchange) (n : BitVec 16) (r : WorkReport) (w : WipeRecord) (which : JournalWrite) (a cap : Nat) (s : State),
    (s.accepts x 0x46 →
      ∃ t, exec (.workFetch x (.ok ())) s = .next t ∧
        (if s.liu.bridge ≠ .attached then s.answersOnly x 0x46 (.refused 0x46 .notAttached 0) t
         else if s.acc.access ≠ .wiping then s.answersOnly x 0x46 (.refused 0x46 .notNow 0) t
         else match s.wpe.order with
           | none => s.answersOnly x 0x46 (.ok 0x46 (.work none)) t
           | some o =>
             match o.number with
             | some n => s.answersOnly x 0x46 (.ok 0x46 (.work (some (n, o.first, o.count)))) t
             | none =>
               let n := if s.wpe.counter = 65535 then 1 else s.wpe.counter + 1
               State.leaves x (.done (.ok 0x46 (.work (some (n, o.first, o.count)))))
                 { s with wpe := { s.wpe with counter := n, order := some { o with number := some n },
                                              orderTimer := some 480 },
                          liu := { (s.frameTaken x 0x46).liu with bq := { s.liu.bq with eraseWork := none } } } t)) ∧
    (s.accepts x 0x47 →
      ∃ t, exec (.workDone x (.ok (n, r))) s = .next t ∧
        (if s.liu.bridge ≠ .attached then s.answersOnly x 0x47 (.refused 0x47 .notAttached 0) t
         else match s.wpe.order with
           | none => s.answersOnly x 0x47 (.refused 0x47 .stale 0) t
           | some o =>
             if ¬ (s.acc.access = .wiping ∧ o.number = some n.toNat) then
               s.answersOnly x 0x47 (.refused 0x47 .stale 0) t
             else if r = .fail ∧ s.wpe.attempt < 3 then
               (t.liu.port x.link).slot = .done (.ok 0x47 (.workDone (.retry (s.wpe.attempt + 1)))) ∧
               t.wpe = { s.wpe with attempt := s.wpe.attempt + 1, order := some { o with number := none },
                                    orderTimer := none } ∧
               (∀ w, s.wpe.journal = some w → t.liu.bq = { s.liu.bq with eraseWork := some w.progress })
             else ∀ w c, s.wpe.journal = some w → w.cursors.find? (fun d => d.next ≠ d.first + d.count) = some c →
               State.leaves x (.done (.ok 0x47 (.workDone (if r = .ok then .advanced else .abandoned))))
                 (State.withWrite
                   (.journal (some (w.advance { c with
                     next := o.first + o.count, failed := c.failed + (if r = .ok then 0 else o.count) })))
                   (.journal .cursor)
                   { s.frameTaken x 0x47 with wpe := { s.wpe with order := none, orderTimer := none } }) t)) ∧
    (s.rsc.current = some { entry := { contents := .journal (some w), purpose := .journal which }, attempt := a } →
      s.rsc.queue = [] → s.acc.access = .wiping → s.corePowered = true → s.ssv.level ≠ .crit →
      s.liu.bridge = .attached → s.liu.capacity = some cap → s.wpe.order = none → w.step = .media →
      ∀ c, w.cursors.find? (fun d => d.next ≠ d.first + d.count) = some c →
      ∃ t, exec (.storeWriteEnd .passed) s = .next t ∧ t.wpe.journal = some w ∧ t.wpe.run = .active ∧
        (which = .cursor → t.wpe.attempt = 1) ∧
        t.liu.pq.wipeState = some { cause := w.cause, depth := w.depth, step := .media, run := .active,
                                    progress := w.progress } ∧
        (if c.next < cap then
           t.wpe.order = some { number := none, first := c.next,
                                count := min 262144 (min (c.first + c.count - c.next) (cap - c.next)) } ∧
           t.liu.bq = { s.liu.bq with eraseWork := some w.progress }
         else t.wpe.order = none ∧
           t.writing (.journal (some (w.advance
             { c with next := c.first + c.count, failed := c.failed + (c.first + c.count - c.next) })))
             (.journal .cursor)))

/-- DEFINE_VOLUME is refused by the first check that fails (NOT_ATTACHED, WIPING, NOT_NOW, NO_AUTHORITY, NO_VOLUME,
then BAD_RANGE for a range that after rounding to granules is empty, ends beyond the capacity, or meets another volume
of the prospective table); otherwise the rounded definition is staged, LONG, and the Volume Table stays. -/
def Obligations.DefineVolumeStagesARange : Prop :=
  ∀ (x : Exchange) (a : DefineArgs) (s : State),
    s.accepts x 0x48 →
    ∃ t, exec (.defineVolume x (.ok a)) s = .next t ∧
      (let i : VolIx := Fin.ofNat 4 (defineIx a).toNat
       let staged := fun d : VolumeDef =>
         State.leaves x (.running .long 0x48)
           ((s.frameTaken x 0x48).withStaging .b (.volume i)
             { policy := Vector.replicate 16 none, map := .empty,
               volumes := (Vector.replicate 4 none).set i (some d) }) t
       if s.liu.bridge ≠ .attached then s.answersOnly x 0x48 (.refused 0x48 .notAttached 0) t
       else if s.acc.access = .wiping then s.answersOnly x 0x48 (.refused 0x48 .wiping 0) t
       else if s.acc.access ≠ .unlocked then s.answersOnly x 0x48 (.refused 0x48 .notNow 0) t
       else if s.acc.openSlot ≠ some 0 then s.answersOnly x 0x48 (.refused 0x48 .noAuthority 0) t
       else if 4 ≤ (defineIx a).toNat then s.answersOnly x 0x48 (.refused 0x48 .noVolume 0) t
       else match a with
         | .unused _ => staged .unused
         | .range _ f c ro =>
           let first := (f.toNat + 2047) / 2048 * 2048
           let count := c.toNat / 2048 * 2048
           if count = 0 ∨ s.liu.capacity.getD 0 < first + count ∨ s.overlapsOther i first count = true then
             s.answersOnly x 0x48 (.refused 0x48 .badRange 0) t
           else staged (.range first count ro))

/-! ## Evaluation and enrolment (chapters 2 and 3) -/

/-- The penalty P(F) is 0 for F at most FREE; otherwise, with k = F - FREE - 1 taken as at most 15, it is 8 x BASE x 2
to the power k, or 8 x CAP if that is smaller; and with BASE at most CAP it lies between 8 x BASE and 8 x CAP and is a
whole number of seconds. -/
def Obligations.PenaltySchedule : Prop :=
  ∀ (p : Policy) (f : Nat),
    (f ≤ p.freeAttempts → p.penaltyTicks f = 0) ∧
    (∀ k, f = p.freeAttempts + 1 + k → k ≤ 15 →
      p.penaltyTicks f = if 8 * p.penaltyBase * 2 ^ k < 8 * p.penaltyCap then 8 * p.penaltyBase * 2 ^ k
                         else 8 * p.penaltyCap) ∧
    (∀ k, f = p.freeAttempts + 1 + k → 15 < k →
      p.penaltyTicks f = if 8 * p.penaltyBase * 32768 < 8 * p.penaltyCap then 8 * p.penaltyBase * 32768
                         else 8 * p.penaltyCap) ∧
    (p.freeAttempts < f → p.penaltyBase ≤ p.penaltyCap →
      8 * p.penaltyBase ≤ p.penaltyTicks f ∧ p.penaltyTicks f ≤ 8 * p.penaltyCap) ∧
    p.penaltyTicks f % 8 = 0

/-- When the pre-count write completes, the working copy takes the higher F with SERVED no, and the evaluation time
begins with the CTB's answer: the lowest slot the intent selects that is ACTIVE, unmarked and holds V of the digits.
When it fails after its retry nothing is judged: the part is HALTED, the KEU is refused STORE_FAULT and the working
copy keeps F. V is kept as an injective image of the digits (log entry 9). -/
def Obligations.PreCountComesFirst : Prop :=
  ∀ (r : Limiter) (n : Nat) (left : Residue) (cls : CmdClass) (code : Byte) (s : State),
    s.WaitOk →
    s.StoreOk →
    s.rsc.current = some { entry := { contents := .limiter r, purpose := .preCount }, attempt := n } →
    s.keu.flight = some .preCount →
    s.liu.p.slot = .running cls code →
    s.acc.access = .locked →
    (∃ t, exec (.storeWriteEnd .passed) s = .next t ∧
      t.atl = { s.atl with limiter := r } ∧ t.store.limiter.read = .valid r ∧
      t.keu = { s.keu with flight := some (.judging (allSlots.find? fun i =>
        (match s.keu.intent with
         | .unlock => i != 9
         | .admin => i == 0
         | .recover => i == 9
         | .enrolFirst => false
         | .enrolConfirm => false) && (s.slotRec i).state == .active && !(s.cell i).fault &&
        (s.slotRec i).verifier == some { preimage := s.keu.digits })) } ∧
      State.changesOnly [.store, .rsc, .atl, .keu] s t) ∧
    (n ≠ 1 →
      ∃ t, exec (.storeWriteEnd (.failed left)) s = .next t ∧ t.acc.access = .halted ∧ t.acc.openSlot = none ∧
        t.liu.p.slot = .done (.refused code .storeFault 0) ∧ t.atl.limiter = s.atl.limiter ∧ t.atl.penalty = none ∧
        t.keu.flight = none ∧ t.keu.digits = [] ∧ t.ctb = s.ctb ∧ t.kru = s.kru ∧ t.wpe.journal = none)

/-- At the end of the evaluation time a MATCH on slot 0 to 8 requests the refund and a MATCH on slot 9 the spend, with
nothing answered and nothing opened. NO_MATCH is answered REJECTED with the attempts left: at F equal to W the
threshold wipe starts; otherwise the penalty P(F), if above 0, starts its timer and the state is PENALTY; otherwise
the state stays. -/
def Obligations.EvaluationEndJudges : Prop :=
  ∀ (a : Option SlotIx) (cls : CmdClass) (code : Byte) (s : State),
    s.WaitOk →
    s.StoreOk →
    s.keu.flight = some (.judging a) →
    s.liu.p.slot = .running cls code →
    s.acc.access = .locked →
    s.acc.heldWipe = false →
    s.corePowered = true →
    ∃ t, exec .evaluationEnd s = .next t ∧
      (match a with
       | some i =>
         t.keu = { s.keu with flight := some (if i = 9 then .spend else .refund i) } ∧
         t.writing (if i = 9 then .slot 9 { SlotRecord.empty with state := .spent }
                    else .limiter { fails := 0, served := true }) (if i = 9 then .spend else .refund) ∧
         State.changesOnly [.keu, .rsc] s t
       | none =>
         let f := s.atl.limiter.fails
         let w := s.plu.policy.wipeThreshold
         let p := s.plu.policy.penaltyTicks f
         t.keu.digits = [] ∧ t.keu.flight = none ∧ t.ctb = s.ctb ∧ t.kru = s.kru ∧
         (if f = w then
            t.liu.p.slot = .done (.ok code (.key .rejected (some (0, 0)) t.summary)) ∧ t.acc.access = .wiping ∧
            t.atl.limiter = s.atl.limiter ∧ t.atl.penalty = none
          else if p = 0 then
            t.liu.p.slot = .done (.ok code (.key .rejected (some (w - f, 0)) t.summary)) ∧
            State.changesOnly [.keu, .liu] s t
          else
            t.liu.p.slot = .done (.ok code (.key .rejected (some (w - f, p / 8)) t.summary)) ∧
            t.acc = { s.acc with access := .penalty, openSlot := none } ∧
            t.atl = { s.atl with penalty := some p, phase := false } ∧
            t.liu.pq.penaltyChanged = some (p / 8, w - f) ∧
            State.changesOnly [.keu, .liu, .acc, .atl] s t))

/-- When the uses write of a matched slot ends, completed or failed after its retry, the grant stands and the key is
answered GRANTED: UNLOCKED opens for an UNLOCK intent (idle timer with an attached bridge, else the attach window) and
CONFIG otherwise (60 s config timer), with the matched slot as open slot. At the end of the flight a held wipe is
removed and a wipe with cause CASE_OPEN starts; with none held, a barring condition of action ORDERLY or FORCED, or the
cell at CRIT in CELL_AWAKE, acts again on the state just opened, and an entry into LOCKED applies the Pending Set. With
the gate open nothing more happens. Where both conditions are mapped ORDERLY the lock cause is CLOCK_FAULT, by the order
of the re-check in log entry 24. -/
def Obligations.SuccessOpensTheDrive : Prop :=
  ∀ (i : SlotIx) (r : SlotRecord) (n : Nat) (e : AttemptEnd) (cls : CmdClass) (code : Byte) (s : State),
    s.WaitOk →
    s.rsc.current = some { entry := { contents := .slot i r, purpose := .uses i }, attempt := n } →
    s.keu.flight = some (.uses i) →
    s.liu.p.slot = .running cls code →
    s.acc.access = .locked →
    s.corePowered = true →
    e = .passed ∨ n ≠ 1 →
    ∃ t, exec (.storeWriteEnd e) s = .next t ∧
      t.keu.digits = [] ∧ t.keu.flight = none ∧ t.atl.limiter = s.atl.limiter ∧ t.acc.heldWipe = false ∧
      t.cell i = (if e = .passed then { record := r, fault := false, shadow := none }
                  else { record := s.slotRec i, fault := true, shadow := r.verifier }) ∧
      (∃ m, t.liu.p.slot = .done (.ok code (.key .granted none m))) ∧
      (if s.acc.heldWipe = true then
         t.acc.access = .wiping ∧ t.acc.openSlot = none ∧
         ∃ w, t.writing (.journal (some w)) (.journal .start) ∧ w.cause = .caseOpen
       else if s.gateOpen = true then
         t.liu.p.slot = .done (.ok code (.key .granted none t.summary)) ∧
         t.atl = s.atl ∧ t.plu = s.plu ∧ t.kru = s.kru ∧ t.wpe = s.wpe ∧
         t.acc = (if s.keu.intent = .unlock then
                    (if s.liu.bridge = .attached then
                       { s.acc with access := .unlocked, openSlot := some i,
                                    idleTimer := if s.plu.policy.idleLock = 0 then none
                                                 else some (s.plu.policy.idleLock * 480) }
                     else { s.acc with access := .unlocked, openSlot := some i,
                                       attachTimer := some (s.plu.policy.attachWindow * 8) })
                  else { s.acc with access := .config, openSlot := some i, configTimer := some 480 }) ∧
         t.liu.pq.accessChanged = some { access := t.acc.access, openSlot := some i, clockFault := s.acc.clockFault,
                                         caseOpen := s.acc.caseOpen }
       else
         let forced := (s.acc.clockFault = true ∧ s.plu.map.clockFault = .forced) ∨
           (s.acc.caseOpen = true ∧ s.plu.map.caseOpen = .forced) ∨ (s.ssv.mode = .cellAwake ∧ s.ssv.level = .crit)
         let orderly := (s.acc.clockFault = true ∧ s.plu.map.clockFault = .orderly) ∨
           (s.acc.caseOpen = true ∧ s.plu.map.caseOpen = .orderly)
         if s.keu.intent = .unlock then
           if forced ∨ (orderly ∧ s.liu.bridge ≠ .attached) then
             t.acc.access = .locked ∧ t.acc.openSlot = none ∧ s.appliesSet t
           else if orderly then
             t.acc.access = .locking ∧ t.acc.openSlot = some i ∧
             t.acc.lockCause = some (if s.acc.clockFault = true ∧ s.plu.map.clockFault = .orderly then .clockFault
                                     else .caseOpen)
           else t.acc.access = .unlocked ∧ t.acc.openSlot = some i
         else if forced ∨ orderly then t.acc.access = .locked ∧ t.acc.openSlot = none ∧ s.appliesSet t
         else t.acc.access = .config ∧ t.acc.openSlot = some i)

/-- When the refund of a matched slot completes, F is 0 and SERVED yes, and the uses increment of that slot is requested
with the state still LOCKED; a count that stands at 65,535 is not written and the grant stands at once. A refund that
fails after its retry makes the part HALTED with no uses write. When the spend of the recovery slot completes, the slot
is SPENT and the refund is requested, still unanswered; failed after its retry it marks the slot, the key is refused
STORE_FAULT, and the failure counts. When the refund after a spend completes, CONFIG opens through slot 9; failed after
its retry it makes the part HALTED. -/
def Obligations.RefundComesBeforeTheGrant : Prop :=
  ∀ (i : SlotIx) (n u : Nat) (left : Residue) (cls : CmdClass) (code : Byte) (s : State),
    s.WaitOk →
    s.StoreOk →
    s.liu.p.slot = .running cls code →
    s.acc.access = .locked →
    s.acc.heldWipe = false →
    s.corePowered = true →
    (s.rsc.current = some { entry := { contents := .limiter { fails := 0, served := true }, purpose := .refund },
                            attempt := n } →
      (s.keu.flight = some (.refund i) → (s.slotRec i).uses = some u →
        (u ≠ 65535 →
          ∃ t, exec (.storeWriteEnd .passed) s = .next t ∧
            t.atl = { s.atl with limiter := { fails := 0, served := true } } ∧
            t.keu = { s.keu with flight := some (.uses i) } ∧
            t.writing (.slot i { s.slotRec i with uses := some (u + 1) }) (.uses i) ∧
            State.changesOnly [.store, .rsc, .atl, .keu] s t) ∧
        (u = 65535 → s.gateOpen = true →
          ∃ t, exec (.storeWriteEnd .passed) s = .next t ∧
            t.atl = { s.atl with limiter := { fails := 0, served := true } } ∧ t.ctb = s.ctb ∧
            t.acc.access = (if s.keu.intent = .unlock then .unlocked else .config) ∧ t.acc.openSlot = some i ∧
            t.liu.p.slot = .done (.ok code (.key .granted none t.summary)) ∧
            ∀ j : SlotIx, Purpose.uses j ∉ t.rsc.purposes)) ∧
      (s.keu.flight = some .recoveryRefund → s.gateOpen = true →
        ∃ t, exec (.storeWriteEnd .passed) s = .next t ∧
          t.atl = { s.atl with limiter := { fails := 0, served := true } } ∧ t.ctb = s.ctb ∧
          (s.keu.intent ≠ .unlock →
            t.acc = { s.acc with access := .config, openSlot := some 9, configTimer := some 480 }) ∧
          t.liu.p.slot = .done (.ok code (.key .granted none t.summary))) ∧
      (n ≠ 1 →
        ∃ t, exec (.storeWriteEnd (.failed left)) s = .next t ∧ t.acc.access = .halted ∧
          t.liu.p.slot = .done (.refused code .storeFault 0) ∧ t.atl.limiter = s.atl.limiter ∧ t.ctb = s.ctb ∧
          ∀ j : SlotIx, Purpose.uses j ∉ t.rsc.purposes)) ∧
    (s.rsc.current = some { entry := { contents := .slot 9 { SlotRecord.empty with state := .spent },
                                       purpose := .spend }, attempt := n } →
      s.keu.flight = some .spend →
      (∃ t, exec (.storeWriteEnd .passed) s = .next t ∧
        t.ctb = { slots := s.ctb.slots.set 9 { record := { SlotRecord.empty with state := .spent },
                                               fault := false, shadow := none } } ∧
        t.keu = { s.keu with flight := some .recoveryRefund } ∧
        t.writing (.limiter { fails := 0, served := true }) .refund ∧
        State.changesOnly [.store, .rsc, .ctb, .keu] s t) ∧
      (n ≠ 1 →
        ∃ t, exec (.storeWriteEnd (.failed left)) s = .next t ∧
          t.ctb = { slots := s.ctb.slots.set 9 { record := s.slotRec 9, fault := true, shadow := none } } ∧
          t.liu.p.slot = .done (.refused code .storeFault 0) ∧ t.atl.limiter = s.atl.limiter ∧
          (let p := s.plu.policy.penaltyTicks s.atl.limiter.fails
           if s.atl.limiter.fails = s.plu.policy.wipeThreshold then t.acc.access = .wiping
           else if p = 0 then t.acc = s.acc ∧ t.atl = s.atl
           else t.acc.access = .penalty ∧ t.atl.penalty = some p)))

/-- The end of a first entry's verifier computation records the candidate, moves the dialogue to CONFIRM and answers
FIRST_TAKEN. The end of the confirming one ends the dialogue with MISMATCH where the verifiers differ, SLOT_STATE
where the target is no longer eligible, DUPLICATE where another slot holds the verifier; otherwise it requests the
enrolment write of an ACTIVE record with uses 0, still unanswered. A change of state or gate meanwhile makes either
MISMATCH. When the enrolment write completes, the slot takes the record, the dialogue ends with ENROLLED, and an
automatic dialogue takes the drive from BLANK to LOCKED; failed after its retry it marks the slot, keeps the verifier as
shadow, and is refused STORE_FAULT. V is kept as an injective image of the digits (log entry 9). -/
def Obligations.VerifierDoneTakesTheEntry : Prop :=
  ∀ (d : Dialogue) (r : SlotRecord) (n : Nat) (left : Residue) (cls : CmdClass) (code : Byte) (s : State),
    s.WaitOk →
    s.StoreOk →
    s.liu.p.slot = .running cls code →
    s.keu.dialogue = some d →
    (s.keu.flight = some .verifyFirst →
      ∃ t, exec .enrolVerifierDone s = .next t ∧
        (if s.keu.disturbed = true then
           t.liu.p.slot = .done (.ok code (.key .mismatch none t.summary)) ∧ t.keu.digits = [] ∧
           State.changesOnly [.keu, .liu] s t
         else t.liu.p.slot = .done (.ok code (.key .firstTaken none t.summary)) ∧
           t.keu = { s.keu with digits := [], overlong := false, intent := .enrolConfirm, bstate := .empty,
                                flight := none, disturbed := false, entryTimer := some (s.plu.policy.entryGap * 8),
                                dialogue := some { d with
                                  step := .confirm
                                  candidate := some ⟨s.keu.digits.length, ⟨s.keu.digits⟩⟩ } } ∧
           State.changesOnly [.keu, .liu] s t)) ∧
    (∀ c, d.candidate = some c → s.keu.flight = some .verifyConfirm →
      ∃ t, exec .enrolVerifierDone s = .next t ∧
        (if s.keu.disturbed = true ∨ c.verifier.preimage ≠ s.keu.digits then
           t.liu.p.slot = .done (.ok code (.key .mismatch none t.summary)) ∧ t.keu.flight = none ∧
           (s.acc.access ≠ .blank → t.keu.dialogue = none) ∧ State.changesOnly [.keu, .liu] s t
         else if s.eligible d.kind d.target = false then
           t.liu.p.slot = .done (.refused code .slotState 0) ∧ t.keu.flight = none ∧
           (s.acc.access ≠ .blank → t.keu.dialogue = none) ∧ State.changesOnly [.keu, .liu] s t
         else if s.isDuplicate d.target c.verifier = true then
           t.liu.p.slot = .done (.ok code (.key .duplicate none t.summary)) ∧ t.keu.flight = none ∧
           (s.acc.access ≠ .blank → t.keu.dialogue = none) ∧ State.changesOnly [.keu, .liu] s t
         else t.keu = { s.keu with flight := some .enrolWrite } ∧ State.changesOnly [.keu, .rsc] s t ∧
           t.writing (.slot d.target
             { state := .active, length := some c.length, verifier := some c.verifier, uses := some 0,
               mode := if d.target = 0 ∨ d.target = 9 then none
                       else if d.kind = .change then (s.slotRec d.target).mode else d.mode,
               mask := if d.target = 0 ∨ d.target = 9 then none
                       else if d.kind = .change then (s.slotRec d.target).mask else d.mask })
             (.enrol d.target))) ∧
    (s.rsc.current = some { entry := { contents := .slot d.target r, purpose := .enrol d.target }, attempt := n } →
      s.keu.flight = some .enrolWrite →
      (∃ t, exec (.storeWriteEnd .passed) s = .next t ∧
        t.ctb = { slots := s.ctb.slots.set d.target { record := r, fault := false, shadow := none } } ∧
        (t.store.slots.get d.target).read = .valid r ∧ t.keu.flight = none ∧ t.keu.digits = [] ∧
        t.liu.p.slot = .done (.ok code (.key .enrolled none t.summary)) ∧
        (if d.kind = .automatic ∧ s.acc.access = .blank then
           t.acc = { s.acc with access := .locked, openSlot := none } ∧ t.keu.dialogue = none
         else t.acc = s.acc ∧ (s.acc.access ≠ .blank → t.keu.dialogue = none) ∧
           State.changesOnly [.store, .rsc, .ctb, .keu, .liu] s t)) ∧
      (n ≠ 1 →
        ∃ t, exec (.storeWriteEnd (.failed left)) s = .next t ∧
          t.ctb = { slots := s.ctb.slots.set d.target { record := s.slotRec d.target, fault := true,
                                                        shadow := r.verifier } } ∧
          t.liu.p.slot = .done (.refused code .storeFault 0) ∧ t.keu.flight = none ∧ t.keu.digits = [] ∧
          (s.acc.access ≠ .blank → t.keu.dialogue = none) ∧
          State.changesOnly [.store, .rsc, .ctb, .keu, .liu] s t))

/-! ## The retained store (chapter 8) -/

/-- RESET_N and POWER_LOSS cut the write being carried out, lose every waiting entry, and change no other location; a
record of any kind, written before or never, then reads as before, the new contents or DAMAGED at the next load, and one
written before never reads BLANK. The part is held in reset, or goes to OFF: neither link is served. A first attempt
that fails sets the record's written mark and begins attempt 2 with nobody answered and nothing else changed. The point
of the cut is an operand (log entry 12). -/
def Obligations.ACutLeavesOldNewOrDamaged : Prop :=
  ∀ (cut : CutPoint) (left : Residue) (s : State),
    (s.pins.resetLow = false → s.ssv.mode ≠ .off →
      (∃ t, exec (.resetN cut) s = .next t ∧ t.pins = { s.pins with resetLow := true } ∧
        t.rsc = { current := none, queue := [] } ∧ t.served .p = false ∧ t.served .b = false ∧
        t.store = (match s.rsc.current with
                   | some w => s.store.onLocation (Location.cut cut) w.entry.contents
                   | none => s.store)) ∧
      (∃ t, exec (.powerLoss cut) s = .next t ∧ t.ssv.mode = .off ∧
        t.rsc = { current := none, queue := [] } ∧ t.served .p = false ∧ t.served .b = false ∧
        t.store = (match s.rsc.current with
                   | some w => s.store.onLocation (Location.cut cut) w.entry.contents
                   | none => s.store))) ∧
    (∀ w, s.rsc.current = some w → w.attempt = 1 →
      ∃ t, exec (.storeWriteEnd (.failed left)) s = .next t ∧
        t = { s with
          store := s.store.onLocation (fun _ l => { l with written := true }) w.entry.contents
          rsc := { s.rsc with current := some { w with attempt := 2 } } }) ∧
    (∀ (α : Type) (l : Location α) (r : α), l.written = true ∨ l.body = .erased →
      ((Location.cut cut r l).read = l.read ∨ (Location.cut cut r l).read = .valid r ∨
        (Location.cut cut r l).read = .damaged) ∧
      (l.written = true → (Location.cut cut r l).read ≠ .blank))

/-! ## Time (chapter 9) -/

/-- A tick lowers every running timer's count by one, the penalty timer's on every tick in CRYSTAL and on every second
one in FALLBACK. With a cell fitted it also takes a sample (every eighth tick in CELL_SLEEP): the candidate either
changes the filter alone, or reaches CELL_FILTER and is adopted, clearing the filter. Nothing else changes unless a
level is adopted. An adopted fall is reported by CELL_LEVEL, a rise where CELL_RISE_REPORT says so. In CELL_AWAKE the
level CRIT locks an open drive at once and pauses a wipe; a wipe pauses at no other level, and in BUS the level is only
reported. At CRIT in CELL_AWAKE the run condition is PAUSED also for a wipe that has STALLED or whose write still runs
(log entry 20). A pause ends when the level leaves CRIT: the wipe goes on from its position and is reported, and a
sleeping part is woken for it but in MEDIA (R117, R159). The voltage is an operand in millivolts, and timers count
before the sample (log entries 17 and 24). -/
def Obligations.TickCountsAndSamples : Prop :=
  ∀ (mv : Nat) (s : State),
    s.StoreOk →
    s.SupplyOk →
    ∃ t, exec (.tick mv) s = .next t ∧
      (let v : Ssv := { s.ticked.ssv with samplePhase := (if s.ssv.mode = .cellSleep then 0 else s.ssv.samplePhase) }
       let f := v.filter (candidate s.ssv.level (3400 + 50 * s.plu.policy.cellLowLevel) mv)
       if s.powered = false then t = s
       else if s.plu.inForce.cellFitted = false then t = s.ticked
       else if s.ssv.mode = .cellSleep ∧ s.ssv.samplePhase < 7 then
         t = { s.ticked with ssv := { s.ticked.ssv with samplePhase := s.ssv.samplePhase + 1 } }
       else if 0 < f.filterCount ∧ s.plu.policy.cellFilter ≤ f.filterCount then
         (∀ l, f.nearest = some l → t.ssv.level = l ∧ t.ssv.filterCount = 0 ∧ t.ssv.filterDir = none ∧
           t.ssv.nearest = none ∧ t.tbu = s.ticked.tbu ∧ t.atl.limiter = s.atl.limiter ∧ t.store = s.store ∧
           (∀ w, s.acc.access = .wiping → s.wpe.run = .paused → l ≠ .crit → s.wpe.journal = some w →
             s.LinkOk →
             (s.ssv.mode = .cellAwake → (∀ p ∈ s.rsc.purposes, p.isWipe = false) →
               t.wpe.run ≠ .paused ∧ t.reportsWipe w ∧ s.carriesOn w s.wpe.position t) ∧
             (s.ssv.mode = .cellSleep → s.ssv.level = .crit →
               if w.step = .media then t.ssv.mode = .cellSleep
               else t.ssv.mode = .cellAwake ∧ t.ssv.sleepTimer = some 160 ∧ t.liu.pq.accessChanged.isSome = true ∧
                 t.wpe.run ≠ .paused ∧ t.reportsWipe w ∧ s.carriesOn w s.wpe.position t)) ∧
           (s.corePowered = true →
             t.liu.pq.cellLevel = (if s.ssv.level = .good ∨ l = .crit ∨ s.plu.policy.cellRiseReport = true then
                                     some (l, s.ssv.mode) else s.liu.pq.cellLevel) ∧
             (s.acc.access = .wiping →
               (t.wpe.run = .paused ↔ s.ssv.mode = .cellAwake ∧ l = .crit)) ∧
             t.acc = (if s.ssv.mode = .cellAwake ∧ l = .crit then
                        (if s.acc.access = .unlocked ∨ s.acc.access = .locking then s.ticked.acc.shut
                         else if s.acc.access = .config then
                           { s.ticked.acc with access := .locked, openSlot := none, configTimer := none }
                         else s.ticked.acc)
                      else s.ticked.acc)))
       else t = { s.ticked with ssv := f })

/-- FALLBACK moves the timebase to FALLBACK with an empty run, reports it, returns the pair phase to zero and makes
CLOCK_FAULT active, which acts by the map: NONE locks nothing, ORDERLY offers the lock to an attached bridge, completes it
without one and ends CONFIG, FORCED locks at once; CRYSTAL_RETURN moves it back and ends CLOCK_FAULT;
CRYSTAL_SILENT_AGAIN restarts the gap and the run alone. -/
def Obligations.TimebaseFallsBackAndReturns : Prop :=
  ∀ (s : State),
    s.powered = true →
    s.StoreOk →
    (s.tbu.state = .crystal →
      ∃ t, exec .fallback s = .next t ∧ t.tbu = { s.tbu with state := .fallback, gap := 0, run := some 0 } ∧
        t.acc.clockFault = true ∧ t.atl.phase = false ∧ t.atl.limiter = s.atl.limiter ∧
        (s.corePowered = true → t.liu.pq.timebaseChanged = some .fallback) ∧
        (s.plu.map.clockFault = .none →
          t.acc = { s.acc with clockFault := true } ∧ t.atl.penalty = s.atl.penalty ∧ t.wpe = s.wpe ∧
          t.plu = s.plu ∧ t.rsc = s.rsc) ∧
        (let u : State := { s with acc := { s.acc with clockFault := true } }
         (s.corePowered = true → s.plu.map.clockFault = .orderly →
           if s.acc.access = .unlocked ∧ s.liu.bridge = .attached then u.offersLock .clockFault t
           else if s.acc.access = .unlocked then u.locksDown t
           else if s.acc.access = .config then u.configEnds t
           else t.acc = u.acc) ∧
         (s.corePowered = true → s.plu.map.clockFault = .forced → u.forcedBy t))) ∧
    (s.tbu.state = .fallback →
      (∃ t, exec .crystalReturn s = .next t ∧ t.tbu = { s.tbu with state := .crystal, gap := 0, run := none } ∧
        t.acc = { s.acc with clockFault := false } ∧ t.atl = { s.atl with phase := false } ∧
        (s.corePowered = true → t.liu.pq.timebaseChanged = some .crystal) ∧
        State.changesOnly [.tbu, .acc, .atl, .keu, .liu] s t) ∧
      (∃ t, exec .crystalSilentAgain s = .next t ∧
        t = { s with tbu := { s.tbu with gap := 0, run := some 0 } }))

/-- On expiry of the penalty timer the served write (F unchanged, SERVED yes) is requested, a sleeping part waking to
CELL_AWAKE first; the state stays until that write completes. When it completes in PENALTY, the drive enters LOCKED
and PENALTY_CHANGED is posted with no penalty remaining. An expiry is due at count 0 until its row is taken (log entry
5). -/
def Obligations.PenaltyIsServed : Prop :=
  ∀ (r : Limiter) (n : Nat) (s : State),
    (s.atl.penalty = some 0 →
      ∃ t, exec .penaltyExpiry s = .next t ∧
        (if s.ssv.mode = .cellSleep then
           (s.pins.resetLow = false ∧ s.acc.access = .penalty →
             t.ssv.mode = .cellAwake ∧ t.acc.access = .penalty ∧ t.atl = { s.atl with penalty := none, phase := false } ∧
             t.writing (.limiter { fails := s.atl.limiter.fails, served := true }) .served)
         else t = { s with
           atl := { s.atl with penalty := none, phase := false }
           rsc := (State.withWrite (.limiter { fails := s.atl.limiter.fails, served := true }) .served s).rsc.kick })) ∧
    (s.acc.access = .penalty → s.corePowered = true →
      s.rsc.current = some { entry := { contents := .limiter r, purpose := .served }, attempt := n } →
      ∃ t, exec (.storeWriteEnd .passed) s = .next t ∧ t.acc = { s.acc with access := .locked, openSlot := none } ∧
        t.atl = { s.atl with limiter := r } ∧ t.store.limiter.read = .valid r ∧
        t.liu.pq.penaltyChanged = some (0, t.plu.policy.wipeThreshold - r.fails))

/-- The expiry of the idle timer in UNLOCKED is an orderly lock (offered to an attached bridge); of the attach timer a
forced one; of the defer timer in LOCKING the completion of the lock; of the config timer in CONFIG the end of CONFIG.
On expiry of the entry timer the buffer is emptied and a dialogue ends, in BLANK a new automatic one for slot 0
beginning, and ENTRY_ABANDONED is posted; nothing is counted. On expiry of the sleep timer the sleep-due mark is set
and nothing else (entry into sleep is its own row, log entry 18). An expiry is due at count 0 until its row is taken
(log entry 5). -/
def Obligations.TimersExpire : Prop :=
  ∀ (s : State),
    s.StoreOk →
    s.corePowered = true →
    (s.acc.idleTimer = some 0 → s.acc.access = .unlocked →
      ∃ t, exec .idleExpiry s = .next t ∧
        if s.liu.bridge = .attached then s.offersLock .idleExpiry t else s.locksDown t) ∧
    (s.acc.attachTimer = some 0 → s.acc.access = .unlocked →
      ∃ t, exec .attachExpiry s = .next t ∧ s.locksDown t) ∧
    (s.acc.deferTimer = some 0 → s.acc.access = .locking →
      ∃ t, exec .deferExpiry s = .next t ∧ s.locksDown t) ∧
    (s.acc.configTimer = some 0 → s.acc.access = .config →
      ∃ t, exec .configTimeout s = .next t ∧ s.configEnds t) ∧
    (s.keu.entryTimer = some 0 →
      ∃ t, exec .entryTimerExpiry s = .next t ∧ t.liu = { s.liu with pq := { s.liu.pq with entryAbandoned := true } } ∧
        t.keu = { s.keu with
          digits := [], overlong := false, bstate := .empty, entryTimer := none,
          intent := if s.acc.access = .blank then .enrolFirst else .unlock,
          dialogue := if s.acc.access = .blank then
                        some { kind := .automatic, target := 0, mode := none, mask := none, step := .first,
                               candidate := none }
                      else none } ∧
        State.changesOnly [.keu, .liu] s t) ∧
    (s.ssv.sleepTimer = some 0 →
      ∃ t, exec .sleepTimerExpiry s = .next t ∧
        t = { s with ssv := { s.ssv with sleepTimer := none, sleepDue := true } })

/-- On expiry of the link timer the bridge is LOST with no capacity and no erase order, and BRIDGE_LOST acts by the
map: in UNLOCKED the lock completes at once, in LOCKING only a FORCED action completes it, in CONFIG it ends CONFIG;
the lock posts no KEYS_REVOKED. On expiry of the order timer an order on attempt 1 or 2 is READY again under the next
attempt; on attempt 3 it is abandoned and the write of its cursor, with its blocks counted as failed, is requested. An
expiry is due at count 0 until its row is taken (log entry 5). -/
def Obligations.LinkAndOrderTimersExpire : Prop :=
  ∀ (s : State),
    (s.liu.linkTimer = some 0 → s.corePowered = true →
      s.plu.map.bridgeLost = .orderly ∨ s.plu.map.bridgeLost = .forced →
      ∃ t, exec .linkTimerExpiry s = .next t ∧ t.liu.bridge = .lost ∧ t.liu.capacity = none ∧
        t.liu.linkTimer = none ∧ t.wpe.order = none ∧ t.wpe.orderTimer = none ∧
        t.liu.bq.keysRevoked = s.liu.bq.keysRevoked ∧
        (if s.acc.access = .unlocked ∨ (s.acc.access = .locking ∧ s.plu.map.bridgeLost = .forced) then
           t.acc = s.acc.shut ∧ t.liu.bq.lockPending = none
         else if s.acc.access = .config then s.configEnds t
         else t.acc = s.acc)) ∧
    (∀ o w c, s.wpe.orderTimer = some 0 → s.wpe.order = some o → s.wpe.journal = some w →
      w.cursors.find? (fun d => d.next ≠ d.first + d.count) = some c →
      ∃ t, exec .orderTimerExpiry s = .next t ∧
        (if s.wpe.attempt < 3 then
           t.wpe = { s.wpe with attempt := s.wpe.attempt + 1, order := some { o with number := none },
                                orderTimer := none } ∧
           (s.served .b = true → t.liu.bq = { s.liu.bq with eraseWork := some w.progress }) ∧
           t.rsc = s.rsc.kick
         else t = { s with
           wpe := { s.wpe with order := none, orderTimer := none }
           rsc := (State.withWrite (.journal (some (w.advance
             { c with next := o.first + o.count, failed := c.failed + o.count }))) (.journal .cursor) s).rsc.kick }))

/-! ## The enclosure and the supplies (chapter 10) -/

/-- A change of the CASE input starts the debounce timer when the input differs from the debounced state and stops it
when it returns, with a switch fitted; nothing else changes. At its expiry the debounced state takes the input. An
opening first wakes a sleeping part, makes CASE_OPEN active, and acts with its mapped action: NONE locks nothing,
ORDERLY offers the lock to an attached bridge, FORCED locks at once, WIPE starts a wipe but is held while an entry is in
flight in LOCKED (an attempt handed to the Attempt Limiter, not an enrolment: log entry 21) and is ignored in WIPING and
HALTED. A closing ends the condition, and wakes nothing. An expiry is due at count 0 until its row is taken (log
entry 5). -/
def Obligations.CaseIsDebounced : Prop :=
  ∀ (high : Bool) (s : State),
    s.StoreOk →
    (∃ t, exec (.caseChange high) s = .next t ∧
      t = { s with
        pins := { s.pins with caseHigh := high }
        ssv := if s.powered = false ∨ s.plu.inForce.caseFitted = false then s.ssv
               else if (high == s.plu.inForce.caseOpenHigh) = s.ssv.caseIsOpen then { s.ssv with caseTimer := none }
               else if s.ssv.caseTimer = none then { s.ssv with caseTimer := some 2 } else s.ssv }) ∧
    (s.ssv.caseTimer = some 0 → s.powered = true →
      ∃ t, exec .caseDebounceExpiry s = .next t ∧
        (if s.caseInputOpen = s.ssv.caseIsOpen then t = { s with ssv := { s.ssv with caseTimer := none } }
         else if s.caseInputOpen = false then
           t.ssv = { s.ssv with caseTimer := none, caseIsOpen := false } ∧
           t.acc = { s.acc with caseOpen := false } ∧ State.changesOnly [.ssv, .acc, .keu, .liu] s t ∧
           (s.ssv.mode = .cellSleep → t.keu = s.keu ∧ t.liu = s.liu)
         else
           t.ssv.caseTimer = none ∧ t.ssv.caseIsOpen = true ∧ t.acc.caseOpen = true ∧
           (if s.ssv.mode = .cellSleep then
              t.ssv.mode = .cellAwake ∧ t.ssv.sleepTimer = some 160 ∧
              (s.acc.access = .locked ∨ s.acc.access = .blank ∨ s.acc.access = .penalty →
                t.liu.pq.accessChanged = some { access := t.acc.access, openSlot := t.acc.openSlot,
                                                clockFault := s.acc.clockFault, caseOpen := true } ∧
                (if s.plu.map.caseOpen = .wipe then
                   t.acc.access = .wiping ∧
                   ∃ w, t.writing (.journal (some w)) (.journal .start) ∧ w.cause = .caseOpen
                 else t.acc.access = s.acc.access))
            else
              t.ssv = { s.ssv with caseTimer := none, caseIsOpen := true } ∧
              (let u : State := { s with acc := { s.acc with caseOpen := true } }
               match s.plu.map.caseOpen with
               | .none => t.acc = u.acc
               | .orderly =>
                 if s.acc.access = .unlocked ∧ s.liu.bridge = .attached then u.offersLock .caseOpen t
                 else if s.acc.access = .unlocked then u.locksDown t
                 else if s.acc.access = .config then u.configEnds t
                 else t.acc = u.acc
               | .forced => u.forcedBy t
               | .wipe =>
                 if s.acc.access = .wiping ∨ s.acc.access = .halted then t.acc = u.acc
                 else if s.acc.access = .locked ∧ s.entryInFlight = true then
                   t.acc = { u.acc with heldWipe := true }
                 else t.acc.access = .wiping ∧ t.acc.openSlot = none ∧
                   ∃ w, t.writing (.journal (some w)) (.journal .start) ∧ w.cause = .caseOpen))))

/-- With every sleep condition holding and WAKE_N high, the part enters CELL_SLEEP: the core domain's state is lost, the
retain domain's is kept (the access state, the working copies, the penalty timer and the timebase), and neither link is
served. WAKE_N low in CELL_SLEEP wakes it to CELL_AWAKE with a fresh sleep timer, an empty buffer and ACCESS_CHANGED
posted; a wipe is reported, and goes on from its position unless the level is CRIT (R103, R117), where the run condition
is PAUSED, also for a wipe that had STALLED (log entry 20). In any other mode WAKE_N changes the pin alone. -/
def Obligations.SleepKeepsTheRetainDomain : Prop :=
  ∀ (s : State),
    s.SupplyOk →
    s.pins.resetLow = false →
    (s.sleepConditions = true → s.pins.wakeLow = false →
      ∃ t, exec .cellSleepEntry s = .next t ∧ t.served .p = false ∧ t.served .b = false ∧
        t = { s with
          ssv := { s.ssv with mode := .cellSleep, sleepTimer := none, sleepDue := false, samplePhase := 0 }
          rsc := { current := none, queue := [] }
          keu := Keu.init
          acc := { s.acc with lockCause := none, deferrals := none, heldWipe := false, idleTimer := none,
                              attachTimer := none, deferTimer := none, configTimer := none }
          wpe := { s.wpe with order := none, attempt := 1, orderTimer := none }
          plu := { s.plu with inflight := [] }
          liu := Liu.init .absent }) ∧
    (∃ t, exec (.wakeN true) s = .next t ∧
      (if s.ssv.mode = .cellSleep then
         t.ssv.mode = .cellAwake ∧ t.ssv.sleepTimer = some 160 ∧ t.ssv.sleepDue = false ∧ t.liu.bridge = .absent ∧
         t.liu.pq.accessChanged.isSome = true ∧ t.keu.digits = [] ∧ t.served .p = true ∧
         t.pins = { s.pins with wakeLow := true } ∧ t.atl.limiter = s.atl.limiter ∧ t.store = s.store ∧
         (s.acc.access = .locked ∨ s.acc.access = .penalty ∨ s.acc.access = .blank →
           t.acc.access = s.acc.access ∧ t.atl = s.atl ∧ t.ctb = s.ctb ∧ t.kru = s.kru) ∧
         (∀ w, s.acc.access = .wiping → s.wpe.journal = some w →
           t.acc.access = .wiping ∧ t.reportsWipe w ∧
           (if s.ssv.level = .crit then t.wpe.run = .paused ∧ t.kru = s.kru ∧ t.ctb = s.ctb ∧ t.rsc = Rsc.init
            else t.wpe.run ≠ .paused ∧ s.carriesOn w s.wpe.position t))
       else t = { s with pins := { s.pins with wakeLow := true }, rsc := s.rsc.kick })) ∧
    (∃ t, exec (.wakeN false) s = .next t ∧
      t = { s with pins := { s.pins with wakeLow := false }, rsc := s.rsc.kick })

/-- Bus power arriving in CELL_AWAKE moves the part to BUS with the bridge PRESENT and the sleep timer stopped, and in
CELL_SLEEP wakes it so; it ends a wipe's pause, and the wipe goes on from its position and is reported (R117). Bus power
lost in BUS with a fitted cell that is not CRIT moves it to CELL_AWAKE, the bridge ABSENT and the B-link cleared, and
locks an open drive at once; otherwise the part goes to OFF, cutting the store. -/
def Obligations.BusPowerComesAndGoes : Prop :=
  ∀ (cut : CutPoint) (s : State),
    s.pins.resetLow = false →
    (s.pins.busdet = false → s.ssv.mode = .cellAwake ∨ s.ssv.mode = .cellSleep →
      ∃ t, exec .busPowerArrival s = .next t ∧ t.pins = { s.pins with busdet := true } ∧ t.ssv.mode = .bus ∧
        t.liu.bridge = .present ∧ t.liu.capacity = none ∧ t.ssv.level = s.ssv.level ∧
        t.atl.limiter = s.atl.limiter ∧ t.store = s.store ∧
        (s.ssv.mode = .cellAwake → t.ssv.sleepTimer = none ∧ t.ssv.sleepDue = false ∧ t.acc = s.acc) ∧
        (∀ w, s.acc.access = .wiping → s.wpe.journal = some w →
          (s.ssv.mode = .cellAwake → s.wpe.run = .paused ∧ ∀ p ∈ s.rsc.purposes, p.isWipe = false) →
          t.wpe.run ≠ .paused ∧ t.reportsWipe w ∧ s.carriesOn w s.wpe.position t)) ∧
    (s.pins.busdet = true → s.ssv.mode = .bus →
      ∃ t, exec (.busPowerLoss cut) s = .next t ∧ t.pins = { s.pins with busdet := false } ∧
        (if s.plu.inForce.cellFitted = true ∧ s.ssv.level ≠ .crit then
           t.ssv = { s.ssv with mode := .cellAwake, sleepTimer := some 160 } ∧ t.liu.bridge = .absent ∧
           t.liu.capacity = none ∧ t.liu.linkTimer = none ∧ t.liu.b.slot = .idle ∧ t.liu.b.note = none ∧
           t.liu.bq = BQueue.empty ∧ t.atl.limiter = s.atl.limiter ∧ t.store = s.store ∧
           (if s.acc.access = .unlocked ∨ s.acc.access = .locking then t.acc = s.acc.shut
            else if s.acc.access = .config then s.configEnds t
            else t.acc = s.acc)
         else t.ssv.mode = .off ∧ t.served .p = false ∧ t.rsc = { current := none, queue := [] } ∧
           t.store = (match s.rsc.current with
                      | some w => s.store.onLocation (Location.cut cut) w.entry.contents
                      | none => s.store)))

/-- Power-on from OFF, bus power arriving in OFF, and the release of RESET_N load the records and derive the access
state by the first check that holds: HALTED with the Option Record damaged; WIPING with the journal active, with slot 0
or the journal damaged, or with F at W; BLANK with slot 0 EMPTY; PENALTY with its timer at P(F) when F exceeds FREE and
SERVED is no; else LOCKED, which applies the Pending Set. The start cause and the supply mode follow the row, and the
array is only read. What comes about before the derivation is complete is held and taken in the derived state: a
timebase in FALLBACK by TIMEBASE_CHANGED and as CLOCK_FAULT; each level adopted, in order, by CELL_LEVEL, a rise where
CELL_RISE_REPORT says so; each onset and end of CASE_OPEN, where an onset mapped to WIPE starts a wipe from LOCKED,
PENALTY or BLANK, even if the enclosure has closed again (log entry 42). An active journal resumes its wipe as recorded,
with the order counter at 0: WIPE_STATE is posted and the recorded step begins from its beginning, unless the level is
CRIT in CELL_AWAKE (R105, R117). In CELL_AWAKE the sleep timer then starts with 160 ticks. The premise is a supply: bus
power, or a fitted cell. Start-up is one step, and `starts` holds its events (log entry 13), RESET_N released after a
power-on gives RESET_PIN (log entry 36), bus power lost before the load is decided with CELL_FITTED yes (log entry 43),
and a KEYS_ONLY journal at MEDIA loads as DAMAGED (log entry 37). -/
def Obligations.StartUpDerivesTheAccessState : Prop :=
  ∀ (bus : Bool) (c : Instr) (s : State),
    (c = .powerOn bus ∧ s.ssv.mode = .off ∧ s.pins.resetLow = false) ∨
      (c = .busPowerArrival ∧ s.ssv.mode = .off ∧ s.pins.resetLow = false ∧ s.pins.busdet = false ∧ bus = true) ∨
      (c = .resetNRelease ∧ s.ssv.mode ≠ .off ∧ s.pins.resetLow = true ∧ s.pins.busdet = bus) →
    bus = true ∨ (loadOptions s.store.option).1.cellFitted = true →
    let pol := loadPolicy s.store.policy
    let lim := loadLimiter pol.wipeThreshold s.store.limiter
    let slots := loadSlots s.store
    let jrn := loadJournal s.store.journal
    let derived : Access :=
      if (loadOptions s.store.option).2 = true then .halted
      else if jrn.1.isSome = true ∨ slots.2 = true ∨ jrn.2 = true ∨ lim.fails = pol.wipeThreshold then .wiping
      else if (slots.1.slots.get 0).record.state = .empty then .blank
      else if pol.freeAttempts < lim.fails ∧ lim.served = false then .penalty
      else .locked
    let begun : State := State.startBegins { s with
      pins := { s.pins with busdet := bus, resetLow := false }, starts := s.starts.tail }
    let ready := (s.starts.headD .quiet).beforeLoad.foldl State.startEvent begun
    let cause : StartCause := if c = .resetNRelease then .resetPin else .powerOn
    let held := heldReports (s.starts.headD .quiet).beforeLoad begun ++
      heldReports (s.starts.headD .quiet).afterLoad (ready.loaded cause)
    let loaded : State := { s with
      ctb := slots.1, atl := { limiter := lim, penalty := none, phase := false }, wpe := Wpe.init,
      kru := { s.kru with volumes := loadVolumes jrn.1.isSome s.store }, rsc := Rsc.init,
      plu := { Plu.init with policy := pol, map := loadMap s.store.map, committed := loadPendingSet s.store.pset } }
    ∃ t, exec c s = .next t ∧ t.store = s.store ∧ t.starts = s.starts.tail ∧
      (s.starts.headD .quiet = .quiet → t.ssv.mode = (if bus = true then .bus else .cellAwake) ∧ t.tbu.state = .crystal ∧
        t.ssv.level = .good ∧ t.ssv.caseIsOpen = false) ∧
      (t.ssv.mode ≠ .off →
        t.liu.bridge = (if t.ssv.mode = .bus then .present else .absent) ∧
        t.acc.startCause = cause ∧
        (t.ssv.mode = .cellAwake → t.ssv.sleepTimer = some 160 ∧ t.ssv.sleepDue = false) ∧
        t.acc.clockFault = (t.tbu.state == .fallback) ∧ t.acc.caseOpen = t.ssv.caseIsOpen ∧ t.acc.openSlot = none ∧
        t.liu.pq.timebaseChanged = (if t.tbu.state = .fallback then some .fallback else none) ∧
        (t.plu.inForce.cellFitted = true →
          t.ssv.level = (held.filterMap fun h => match h with | .level _ l => some l | _ => none).getLast?.getD .good) ∧
        (t.ssv.caseIsOpen = true ↔
          (held.filter fun h => h = .caseOpened ∨ h = .caseClosed).getLast? = some .caseOpened) ∧
        t.liu.pq.cellLevel = ((held.filterMap fun h => match h with
          | .level falling l => if falling = true ∨ t.plu.policy.cellRiseReport = true then some l else none
          | _ => none).getLast?.map fun l => (l, t.ssv.mode)) ∧
        t.liu.pq.accessChanged = some { access := t.acc.access, openSlot := none, clockFault := t.acc.clockFault,
                                        caseOpen := t.acc.caseOpen } ∧
        (if .caseOpened ∈ held ∧ t.plu.map.caseOpen = .wipe ∧
            (derived = .locked ∨ derived = .penalty ∨ derived = .blank) then
           t.acc.access = .wiping ∧ (∃ w, t.writing (.journal (some w)) (.journal .start) ∧ w.cause = .caseOpen)
         else
           t.acc.access = derived ∧
           (derived = .blank → t.keu.intent = .enrolFirst ∧ t.ctb = slots.1 ∧ t.atl.limiter = lim) ∧
           (derived = .penalty →
             t.atl = { limiter := lim, penalty := some (pol.penaltyTicks lim.fails), phase := false } ∧
             t.ctb = slots.1) ∧
           (∀ w, derived = .wiping → jrn.1 = some w →
             t.wpe.journal = some w ∧ t.wpe.counter = 0 ∧ t.wpe.order = none ∧ t.wpe.attempt = 1 ∧ t.reportsWipe w ∧
             (if t.ssv.mode = .cellAwake ∧ t.ssv.level = .crit then
                t.wpe.run = .paused ∧ t.wpe.position = stepBegins w.step ∧ t.rsc = Rsc.init
              else t.wpe.run ≠ .paused ∧ loaded.carriesOn w (stepBegins w.step) t)) ∧
           (derived = .locked → t.atl = { limiter := lim, penalty := none, phase := false } ∧ t.ctb = slots.1 ∧
             loaded.appliesSet t) ∧
           (derived = .wiping → jrn.1 = none →
             ∃ w, t.writing (.journal (some w)) (.journal .start) ∧ w.step = .keys ∧
               (if slots.2 = true ∨ jrn.2 = true then
                  w.cause = .storeDamage ∧ w.depth = .keysAndMedia ∧ w.keepAdmin = false
                else w.cause = .threshold ∧ w.depth = pol.wipeDepth ∧ w.keepAdmin = false))))

/-! ## The Pending Set and the wipe (chapters 6 and 7) -/

/-- When a Pending Set write completes, the committed set takes its contents (unless a wipe discarded it), the mark
clears, and every staging it carried is answered OK with its result and leaves flight. When it fails after its retry,
the committed set stays, the mark is set, and the stagings it carried are refused STORE_FAULT. Nothing is applied either
way. At the end of any write the oldest waiting entry becomes the current write at attempt 1, and the rest keep their
order (R137). A request joins the queue behind the waiting entries, or replaces the waiting entry of its record in its
place (R136, R138); a slot command whose waiting entry a wipe's destroy replaces is refused WIPING (R8). Where that
entry is the oldest waiting one, the destroy that an answer leads to replaces it before it is taken, by the order of log
entry 25. -/
def Obligations.PendingSetWriteEnds : Prop :=
  ∀ (a : PendingSet) (ids : List Nat) (disc : Bool) (n : Nat) (left : Residue) (s : State),
    (s.WaitOk →
    s.rsc.current = some { entry := { contents := .pset a, purpose := .pset ids disc }, attempt := n } →
    (∃ t, exec (.storeWriteEnd .passed) s = .next t ∧ t.store.pset.read = .valid a ∧
      t.plu.committed = (if disc = true then s.plu.committed else a) ∧ t.plu.psetFault = false ∧
      t.plu.inflight = s.plu.inflight.filter (fun g => !ids.contains g.id) ∧
      t.plu.policy = s.plu.policy ∧ t.plu.map = s.plu.map ∧
      t.rsc = (match s.rsc.queue with
               | [] => { current := none, queue := [] }
               | e :: rest => { current := some { entry := e, attempt := 1 }, queue := rest }) ∧
      (∀ g ∈ s.plu.inflight, g.id ∈ ids → ∀ l ∈ g.requester, ∀ code ∈ (s.liu.port l).slot.runningCode,
        (t.liu.port l).slot = .done (.ok code g.result)) ∧
      State.changesOnly [.store, .rsc, .plu, .liu] s t) ∧
    (n ≠ 1 →
      ∃ t, exec (.storeWriteEnd (.failed left)) s = .next t ∧
        t.plu.committed = s.plu.committed ∧ t.plu.psetFault = true ∧
        t.plu.policy = s.plu.policy ∧ t.plu.map = s.plu.map ∧
        t.plu.inflight = s.plu.inflight.filter (fun g => !ids.contains g.id) ∧
        (∀ g ∈ s.plu.inflight, g.id ∈ ids → ∀ l ∈ g.requester, ∀ code ∈ (s.liu.port l).slot.runningCode,
          (t.liu.port l).slot = .done (.refused code .storeFault 0)) ∧
        State.changesOnly [.store, .rsc, .plu, .liu] s t)) ∧
    (∀ (w : CurrentWrite) (r : AttemptEnd) (e : WriteEntry) (rest : List WriteEntry),
      s.rsc.current = some w → r = .passed ∨ w.attempt ≠ 1 → s.rsc.queue = e :: rest →
      ∃ t, exec (.storeWriteEnd r) s = .next t ∧
        (t.rsc.current.map fun c => (c.entry.id, c.attempt)) = some (e.id, 1) ∧
        rest.map WriteEntry.id <+: t.rsc.queue.map WriteEntry.id) ∧
    (∀ (e w : WriteEntry) (before behind : List WriteEntry), (∀ v ∈ before, v.id ≠ e.id) →
      enqueueEntry e before = before ++ [e] ∧
      (w.id = e.id → enqueueEntry e (before ++ w :: behind) = before ++ e :: behind)) ∧
    (∀ (j : WipeRecord) (k p : Nat) (f : Bool) (e : WriteEntry) (d : Destroy) (i : SlotIx) (r : SlotRecord) (l : Link)
      (cls : CmdClass) (code : Byte) (before behind : List WriteEntry),
      s.acc.access = .wiping → s.corePowered = true → s.wpe.run = .active →
      s.wpe.journal = some j → s.wpe.position = .keys k p f →
      (keysOrder j.keepAdmin)[k]? = some d → (keysOrder j.keepAdmin)[k + 1]? = some (.slot i) →
      s.rsc.current = some { entry := e, attempt := n } → d.writes e →
      s.rsc.queue = before ++ { contents := .slot i r, purpose := .admin (some l) } :: behind →
      (∀ v ∈ before, v.id ≠ .slot i) → (∀ v ∈ before ++ behind, v.purpose.isWipe = false) →
      (s.liu.port l).slot = .running cls code →
      ∃ t, exec (.storeWriteEnd .passed) s = .next t ∧
        (t.liu.port l).slot = .done (.refused code .wiping 0) ∧
        (t.rsc.current.map CurrentWrite.entry).toList ++ t.rsc.queue =
          before ++ { contents := .slot i .empty, purpose := .slotDestroy i (s.slotRec i).verifier } :: behind)

/-- Whenever a command takes the part into LOCKED from another access state (a lock completion, the end of CONFIG, the
served notice, the close of a wipe, the enrolment of slot 0 in BLANK), the committed Pending Set is applied; start-up is
in StartUpDerivesTheAccessState, a grant locked again at once in SuccessOpensTheDrive. Each staged policy field takes
its value, but the four of the Attempt Limiter only while F is 0, WIPE_THRESHOLD raised to FREE_ATTEMPTS + 1 where it
would not exceed it; the map takes its actions; a volume staged with its own range keeps key and KGEN and takes the
READ_ONLY flag, with another range it becomes PRESENT with a fresh LIVE key, the next not drawn before, and the next
KGEN, and with UNUSED it becomes UNUSED. What changed is requested to be written, what did not is not. An idle expiry
without an attached bridge and a config timeout complete so. A Policy write that completes clears its mark and its part
is done; one that fails leaves the defaults but for the four fields and sets the mark; a map write that fails leaves the
default map and sets its mark; a volume write that fails leaves the volume UNUSED with its KGEN, unless a later write of
it waits. With the last write answered the application settles: the done parts are removed by a Pending Set write, a
part staged anew with another value staying (log entry 26). The fresh key is a free value (log entry 10). -/
def Obligations.EntryIntoLockedAppliesTheSet : Prop :=
  ∀ (a : Application) (p : Policy) (m : LockMap) (i : VolIx) (r : VolumeRecord) (n : Nat) (left : Residue) (s : State),
    (∀ (c : Instr) (t : State), exec c s = .next t → s.corePowered = true → s.acc.access ≠ .locked →
      t.acc.access = .locked → s.appliesSet t) ∧
    (s.corePowered = true → s.acc.configTimer = some 0 → s.acc.access = .config →
      ∃ t, exec .configTimeout s = .next t ∧ t.acc.access = .locked ∧ s.appliesSet t) ∧
    (s.corePowered = true → s.acc.idleTimer = some 0 → s.acc.access = .unlocked → s.liu.bridge ≠ .attached →
      ∃ t, exec .idleExpiry s = .next t ∧ t.acc.access = .locked ∧ s.appliesSet t) ∧
    (s.plu.applying = some a →
      (s.rsc.current = some { entry := { contents := .policy p, purpose := .policyApply }, attempt := n } →
        (∃ t, exec (.storeWriteEnd .passed) s = .next t ∧ t.plu.policy = s.plu.policy ∧ t.plu.policyFault = false ∧
          t.store.policy.read = .valid p ∧ s.settles { a with policy := .done } t ∧
          State.changesOnly [.store, .rsc, .plu] s t) ∧
        (n ≠ 1 →
          ∃ t, exec (.storeWriteEnd (.failed left)) s = .next t ∧ t.plu.policyFault = true ∧
            t.plu.policy = { Policy.default with
              freeAttempts := s.plu.policy.freeAttempts, penaltyBase := s.plu.policy.penaltyBase,
              penaltyCap := s.plu.policy.penaltyCap, wipeThreshold := s.plu.policy.wipeThreshold } ∧
            s.settles { a with policy := .failed } t ∧ State.changesOnly [.store, .rsc, .plu] s t)) ∧
      (s.rsc.current = some { entry := { contents := .map m, purpose := .mapApply }, attempt := n } →
        (∃ t, exec (.storeWriteEnd .passed) s = .next t ∧ t.plu.map = s.plu.map ∧ t.plu.mapFault = false ∧
          t.store.map.read = .valid m ∧ s.settles { a with map := .done } t ∧
          State.changesOnly [.store, .rsc, .plu] s t) ∧
        (n ≠ 1 →
          ∃ t, exec (.storeWriteEnd (.failed left)) s = .next t ∧ t.plu.mapFault = true ∧
            t.plu.map = { bridgeLost := .forced, clockFault := .none, caseOpen := .wipe } ∧
            s.settles { a with map := .failed } t ∧ State.changesOnly [.store, .rsc, .plu, .keu, .liu] s t)) ∧
      (s.rsc.current = some { entry := { contents := .volume i r, purpose := .volumeApply i }, attempt := n } →
        (∃ t, exec (.storeWriteEnd .passed) s = .next t ∧ (t.store.volumes.get i).read = .valid r ∧
          s.settles { a with volumes := a.volumes.set i .done } t ∧ State.changesOnly [.store, .rsc, .plu] s t) ∧
        (n ≠ 1 →
          ∃ t, exec (.storeWriteEnd (.failed left)) s = .next t ∧
            t.volume i = (if (∃ e ∈ s.rsc.queue, e.id = .volume i) then s.volume i
                          else VolumeRecord.unused (s.volume i).kgen) ∧
            (∀ u : VolIx, u ≠ i → t.volume u = s.volume u) ∧
            s.settles { a with volumes := a.volumes.set i .failed } t ∧
            State.changesOnly [.store, .rsc, .plu, .kru] s t)))

/-- When the write that marks a wipe active completes, WIPE_STATE is posted and KEYS begins with volume 0; when it fails
after its retry the part is HALTED with nothing destroyed. In KEYS, when a destroy is answered, done or failed, the
next destroy of the order (volumes 0 to 3, slots 9 to 1, then slot 0 unless the administrator is kept) acts on the
working copy at once and its write is requested: a volume's key is DESTROYED, a slot is EMPTY and its write remembers the
verifier it held. After the last one, with no failure in the pass, the boundary write that records LIMITER is requested;
with a failure the step begins a new pass, and after the third pass the wipe stalls. A destroy that fails leaves the
volume UNUSED, or the slot EMPTY with its mark set and the destroyed verifier as shadow. -/
def Obligations.WipeDestroysInOrder : Prop :=
  ∀ (w : WipeRecord) (k p n : Nat) (f : Bool) (e : WriteEntry) (d : Destroy) (r : AttemptEnd) (s : State),
    s.rsc.current = some { entry := e, attempt := n } →
    s.rsc.queue = [] →
    s.acc.access = .wiping →
    s.corePowered = true →
    s.ssv.level ≠ .crit →
    s.wpe.run = .active →
    r = .passed ∨ n ≠ 1 →
    (e = { contents := .journal (some w), purpose := .journal .start } → w.step = .keys →
      ∃ t, exec (.storeWriteEnd r) s = .next t ∧
        (if r = .passed then
           t.store.journal.read = .valid (some w) ∧ t.wpe.journal = some w ∧ t.wpe.position = .keys 0 1 false ∧
           t.liu.pq.wipeState = some { cause := w.cause, depth := w.depth, step := .keys, run := .active,
                                       progress := 0 } ∧
           s.destroys (.volume 0) t ∧ (∀ u : VolIx, u ≠ 0 → t.volume u = s.volume u) ∧ t.ctb = s.ctb ∧ t.atl = s.atl
         else t.acc.access = .halted ∧ t.kru = s.kru ∧ t.ctb = s.ctb ∧ t.atl.limiter = s.atl.limiter ∧
           t.rsc = { current := none, queue := [] })) ∧
    (s.wpe.journal = some w → s.wpe.position = .keys k p f → (keysOrder w.keepAdmin)[k]? = some d → d.writes e →
      ∃ t, exec (.storeWriteEnd r) s = .next t ∧ t.acc = s.acc ∧ t.atl = s.atl ∧
        (match d with
         | .volume v => r ≠ .passed → t.volume v = VolumeRecord.unused (s.volume v).kgen
         | .slot i => r ≠ .passed → t.slotRec i = SlotRecord.empty ∧ (t.cell i).fault = true ∧
             ∀ old, e.purpose = .slotDestroy i old → (t.cell i).shadow = old) ∧
        (let g := f || r != .passed
         match (keysOrder w.keepAdmin)[k + 1]? with
         | some d' =>
           t.wpe = { s.wpe with position := .keys (k + 1) p g } ∧ s.destroys d' t ∧
           (∀ u : VolIx, d' ≠ .volume u → d ≠ .volume u → t.volume u = s.volume u) ∧
           (∀ i : SlotIx, d' ≠ .slot i → d ≠ .slot i → t.cell i = s.cell i)
         | none =>
           if g = false then
             t.kru = s.kru ∧ t.wpe.position = .keys (k + 1) p false ∧
             t.writing (.journal (some { w with step := .limiter })) (.journal .boundary)
           else if p < 3 then t.wpe.position = .keys 0 (p + 1) false ∧ s.destroys (.volume 0) t
           else t.kru = s.kru ∧ t.wpe = { s.wpe with position := .stalled, run := .stalled } ∧
             t.rsc = { current := none, queue := [] }))

/-- When the boundary write that records LIMITER completes, a running penalty stops and the reset of the Limiter Record
(F 0, SERVED yes) is requested; when the reset completes, the boundary write that records MEDIA for KEYS_AND_MEDIA and
REKEY for KEYS_ONLY; failed after its retry the reset makes the part HALTED. When the write that records REKEY
completes, and whenever a rekey is answered, done or failed, the next volume in index order that has a cursor or is
ERASING becomes PRESENT with a fresh LIVE key, at its cursor's target or the next KGEN, INCOMPLETE where its cursor
counted failed blocks; with none left the closing write is requested. When the write that closes a wipe completes, the
journal is inactive, WIPE_STATE is posted with step CLOSE and progress 100, and the drive enters LOCKED if slot 0 is
ACTIVE and BLANK otherwise, where the automatic dialogue for slot 0 begins. The fresh key is a free value (log entry
10). -/
def Obligations.WipeCloses : Prop :=
  ∀ (w : WipeRecord) (k n : Nat) (i : VolIx) (v : VolumeRecord) (which : JournalWrite) (r : AttemptEnd) (left : Residue)
    (s : State),
    s.rsc.queue = [] →
    s.acc.access = .wiping →
    s.corePowered = true →
    s.ssv.level ≠ .crit →
    (s.rsc.current = some { entry := { contents := .journal (some w), purpose := .journal which }, attempt := n } →
      (w.step = .limiter →
        ∃ t, exec (.storeWriteEnd .passed) s = .next t ∧ t.wpe.journal = some w ∧
          t.atl = { s.atl with penalty := none, phase := false } ∧
          t.writing (.limiter { fails := 0, served := true }) .reset ∧ t.kru = s.kru ∧ t.ctb = s.ctb) ∧
      (w.step = .rekey →
        ∃ t, exec (.storeWriteEnd .passed) s = .next t ∧ t.wpe.journal = some w ∧ s.rekeysFrom 0 w t ∧
          t.ctb = s.ctb ∧ t.atl = s.atl)) ∧
    (s.rsc.current = some { entry := { contents := .limiter { fails := 0, served := true }, purpose := .reset },
                            attempt := n } →
      (s.wpe.journal = some w → s.wpe.position = .limiter false → s.wpe.run = .active →
        ∃ t, exec (.storeWriteEnd .passed) s = .next t ∧
          t.atl = { s.atl with limiter := { fails := 0, served := true } } ∧
          t.writing (.journal (some { w with step := if w.depth = .keysAndMedia then .media else .rekey }))
            (.journal .boundary)) ∧
      (n ≠ 1 →
        ∃ t, exec (.storeWriteEnd (.failed left)) s = .next t ∧ t.acc.access = .halted ∧
          t.atl.limiter = s.atl.limiter)) ∧
    (s.rsc.current = some { entry := { contents := .volume i v, purpose := .volumeRekey i }, attempt := n } →
      s.wpe.journal = some w → s.wpe.position = .rekey k → i.val ≤ k → s.wpe.run = .active → r = .passed ∨ n ≠ 1 →
      ∃ t, exec (.storeWriteEnd r) s = .next t ∧
        (let u : State := if r = .passed then s
           else { s with kru := { s.kru with
             volumes := s.kru.volumes.set i (VolumeRecord.unused (s.volume i).kgen) } }
         u.rekeysFrom (k + 1) w t)) ∧
    (s.rsc.current = some { entry := { contents := .journal none, purpose := .journal .close }, attempt := n } →
      s.wpe.journal = some w →
      ∃ t, exec (.storeWriteEnd .passed) s = .next t ∧ t.store.journal.read = .valid none ∧ t.wpe = .init ∧
        t.ctb = s.ctb ∧ t.atl = s.atl ∧
        t.liu.pq.wipeState = some { cause := w.cause, depth := w.depth, step := .close, run := .active,
                                    progress := 100 } ∧
        t.acc = { s.acc with access := (if (s.slotRec 0).state = .active then .locked else .blank), openSlot := none } ∧
        ((s.slotRec 0).state ≠ .active → s.keu.bstate ≠ .evaluating →
          t.keu.dialogue = some { kind := .automatic, target := 0, mode := none, mask := none, step := .first,
                                  candidate := none }))
end

