-- ==== Sys2Proof/Laws/State.lean ====
section
/-! SUPPORT. One lemma per part per block-wise update, each true by definition, so that no proof unfolds a record
update. -/

namespace Sys2Proof.Machine

@[simp] theorem State.onRsc_pending (f : Rsc → Rsc) (s : State) : (s.onRsc f).pending = s.pending := rfl
@[simp] theorem State.onRsc_starts (f : Rsc → Rsc) (s : State) : (s.onRsc f).starts = s.starts := rfl
@[simp] theorem State.onRsc_pins (f : Rsc → Rsc) (s : State) : (s.onRsc f).pins = s.pins := rfl
@[simp] theorem State.onRsc_store (f : Rsc → Rsc) (s : State) : (s.onRsc f).store = s.store := rfl
@[simp] theorem State.onRsc_rsc (f : Rsc → Rsc) (s : State) : (s.onRsc f).rsc = f s.rsc := rfl
@[simp] theorem State.onRsc_ctb (f : Rsc → Rsc) (s : State) : (s.onRsc f).ctb = s.ctb := rfl
@[simp] theorem State.onRsc_keu (f : Rsc → Rsc) (s : State) : (s.onRsc f).keu = s.keu := rfl
@[simp] theorem State.onRsc_atl (f : Rsc → Rsc) (s : State) : (s.onRsc f).atl = s.atl := rfl
@[simp] theorem State.onRsc_acc (f : Rsc → Rsc) (s : State) : (s.onRsc f).acc = s.acc := rfl
@[simp] theorem State.onRsc_kru (f : Rsc → Rsc) (s : State) : (s.onRsc f).kru = s.kru := rfl
@[simp] theorem State.onRsc_wpe (f : Rsc → Rsc) (s : State) : (s.onRsc f).wpe = s.wpe := rfl
@[simp] theorem State.onRsc_plu (f : Rsc → Rsc) (s : State) : (s.onRsc f).plu = s.plu := rfl
@[simp] theorem State.onRsc_tbu (f : Rsc → Rsc) (s : State) : (s.onRsc f).tbu = s.tbu := rfl
@[simp] theorem State.onRsc_ssv (f : Rsc → Rsc) (s : State) : (s.onRsc f).ssv = s.ssv := rfl
@[simp] theorem State.onRsc_liu (f : Rsc → Rsc) (s : State) : (s.onRsc f).liu = s.liu := rfl

@[simp] theorem State.onStore_pending (f : Store → Store) (s : State) : (s.onStore f).pending = s.pending := rfl
@[simp] theorem State.onStore_starts (f : Store → Store) (s : State) : (s.onStore f).starts = s.starts := rfl
@[simp] theorem State.onStore_pins (f : Store → Store) (s : State) : (s.onStore f).pins = s.pins := rfl
@[simp] theorem State.onStore_store (f : Store → Store) (s : State) : (s.onStore f).store = f s.store := rfl
@[simp] theorem State.onStore_rsc (f : Store → Store) (s : State) : (s.onStore f).rsc = s.rsc := rfl
@[simp] theorem State.onStore_ctb (f : Store → Store) (s : State) : (s.onStore f).ctb = s.ctb := rfl
@[simp] theorem State.onStore_keu (f : Store → Store) (s : State) : (s.onStore f).keu = s.keu := rfl
@[simp] theorem State.onStore_atl (f : Store → Store) (s : State) : (s.onStore f).atl = s.atl := rfl
@[simp] theorem State.onStore_acc (f : Store → Store) (s : State) : (s.onStore f).acc = s.acc := rfl
@[simp] theorem State.onStore_kru (f : Store → Store) (s : State) : (s.onStore f).kru = s.kru := rfl
@[simp] theorem State.onStore_wpe (f : Store → Store) (s : State) : (s.onStore f).wpe = s.wpe := rfl
@[simp] theorem State.onStore_plu (f : Store → Store) (s : State) : (s.onStore f).plu = s.plu := rfl
@[simp] theorem State.onStore_tbu (f : Store → Store) (s : State) : (s.onStore f).tbu = s.tbu := rfl
@[simp] theorem State.onStore_ssv (f : Store → Store) (s : State) : (s.onStore f).ssv = s.ssv := rfl
@[simp] theorem State.onStore_liu (f : Store → Store) (s : State) : (s.onStore f).liu = s.liu := rfl

@[simp] theorem State.onCtb_pending (f : Ctb → Ctb) (s : State) : (s.onCtb f).pending = s.pending := rfl
@[simp] theorem State.onCtb_starts (f : Ctb → Ctb) (s : State) : (s.onCtb f).starts = s.starts := rfl
@[simp] theorem State.onCtb_pins (f : Ctb → Ctb) (s : State) : (s.onCtb f).pins = s.pins := rfl
@[simp] theorem State.onCtb_store (f : Ctb → Ctb) (s : State) : (s.onCtb f).store = s.store := rfl
@[simp] theorem State.onCtb_rsc (f : Ctb → Ctb) (s : State) : (s.onCtb f).rsc = s.rsc := rfl
@[simp] theorem State.onCtb_ctb (f : Ctb → Ctb) (s : State) : (s.onCtb f).ctb = f s.ctb := rfl
@[simp] theorem State.onCtb_keu (f : Ctb → Ctb) (s : State) : (s.onCtb f).keu = s.keu := rfl
@[simp] theorem State.onCtb_atl (f : Ctb → Ctb) (s : State) : (s.onCtb f).atl = s.atl := rfl
@[simp] theorem State.onCtb_acc (f : Ctb → Ctb) (s : State) : (s.onCtb f).acc = s.acc := rfl
@[simp] theorem State.onCtb_kru (f : Ctb → Ctb) (s : State) : (s.onCtb f).kru = s.kru := rfl
@[simp] theorem State.onCtb_wpe (f : Ctb → Ctb) (s : State) : (s.onCtb f).wpe = s.wpe := rfl
@[simp] theorem State.onCtb_plu (f : Ctb → Ctb) (s : State) : (s.onCtb f).plu = s.plu := rfl
@[simp] theorem State.onCtb_tbu (f : Ctb → Ctb) (s : State) : (s.onCtb f).tbu = s.tbu := rfl
@[simp] theorem State.onCtb_ssv (f : Ctb → Ctb) (s : State) : (s.onCtb f).ssv = s.ssv := rfl
@[simp] theorem State.onCtb_liu (f : Ctb → Ctb) (s : State) : (s.onCtb f).liu = s.liu := rfl

@[simp] theorem State.onKeu_pending (f : Keu → Keu) (s : State) : (s.onKeu f).pending = s.pending := rfl
@[simp] theorem State.onKeu_starts (f : Keu → Keu) (s : State) : (s.onKeu f).starts = s.starts := rfl
@[simp] theorem State.onKeu_pins (f : Keu → Keu) (s : State) : (s.onKeu f).pins = s.pins := rfl
@[simp] theorem State.onKeu_store (f : Keu → Keu) (s : State) : (s.onKeu f).store = s.store := rfl
@[simp] theorem State.onKeu_rsc (f : Keu → Keu) (s : State) : (s.onKeu f).rsc = s.rsc := rfl
@[simp] theorem State.onKeu_ctb (f : Keu → Keu) (s : State) : (s.onKeu f).ctb = s.ctb := rfl
@[simp] theorem State.onKeu_keu (f : Keu → Keu) (s : State) : (s.onKeu f).keu = f s.keu := rfl
@[simp] theorem State.onKeu_atl (f : Keu → Keu) (s : State) : (s.onKeu f).atl = s.atl := rfl
@[simp] theorem State.onKeu_acc (f : Keu → Keu) (s : State) : (s.onKeu f).acc = s.acc := rfl
@[simp] theorem State.onKeu_kru (f : Keu → Keu) (s : State) : (s.onKeu f).kru = s.kru := rfl
@[simp] theorem State.onKeu_wpe (f : Keu → Keu) (s : State) : (s.onKeu f).wpe = s.wpe := rfl
@[simp] theorem State.onKeu_plu (f : Keu → Keu) (s : State) : (s.onKeu f).plu = s.plu := rfl
@[simp] theorem State.onKeu_tbu (f : Keu → Keu) (s : State) : (s.onKeu f).tbu = s.tbu := rfl
@[simp] theorem State.onKeu_ssv (f : Keu → Keu) (s : State) : (s.onKeu f).ssv = s.ssv := rfl
@[simp] theorem State.onKeu_liu (f : Keu → Keu) (s : State) : (s.onKeu f).liu = s.liu := rfl

@[simp] theorem State.onAtl_pending (f : Atl → Atl) (s : State) : (s.onAtl f).pending = s.pending := rfl
@[simp] theorem State.onAtl_starts (f : Atl → Atl) (s : State) : (s.onAtl f).starts = s.starts := rfl
@[simp] theorem State.onAtl_pins (f : Atl → Atl) (s : State) : (s.onAtl f).pins = s.pins := rfl
@[simp] theorem State.onAtl_store (f : Atl → Atl) (s : State) : (s.onAtl f).store = s.store := rfl
@[simp] theorem State.onAtl_rsc (f : Atl → Atl) (s : State) : (s.onAtl f).rsc = s.rsc := rfl
@[simp] theorem State.onAtl_ctb (f : Atl → Atl) (s : State) : (s.onAtl f).ctb = s.ctb := rfl
@[simp] theorem State.onAtl_keu (f : Atl → Atl) (s : State) : (s.onAtl f).keu = s.keu := rfl
@[simp] theorem State.onAtl_atl (f : Atl → Atl) (s : State) : (s.onAtl f).atl = f s.atl := rfl
@[simp] theorem State.onAtl_acc (f : Atl → Atl) (s : State) : (s.onAtl f).acc = s.acc := rfl
@[simp] theorem State.onAtl_kru (f : Atl → Atl) (s : State) : (s.onAtl f).kru = s.kru := rfl
@[simp] theorem State.onAtl_wpe (f : Atl → Atl) (s : State) : (s.onAtl f).wpe = s.wpe := rfl
@[simp] theorem State.onAtl_plu (f : Atl → Atl) (s : State) : (s.onAtl f).plu = s.plu := rfl
@[simp] theorem State.onAtl_tbu (f : Atl → Atl) (s : State) : (s.onAtl f).tbu = s.tbu := rfl
@[simp] theorem State.onAtl_ssv (f : Atl → Atl) (s : State) : (s.onAtl f).ssv = s.ssv := rfl
@[simp] theorem State.onAtl_liu (f : Atl → Atl) (s : State) : (s.onAtl f).liu = s.liu := rfl

@[simp] theorem State.onAcc_pending (f : Acc → Acc) (s : State) : (s.onAcc f).pending = s.pending := rfl
@[simp] theorem State.onAcc_starts (f : Acc → Acc) (s : State) : (s.onAcc f).starts = s.starts := rfl
@[simp] theorem State.onAcc_pins (f : Acc → Acc) (s : State) : (s.onAcc f).pins = s.pins := rfl
@[simp] theorem State.onAcc_store (f : Acc → Acc) (s : State) : (s.onAcc f).store = s.store := rfl
@[simp] theorem State.onAcc_rsc (f : Acc → Acc) (s : State) : (s.onAcc f).rsc = s.rsc := rfl
@[simp] theorem State.onAcc_ctb (f : Acc → Acc) (s : State) : (s.onAcc f).ctb = s.ctb := rfl
@[simp] theorem State.onAcc_keu (f : Acc → Acc) (s : State) : (s.onAcc f).keu = s.keu := rfl
@[simp] theorem State.onAcc_atl (f : Acc → Acc) (s : State) : (s.onAcc f).atl = s.atl := rfl
@[simp] theorem State.onAcc_acc (f : Acc → Acc) (s : State) : (s.onAcc f).acc = f s.acc := rfl
@[simp] theorem State.onAcc_kru (f : Acc → Acc) (s : State) : (s.onAcc f).kru = s.kru := rfl
@[simp] theorem State.onAcc_wpe (f : Acc → Acc) (s : State) : (s.onAcc f).wpe = s.wpe := rfl
@[simp] theorem State.onAcc_plu (f : Acc → Acc) (s : State) : (s.onAcc f).plu = s.plu := rfl
@[simp] theorem State.onAcc_tbu (f : Acc → Acc) (s : State) : (s.onAcc f).tbu = s.tbu := rfl
@[simp] theorem State.onAcc_ssv (f : Acc → Acc) (s : State) : (s.onAcc f).ssv = s.ssv := rfl
@[simp] theorem State.onAcc_liu (f : Acc → Acc) (s : State) : (s.onAcc f).liu = s.liu := rfl

@[simp] theorem State.onKru_pending (f : Kru → Kru) (s : State) : (s.onKru f).pending = s.pending := rfl
@[simp] theorem State.onKru_starts (f : Kru → Kru) (s : State) : (s.onKru f).starts = s.starts := rfl
@[simp] theorem State.onKru_pins (f : Kru → Kru) (s : State) : (s.onKru f).pins = s.pins := rfl
@[simp] theorem State.onKru_store (f : Kru → Kru) (s : State) : (s.onKru f).store = s.store := rfl
@[simp] theorem State.onKru_rsc (f : Kru → Kru) (s : State) : (s.onKru f).rsc = s.rsc := rfl
@[simp] theorem State.onKru_ctb (f : Kru → Kru) (s : State) : (s.onKru f).ctb = s.ctb := rfl
@[simp] theorem State.onKru_keu (f : Kru → Kru) (s : State) : (s.onKru f).keu = s.keu := rfl
@[simp] theorem State.onKru_atl (f : Kru → Kru) (s : State) : (s.onKru f).atl = s.atl := rfl
@[simp] theorem State.onKru_acc (f : Kru → Kru) (s : State) : (s.onKru f).acc = s.acc := rfl
@[simp] theorem State.onKru_kru (f : Kru → Kru) (s : State) : (s.onKru f).kru = f s.kru := rfl
@[simp] theorem State.onKru_wpe (f : Kru → Kru) (s : State) : (s.onKru f).wpe = s.wpe := rfl
@[simp] theorem State.onKru_plu (f : Kru → Kru) (s : State) : (s.onKru f).plu = s.plu := rfl
@[simp] theorem State.onKru_tbu (f : Kru → Kru) (s : State) : (s.onKru f).tbu = s.tbu := rfl
@[simp] theorem State.onKru_ssv (f : Kru → Kru) (s : State) : (s.onKru f).ssv = s.ssv := rfl
@[simp] theorem State.onKru_liu (f : Kru → Kru) (s : State) : (s.onKru f).liu = s.liu := rfl

@[simp] theorem State.onWpe_pending (f : Wpe → Wpe) (s : State) : (s.onWpe f).pending = s.pending := rfl
@[simp] theorem State.onWpe_starts (f : Wpe → Wpe) (s : State) : (s.onWpe f).starts = s.starts := rfl
@[simp] theorem State.onWpe_pins (f : Wpe → Wpe) (s : State) : (s.onWpe f).pins = s.pins := rfl
@[simp] theorem State.onWpe_store (f : Wpe → Wpe) (s : State) : (s.onWpe f).store = s.store := rfl
@[simp] theorem State.onWpe_rsc (f : Wpe → Wpe) (s : State) : (s.onWpe f).rsc = s.rsc := rfl
@[simp] theorem State.onWpe_ctb (f : Wpe → Wpe) (s : State) : (s.onWpe f).ctb = s.ctb := rfl
@[simp] theorem State.onWpe_keu (f : Wpe → Wpe) (s : State) : (s.onWpe f).keu = s.keu := rfl
@[simp] theorem State.onWpe_atl (f : Wpe → Wpe) (s : State) : (s.onWpe f).atl = s.atl := rfl
@[simp] theorem State.onWpe_acc (f : Wpe → Wpe) (s : State) : (s.onWpe f).acc = s.acc := rfl
@[simp] theorem State.onWpe_kru (f : Wpe → Wpe) (s : State) : (s.onWpe f).kru = s.kru := rfl
@[simp] theorem State.onWpe_wpe (f : Wpe → Wpe) (s : State) : (s.onWpe f).wpe = f s.wpe := rfl
@[simp] theorem State.onWpe_plu (f : Wpe → Wpe) (s : State) : (s.onWpe f).plu = s.plu := rfl
@[simp] theorem State.onWpe_tbu (f : Wpe → Wpe) (s : State) : (s.onWpe f).tbu = s.tbu := rfl
@[simp] theorem State.onWpe_ssv (f : Wpe → Wpe) (s : State) : (s.onWpe f).ssv = s.ssv := rfl
@[simp] theorem State.onWpe_liu (f : Wpe → Wpe) (s : State) : (s.onWpe f).liu = s.liu := rfl

@[simp] theorem State.onPlu_pending (f : Plu → Plu) (s : State) : (s.onPlu f).pending = s.pending := rfl
@[simp] theorem State.onPlu_starts (f : Plu → Plu) (s : State) : (s.onPlu f).starts = s.starts := rfl
@[simp] theorem State.onPlu_pins (f : Plu → Plu) (s : State) : (s.onPlu f).pins = s.pins := rfl
@[simp] theorem State.onPlu_store (f : Plu → Plu) (s : State) : (s.onPlu f).store = s.store := rfl
@[simp] theorem State.onPlu_rsc (f : Plu → Plu) (s : State) : (s.onPlu f).rsc = s.rsc := rfl
@[simp] theorem State.onPlu_ctb (f : Plu → Plu) (s : State) : (s.onPlu f).ctb = s.ctb := rfl
@[simp] theorem State.onPlu_keu (f : Plu → Plu) (s : State) : (s.onPlu f).keu = s.keu := rfl
@[simp] theorem State.onPlu_atl (f : Plu → Plu) (s : State) : (s.onPlu f).atl = s.atl := rfl
@[simp] theorem State.onPlu_acc (f : Plu → Plu) (s : State) : (s.onPlu f).acc = s.acc := rfl
@[simp] theorem State.onPlu_kru (f : Plu → Plu) (s : State) : (s.onPlu f).kru = s.kru := rfl
@[simp] theorem State.onPlu_wpe (f : Plu → Plu) (s : State) : (s.onPlu f).wpe = s.wpe := rfl
@[simp] theorem State.onPlu_plu (f : Plu → Plu) (s : State) : (s.onPlu f).plu = f s.plu := rfl
@[simp] theorem State.onPlu_tbu (f : Plu → Plu) (s : State) : (s.onPlu f).tbu = s.tbu := rfl
@[simp] theorem State.onPlu_ssv (f : Plu → Plu) (s : State) : (s.onPlu f).ssv = s.ssv := rfl
@[simp] theorem State.onPlu_liu (f : Plu → Plu) (s : State) : (s.onPlu f).liu = s.liu := rfl

@[simp] theorem State.onTbu_pending (f : Tbu → Tbu) (s : State) : (s.onTbu f).pending = s.pending := rfl
@[simp] theorem State.onTbu_starts (f : Tbu → Tbu) (s : State) : (s.onTbu f).starts = s.starts := rfl
@[simp] theorem State.onTbu_pins (f : Tbu → Tbu) (s : State) : (s.onTbu f).pins = s.pins := rfl
@[simp] theorem State.onTbu_store (f : Tbu → Tbu) (s : State) : (s.onTbu f).store = s.store := rfl
@[simp] theorem State.onTbu_rsc (f : Tbu → Tbu) (s : State) : (s.onTbu f).rsc = s.rsc := rfl
@[simp] theorem State.onTbu_ctb (f : Tbu → Tbu) (s : State) : (s.onTbu f).ctb = s.ctb := rfl
@[simp] theorem State.onTbu_keu (f : Tbu → Tbu) (s : State) : (s.onTbu f).keu = s.keu := rfl
@[simp] theorem State.onTbu_atl (f : Tbu → Tbu) (s : State) : (s.onTbu f).atl = s.atl := rfl
@[simp] theorem State.onTbu_acc (f : Tbu → Tbu) (s : State) : (s.onTbu f).acc = s.acc := rfl
@[simp] theorem State.onTbu_kru (f : Tbu → Tbu) (s : State) : (s.onTbu f).kru = s.kru := rfl
@[simp] theorem State.onTbu_wpe (f : Tbu → Tbu) (s : State) : (s.onTbu f).wpe = s.wpe := rfl
@[simp] theorem State.onTbu_plu (f : Tbu → Tbu) (s : State) : (s.onTbu f).plu = s.plu := rfl
@[simp] theorem State.onTbu_tbu (f : Tbu → Tbu) (s : State) : (s.onTbu f).tbu = f s.tbu := rfl
@[simp] theorem State.onTbu_ssv (f : Tbu → Tbu) (s : State) : (s.onTbu f).ssv = s.ssv := rfl
@[simp] theorem State.onTbu_liu (f : Tbu → Tbu) (s : State) : (s.onTbu f).liu = s.liu := rfl

@[simp] theorem State.onSsv_pending (f : Ssv → Ssv) (s : State) : (s.onSsv f).pending = s.pending := rfl
@[simp] theorem State.onSsv_starts (f : Ssv → Ssv) (s : State) : (s.onSsv f).starts = s.starts := rfl
@[simp] theorem State.onSsv_pins (f : Ssv → Ssv) (s : State) : (s.onSsv f).pins = s.pins := rfl
@[simp] theorem State.onSsv_store (f : Ssv → Ssv) (s : State) : (s.onSsv f).store = s.store := rfl
@[simp] theorem State.onSsv_rsc (f : Ssv → Ssv) (s : State) : (s.onSsv f).rsc = s.rsc := rfl
@[simp] theorem State.onSsv_ctb (f : Ssv → Ssv) (s : State) : (s.onSsv f).ctb = s.ctb := rfl
@[simp] theorem State.onSsv_keu (f : Ssv → Ssv) (s : State) : (s.onSsv f).keu = s.keu := rfl
@[simp] theorem State.onSsv_atl (f : Ssv → Ssv) (s : State) : (s.onSsv f).atl = s.atl := rfl
@[simp] theorem State.onSsv_acc (f : Ssv → Ssv) (s : State) : (s.onSsv f).acc = s.acc := rfl
@[simp] theorem State.onSsv_kru (f : Ssv → Ssv) (s : State) : (s.onSsv f).kru = s.kru := rfl
@[simp] theorem State.onSsv_wpe (f : Ssv → Ssv) (s : State) : (s.onSsv f).wpe = s.wpe := rfl
@[simp] theorem State.onSsv_plu (f : Ssv → Ssv) (s : State) : (s.onSsv f).plu = s.plu := rfl
@[simp] theorem State.onSsv_tbu (f : Ssv → Ssv) (s : State) : (s.onSsv f).tbu = s.tbu := rfl
@[simp] theorem State.onSsv_ssv (f : Ssv → Ssv) (s : State) : (s.onSsv f).ssv = f s.ssv := rfl
@[simp] theorem State.onSsv_liu (f : Ssv → Ssv) (s : State) : (s.onSsv f).liu = s.liu := rfl

@[simp] theorem State.onLiu_pending (f : Liu → Liu) (s : State) : (s.onLiu f).pending = s.pending := rfl
@[simp] theorem State.onLiu_starts (f : Liu → Liu) (s : State) : (s.onLiu f).starts = s.starts := rfl
@[simp] theorem State.onLiu_pins (f : Liu → Liu) (s : State) : (s.onLiu f).pins = s.pins := rfl
@[simp] theorem State.onLiu_store (f : Liu → Liu) (s : State) : (s.onLiu f).store = s.store := rfl
@[simp] theorem State.onLiu_rsc (f : Liu → Liu) (s : State) : (s.onLiu f).rsc = s.rsc := rfl
@[simp] theorem State.onLiu_ctb (f : Liu → Liu) (s : State) : (s.onLiu f).ctb = s.ctb := rfl
@[simp] theorem State.onLiu_keu (f : Liu → Liu) (s : State) : (s.onLiu f).keu = s.keu := rfl
@[simp] theorem State.onLiu_atl (f : Liu → Liu) (s : State) : (s.onLiu f).atl = s.atl := rfl
@[simp] theorem State.onLiu_acc (f : Liu → Liu) (s : State) : (s.onLiu f).acc = s.acc := rfl
@[simp] theorem State.onLiu_kru (f : Liu → Liu) (s : State) : (s.onLiu f).kru = s.kru := rfl
@[simp] theorem State.onLiu_wpe (f : Liu → Liu) (s : State) : (s.onLiu f).wpe = s.wpe := rfl
@[simp] theorem State.onLiu_plu (f : Liu → Liu) (s : State) : (s.onLiu f).plu = s.plu := rfl
@[simp] theorem State.onLiu_tbu (f : Liu → Liu) (s : State) : (s.onLiu f).tbu = s.tbu := rfl
@[simp] theorem State.onLiu_ssv (f : Liu → Liu) (s : State) : (s.onLiu f).ssv = s.ssv := rfl
@[simp] theorem State.onLiu_liu (f : Liu → Liu) (s : State) : (s.onLiu f).liu = f s.liu := rfl

@[simp] theorem State.onPins_pending (f : Pins → Pins) (s : State) : (s.onPins f).pending = s.pending := rfl
@[simp] theorem State.onPins_starts (f : Pins → Pins) (s : State) : (s.onPins f).starts = s.starts := rfl
@[simp] theorem State.onPins_pins (f : Pins → Pins) (s : State) : (s.onPins f).pins = f s.pins := rfl
@[simp] theorem State.onPins_store (f : Pins → Pins) (s : State) : (s.onPins f).store = s.store := rfl
@[simp] theorem State.onPins_rsc (f : Pins → Pins) (s : State) : (s.onPins f).rsc = s.rsc := rfl
@[simp] theorem State.onPins_ctb (f : Pins → Pins) (s : State) : (s.onPins f).ctb = s.ctb := rfl
@[simp] theorem State.onPins_keu (f : Pins → Pins) (s : State) : (s.onPins f).keu = s.keu := rfl
@[simp] theorem State.onPins_atl (f : Pins → Pins) (s : State) : (s.onPins f).atl = s.atl := rfl
@[simp] theorem State.onPins_acc (f : Pins → Pins) (s : State) : (s.onPins f).acc = s.acc := rfl
@[simp] theorem State.onPins_kru (f : Pins → Pins) (s : State) : (s.onPins f).kru = s.kru := rfl
@[simp] theorem State.onPins_wpe (f : Pins → Pins) (s : State) : (s.onPins f).wpe = s.wpe := rfl
@[simp] theorem State.onPins_plu (f : Pins → Pins) (s : State) : (s.onPins f).plu = s.plu := rfl
@[simp] theorem State.onPins_tbu (f : Pins → Pins) (s : State) : (s.onPins f).tbu = s.tbu := rfl
@[simp] theorem State.onPins_ssv (f : Pins → Pins) (s : State) : (s.onPins f).ssv = s.ssv := rfl
@[simp] theorem State.onPins_liu (f : Pins → Pins) (s : State) : (s.onPins f).liu = s.liu := rfl

/-! Ports of the LIU. -/

@[simp] theorem Liu.port_onPort (l : Link) (f : LinkPort → LinkPort) (u : Liu) :
    (u.onPort l f).port l = f (u.port l) := by cases l <;> rfl
@[simp] theorem Liu.onPort_pq (l : Link) (f : LinkPort → LinkPort) (u : Liu) : (u.onPort l f).pq = u.pq := by
  cases l <;> rfl
@[simp] theorem Liu.onPort_bq (l : Link) (f : LinkPort → LinkPort) (u : Liu) : (u.onPort l f).bq = u.bq := by
  cases l <;> rfl
@[simp] theorem Liu.onPort_bridge (l : Link) (f : LinkPort → LinkPort) (u : Liu) :
    (u.onPort l f).bridge = u.bridge := by cases l <;> rfl
@[simp] theorem Liu.onPort_capacity (l : Link) (f : LinkPort → LinkPort) (u : Liu) :
    (u.onPort l f).capacity = u.capacity := by cases l <;> rfl
@[simp] theorem Liu.onPort_linkTimer (l : Link) (f : LinkPort → LinkPort) (u : Liu) :
    (u.onPort l f).linkTimer = u.linkTimer := by cases l <;> rfl

/-- The other link's port is untouched. -/
theorem Liu.port_onPort_ne {l m : Link} (h : l ≠ m) (f : LinkPort → LinkPort) (u : Liu) :
    (u.onPort l f).port m = u.port m := by
  cases l <;> cases m <;> first | rfl | exact absurd rfl h

/-- Two changes of one port are one change. -/
@[simp] theorem Liu.onPort_onPort (l : Link) (f g : LinkPort → LinkPort) (u : Liu) :
    (u.onPort l f).onPort l g = u.onPort l (g ∘ f) := by cases l <;> rfl

end Sys2Proof.Machine
end

