-- ==== Sys2Proof/Laws/Operations.lean ====
section
/-! SUPPORT. What each shared operation can do, said once: the write queue (R136, R137), locations (R135, R139 to
R141), timers (R150), events (R169), answers and the taking of a command (R163 to R166). -/

namespace Sys2Proof.Machine

/-! ## The end of a meaning -/

/-- Every meaning answers a next state: the one it built, with the next write taken if the RSC was free. -/
@[simp] theorem finish_eq (s : State) : finish s = .next { s with rsc := s.rsc.kick } := rfl

/-- What a meaning leaves of every part but the RSC is what it built. -/
theorem finish_next {s t : State} (h : finish s = .next t) : t = { s with rsc := s.rsc.kick } := by
  cases h; rfl

/-- The RSC keeps its current write, idles with nothing waiting, or takes the oldest waiting entry. -/
theorem Rsc.kick_cases (r : Rsc) :
    (r.current.isSome = true ∧ r.kick = r) ∨
    (r.current = none ∧ r.queue = [] ∧ r.kick = r) ∨
    (∃ e rest, r.current = none ∧ r.queue = e :: rest ∧
      r.kick = { current := some { entry := e, attempt := 1 }, queue := rest }) := by
  obtain ⟨c, q⟩ := r
  cases c with
  | some w => exact .inl ⟨rfl, rfl⟩
  | none =>
    cases q with
    | nil => exact .inr (.inl ⟨rfl, rfl, rfl⟩)
    | cons e rest => exact .inr (.inr ⟨e, rest, rfl, rfl, rfl⟩)

/-- With a write current whenever one waits, the RSC has nothing to take. -/
theorem Rsc.kick_of_served {r : Rsc} (h : r.current = none → r.queue = []) : r.kick = r := by
  rcases r.kick_cases with ⟨_, hk⟩ | ⟨_, _, hk⟩ | ⟨e, rest, hc, hq, _⟩
  · exact hk
  · exact hk
  · rw [h hc] at hq; cases hq

/-- After the take, a write is current whenever one waits. -/
theorem Rsc.kick_served (r : Rsc) : r.kick.current = none → r.kick.queue = [] := by
  obtain ⟨c, q⟩ := r
  cases c <;> cases q <;> simp [Rsc.kick]

/-! ## The write queue (R136) -/

/-- A request is in the queue it was placed in. -/
theorem mem_enqueueEntry_self (e : WriteEntry) (q : List WriteEntry) : e ∈ enqueueEntry e q := by
  induction q with
  | nil => simp [enqueueEntry]
  | cons w rest ih =>
    unfold enqueueEntry
    split
    · simp
    · simp [ih]

/-- Placing a request leaves the waiting entries of other records where they are, and adds nothing but the request. -/
theorem mem_enqueueEntry_of_ne {e d : WriteEntry} (h : d.id ≠ e.id) (q : List WriteEntry) :
    d ∈ enqueueEntry e q ↔ d ∈ q := by
  induction q with
  | nil =>
    have hne : d ≠ e := fun hd => h (by rw [hd])
    simp [enqueueEntry, hne]
  | cons w rest ih =>
    unfold enqueueEntry
    split
    · rename_i hw
      have h1 : d ≠ e := fun hd => h (by rw [hd])
      have h2 : d ≠ w := fun hd => h (by rw [hd, hw])
      simp [h1, h2]
    · simp [ih]

/-- The records that have a waiting entry: a request changes nothing where its record has one, and joins at the end
otherwise. -/
theorem enqueueEntry_ids (e : WriteEntry) (q : List WriteEntry) :
    (enqueueEntry e q).map WriteEntry.id =
      if e.id ∈ q.map WriteEntry.id then q.map WriteEntry.id else q.map WriteEntry.id ++ [e.id] := by
  induction q with
  | nil => simp [enqueueEntry]
  | cons w rest ih =>
    unfold enqueueEntry
    split
    · rename_i hw; simp [hw]
    · rename_i hw
      simp only [List.map_cons, ih]
      by_cases hm : e.id ∈ rest.map WriteEntry.id
      · simp [hm]
      · have : e.id ≠ w.id := fun h => hw h.symm
        simp [hm, this]

/-- At most one entry of a record waits, before a request and after it. -/
theorem enqueueEntry_nodup {q : List WriteEntry} (e : WriteEntry) (h : (q.map WriteEntry.id).Nodup) :
    ((enqueueEntry e q).map WriteEntry.id).Nodup := by
  rw [enqueueEntry_ids]
  split
  · exact h
  · rename_i hm
    rw [List.nodup_append]
    refine ⟨h, by simp, ?_⟩
    rintro a ha b hb rfl
    simp only [List.mem_singleton] at hb
    exact hm (hb ▸ ha)

/-- A request changes the RSC alone. -/
theorem State.requestWrite_eq (c : Contents) (p : Purpose) (s : State) :
    s.requestWrite c p = { s with rsc := s.rsc.request { contents := c, purpose := p } } := rfl

/-- What a request does: it is current at once, or it takes its place in the queue and the current write stays. -/
theorem Rsc.request_cases (e : WriteEntry) (r : Rsc) :
    (r.current = none ∧ r.queue = [] ∧ r.request e = { current := some { entry := e, attempt := 1 }, queue := [] }) ∨
    (¬ (r.current = none ∧ r.queue = []) ∧ r.request e = { r with queue := enqueueEntry e r.queue }) := by
  by_cases h : r.current = none ∧ r.queue = []
  · exact .inl ⟨h.1, h.2, by simp [Rsc.request, Rsc.kick, h]⟩
  · exact .inr ⟨h, by simp only [Rsc.request, if_neg h]⟩

/-- When the row ends, a request has led to the same writes as one that only joined the queue. -/
theorem Rsc.kick_request (e : WriteEntry) (r : Rsc) :
    (r.request e).kick = Rsc.kick { r with queue := enqueueEntry e r.queue } := by
  rcases r.request_cases e with ⟨hc, hq, h⟩ | ⟨_, h⟩
  · simp [h, hc, hq, Rsc.kick, enqueueEntry]
  · rw [h]

/-- A request keeps a write current whenever one waits. -/
theorem Rsc.request_served {e : WriteEntry} {r : Rsc} (h : r.current = none → r.queue = []) :
    (r.request e).current ≠ none := by
  rcases r.request_cases e with ⟨_, _, hr⟩ | ⟨hn, hr⟩
  · simp [hr]
  · rw [hr]
    exact fun hc => hn ⟨hc, h hc⟩

/-! ## Locations (R135, R139 to R141) -/

/-- A completed write reads the new contents. -/
@[simp] theorem Location.read_complete {α : Type} (new : α) (l : Location α) :
    (Location.complete new l).read = .valid new := rfl

/-- A failed write of a record that was written reads the old contents, the new ones, or DAMAGED. -/
theorem Location.read_fail {α : Type} (left : Residue) (new : α) {l : Location α} (h : l.written = true) :
    (Location.fail left new l).read = l.read ∨ (Location.fail left new l).read = .valid new ∨
      (Location.fail left new l).read = .damaged := by
  obtain ⟨w, b⟩ := l
  subst h
  cases left
  · exact .inl rfl
  · exact .inr (.inl rfl)
  · exact .inr (.inr rfl)

/-- Whatever was written stays written through a cut. -/
theorem Location.cut_written {α : Type} (k : CutPoint) (new : α) {l : Location α} (h : l.written = true) :
    (Location.cut k new l).written = true := by
  cases k <;> simp [Location.cut, h]

/-! ## Timers (R150) -/

@[simp] theorem Timer.tick_none : Timer.tick none = none := rfl
@[simp] theorem Timer.tick_zero : Timer.tick (some 0) = some 0 := rfl
@[simp] theorem Timer.tick_succ (n : Nat) : Timer.tick (some (n + 1)) = some n := rfl

/-- A tick never starts or stops a timer. -/
@[simp] theorem Timer.tick_isSome (t : Timer) : t.tick.isSome = t.isSome := by
  rcases t with _ | _ | n <;> rfl

/-- A tick lowers a running count by one and leaves the others. -/
theorem Timer.tick_eq (t : Timer) : t.tick = t.map (· - 1) := by
  rcases t with _ | _ | n <;> rfl

/-! ## Events (R169) -/

/-- A post to the P-link queue: the queue alone changes, and only with the core domain powered. -/
theorem State.postP_eq (e : Event) (s : State) :
    s.postP e = if s.corePowered then { s with liu := { s.liu with pq := s.liu.pq.post e } } else s := rfl

/-- A post to the B-link queue: the queue alone changes, and only with the link other than ABSENT. -/
theorem State.postB_eq (e : Event) (s : State) :
    s.postB e = if s.corePowered && s.liu.bridge != .absent then
      { s with liu := { s.liu with bq := s.liu.bq.post e } } else s := rfl

/-- The taken event was one of the queue's; taking from an empty queue gives none and leaves it empty. -/
theorem PQueue.take_none_iff (q : PQueue) : q.take.1 = none ↔ q = .empty := by
  obtain ⟨a, b, c, d, e, f⟩ := q
  cases a <;> cases b <;> cases c <;> cases d <;> cases e <;> cases f <;>
    simp [PQueue.take, PQueue.empty]

theorem BQueue.take_none_iff (q : BQueue) : q.take.1 = none ↔ q = .empty := by
  obtain ⟨a, b, c, d⟩ := q
  cases a <;> cases b <;> cases c <;> cases d <;> simp [BQueue.take, BQueue.empty]

/-! ## Answers and the taking of a command (R163 to R166) -/

/-- A RUNNING slot takes its answer. -/
@[simp] theorem CmdSlot.answer_running (mk : Byte → Result) (c : CmdClass) (code : Byte) :
    (CmdSlot.running c code).answer mk = .done (mk code) := rfl

/-- An answer reaches a slot only while it runs a command. -/
theorem CmdSlot.answer_of_not_running (mk : Byte → Result) {c : CmdSlot} (h : c.isRunning = false) :
    c.answer mk = c := by
  cases c <;> first | rfl | cases h

/-- An answer changes its link's port alone. -/
theorem State.answer_eq (l : Link) (mk : Byte → Result) (s : State) :
    s.answer l mk = { s with liu := s.liu.onPort l fun p => { p with slot := p.slot.answer mk } } := rfl

/-- An exchange is served from fall to rise when its link is served at the rise and it was not broken. -/
theorem State.serves_iff (x : Exchange) (s : State) :
    s.serves x = true ↔ s.served x.link = true ∧ x.broken = none := by
  simp [State.serves]

/-- A frame on an unserved link has no effect but on what the master reads. -/
theorem State.command_unserved {x : Exchange} {s : State} (code : Byte) (body : State → State)
    (h : s.serves x = false) : s.command x code body = s.shiftOut x := by
  simp [State.command, h]

/-- A command that meets a RUNNING slot becomes the note. -/
theorem State.command_running {x : Exchange} {s : State} (code : Byte) (body : State → State)
    (h : s.serves x = true) (hr : (s.liu.port x.link).slot.isRunning = true) :
    s.command x code body = (s.validFrame x).setNote x.link code := by
  simp [State.command, h, hr]

/-- Otherwise the command is taken. -/
theorem State.command_taken {x : Exchange} {s : State} (code : Byte) (body : State → State)
    (h : s.serves x = true) (hr : (s.liu.port x.link).slot.isRunning = false) :
    s.command x code body = body ((s.validFrame x).occupy x.link code) := by
  simp [State.command, h, hr]

/-- A taken command's slot runs it. -/
@[simp] theorem State.occupy_slot (x : Exchange) (code : Byte) (s : State) :
    ((s.occupy x.link code).liu.port x.link).slot = .running .short code := by
  unfold State.occupy State.restartConfig State.setSlot
  split <;> simp

/-- Checks 2 to 4 of R165: the first that fails answers, and otherwise the owner does. -/
theorem State.checked_cases {α : Type} (l : Link) (code : Byte) (q : Payload α) (owner : α → State → State)
    (s : State) :
    (codeOnLink code l = false ∧ s.checked l code q owner = s.answer l .wrongLink) ∨
    (codeOnLink code l = true ∧ s.acc.access = .halted ∧ isQuery code = false ∧
      s.checked l code q owner = s.answer l .halted) ∨
    (codeOnLink code l = true ∧ (s.acc.access ≠ .halted ∨ isQuery code = true) ∧
      ((∃ b, q = .malformed b ∧ s.checked l code q owner = s.refuse l .badRange) ∨
       (∃ a, q = .ok a ∧ s.checked l code q owner = owner a s))) := by
  unfold State.checked
  cases hc : codeOnLink code l
  · exact .inl ⟨rfl, by simp⟩
  · refine .inr ?_
    by_cases hh : s.acc.access = .halted ∧ isQuery code = false
    · exact .inl ⟨rfl, hh.1, hh.2, by simp [hh]⟩
    · refine .inr ⟨rfl, ?_, ?_⟩
      · by_cases ha : s.acc.access = .halted
        · exact .inr (by simpa [ha] using hh)
        · exact .inl ha
      · cases q with
        | ok a => exact .inr ⟨a, rfl, by simp [hh]⟩
        | malformed b => exact .inl ⟨b, rfl, by simp [hh]⟩

end Sys2Proof.Machine
end

