-- ==== Sys2Proof/Laws/Frames.lean ====
section
/-! SUPPORT. Frames: which parts each shared operation may change, composed by transitivity. -/

namespace Sys2Proof.Machine

/-! ## The calculus -/

theorem changesOnly_refl (l : List Block) (s : State) : State.changesOnly l s s := by
  intro b _; cases b <;> rfl

theorem changesOnly_mono {l m : List Block} {s t : State} (h : State.changesOnly l s t) (hs : l ⊆ m) :
    State.changesOnly m s t := fun b hb => h b fun hl => hb (hs hl)

theorem Block.same_trans {b : Block} {s t u : State} (h : b.same s t) (k : b.same t u) : b.same s u := by
  cases b <;> exact Eq.trans k h

theorem changesOnly_trans {l : List Block} {s t u : State} (h : State.changesOnly l s t)
    (k : State.changesOnly l t u) : State.changesOnly l s u :=
  fun b hb => Block.same_trans (h b hb) (k b hb)

/-- A frame survives a choice between two states that have it. -/
theorem changesOnly_ite {l : List Block} {s t u : State} {c : Prop} [Decidable c]
    (h : c → State.changesOnly l s t) (k : ¬ c → State.changesOnly l s u) :
    State.changesOnly l s (if c then t else u) := by
  split
  · exact h ‹_›
  · exact k ‹_›

/-! ## Block-wise updates -/

theorem onRsc_frame (f : Rsc → Rsc) (s : State) : State.changesOnly [.rsc] s (s.onRsc f) := by
  intro b hb; cases b <;> first | rfl | simp at hb
theorem onStore_frame (f : Store → Store) (s : State) : State.changesOnly [.store] s (s.onStore f) := by
  intro b hb; cases b <;> first | rfl | simp at hb
theorem onCtb_frame (f : Ctb → Ctb) (s : State) : State.changesOnly [.ctb] s (s.onCtb f) := by
  intro b hb; cases b <;> first | rfl | simp at hb
theorem onKeu_frame (f : Keu → Keu) (s : State) : State.changesOnly [.keu] s (s.onKeu f) := by
  intro b hb; cases b <;> first | rfl | simp at hb
theorem onAtl_frame (f : Atl → Atl) (s : State) : State.changesOnly [.atl] s (s.onAtl f) := by
  intro b hb; cases b <;> first | rfl | simp at hb
theorem onAcc_frame (f : Acc → Acc) (s : State) : State.changesOnly [.acc] s (s.onAcc f) := by
  intro b hb; cases b <;> first | rfl | simp at hb
theorem onKru_frame (f : Kru → Kru) (s : State) : State.changesOnly [.kru] s (s.onKru f) := by
  intro b hb; cases b <;> first | rfl | simp at hb
theorem onWpe_frame (f : Wpe → Wpe) (s : State) : State.changesOnly [.wpe] s (s.onWpe f) := by
  intro b hb; cases b <;> first | rfl | simp at hb
theorem onPlu_frame (f : Plu → Plu) (s : State) : State.changesOnly [.plu] s (s.onPlu f) := by
  intro b hb; cases b <;> first | rfl | simp at hb
theorem onTbu_frame (f : Tbu → Tbu) (s : State) : State.changesOnly [.tbu] s (s.onTbu f) := by
  intro b hb; cases b <;> first | rfl | simp at hb
theorem onSsv_frame (f : Ssv → Ssv) (s : State) : State.changesOnly [.ssv] s (s.onSsv f) := by
  intro b hb; cases b <;> first | rfl | simp at hb
theorem onLiu_frame (f : Liu → Liu) (s : State) : State.changesOnly [.liu] s (s.onLiu f) := by
  intro b hb; cases b <;> first | rfl | simp at hb
theorem onPins_frame (f : Pins → Pins) (s : State) : State.changesOnly [.pins] s (s.onPins f) := by
  intro b hb; cases b <;> first | rfl | simp at hb

/-! ## Shared operations (Machine/Ops.lean) -/

theorem postP_frame (e : Event) (s : State) : State.changesOnly [.liu] s (s.postP e) :=
  changesOnly_ite (fun _ => onLiu_frame _ s) fun _ => changesOnly_refl _ s

theorem postB_frame (e : Event) (s : State) : State.changesOnly [.liu] s (s.postB e) :=
  changesOnly_ite (fun _ => onLiu_frame _ s) fun _ => changesOnly_refl _ s

theorem postAccessChanged_frame (s : State) : State.changesOnly [.liu] s s.postAccessChanged :=
  changesOnly_trans (postP_frame _ s) (postB_frame _ _)

theorem answer_frame (l : Link) (mk : Byte → Result) (s : State) : State.changesOnly [.liu] s (s.answer l mk) :=
  onLiu_frame _ s

theorem replyOkTo_frame (o : Option Link) (f : Fields) (s : State) :
    State.changesOnly [.liu] s (s.replyOkTo o f) := by
  cases o
  · exact changesOnly_refl _ s
  · exact answer_frame _ _ s

theorem refuseTo_frame (o : Option Link) (r : Reason) (s : State) :
    State.changesOnly [.liu] s (s.refuseTo o r) := by
  cases o
  · exact changesOnly_refl _ s
  · exact answer_frame _ _ s

theorem runLong_frame (l : Link) (s : State) : State.changesOnly [.liu] s (s.runLong l) := onLiu_frame _ s

theorem requestWrite_frame (c : Contents) (p : Purpose) (s : State) :
    State.changesOnly [.rsc] s (s.requestWrite c p) := onRsc_frame _ s

/-! ## Key entry -/

theorem autoDialogue_frame (s : State) : State.changesOnly [.keu] s s.autoDialogue :=
  changesOnly_ite (fun _ => onKeu_frame _ s) fun _ => changesOnly_refl _ s

theorem endDialogue_frame (s : State) : State.changesOnly [.keu] s s.endDialogue :=
  changesOnly_trans (onKeu_frame _ s) (autoDialogue_frame _)

theorem interruptEntry_frame (s : State) : State.changesOnly [.keu] s s.interruptEntry :=
  changesOnly_ite (fun _ => onKeu_frame _ s) fun _ => endDialogue_frame s

theorem tellGate_frame (o : Bool) (s : State) : State.changesOnly [.keu] s (s.tellGate o) :=
  changesOnly_ite (fun _ => changesOnly_refl _ s) fun _ =>
    changesOnly_ite (fun _ => interruptEntry_frame s) fun _ =>
      changesOnly_ite (fun _ => onKeu_frame _ s) fun _ => changesOnly_refl _ s

/-! ## Access changes -/

/-- A change of access state touches the access items, the entry in hand and the event queues. -/
theorem changeAccess_frame (a : Access) (o : Option SlotIx) (s : State) :
    State.changesOnly [.acc, .keu, .liu] s (s.changeAccess a o) :=
  changesOnly_trans (changesOnly_mono (onAcc_frame _ s) (by simp))
    (changesOnly_trans (changesOnly_mono (interruptEntry_frame _) (by simp))
      (changesOnly_mono (postAccessChanged_frame _) (by simp)))

theorem revokeKeys_frame (s : State) : State.changesOnly [.liu] s s.revokeKeys :=
  changesOnly_ite (fun _ => postB_frame _ s) fun _ => changesOnly_refl _ s

theorem closeOpen_frame (s : State) : State.changesOnly [.acc, .liu] s s.closeOpen :=
  changesOnly_trans (changesOnly_mono (onAcc_frame _ s) (by simp))
    (changesOnly_trans (changesOnly_mono (onLiu_frame _ _) (by simp))
      (changesOnly_mono (revokeKeys_frame _) (by simp)))

/-- A change of the applied map touches the map, the gate's entry and the event queues. -/
theorem setMap_frame (m : LockMap) (s : State) : State.changesOnly [.plu, .keu, .liu] s (s.setMap m) := by
  refine changesOnly_trans (t := s.onPlu fun p => { p with map := m })
    (changesOnly_mono (onPlu_frame _ s) (by simp)) ?_
  refine changesOnly_trans ?_ (changesOnly_mono (tellGate_frame _ _) (by simp))
  exact changesOnly_ite (fun _ => changesOnly_refl _ _) fun _ =>
    changesOnly_mono (postAccessChanged_frame _) (by simp)

/-- Entering HALTED touches the access items, the penalty timer, the wipe's items, the entry in hand and the event
queues: neither the Pending Set nor any working copy. -/
theorem enterHalted_frame (s : State) : State.changesOnly [.acc, .atl, .wpe, .keu, .liu] s s.enterHalted := by
  refine changesOnly_ite (fun _ => changesOnly_refl _ s) fun _ => ?_
  refine changesOnly_trans ?_ (changesOnly_mono (changeAccess_frame _ _ _) (by simp))
  refine changesOnly_trans ?_ (changesOnly_mono (revokeKeys_frame _) (by simp))
  refine changesOnly_trans ?_ (changesOnly_mono (onLiu_frame _ _) (by simp))
  refine changesOnly_trans ?_ (changesOnly_mono (onWpe_frame _ _) (by simp))
  refine changesOnly_trans ?_ (changesOnly_mono (onAtl_frame _ _) (by simp))
  exact changesOnly_mono (onAcc_frame _ s) (by simp)

/-! ## Frames of an exchange -/

theorem shiftOut_frame (x : Exchange) (s : State) : State.changesOnly [.liu] s (s.shiftOut x) := onLiu_frame _ s

theorem restartWatch_frame (l : Link) (s : State) : State.changesOnly [.liu, .ssv] s (s.restartWatch l) := by
  cases l
  · exact changesOnly_ite (fun _ => changesOnly_mono (onSsv_frame _ s) (by simp)) fun _ => changesOnly_refl _ s
  · exact changesOnly_ite (fun _ => changesOnly_mono (onLiu_frame _ s) (by simp)) fun _ => changesOnly_refl _ s

/-- A valid frame touches its link and the watching timers. -/
theorem validFrame_frame (x : Exchange) (s : State) : State.changesOnly [.liu, .ssv] s (s.validFrame x) :=
  changesOnly_trans (changesOnly_mono (onLiu_frame _ s) (by simp))
    (changesOnly_trans (changesOnly_mono (onLiu_frame _ _) (by simp)) (restartWatch_frame _ _))

/-- Occupying a slot touches it and, in CONFIG, the config timer. -/
theorem occupy_frame (l : Link) (code : Byte) (s : State) :
    State.changesOnly [.liu, .acc] s (s.occupy l code) :=
  changesOnly_trans (changesOnly_mono (onLiu_frame _ s) (by simp))
    (changesOnly_ite (fun _ => changesOnly_mono (onAcc_frame _ _) (by simp)) fun _ => changesOnly_refl _ _)

/-! ## Start-up -/

/-- What comes about during start-up leaves the queue of commands, the start-ups to come and the array alone. -/
theorem startEvent_keeps (s : State) (e : StartEvent) :
    (s.startEvent e).pending = s.pending ∧ (s.startEvent e).starts = s.starts ∧ (s.startEvent e).store = s.store := by
  unfold State.startEvent
  split
  · exact ⟨rfl, rfl, rfl⟩
  · cases e <;>
      simp only [State.startSample, State.startBus, State.startDebounced, State.debounceCase, State.startSleepTimer,
        State.stopSleepTimer] <;>
      repeat' split
    all_goals exact ⟨rfl, rfl, rfl⟩

/-- The same of any number of events. -/
theorem startEvents_keep (l : List StartEvent) (s : State) :
    (l.foldl State.startEvent s).pending = s.pending ∧ (l.foldl State.startEvent s).starts = s.starts ∧
      (l.foldl State.startEvent s).store = s.store := by
  induction l generalizing s with
  | nil => exact ⟨rfl, rfl, rfl⟩
  | cons e l ih =>
    obtain ⟨hp, hs, ht⟩ := ih (s.startEvent e)
    obtain ⟨kp, ks, kt⟩ := startEvent_keeps s e
    exact ⟨hp.trans kp, hs.trans ks, ht.trans kt⟩

@[simp] theorem heldReports_nil (s : State) : heldReports [] s = [] := rfl

@[simp] theorem heldReports_cons (e : StartEvent) (l : List StartEvent) (s : State) :
    heldReports (e :: l) s = s.startReports e ++ heldReports l (s.startEvent e) := rfl

/-- What is held of two runs of events is held of the first, then of the second. -/
theorem heldReports_append (a b : List StartEvent) (s : State) :
    heldReports (a ++ b) s = heldReports a s ++ heldReports b (a.foldl State.startEvent s) := by
  induction a generalizing s with
  | nil => rfl
  | cons e l ih => simp [ih]

/-- A report of a level or of the CASE state is held exactly where an event changes it and leaves a supply. -/
theorem mem_startReports (r : HeldReport) (s : State) (e : StartEvent) :
    r ∈ s.startReports e ↔ (s.startEvent e).ssv.mode ≠ .off ∧
      (((s.startEvent e).ssv.level ≠ s.ssv.level ∧
          r = .level (decide (s.ssv.level.severity < (s.startEvent e).ssv.level.severity)) (s.startEvent e).ssv.level) ∨
        ((s.startEvent e).ssv.caseIsOpen ≠ s.ssv.caseIsOpen ∧
          r = if (s.startEvent e).ssv.caseIsOpen then .caseOpened else .caseClosed) ∨
        (s.pins.busdet = true ∧ (s.startEvent e).pins.busdet = false ∧ r = .busLost)) := by
  unfold State.startReports
  by_cases hm : (s.startEvent e).ssv.mode = .off
  · simp [hm]
  · by_cases hl : (s.startEvent e).ssv.level = s.ssv.level <;>
      by_cases hc : (s.startEvent e).ssv.caseIsOpen = s.ssv.caseIsOpen <;>
      simp [hm, hl, hc, and_assoc]

end Sys2Proof.Machine
end

