-- ==== Sys2Proof/Laws/PerInstr.lean ====
section
/-! SUPPORT. The per-instruction family FrameForm: the form of a command's request frame. -/

namespace Sys2Proof.Laws.FrameForm

/-- The request frame of a command that carries a code is that code's frame with some payload (11.9). -/
def Statement (i : Instr) : Prop :=
  ∀ b c, encodeRequest i = some b → i.code = some c → ∃ p, b = requestFrame c p

/-- A command whose frame is written out has that form. -/
theorem of_eq {i : Instr} {k : Byte} {p : List Byte} (he : encodeRequest i = some (requestFrame k p))
    (hc : i.code = some k) : Statement i := by
  intro b c hb hk
  rw [he] at hb
  rw [hc] at hk
  cases hb
  cases hk
  exact ⟨p, rfl⟩

/-- A row with no code has no such frame. -/
theorem of_no_code {i : Instr} (hc : i.code = none) : Statement i := by
  intro b c _ hk
  rw [hc] at hk
  cases hk

/-- A row with no frame of its own has none to describe. -/
theorem of_no_frame {i : Instr} (he : encodeRequest i = none) : Statement i := by
  intro b c hb _
  rw [he] at hb
  cases hb

theorem poll (x : Exchange) (payload : List Byte) : Statement (.poll x payload) := of_eq rfl rfl
theorem status (x : Exchange) (q : Payload Unit) : Statement (.status x q) := of_eq rfl rfl
theorem getEvent (x : Exchange) (q : Payload Unit) : Statement (.getEvent x q) := of_eq rfl rfl
theorem listSlots (x : Exchange) (q : Payload Unit) : Statement (.listSlots x q) := of_eq rfl rfl
theorem barSlot (x : Exchange) (q : Payload Byte) : Statement (.barSlot x q) := of_eq rfl rfl
theorem unbarSlot (x : Exchange) (q : Payload Byte) : Statement (.unbarSlot x q) := of_eq rfl rfl
theorem clearSlot (x : Exchange) (q : Payload Byte) : Statement (.clearSlot x q) := of_eq rfl rfl
theorem setPolicy (x : Exchange) (q : Payload (List (PolicyField × BitVec 16))) : Statement (.setPolicy x q) :=
  of_eq rfl rfl
theorem readPolicy (x : Exchange) (q : Payload Unit) : Statement (.readPolicy x q) := of_eq rfl rfl
theorem setLockMap (x : Exchange) (q : Payload (List (MapEntry × LockAction))) : Statement (.setLockMap x q) :=
  of_eq rfl rfl
theorem wipe (x : Exchange) (q : Payload Unit) : Statement (.wipe x q) := of_eq rfl rfl
theorem keyDigit (x : Exchange) (q : Payload Digit) : Statement (.keyDigit x q) := of_eq rfl rfl
theorem keyBack (x : Exchange) (q : Payload Unit) : Statement (.keyBack x q) := of_eq rfl rfl
theorem keyClear (x : Exchange) (q : Payload Unit) : Statement (.keyClear x q) := of_eq rfl rfl
theorem keyEnter (x : Exchange) (q : Payload Unit) : Statement (.keyEnter x q) := of_eq rfl rfl
theorem keyLock (x : Exchange) (q : Payload Unit) : Statement (.keyLock x q) := of_eq rfl rfl
theorem keyAdmin (x : Exchange) (q : Payload Unit) : Statement (.keyAdmin x q) := of_eq rfl rfl
theorem keyRecover (x : Exchange) (q : Payload Unit) : Statement (.keyRecover x q) := of_eq rfl rfl
theorem keyChange (x : Exchange) (q : Payload Unit) : Statement (.keyChange x q) := of_eq rfl rfl
theorem keyExit (x : Exchange) (q : Payload Unit) : Statement (.keyExit x q) := of_eq rfl rfl
theorem enrolBegin (x : Exchange) (q : Payload EnrolArgs) : Statement (.enrolBegin x q) := of_eq rfl rfl
theorem attach (x : Exchange) (q : Payload (BitVec 32)) : Statement (.attach x q) := of_eq rfl rfl
theorem detach (x : Exchange) (q : Payload Unit) : Statement (.detach x q) := of_eq rfl rfl
theorem lock (x : Exchange) (q : Payload Unit) : Statement (.lock x q) := of_eq rfl rfl
theorem activity (x : Exchange) (q : Payload Unit) : Statement (.activity x q) := of_eq rfl rfl
theorem fetchKey (x : Exchange) (q : Payload Byte) : Statement (.fetchKey x q) := of_eq rfl rfl
theorem lockReply (x : Exchange) (q : Payload LockReplyCode) : Statement (.lockReply x q) := of_eq rfl rfl
theorem workFetch (x : Exchange) (q : Payload Unit) : Statement (.workFetch x q) := of_eq rfl rfl
theorem workDone (x : Exchange) (q : Payload (BitVec 16 × WorkReport)) : Statement (.workDone x q) := of_eq rfl rfl
theorem defineVolume (x : Exchange) (q : Payload DefineArgs) : Statement (.defineVolume x q) := of_eq rfl rfl
theorem readVolumes (x : Exchange) (q : Payload Unit) : Statement (.readVolumes x q) := of_eq rfl rfl
theorem writeOptions (x : Exchange) (q : Payload (List (OptionField × Byte))) : Statement (.writeOptions x q) :=
  of_eq rfl rfl
theorem badFrame (x : Exchange) (bytes : List Byte) : Statement (.badFrame x bytes) := of_no_code rfl
theorem busy (x : Exchange) (code : Byte) : Statement (.busy x code) := of_no_frame rfl
theorem unknownCommand (x : Exchange) (code : Byte) (payload : List Byte) : Statement (.unknownCommand x code payload) :=
  of_eq rfl rfl
theorem evaluationEnd : Statement .evaluationEnd := of_no_code rfl
theorem enrolVerifierDone : Statement .enrolVerifierDone := of_no_code rfl
theorem storeWriteEnd (result : AttemptEnd) : Statement (.storeWriteEnd result) := of_no_code rfl
theorem tick (cellMillivolts : Nat) : Statement (.tick cellMillivolts) := of_no_code rfl
theorem fallback : Statement .fallback := of_no_code rfl
theorem crystalReturn : Statement .crystalReturn := of_no_code rfl
theorem crystalSilentAgain : Statement .crystalSilentAgain := of_no_code rfl
theorem entryTimerExpiry : Statement .entryTimerExpiry := of_no_code rfl
theorem penaltyExpiry : Statement .penaltyExpiry := of_no_code rfl
theorem idleExpiry : Statement .idleExpiry := of_no_code rfl
theorem attachExpiry : Statement .attachExpiry := of_no_code rfl
theorem deferExpiry : Statement .deferExpiry := of_no_code rfl
theorem configTimeout : Statement .configTimeout := of_no_code rfl
theorem linkTimerExpiry : Statement .linkTimerExpiry := of_no_code rfl
theorem orderTimerExpiry : Statement .orderTimerExpiry := of_no_code rfl
theorem sleepTimerExpiry : Statement .sleepTimerExpiry := of_no_code rfl
theorem caseChange (high : Bool) : Statement (.caseChange high) := of_no_code rfl
theorem caseDebounceExpiry : Statement .caseDebounceExpiry := of_no_code rfl
theorem cellSleepEntry : Statement .cellSleepEntry := of_no_code rfl
theorem wakeN (low : Bool) : Statement (.wakeN low) := of_no_code rfl
theorem busPowerArrival : Statement .busPowerArrival := of_no_code rfl
theorem busPowerLoss (cut : CutPoint) : Statement (.busPowerLoss cut) := of_no_code rfl
theorem powerOn (bus : Bool) : Statement (.powerOn bus) := of_no_code rfl
theorem powerLoss (cut : CutPoint) : Statement (.powerLoss cut) := of_no_code rfl
theorem resetN (cut : CutPoint) : Statement (.resetN cut) := of_no_code rfl
theorem resetNRelease : Statement .resetNRelease := of_no_code rfl

end Sys2Proof.Laws.FrameForm
end

