-- ==== Sys2Proof/Tests/Slice0.lean ====
section
/-! SUPPORT. Tests: ill-formed commands that `wellFormed` refuses, frames written out from 11.8 and 11.9, one or two
single steps per command, and for each statement of Sys2Proof/Certificates/Slice0/Obligations.lean a state that meets
its hypotheses. Expected results are those of the manual's rules, worked by hand. -/

namespace Sys2Proof.Tests

set_option Elab.async false

open Sys2Proof Sys2Proof.Machine

/-! ## Small states -/

/-- A whole exchange on the P-link. -/
def xp : Exchange := { link := .p, clocked := 300, wasRunning := false }

/-- A whole exchange on the B-link. -/
def xb : Exchange := { link := .b, clocked := 300, wasRunning := false }

/-- An ACTIVE slot record with a verifier. -/
def active (pin : List Digit) (mask : Option VolMask) : SlotRecord :=
  { state := .active, length := some pin.length, verifier := some { preimage := pin },
    mode := mask.map fun _ => .readWrite, mask := mask, uses := some 4 }

/-- A slot with its mark clear. -/
def clean (r : SlotRecord) : SlotCell := { record := r, fault := false, shadow := none }

/-- The administrator's PIN. -/
def pin0 : List Digit := [9, 8, 7, 6, 5, 4, 3]

/-- The PIN of user slot 1. -/
def pin1 : List Digit := [1, 2, 3, 4, 5, 6, 7]

/-- A PRESENT volume over the first granule. -/
def present : VolumeRecord :=
  { state := .present, first := some 0, count := some 2048, key := some 5, keyState := .live, kgen := 3,
    readOnly := some false, incomplete := some false }

/-- A drive on bus power with slots 0 and 1 ACTIVE, volume 0 PRESENT and the bridge ATTACHED, in an access state. -/
def drive (a : Access) (o : Option SlotIx) : State :=
  { State.reset with
    ctb := { slots := ((State.reset.ctb.slots.set 0 (clean (active pin0 none))).set 1
      (clean (active pin1 (some 1)))) }
    keu := Keu.init
    acc := { State.reset.acc with access := a, openSlot := o }
    kru := { State.reset.kru with volumes := State.reset.kru.volumes.set 0 present }
    liu := { Liu.init .attached with capacity := some 1000000 } }

/-- A drive whose slot 0 is open in CONFIG. -/
def config : State := drive .config (some 0)

/-- A drive whose slot 0 is open in UNLOCKED. -/
def admin : State := drive .unlocked (some 0)

/-- A drive whose slot 1 is open in UNLOCKED. -/
def user : State := drive .unlocked (some 1)

/-- A LOCKED drive. -/
def locked : State := drive .locked none

/-- Digits in hand. -/
def typed (pin : List Digit) (s : State) : State :=
  s.onKeu fun k => { k with digits := pin, bstate := .collecting }

/-- A command RUNNING on a link. -/
def runs (l : Link) (code : Byte) (s : State) : State :=
  s.onLiu fun u => u.onPort l fun p => { p with slot := .running .long code }

/-- An ENTER in flight on the P-link. -/
def flies (f : Flight) (pin : List Digit) (s : State) : State :=
  (runs .p 0x20 s).onKeu fun k => { k with digits := pin, bstate := .evaluating, flight := some f }

/-- A current write at its first attempt. -/
def writes (c : Contents) (p : Purpose) (s : State) : State :=
  s.onRsc fun r => { r with current := some { entry := { contents := c, purpose := p }, attempt := 1 } }

/-- A current write at its second attempt. -/
def rewrites (c : Contents) (p : Purpose) (s : State) : State :=
  s.onRsc fun r => { r with current := some { entry := { contents := c, purpose := p }, attempt := 2 } }

/-- F failures counted, with SERVED as given. -/
def failing (n : Nat) (served : Bool) (s : State) : State :=
  s.onAtl fun a => { a with limiter := { fails := n, served := served } }

/-- The state a command answers. -/
def after (c : Instr) (s : State) : State :=
  match exec c s with
  | .next t => t
  | .fault _ => s
  | .refused _ => s

/-- A link's command slot. -/
def slotOf (l : Link) (s : State) : CmdSlot := (s.liu.port l).slot

/-- The store's invariant, from what a decision procedure decides. -/
theorem storeOk_of {s : State}
    (h : (s.rsc.queue.map WriteEntry.id).Nodup ∧ (∀ w ∈ s.rsc.current.toList, w.attempt = 1 ∨ w.attempt = 2) ∧
      (s.rsc.current = none → s.rsc.queue = [])) : s.StoreOk :=
  ⟨h.1, fun w hw => h.2.1 w (by simp [hw]), h.2.2⟩

/-- The invariant of the answers to come, from what a decision procedure decides. -/
theorem waitOk_of {s : State}
    (h : s.waiters.Nodup ∧ (∀ l ∈ s.waiters, (s.liu.port l).slot.isRunning = true) ∧
      (∀ p ∈ s.rsc.purposes, p.ofFlight = true → ∃ f ∈ s.keu.flight.toList, f.awaits p = true) ∧
      (s.rsc.purposes.filter Purpose.ofFlight).length ≤ 1) : s.WaitOk :=
  ⟨h.1, h.2.1, fun p hp ho => by
    obtain ⟨f, hf, ha⟩ := h.2.2.1 p hp ho
    exact ⟨f, by simpa using hf, ha⟩, h.2.2.2⟩

/-- The invariant of the entry buffer with no dialogue, from what a decision procedure decides. -/
theorem keyOk_of {s : State}
    (h : s.keu.dialogue = none ∧ s.keu.digits.length ≤ Config.maxDigits ∧
      (s.keu.flight.isSome = true ↔ s.keu.bstate = .evaluating) ∧
      (s.keu.flight.isSome = true → s.keu.entryTimer = none) ∧
      (s.keu.flight = some .verifyFirst ∨ s.keu.flight = some .verifyConfirm →
        Config.minDigits ≤ s.keu.digits.length)) : s.KeyOk :=
  ⟨h.2.1, fun d hd => by simp [h.1] at hd, h.2.2.1, h.2.2.2.1, h.2.2.2.2⟩

/-- Every command answers its own state. -/
theorem exec_after {c : Instr} {s : State}
    (h : (match exec c s with | .next _ => true | .fault _ => false | .refused _ => false) = true) :
    exec c s = .next (after c s) := by
  unfold after
  cases hx : exec c s with
  | next t => rfl
  | fault f => rw [hx] at h; cases h
  | refused r => rw [hx] at h; cases h

/-! ## Well-formedness: one ill-formed command per check -/

theorem test_wf_refuses_long_payload : (Instr.poll xp (List.replicate 49 0)).wellFormed = false := by decide +kernel
theorem test_wf_takes_longest_payload : (Instr.poll xp (List.replicate 48 0)).wellFormed = true := by decide +kernel
theorem test_wf_refuses_short_exchange :
    (Instr.status { xp with clocked := 3 } (.ok ())).wellFormed = false := by decide +kernel
theorem test_wf_refuses_empty_as_malformed : (Instr.status xp (.malformed [])).wellFormed = false := by decide +kernel
theorem test_wf_refuses_one_byte_as_malformed : (Instr.barSlot xp (.malformed [7])).wellFormed = false := by decide +kernel
theorem test_wf_refuses_key_code_as_malformed : (Instr.keyDigit xp (.malformed [17])).wellFormed = false := by decide +kernel
theorem test_wf_takes_code_above_seventeen : (Instr.keyDigit xp (.malformed [18])).wellFormed = true := by decide +kernel
theorem test_wf_refuses_malformed_key_row : (Instr.keyEnter xp (.malformed [])).wellFormed = false := by decide +kernel
theorem test_wf_refuses_seventeen_fields :
    (Instr.setPolicy xp (.ok (List.replicate 17 (.pinMin, 7#16)))).wellFormed = false := by decide +kernel
theorem test_wf_refuses_fields_as_malformed :
    (Instr.setPolicy xp (.malformed [0, 0, 4])).wellFormed = false := by decide +kernel
theorem test_wf_refuses_entries_as_malformed : (Instr.setLockMap xp (.malformed [2, 3])).wellFormed = false := by
  decide +kernel
theorem test_wf_refuses_enrol_as_malformed : (Instr.enrolBegin xp (.malformed [1, 0, 1])).wellFormed = false := by
  decide +kernel
theorem test_wf_refuses_capacity_as_malformed :
    (Instr.attach xb (.malformed [0, 0, 0, 0])).wellFormed = false := by decide +kernel
theorem test_wf_refuses_reply_as_malformed : (Instr.lockReply xb (.malformed [1])).wellFormed = false := by decide +kernel
theorem test_wf_refuses_report_as_malformed :
    (Instr.workDone xb (.malformed [0, 1, 0])).wellFormed = false := by decide +kernel
theorem test_wf_refuses_definition_as_malformed :
    (Instr.defineVolume xb (.malformed [1, 0])).wellFormed = false := by decide +kernel
theorem test_wf_refuses_options_as_malformed :
    (Instr.writeOptions xb (.malformed [3, 1])).wellFormed = false := by decide +kernel
theorem test_wf_refuses_valid_frame_as_bad :
    (Instr.badFrame { xp with clocked := 4 } [0x5A, 0x01, 0x00, 0x15]).wellFormed = false := by decide +kernel
theorem test_wf_refuses_bad_frame_of_other_length :
    (Instr.badFrame { xp with clocked := 5 } [0x5A, 0x01, 0x00, 0x14]).wellFormed = false := by decide +kernel
theorem test_wf_refuses_busy_poll : (Instr.busy xp 0).wellFormed = false := by decide +kernel
theorem test_wf_refuses_busy_without_bytes : (Instr.busy { xp with clocked := 3 } 1).wellFormed = false := by decide +kernel
theorem test_wf_refuses_known_code_as_unknown : (Instr.unknownCommand xp 0x08 []).wellFormed = false := by decide +kernel
theorem test_wf_takes_unknown_code : (Instr.unknownCommand xp 0x10 []).wellFormed = true := by decide +kernel

/-! ## Frames written out from 11.8 and 11.9 -/

theorem test_frame_status : decodeRequest xp [0x5A, 0x01, 0x00, 0x15] = .status xp (.ok ()) := by decide +kernel
theorem test_frame_digit : decodeRequest xp [0x5A, 0x20, 0x01, 0x07, 0x43] = .keyDigit xp (.ok 7) := by decide +kernel
theorem test_frame_attach :
    decodeRequest xb [0x5A, 0x40, 0x04, 0x00, 0x00, 0x10, 0x00, 0xAE] = .attach xb (.ok 4096#32) := by decide +kernel
theorem test_frame_lock_reply : decodeRequest xb [0x5A, 0x45, 0x01, 0x01, 0x54] = .lockReply xb (.ok .hold) := by
  decide +kernel
theorem test_crc_check_value :
    crc8 [0x31, 0x32, 0x33, 0x34, 0x35, 0x36, 0x37, 0x38, 0x39] = 0xF4 := by decide +kernel
theorem test_frame_encodes : encodeRequest (.keyDigit xp (.ok 7)) = some [0x5A, 0x20, 0x01, 0x07, 0x43] := by decide +kernel
theorem test_frame_short_is_bad : decodeRequest xp [0x5A, 0x01, 0x00] = .badFrame xp [0x5A, 0x01, 0x00] := by decide +kernel
theorem test_frame_extra_byte_ignored :
    decodeRequest xp [0x5A, 0x01, 0x00, 0x15, 0xAA] = .status xp (.ok ()) := by decide +kernel

/-- RESET_N_RELEASE on the factory-new part gives exactly the state after reset. -/
theorem test_reset_is_release :
    exec .resetNRelease { State.reset with pins := { State.reset.pins with resetLow := true } } =
      .next State.reset := rfl

/-! ## Witnesses: the hypotheses of the statements meet on concrete states

`serves`, `slot`, `code` are the three conditions of `State.accepts`. -/

theorem takes_of {x : Exchange} {s : State} (h : s.serves x = true ∧ (s.liu.port x.link).slot.isRunning = false) :
    s.takes x := h

theorem accepts_of {x : Exchange} {code : Byte} {s : State}
    (h : (s.serves x = true ∧ (s.liu.port x.link).slot.isRunning = false) ∧ codeOnLink code x.link = true ∧
      (s.acc.access ≠ .halted ∨ isQuery code = true)) : s.accepts x code := h

theorem administers_of {l : Link} {s : State}
    (h : (l = .b → s.liu.bridge = .attached) ∧ s.acc.access = adminState l ∧ s.acc.openSlot = some 0) :
    s.administers l := h

/-- The gate is open and the drive LOCKED: DIGIT and ENTER are taken. -/
theorem gate_of {s : State} (h : s.acc.access = .locked ∧ s.gateOpen = true) : s.gatePasses ∧ s.entryOpen :=
  ⟨⟨by simp [h.1], by simp [h.1], h.2⟩, .inl h.1⟩

theorem test_witness_StepRunsFrontCommand :
    ({ locked with pending := [.evaluationEnd, .fallback] } : State).pending = .evaluationEnd :: [.fallback] := rfl

theorem test_witness_OnlyListedPartsChange :
    locked.StoreOk ∧ exec (.tick 3700) locked = .next (after (.tick 3700) locked) :=
  ⟨storeOk_of (by decide +kernel), exec_after (by decide +kernel)⟩

/-- An open drive, with a command waiting, meets the whole invariant and steps. -/
theorem test_witness_StepKeepsInv :
    (admin.Inv ∧ ({ admin with pending := [.fetchKey xb (.ok 0)] } : State).Inv) ∧
      step { admin with pending := [.fetchKey xb (.ok 0)] } = .next (after (.fetchKey xb (.ok 0)) admin) := by
  refine ⟨⟨⟨?_, ?_, ?_, ?_, ?_, ?_, ?_, ?_, ?_, ?_, ?_⟩, ⟨?_, ?_, ?_, ?_, ?_, ?_, ?_, ?_, ?_, ?_, ?_⟩⟩, ?_⟩
  case refine_23 => exact exec_after (c := .fetchKey xb (.ok 0)) (s := admin) (by decide +kernel)
  all_goals first
    | exact storeOk_of (by decide +kernel)
    | exact waitOk_of (by decide +kernel)
    | exact keyOk_of (by decide +kernel)
    | exact ⟨by decide +kernel, by decide +kernel, fun i r h => nomatch (h : Contents.slot i r ∈ [])⟩
    | exact (show ∀ v : VolIx, (admin.volume v).shaped = true by decide +kernel)
    | exact ⟨by decide +kernel, by decide +kernel, fun h => nomatch (h : false = true), by decide +kernel⟩
    | exact ⟨by decide +kernel, by decide +kernel, by decide +kernel, by decide +kernel,
        fun a h => nomatch (h : Contents.pset a ∈ [])⟩
    | (constructor <;> decide +kernel)

/-- The released key of volume 0 appears in the B-link's slot. -/
theorem test_witness_KeyLeavesOnlyByFetchKey :
    exec (.fetchKey xb (.ok 0)) user = .next (after (.fetchKey xb (.ok 0)) user) ∧
      slotOf .b (after (.fetchKey xb (.ok 0)) user) =
        .done (.ok 0x44 (.keyRelease { volume := 0, kgen := 3, mode := .readWrite, first := 0, count := 2048, key := 5 })) ∧
      slotOf .b user = .idle :=
  ⟨exec_after (by decide +kernel), by decide +kernel, by decide +kernel⟩

/-- The uses write of slot 1 is being carried out for an evaluation that matched it. -/
def granting : State :=
  flies (.uses 1) pin1 (writes (.slot 1 { active pin1 (some 1) with uses := some 5 }) (.uses 1) locked)

theorem test_witness_OpensOnlyFromLocked :
    exec (.storeWriteEnd .passed) granting = .next (after (.storeWriteEnd .passed) granting) ∧
      (after (.storeWriteEnd .passed) granting).acc.access = .unlocked ∧ granting.acc.access = .locked :=
  ⟨exec_after (by decide +kernel), by decide +kernel, rfl⟩

theorem test_witness_HaltedIsLeftOnlyByRestart :
    exec (.resetN .afterPass) (drive .halted none) = .next (after (.resetN .afterPass) (drive .halted none)) ∧
      (after (.resetN .afterPass) (drive .halted none)).acc.access ≠ .halted :=
  ⟨exec_after (by decide +kernel), by decide +kernel⟩

theorem test_witness_ScheduleStandsWhileFailing :
    exec (.keyDigit xp (.ok 0)) (failing 1 true locked) = .next (after (.keyDigit xp (.ok 0)) (failing 1 true locked)) ∧
      (failing 1 true locked).plu.policy.freeAttempts < (failing 1 true locked).plu.policy.wipeThreshold ∧
      (after (.keyDigit xp (.ok 0)) (failing 1 true locked)).atl.limiter.fails = 1 :=
  ⟨exec_after (by decide +kernel), by decide +kernel, by decide +kernel⟩

theorem test_witness_DecodeOfEncode :
    (Instr.attach xb (.ok 4096#32)).wellFormed = true ∧ (Instr.attach xb (.ok 4096#32)).exchange = some xb ∧
      encodeRequest (.attach xb (.ok 4096#32)) = some [0x5A, 0x40, 0x04, 0x00, 0x00, 0x10, 0x00, 0xAE] ∧
      (Instr.attach xb (.ok 4096#32)).code.isSome = true ∧
      (Instr.badFrame { xp with clocked := 1 } [0x5A]).wellFormed = true := by decide +kernel

theorem test_witness_UnservedExchangeHasNoEffect :
    locked.StoreOk ∧ ({ locked with ssv := { locked.ssv with mode := .cellSleep } } : State).serves xp = false ∧
      (locked.onLiu fun u => { u with bridge := .absent }).serves xb = false ∧
      locked.serves { xp with broken := some [0x00, 0xA1] } = false ∧
      (Instr.status xp (.ok ())).wellFormed = true ∧
      (Instr.keyEnter { xp with broken := some [0x00, 0xA1] } (.ok ())).wellFormed = true ∧
      (Instr.badFrame { xp with clocked := 0 } []).wellFormed = true :=
  ⟨storeOk_of (by decide +kernel), by decide +kernel, by decide +kernel, by decide +kernel, by decide +kernel,
    by decide +kernel, by decide +kernel⟩

theorem test_witness_RunningSlotTakesNoCommand :
    (runs .p 0x20 locked).serves xp = true ∧ ((runs .p 0x20 locked).liu.port .p).slot.isRunning = true ∧
      (Instr.busy xp 0x01).wellFormed = true ∧ (Instr.busy xp 0x01).code = some 0x01 ∧
      (Instr.listSlots xp (.ok ())).wellFormed = true :=
  ⟨by decide +kernel, by decide +kernel, by decide +kernel, rfl, by decide +kernel⟩

theorem test_witness_PollCollectsAWholeResult : locked.serves xp = true ∧ locked.serves xb = true :=
  ⟨by decide +kernel, by decide +kernel⟩

theorem test_witness_BadFrameIsDiscarded :
    locked.StoreOk ∧ locked.serves xp = true ∧ checkFrame [0x5A, 0x01, 0x00, 0x14] = none ∧ checkFrame [0x00] = none :=
  ⟨storeOk_of (by decide +kernel), by decide +kernel, by decide +kernel, by decide +kernel⟩

/-- One state and command for each check of R165. -/
theorem test_witness_TakenCommandIsChecked :
    locked.takes xp ∧ (drive .halted none).takes xp ∧ codeLinks 0x10 = none ∧ codeOnLink 0x40 .p = false ∧
      isQuery 0x08 = false ∧ (Instr.unknownCommand xp 0x10 []).wellFormed = true ∧
      (Instr.attach xp (.ok 1#32)).wellFormed = true ∧ (Instr.listSlots xp (.ok ())).wellFormed = true ∧
      (Instr.barSlot xp (.malformed [])).wellFormed = true ∧ (Instr.barSlot xp (.malformed [])).malformed = true :=
  ⟨takes_of (by decide +kernel), takes_of (by decide +kernel), by decide +kernel, by decide +kernel, by decide +kernel,
    by decide +kernel, by decide +kernel, by decide +kernel, by decide +kernel, by decide +kernel⟩

theorem test_witness_StatusReportsTheOwners : locked.takes xp ∧ locked.takes xb ∧ (drive .halted none).takes xp :=
  ⟨takes_of (by decide +kernel), takes_of (by decide +kernel), takes_of (by decide +kernel)⟩

theorem test_witness_GetEventTakesTheHighest : State.reset.takes xp ∧ State.reset.takes xb :=
  ⟨takes_of (by decide +kernel), takes_of (by decide +kernel)⟩

/-- The panel's administrator in CONFIG and the bridge's in UNLOCKED. -/
theorem test_witness_administration :
    (config.administers .p ∧ ∀ code ∈ [0x08#8, 0x09#8, 0x0A#8, 0x0B#8, 0x0C#8, 0x0D#8, 0x0E#8, 0x0F#8],
      config.accepts xp code) ∧
    (admin.administers .b ∧ ∀ code ∈ [0x08#8, 0x09#8, 0x0A#8, 0x0B#8, 0x0C#8, 0x0D#8, 0x0E#8, 0x0F#8, 0x49#8],
      admin.accepts xb code) :=
  ⟨⟨administers_of (by decide +kernel), by simp only [State.accepts, State.takes]; decide +kernel⟩,
    administers_of (by decide +kernel), by simp only [State.accepts, State.takes]; decide +kernel⟩

/-- A state for each reason: NOT_ATTACHED, WIPING, NOT_NOW, NO_AUTHORITY. -/
theorem test_witness_AdministrationNeedsAuthority :
    (∀ s ∈ [admin.onLiu fun u => { u with bridge := .present }, drive .wiping none, locked, drive .config (some 9)],
      s.accepts xp 0x08 ∧ s.accepts xb 0x08) ∧
    ¬ (admin.onLiu fun u => { u with bridge := .present }).administers .b ∧ ¬ (drive .wiping none).administers .p ∧
    ¬ locked.administers .p ∧ ¬ (drive .config (some 9)).administers .p ∧
    (Instr.listSlots xp (.ok ())).wellFormed = true ∧ (Instr.listSlots xb (.ok ())).wellFormed = true := by
  simp only [State.accepts, State.takes, State.administers]; decide +kernel

/-- A BAR_SLOT of slot 1 is being written, at its first and at its second attempt. -/
def barring : State := runs .p 0x09 (writes (.slot 1 (active pin1 (some 1))) (.admin (some .p)) config)

theorem test_witness_AdminSlotWriteEnds :
    barring.rsc.current = some { entry := { contents := .slot 1 (active pin1 (some 1)), purpose := .admin (some .p) },
                                 attempt := 1 } ∧
      (barring.liu.port .p).slot = .running .long 0x09 ∧
      (rewrites (.slot 1 (active pin1 (some 1))) (.admin (some .p)) barring).rsc.current =
        some { entry := { contents := .slot 1 (active pin1 (some 1)), purpose := .admin (some .p) }, attempt := 2 } :=
  ⟨rfl, rfl, rfl⟩

theorem test_witness_WipeCommandStartsAWipe : config.WaitOk ∧ admin.WaitOk :=
  ⟨waitOk_of (by decide +kernel), waitOk_of (by decide +kernel)⟩

theorem test_witness_WriteOptionsQueuesTheRecord : locked.accepts xb 0x4A ∧ (drive .blank none).accepts xb 0x4A :=
  ⟨accepts_of (by decide +kernel), accepts_of (by decide +kernel)⟩

/-- A WRITE_OPTIONS of a switch that opens low is being written. -/
def optioning : State :=
  runs .b 0x4A (writes (.option { Options.default with caseOpenHigh := false }) (.options (some .b)) (drive .blank none))

theorem test_witness_WriteOptionsQueuesTheRecord_writing :
    optioning.rsc.current = some { entry := { contents := .option { Options.default with caseOpenHigh := false },
                                              purpose := .options (some .b) }, attempt := 1 } ∧
      optioning.liu.b.slot = .running .long 0x4A ∧
      (rewrites (.option Options.default) (.options (some .b)) optioning).rsc.current =
        some { entry := { contents := .option Options.default, purpose := .options (some .b) }, attempt := 2 } :=
  ⟨rfl, rfl, rfl⟩

/-- A penalty with its timer running. -/
def penalized : State := (drive .penalty none).onAtl fun a => { a with penalty := some 40 }

/-- A LOCKED drive with CASE_OPEN active. -/
def caseOpened : State := locked.onAcc fun c => { c with caseOpen := true }

/-- A LOCKED drive on a cell at level CRIT. -/
def critCell : State :=
  { locked with ssv := { locked.ssv with mode := .cellAwake, level := .crit }, liu := Liu.init .absent }

/-- A state for each reason of R24, with a key that meets it. -/
theorem test_witness_EntryKeysMeetTheGate :
    (∀ s ∈ [drive .wiping none, penalized, critCell, caseOpened, user], s.accepts xp 0x20) ∧
    ¬ (drive .wiping none).gatePasses ∧ ¬ penalized.gatePasses ∧ ¬ critCell.gatePasses ∧ ¬ caseOpened.gatePasses ∧
    (user.gatePasses ∧ ¬ user.entryOpen) := by
  simp only [State.accepts, State.takes, State.gatePasses, State.entryOpen]; decide +kernel

theorem test_witness_BufferKeysEditTheBuffer :
    locked.accepts xp 0x20 ∧ (locked.gatePasses ∧ locked.entryOpen) ∧ locked.keu.bstate ≠ .evaluating ∧
      locked.acc.access = .locked :=
  ⟨accepts_of (by decide +kernel), gate_of (by decide +kernel), by decide, rfl⟩

/-- An entry of each form: no digits, OVERLONG, five digits. -/
theorem test_witness_EnterChecksItsForm :
    locked.accepts xp 0x20 ∧ (locked.gatePasses ∧ locked.entryOpen) ∧ locked.keu.digits = [] ∧
      (locked.onKeu fun k => { k with overlong := true }).keu.overlong = true ∧
      (typed [1, 2, 3, 4, 5] locked).keu.digits.length < 6 :=
  ⟨accepts_of (by decide +kernel), gate_of (by decide +kernel), rfl, rfl, by decide⟩

/-- A LOCKED drive with the digits of slot 1 typed. -/
def typing : State := typed pin1 locked

/-- A BLANK drive in its automatic dialogue, with digits typed. -/
def enrolling : State := typed pin1 State.reset

/-- An attempt and a first entry, each with digits whose form passes. -/
theorem test_witness_EnterHandsTheEntryOn :
    (typing.WaitOk ∧ typing.accepts xp 0x20 ∧ (typing.gatePasses ∧ typing.entryOpen) ∧ typing.keu.overlong = false ∧
      6 ≤ typing.keu.digits.length ∧ typing.keu.dialogue = none) ∧
    (enrolling.WaitOk ∧ enrolling.accepts xp 0x20 ∧ (enrolling.gatePasses ∧ enrolling.entryOpen) ∧
      enrolling.keu.overlong = false ∧ 6 ≤ enrolling.keu.digits.length ∧ enrolling.keu.dialogue.isSome = true) := by
  refine ⟨⟨waitOk_of (by decide +kernel), accepts_of (by decide +kernel), gate_of (by decide +kernel), rfl,
    by decide, rfl⟩, waitOk_of (by decide +kernel), accepts_of (by decide +kernel), ?_, rfl, by decide, rfl⟩
  simp only [State.gatePasses, State.entryOpen]; decide +kernel

theorem test_witness_LockKeyLocksInOrder :
    user.StoreOk ∧ (∀ s ∈ [user, config, locked, user.onLiu fun u => { u with bridge := .lost }], s.accepts xp 0x20) :=
  ⟨storeOk_of (by decide +kernel), by simp only [State.accepts, State.takes]; decide +kernel⟩

/-- A user's CHANGE dialogue under way. -/
def changing : State :=
  user.onKeu fun k => { k with intent := .enrolFirst,
                               dialogue := some { kind := .change, target := 1, mode := none, mask := none,
                                                  step := .first, candidate := none } }

theorem test_witness_ChangeAndExitBeginAndEndADialogue :
    (user.accepts xp 0x20 ∧ user.gatePasses ∧ user.acc.access = .unlocked ∧ user.keu.dialogue = none ∧
      user.acc.openSlot = some 1) ∧ (changing.accepts xp 0x20 ∧ changing.keu.inChange = true) ∧ config.accepts xp 0x20 := by
  simp only [State.accepts, State.takes, State.gatePasses]; decide +kernel

theorem test_witness_EnrolBeginBeginsADialogue :
    ∀ s ∈ [config, locked, drive .wiping none, drive .config (some 9)], s.accepts xp 0x21 := by
  simp only [State.accepts, State.takes]; decide +kernel

/-- A lock offered to the bridge, with one deferral left. -/
def locking : State :=
  (drive .locking (some 1)).onAcc fun c =>
    { c with lockCause := some .panelLock, deferrals := some 1, deferTimer := some 16 }

theorem test_witness_AttachTakesTheBridge :
    (locked.WaitOk ∧ locked.accepts xb 0x40) ∧ (user.WaitOk ∧ user.accepts xb 0x40) ∧
      (locking.WaitOk ∧ locking.accepts xb 0x40) :=
  ⟨⟨waitOk_of (by decide +kernel), accepts_of (by decide +kernel)⟩,
    ⟨waitOk_of (by decide +kernel), accepts_of (by decide +kernel)⟩,
    waitOk_of (by decide +kernel), accepts_of (by decide +kernel)⟩

theorem test_witness_DetachLockAndActivity :
    ∀ s ∈ [user, locked, config, user.onLiu fun u => { u with bridge := .lost },
        user.onLiu fun u => { u with bridge := .present }],
      s.accepts xb 0x41 ∧ s.accepts xb 0x42 ∧ s.accepts xb 0x43 := by
  simp only [State.accepts, State.takes]; decide +kernel

theorem test_witness_FetchKeyReleasesTheKey :
    ∀ s ∈ [user, locked, drive .wiping none, user.onLiu fun u => { u with bridge := .present },
        user.onLiu fun u => { u with capacity := some 2047 }], s.accepts xb 0x44 := by
  simp only [State.accepts, State.takes]; decide +kernel

theorem test_witness_LockReplyReadyOrHold :
    locking.accepts xb 0x45 ∧ user.accepts xb 0x45 ∧
      (locking.onAcc fun c => { c with deferrals := some 0 }).accepts xb 0x45 :=
  ⟨accepts_of (by decide +kernel), accepts_of (by decide +kernel), accepts_of (by decide +kernel)⟩

/-- A wipe in MEDIA with one volume's cursor and an order READY for its only granule. -/
def erasing : State :=
  (drive .wiping none).onWpe fun _ =>
    { Wpe.init with
      journal := some { cause := .panelAdmin, depth := .keysAndMedia, keepAdmin := false, step := .media,
                        cursors := [{ volume := 0, first := 0, count := 2048, next := 0, failed := 0, target := 4 }] }
      position := .media
      order := some { number := none, first := 0, count := 2048 } }

/-- The same with the order ISSUED under number 1 on its attempt `n`. -/
def issued (n : Nat) : State :=
  erasing.onWpe fun w => { w with counter := 1, order := some { number := some 1, first := 0, count := 2048 },
                                  attempt := n, orderTimer := some 480 }

theorem test_witness_WorkIsFetchedAndDone :
    (erasing.accepts xb 0x46 ∧ erasing.wpe.order.isSome = true) ∧
      ((issued 2).accepts xb 0x47 ∧ (issued 3).accepts xb 0x47) ∧
      (∃ w c, (issued 3).wpe.journal = some w ∧ w.cursors.find? (fun d => d.next ≠ d.first + d.count) = some c) :=
  ⟨⟨accepts_of (by decide +kernel), rfl⟩, ⟨accepts_of (by decide +kernel), accepts_of (by decide +kernel)⟩,
    _, _, rfl, rfl⟩

/-- A journal record in MEDIA with one cursor that has erased nothing of its 2,048 blocks. -/
def mediaRecord (first : Nat) : WipeRecord :=
  { cause := .panelAdmin, depth := .keysAndMedia, keepAdmin := false, step := .media,
    cursors := [{ volume := 0, first := first, count := 2048, next := first, failed := 0, target := 4 }] }

/-- The journal write that leaves the wipe in MEDIA is being carried out. -/
def forming (which : JournalWrite) (first : Nat) : State :=
  writes (.journal (some (mediaRecord first))) (.journal which) (erasing.onWpe fun w => { w with order := none })

/-- A cursor within the capacity, one that ends beyond it, and one that begins at it. -/
theorem test_witness_WorkIsFetchedAndDone_forming :
    ∀ first ∈ [0, 999424, 1000000], (forming .boundary first).rsc.queue = [] ∧ (forming .boundary first).acc.access = .wiping ∧
      (forming .boundary first).corePowered = true ∧ (forming .boundary first).ssv.level ≠ .crit ∧
      (forming .boundary first).liu.bridge = .attached ∧ (forming .boundary first).liu.capacity = some 1000000 ∧
      (forming .boundary first).wpe.order = none ∧ (mediaRecord first).step = .media ∧
      ((mediaRecord first).cursors.find? fun d => d.next ≠ d.first + d.count).isSome = true := by decide +kernel

theorem test_witness_DefineVolumeStagesARange :
    ∀ s ∈ [admin, user, locked, drive .wiping none, admin.onLiu fun u => { u with bridge := .present }],
      s.accepts xb 0x48 := by
  simp only [State.accepts, State.takes]; decide +kernel

/-- A pre-count of a third failure, at an attempt. -/
def counting : State := flies .preCount pin1 (writes (.limiter { fails := 3, served := false }) .preCount locked)

theorem test_witness_PreCountComesFirst :
    counting.WaitOk ∧ counting.StoreOk ∧
      counting.rsc.current = some { entry := { contents := .limiter { fails := 3, served := false },
                                               purpose := .preCount }, attempt := 1 } ∧
      counting.keu.flight = some .preCount ∧ counting.liu.p.slot = .running .long 0x20 ∧
      counting.acc.access = .locked :=
  ⟨waitOk_of (by decide +kernel), storeOk_of (by decide +kernel), rfl, rfl, rfl, rfl⟩

/-- The same at the second attempt of the write. -/
def recounting : State := rewrites (.limiter { fails := 3, served := false }) .preCount counting

theorem test_witness_PreCountComesFirst_failing :
    recounting.WaitOk ∧ recounting.StoreOk ∧
      recounting.rsc.current = some { entry := { contents := .limiter { fails := 3, served := false },
                                                 purpose := .preCount }, attempt := 2 } :=
  ⟨waitOk_of (by decide +kernel), storeOk_of (by decide +kernel), rfl⟩

/-- An evaluation with its answer held. -/
def judging (a : Option SlotIx) (n : Nat) : State := flies (.judging a) pin1 (failing n false locked)

/-- A match, and no match at F 3 (no penalty), 4 (a penalty) and 10 (the threshold). -/
theorem test_witness_EvaluationEndJudges :
    (∀ s ∈ [judging (some 1) 1, judging (some 9) 1, judging none 3, judging none 4, judging none 10],
      s.waiters = [.p] ∧ s.rsc = Rsc.init ∧ s.liu.p.slot = .running .long 0x20 ∧ s.acc.access = .locked ∧
        s.acc.heldWipe = false ∧ s.corePowered = true) ∧
    (judging none 4).WaitOk ∧ (judging none 4).StoreOk :=
  ⟨by decide +kernel, waitOk_of (by decide +kernel), storeOk_of (by decide +kernel)⟩

/-- The grant with the gate open, with a wipe held, and with the gate shut meanwhile by a condition of action ORDERLY or
FORCED and by a cell at CRIT. -/
theorem test_witness_SuccessOpensTheDrive :
    granting.WaitOk ∧ ∀ s ∈ [granting, granting.onAcc fun c => { c with heldWipe := true },
        { granting with acc := { granting.acc with caseOpen := true },
                        plu := { granting.plu with map := { granting.plu.map with caseOpen := .orderly } } },
        { granting with acc := { granting.acc with caseOpen := true },
                        plu := { granting.plu with map := { granting.plu.map with caseOpen := .forced } } },
        { granting with ssv := { granting.ssv with mode := .cellAwake, level := .crit }, liu :=
          { granting.liu with bridge := .absent, capacity := none } }],
      s.rsc.current = some { entry := { contents := .slot 1 { active pin1 (some 1) with uses := some 5 },
                                        purpose := .uses 1 }, attempt := 1 } ∧
      s.keu.flight = some (.uses 1) ∧ s.liu.p.slot = .running .long 0x20 ∧ s.acc.access = .locked ∧
      s.corePowered = true ∧ (s.gateOpen = true → s = granting ∨ s.acc.heldWipe = true) :=
  ⟨waitOk_of (by decide +kernel), by decide +kernel⟩

/-- The refund after a match is being written for a flight. -/
def refunding (f : Flight) : State := flies f pin1 (writes (.limiter { fails := 0, served := true }) .refund locked)

/-- The same with the count of slot 1 at its highest value. -/
def saturated : State :=
  { refunding (.refund 1) with
    ctb := { slots := locked.ctb.slots.set 1 (clean { active pin1 (some 1) with uses := some 65535 }) } }

/-- The spend of the recovery slot is being written. -/
def spending : State := flies .spend pin1 (writes (.slot 9 { SlotRecord.empty with state := .spent }) .spend locked)

/-- The refund of slot 1 with its count at 4 and at 65,535, and the refund after a spend. -/
theorem test_witness_RefundComesBeforeTheGrant :
    ((refunding (.refund 1)).WaitOk ∧ (refunding (.refund 1)).StoreOk ∧ saturated.WaitOk ∧ saturated.StoreOk ∧
      (refunding .recoveryRefund).WaitOk ∧ (refunding .recoveryRefund).StoreOk) ∧
    (∀ s ∈ [refunding (.refund 1), saturated, refunding .recoveryRefund],
      s.rsc.current = some { entry := { contents := .limiter { fails := 0, served := true },
                                        purpose := .refund }, attempt := 1 } ∧
      s.liu.p.slot = .running .long 0x20 ∧ s.acc.access = .locked ∧ s.acc.heldWipe = false ∧ s.gateOpen = true ∧
      s.corePowered = true) ∧
    ((refunding (.refund 1)).slotRec 1).uses = some 4 ∧ (saturated.slotRec 1).uses = some 65535 :=
  ⟨⟨waitOk_of (by decide +kernel), storeOk_of (by decide +kernel), waitOk_of (by decide +kernel),
    storeOk_of (by decide +kernel), waitOk_of (by decide +kernel), storeOk_of (by decide +kernel)⟩,
    by decide +kernel, rfl, rfl⟩

theorem test_witness_RefundComesBeforeTheGrant_spending :
    spending.WaitOk ∧ spending.StoreOk ∧ spending.keu.flight = some .spend ∧
      spending.rsc.current = some { entry := { contents := .slot 9 { SlotRecord.empty with state := .spent },
                                               purpose := .spend }, attempt := 1 } ∧
      spending.liu.p.slot = .running .long 0x20 ∧ spending.acc.access = .locked ∧ spending.corePowered = true :=
  ⟨waitOk_of (by decide +kernel), storeOk_of (by decide +kernel), rfl, rfl, rfl, rfl, by decide +kernel⟩

/-- An enrolment of slot 2 at step CONFIRM with its candidate. -/
def confirming : Dialogue :=
  { kind := .enrol, target := 2, mode := some .readWrite, mask := some 1, step := .confirm,
    candidate := some ⟨7, ⟨[5, 5, 5, 5, 5, 5, 5]⟩⟩ }

/-- A dialogue whose entry is in flight. -/
def dialling (d : Dialogue) (f : Flight) (s : State) : State :=
  (flies f [5, 5, 5, 5, 5, 5, 5] s).onKeu fun k => { k with intent := .enrolConfirm, dialogue := some d }

/-- The verifier of an enrolment of slot 2 is being computed: of the first entry, with no candidate held, or of the
confirming one. -/
def verifying (f : Flight) : State :=
  dialling (if f = .verifyFirst then { confirming with step := .first, candidate := none } else confirming) f config

theorem test_witness_VerifierDoneTakesTheEntry :
    (verifying .verifyFirst).WaitOk ∧ (verifying .verifyConfirm).WaitOk ∧ (verifying .verifyConfirm).StoreOk ∧
      (verifying .verifyFirst).StoreOk ∧ (verifying .verifyConfirm).liu.p.slot = .running .long 0x20 ∧
      (verifying .verifyFirst).keu.dialogue = some { confirming with step := .first, candidate := none } ∧
      (verifying .verifyConfirm).keu.dialogue = some confirming ∧ confirming.candidate.isSome = true ∧
      (verifying .verifyFirst).keu.flight = some .verifyFirst ∧
      (verifying .verifyConfirm).keu.flight = some .verifyConfirm :=
  ⟨waitOk_of (by decide +kernel), waitOk_of (by decide +kernel), storeOk_of (by decide +kernel),
    storeOk_of (by decide +kernel), rfl, rfl, rfl, rfl, rfl, rfl⟩

/-- An enrolment write: of slot 2 in CONFIG, and of the automatic dialogue of slot 0 in BLANK. -/
def enrolled (d : Dialogue) (s : State) : State :=
  writes (.slot d.target (active [5, 5, 5, 5, 5, 5, 5] d.mask)) (.enrol d.target) (dialling d .enrolWrite s)

theorem test_witness_VerifierDoneTakesTheEntry_writing :
    ∀ s ∈ [enrolled confirming config,
        enrolled { confirming with kind := .automatic, target := 0, mode := none, mask := none } (drive .blank none)],
      (s.waiters = [.p] ∧ s.rsc.queue = [] ∧ s.rsc.purposes.length = 1) ∧ s.liu.p.slot = .running .long 0x20 ∧
      s.keu.flight = some .enrolWrite ∧
      s.rsc.current.map (fun w => w.entry.purpose) = s.keu.dialogue.map fun d => .enrol d.target := by decide +kernel

theorem test_witness_ACutLeavesOldNewOrDamaged :
    counting.pins.resetLow = false ∧ counting.ssv.mode ≠ .off ∧ counting.rsc.current.isSome = true ∧
      ({ written := true, body := .valid SlotRecord.empty } : Location SlotRecord).written = true ∧
      Store.factoryNew.limiter.body = .erased := by decide +kernel

/-- Three samples of a candidate counted, the fourth to be adopted. -/
def sampling (l : CellLevel) (s : State) : State :=
  s.onSsv fun v => { v with filterCount := 3, filterDir := some .falling, nearest := some l }

/-- A tick that samples, and fourth samples: LOW in BUS, and CRIT in CELL_AWAKE during a wipe. -/
theorem test_witness_TickCountsAndSamples :
    (locked.StoreOk ∧ locked.SupplyOk ∧ locked.powered = true ∧ locked.plu.inForce.cellFitted = true) ∧
    (∀ s ∈ [sampling .low locked,
        sampling .crit { erasing with ssv := { erasing.ssv with mode := .cellAwake }, liu := Liu.init .absent }],
      s.corePowered = true ∧ s.plu.inForce.cellFitted = true ∧ s.ssv.level = .good ∧ s.plu.policy.cellFilter = 4 ∧
      (s.ssv.filter (candidate s.ssv.level (3400 + 50 * s.plu.policy.cellLowLevel) 3000)).filterCount = 4) ∧
    (sampling .low locked).SupplyOk ∧ (sampling .low locked).StoreOk :=
  ⟨⟨storeOk_of (by decide +kernel), by constructor <;> decide +kernel, by decide +kernel, rfl⟩, by decide +kernel,
    by constructor <;> decide +kernel, storeOk_of (by decide +kernel)⟩

/-- A wipe in a step, PAUSED on a cell at CRIT with three rising samples of LOW counted, in a supply mode. -/
def paused (m : SupplyMode) (step : WipeStep) (pos : Position) : State :=
  { erasing with
    wpe := { erasing.wpe with journal := some { mediaRecord 0 with step := step }, position := pos, run := .paused,
                              order := none }
    ssv := { erasing.ssv with mode := m, level := .crit, filterCount := 3, filterDir := some .rising,
                              nearest := some .low, samplePhase := 7 }
    pins := { erasing.pins with busdet := false }
    liu := Liu.init .absent }

/-- A sample that ends the pause: of a wipe in KEYS and one in MEDIA, awake and asleep. -/
theorem test_witness_TickCountsAndSamples_pause :
    ∀ m ∈ [SupplyMode.cellAwake, .cellSleep], ∀ a ∈ [(WipeStep.keys, Position.keys 5 1 false), (.media, .media)],
      (let s := paused m a.1 a.2
       s.StoreOk ∧ s.SupplyOk ∧ s.LinkOk ∧ s.powered = true ∧ s.plu.inForce.cellFitted = true ∧
         s.plu.policy.cellFilter = 4 ∧
         (s.ssv.filter (candidate s.ssv.level (3400 + 50 * s.plu.policy.cellLowLevel) 3460)).filterCount = 4 ∧
         (s.ssv.filter (candidate s.ssv.level (3400 + 50 * s.plu.policy.cellLowLevel) 3460)).nearest = some .low ∧
         s.acc.access = .wiping ∧ s.wpe.run = .paused ∧ s.wpe.journal.isSome = true ∧
         (∀ p ∈ s.rsc.purposes, p.isWipe = false)) := by
  intro m hm a ha
  simp only [List.mem_cons, List.not_mem_nil, or_false] at hm ha
  rcases hm with rfl | rfl <;> rcases ha with rfl | rfl <;>
    exact ⟨storeOk_of (by decide +kernel), by constructor <;> decide +kernel, by constructor <;> decide +kernel,
      by decide +kernel⟩

/-- A drive in FALLBACK. -/
def fallen : State :=
  { locked with tbu := { locked.tbu with state := .fallback, run := some 0 }, acc := { locked.acc with clockFault := true } }

theorem test_witness_TimebaseFallsBackAndReturns :
    (locked.powered = true ∧ locked.StoreOk ∧ locked.tbu.state = .crystal) ∧
      (fallen.powered = true ∧ fallen.StoreOk ∧ fallen.tbu.state = .fallback) :=
  ⟨⟨by decide +kernel, storeOk_of (by decide +kernel), rfl⟩, by decide +kernel, storeOk_of (by decide +kernel), rfl⟩

/-- CLOCK_FAULT of each action in the states it locks: an open drive with an attached bridge and without, and CONFIG. -/
theorem test_witness_TimebaseFallsBackAndReturns_locking :
    ∀ a ∈ [LockAction.none, .orderly, .forced], ∀ s ∈ [user, user.onLiu fun u => { u with bridge := .lost }, config],
      (let u := s.onPlu fun p => { p with map := { p.map with clockFault := a } }
       u.powered = true ∧ u.tbu.state = .crystal ∧ u.corePowered = true ∧ u.plu.map.clockFault = a ∧
         (u.rsc.queue.map WriteEntry.id).Nodup) := by decide +kernel

/-- A penalty whose timer has run out, and the served write that follows it. -/
theorem test_witness_PenaltyIsServed :
    (penalized.onAtl fun a => { a with penalty := some 0 }).atl.penalty = some 0 ∧ penalized.acc.access = .penalty ∧
      penalized.corePowered = true ∧
      (writes (.limiter { fails := 4, served := true }) .served penalized).rsc.current =
        some { entry := { contents := .limiter { fails := 4, served := true }, purpose := .served }, attempt := 1 } :=
  ⟨rfl, rfl, by decide +kernel, rfl⟩

/-- A count of 0 in one timer after another. -/
theorem test_witness_TimersExpire :
    user.StoreOk ∧ user.corePowered = true ∧ user.acc.access = .unlocked ∧
      (user.onAcc fun c => { c with idleTimer := some 0 }).acc.idleTimer = some 0 ∧
      (user.onAcc fun c => { c with attachTimer := some 0 }).acc.attachTimer = some 0 ∧
      (locking.onAcc fun c => { c with deferTimer := some 0 }).acc.deferTimer = some 0 ∧
      locking.acc.access = .locking ∧ (config.onAcc fun c => { c with configTimer := some 0 }).acc.configTimer = some 0 ∧
      config.acc.access = .config ∧ (typing.onKeu fun k => { k with entryTimer := some 0 }).keu.entryTimer = some 0 ∧
      (critCell.onSsv fun v => { v with sleepTimer := some 0 }).ssv.sleepTimer = some 0 :=
  ⟨storeOk_of (by decide +kernel), by decide +kernel, rfl, rfl, rfl, rfl, rfl, rfl, rfl, rfl, rfl⟩

theorem test_witness_LinkAndOrderTimersExpire :
    ((user.onLiu fun u => { u with linkTimer := some 0 }).liu.linkTimer = some 0 ∧ user.corePowered = true ∧
      user.plu.map.bridgeLost = .forced) ∧
    (∃ o w c, ((issued 3).onWpe fun w => { w with orderTimer := some 0 }).wpe.order = some o ∧
      (issued 3).wpe.journal = some w ∧ w.cursors.find? (fun d => d.next ≠ d.first + d.count) = some c) :=
  ⟨⟨rfl, by decide +kernel, rfl⟩, _, _, _, rfl, rfl, rfl⟩

/-- A case switch whose debounce timer has run out with the enclosure open. -/
def opening (a : LockAction) (s : State) : State :=
  { s with pins := { s.pins with caseHigh := true }, ssv := { s.ssv with caseTimer := some 0 },
           plu := { s.plu with inForce := { Options.default with caseFitted := true },
                               map := { s.plu.map with caseOpen := a } } }

/-- The same with the enclosure closed again after an opening. -/
def closingCase (s : State) : State :=
  { opening .wipe s with pins := { s.pins with caseHigh := false }, acc := { s.acc with caseOpen := true },
                         ssv := { s.ssv with caseTimer := some 0, caseIsOpen := true } }

/-- An opening of each action in a state where it acts, a held and an ignored one, an opening and a closing in
CELL_SLEEP, and a closing in LOCKED. -/
theorem test_witness_CaseIsDebounced :
    (locked.StoreOk ∧ (opening .wipe locked).StoreOk) ∧
    (∀ s ∈ [opening .none user, opening .orderly user, opening .forced config, opening .wipe locked, opening .wipe granting,
        opening .wipe erasing, opening .wipe (critCell.onSsv fun v => { v with mode := .cellSleep })],
      s.ssv.caseTimer = some 0 ∧ s.powered = true ∧ s.caseInputOpen = true ∧ s.ssv.caseIsOpen = false) ∧
    (∀ s ∈ [closingCase locked, closingCase (critCell.onSsv fun v => { v with mode := .cellSleep })],
      s.ssv.caseTimer = some 0 ∧ s.powered = true ∧ s.caseInputOpen = false ∧ s.ssv.caseIsOpen = true) ∧
    granting.entryInFlight = true ∧
    (critCell.onSsv fun v => { v with mode := .cellSleep }).ssv.mode = .cellSleep :=
  ⟨⟨storeOk_of (by decide +kernel), storeOk_of (by decide +kernel)⟩, by decide +kernel, by decide +kernel,
    by decide +kernel, rfl⟩

/-- A part ready to sleep: on a good cell, idle, with the sleep-due mark set. -/
def sleepy : State :=
  { critCell with ssv := { critCell.ssv with level := .good, sleepDue := true } }

/-- A wipe asleep, at CRIT and above it, and one paused awake: the wake and the arrival of bus power meet them. -/
theorem test_witness_SleepKeepsTheRetainDomain_wiping :
    ∀ l ∈ [CellLevel.crit, .good], ∀ m ∈ [SupplyMode.cellAwake, .cellSleep],
      (let s := (paused m .keys (.keys 5 1 false)).onSsv fun v => { v with level := l }
       s.SupplyOk ∧ s.pins.resetLow = false ∧ s.pins.busdet = false ∧ s.ssv.mode = m ∧ s.acc.access = .wiping ∧
         s.wpe.journal.isSome = true ∧ s.wpe.run = .paused ∧ (∀ p ∈ s.rsc.purposes, p.isWipe = false)) := by
  intro l hl m hm
  simp only [List.mem_cons, List.not_mem_nil, or_false] at hm hl
  rcases hl with rfl | rfl <;> rcases hm with rfl | rfl <;>
    exact ⟨by constructor <;> decide +kernel, by decide +kernel⟩

theorem test_witness_SleepKeepsTheRetainDomain :
    sleepy.SupplyOk ∧ sleepy.pins.resetLow = false ∧ sleepy.sleepConditions = true ∧ sleepy.pins.wakeLow = false :=
  ⟨by constructor <;> decide +kernel, rfl, by decide +kernel, rfl⟩

theorem test_witness_BusPowerComesAndGoes :
    (sleepy.pins.resetLow = false ∧ ({ sleepy with pins := { sleepy.pins with busdet := false } } : State).pins.busdet = false ∧
      sleepy.ssv.mode = .cellAwake) ∧ (user.pins.busdet = true ∧ user.ssv.mode = .bus) :=
  ⟨⟨rfl, rfl, rfl⟩, rfl, rfl⟩

/-- A start during which the crystal stops, and the enclosure is opened and debounced. -/
def disturbedStart : StartEvents :=
  { beforeLoad := [.fallback], afterLoad := [.caseChange true, .tick 4000, .tick 4000, .caseDebounced] }

/-- A state for each of the three rows, and a start that leaves the part in FALLBACK. -/
theorem test_witness_StartUpDerivesTheAccessState :
    (({ State.reset with ssv := Ssv.init .off } : State).ssv.mode = .off ∧ State.reset.pins.resetLow = false ∧
      ({ State.reset with ssv := Ssv.init .off, pins := { State.reset.pins with busdet := false } } : State).pins.busdet =
        false) ∧
    (({ State.reset with pins := { State.reset.pins with resetLow := true } } : State).pins.resetLow = true ∧
      State.reset.ssv.mode ≠ .off ∧ State.reset.pins.busdet = true) ∧
    (loadOptions State.reset.store.option).1.cellFitted = true ∧
    (after (.powerOn true) { State.reset with ssv := Ssv.init .off, starts := [disturbedStart] }).ssv.mode = .bus ∧
    (after (.powerOn true) { State.reset with ssv := Ssv.init .off, starts := [disturbedStart] }).tbu.state = .fallback := by
  decide +kernel

/-- A part without power whose array holds an active journal at a step. -/
def interrupted (step : WipeStep) : State :=
  { State.reset with
    ssv := Ssv.init .off
    store := { State.reset.store with
      journal := { written := true, body := .valid (some { mediaRecord 0 with step := step }) } } }

/-- A journal active at each step that is recorded, met by a power-on. -/
theorem test_witness_StartUpDerivesTheAccessState_resuming :
    ∀ step ∈ [WipeStep.keys, .limiter, .media, .rekey],
      (interrupted step).ssv.mode = .off ∧ (interrupted step).pins.resetLow = false ∧
        loadJournal (interrupted step).store.journal = (some { mediaRecord 0 with step := step }, false) ∧
        (loadOptions (interrupted step).store.option).2 = false ∧
        (after (.powerOn true) (interrupted step)).acc.access = .wiping := by decide +kernel

/-- A Pending Set write that carries the staging of a SET_POLICY, at its second attempt. -/
theorem test_witness_PendingSetWriteEnds :
    (rewrites (.pset .empty) (.pset [0] false) config).WaitOk ∧
      (rewrites (.pset .empty) (.pset [0] false) config).rsc.current =
        some { entry := { contents := .pset .empty, purpose := .pset [0] false }, attempt := 2 } :=
  ⟨waitOk_of (by decide +kernel), rfl⟩

/-- The destroy of slot 9 is being written in KEYS, and a BAR_SLOT of slot 8 waits between two other writes. -/
def superseding : State :=
  let s := runs .p 0x09 (writes (.slot 9 .empty) (.slotDestroy 9 none) (erasing.onWpe fun w => { w with
    journal := w.journal.map fun j => { j with step := .keys }, position := .keys 4 1 false, order := none }))
  s.onRsc fun r => { r with queue := [{ contents := .policy .default, purpose := .policyApply },
                                      { contents := .slot 8 .empty, purpose := .admin (some .p) },
                                      { contents := .pset .empty, purpose := .pset [] false }] }

/-- Waiting writes behind the current one, served oldest first, and a slot command that the destroy of its slot
supersedes: REFUSED WIPING, its entry replaced in its place (R8, R137, R138). -/
theorem test_witness_PendingSetWriteEnds_queue :
    superseding.acc.access = .wiping ∧ superseding.corePowered = true ∧ superseding.wpe.run = .active ∧
      superseding.wpe.journal.isSome = true ∧ superseding.wpe.position = .keys 4 1 false ∧
      (keysOrder false)[4]? = some (.slot 9) ∧ (keysOrder false)[5]? = some (.slot 8) ∧
      superseding.liu.p.slot = .running .long 0x09 ∧
      slotOf .p (after (.storeWriteEnd .passed) superseding) = .done (.refused 0x09 .wiping 0) ∧
      (after (.storeWriteEnd .passed) superseding).rsc.current.map (fun w => w.entry.id) = some .policy ∧
      (after (.storeWriteEnd .passed) superseding).rsc.queue.map WriteEntry.purpose =
        [.slotDestroy 8 none, .pset [] false] := by decide +kernel

/-- A CONFIG whose timer has run out, with WIPE_THRESHOLD 4 staged beside FREE_ATTEMPTS 7. -/
def applies (fails : Nat) : State :=
  (failing fails true config).onAcc (fun c => { c with configTimer := some 0 }) |>.onPlu fun p =>
    { p with committed := { p.committed with policy := (p.committed.policy.set 0 (some 7)).set 3 (some 4) } }

/-- ENTRY_GAP 30 staged in the committed set. -/
def staged (s : State) : State :=
  s.onPlu fun p => { p with committed := { p.committed with policy := p.committed.policy.set 5 (some 30) } }

/-- Each way into LOCKED from another state applies the set: the idle expiry without a bridge, the end of CONFIG, the
served notice, the close of a wipe, and the enrolment of slot 0 in BLANK (R73). -/
theorem test_witness_EntryIntoLockedAppliesTheSet_paths :
    ∀ a ∈ [(Instr.idleExpiry, (user.onLiu fun u => { u with bridge := .lost }).onAcc fun c =>
              { c with idleTimer := some 0 }),
           (.configTimeout, config.onAcc fun c => { c with configTimer := some 0 }),
           (.storeWriteEnd .passed, writes (.limiter { fails := 4, served := true }) .served penalized),
           (.storeWriteEnd .passed, writes (.journal none) (.journal .close)
              (erasing.onWpe fun w => { w with position := .rekey 4, order := none })),
           (.storeWriteEnd .passed,
              enrolled { confirming with kind := .automatic, target := 0, mode := none, mask := none }
                (drive .blank none))],
      (staged a.2).corePowered = true ∧ (staged a.2).acc.access ≠ .locked ∧
        (after a.1 (staged a.2)).acc.access = .locked ∧ (after a.1 (staged a.2)).plu.policy.entryGap = 30 := by
  decide +kernel

/-- An application with its policy, map and volume parts waiting, and one of its writes being carried out. -/
def applying (c : Contents) (p : Purpose) : State :=
  writes c p (locked.onPlu fun u => { u with
    applying := some { taken := u.committed, policy := .waiting, map := .waiting,
                       volumes := Vector.replicate 4 .absent } })

theorem test_witness_EntryIntoLockedAppliesTheSet :
    (∀ n ∈ [0, 1], (applies n).corePowered = true ∧ (applies n).acc.configTimer = some 0 ∧
      (applies n).acc.access = .config ∧ (applies n).plu.policy.freeAttempts < (applies n).plu.policy.wipeThreshold ∧
      (applies n).plu.committed.policy.get 3 = some 4) ∧
    (applying (.policy Policy.default) .policyApply).plu.applying.isSome = true ∧
    (applying (.map LockMap.default) .mapApply).rsc.current =
      some { entry := { contents := .map LockMap.default, purpose := .mapApply }, attempt := 1 } ∧
    (applying (.volume 0 present) (.volumeApply 0)).rsc.current =
      some { entry := { contents := .volume 0 present, purpose := .volumeApply 0 }, attempt := 1 } := by decide +kernel

/-- A wipe in KEYS whose destroy of a slot, the `n`-th of the order, is being written. -/
def destroying (i : SlotIx) (n : Nat) : State :=
  writes (.slot i .empty) (.slotDestroy i none) (erasing.onWpe fun w => { w with
    journal := w.journal.map fun j => { j with step := .keys }, position := .keys n 1 false, order := none })

/-- The same for the destroy of volume 0. -/
def destroyingVolume : State :=
  writes (.volume 0 { present with state := .erasing, key := none, keyState := .destroyed }) (.volumeDestroy 0)
    ((destroying 5 0).onKru fun k =>
      { k with volumes := k.volumes.set 0 { present with state := .erasing, key := none, keyState := .destroyed } })

/-- The write that marks a wipe active. -/
def starting : State :=
  writes (.journal (some { mediaRecord 0 with step := .keys })) (.journal .start)
    (erasing.onWpe fun _ => Wpe.init)

/-- The start write, volume 0's destroy, a destroy in the middle of the order (slot 5 at 8) and its last one (slot 0 at
13); the last three are the destroys of their indices. -/
theorem test_witness_WipeDestroysInOrder :
    (∀ s ∈ [starting, destroyingVolume, destroying 5 8, destroying 0 13], s.rsc.queue = [] ∧ s.acc.access = .wiping ∧
      s.corePowered = true ∧ s.ssv.level ≠ .crit ∧ s.wpe.run = .active ∧ s.rsc.current.isSome = true) ∧
    (∀ s ∈ [destroyingVolume, destroying 5 8, destroying 0 13], s.wpe.journal.isSome = true) ∧
    (keysOrder false)[0]? = some (.volume 0) ∧ (keysOrder false)[8]? = some (.slot 5) ∧
    (keysOrder false)[13]? = some (.slot 0) ∧
    (destroyingVolume.wpe.position = .keys 0 1 false ∧ (destroying 5 8).wpe.position = .keys 8 1 false) := by
  decide +kernel

/-- A wipe from a step on, with a write of its own being carried out. -/
def wiping (step : WipeStep) (pos : Position) (c : Contents) (p : Purpose) : State :=
  writes c p (erasing.onWpe fun w => { w with
    journal := w.journal.map fun j => { j with step := step }, position := pos, order := none })

/-- The write that closes a wipe. -/
def closing : State := wiping .rekey (.rekey 4) (.journal none) (.journal .close)

/-- The writes that record LIMITER and REKEY, the reset, the rekey of volume 0, and the closing write. -/
theorem test_witness_WipeCloses :
    ∀ s ∈ [wiping .keys (.keys 14 1 false) (.journal (some { mediaRecord 0 with step := .limiter })) (.journal .boundary),
        wiping .limiter (.limiter false) (.limiter { fails := 0, served := true }) .reset,
        wiping .media .media (.journal (some { mediaRecord 0 with step := .rekey })) (.journal .boundary),
        wiping .rekey (.rekey 0) (.volume 0 present) (.volumeRekey 0), closing],
      s.rsc.queue = [] ∧ s.acc.access = .wiping ∧ s.corePowered = true ∧ s.ssv.level ≠ .crit ∧ s.wpe.run = .active ∧
      s.wpe.journal.isSome = true ∧ s.rsc.current.isSome = true := by decide +kernel

/-! ## One or two steps per command -/


theorem test_poll_collects :
    slotOf .p (after (.poll xp []) (locked.onLiu fun u => { u with p := { u.p with slot := .done .badFrame } })) = .idle := by
  decide +kernel
theorem test_poll_short_exchange_collects_nothing :
    slotOf .p (after (.poll { xp with clocked := 2 } [])
      (locked.onLiu fun u => { u with p := { u.p with slot := .done .badFrame } })) = .done .badFrame := by decide +kernel
theorem test_status_penalty_seconds_round_up :
    (match slotOf .p (after (.status xp (.ok ())) (penalized.onAtl fun a => { a with penalty := some 33 })) with
     | .done (.ok _ (.status r)) => r.penaltySeconds
     | _ => 0) = 5 := by decide +kernel
theorem test_get_event_none : slotOf .p (after (.getEvent xp (.ok ())) locked) = .done (.ok 0x02 (.event none)) := by
  decide +kernel
theorem test_get_event_keys_revoked_first :
    slotOf .b (after (.getEvent xb (.ok ())) (State.reset.postB .keysRevoked)) = .done (.ok 0x02 (.event (some .keysRevoked))) := by
  decide +kernel
theorem test_list_slots_entry_nine :
    (match slotOf .p (after (.listSlots xp (.ok ())) config) with
     | .done (.ok _ (.slots l)) => l[9]?
     | _ => none) = some { index := 9, role := .recovery, state := .empty, length := none, mode := none, mask := none,
                           uses := none, fault := false } := by decide +kernel
theorem test_bar_slot_zero : slotOf .p (after (.barSlot xp (.ok 0)) config) = .done (.refused 0x09 .noSlot 0) := by
  decide +kernel
theorem test_bar_slot_nine : slotOf .p (after (.barSlot xp (.ok 9)) config) = .done (.refused 0x09 .noSlot 0) := by
  decide +kernel
theorem test_bar_slot_one_runs :
    slotOf .p (after (.barSlot xp (.ok 1)) config) = .running .long 0x09 ∧
      (after (.barSlot xp (.ok 1)) config).rsc.current =
        some { entry := { contents := .slot 1 { active pin1 (some 1) with state := .barred },
                          purpose := .admin (some .p) }, attempt := 1 } := by decide +kernel
theorem test_unbar_slot_active : slotOf .p (after (.unbarSlot xp (.ok 1)) config) = .done (.refused 0x0A .slotState 0) := by
  decide +kernel
theorem test_unbar_slot_eight_empty :
    slotOf .p (after (.unbarSlot xp (.ok 8)) config) = .done (.refused 0x0A .slotState 0) := by decide +kernel
theorem test_clear_slot_nine_empty : slotOf .p (after (.clearSlot xp (.ok 9)) config) = .done (.ok 0x0B .none) := by
  decide +kernel
theorem test_clear_slot_ten : slotOf .p (after (.clearSlot xp (.ok 10)) config) = .done (.refused 0x0B .noSlot 0) := by
  decide +kernel
theorem test_set_policy_raises_threshold :
    (match (after (.setPolicy xp (.ok [(.freeAttempts, 7#16), (.wipeThreshold, 4#16)])) config).plu.inflight with
     | [g] => (g.parts.policy.get 0, g.parts.policy.get 3)
     | _ => (none, none)) = (some 7, some 8) := by decide +kernel
theorem test_set_policy_filter_six_is_eight :
    (match (after (.setPolicy xb (.ok [(.cellFilter, 6#16)])) admin).plu.inflight with
     | [g] => g.parts.policy.get 14
     | _ => none) = some 8 := by decide +kernel
theorem test_read_policy_default_free :
    (match slotOf .b (after (.readPolicy xb (.ok ())) admin) with
     | .done (.ok _ (.policyListing l)) => (l.policy.freeAttempts, l.policy.wipeThreshold, l.policy.penaltyCap)
     | _ => (0, 0, 0)) = (3, 10, 900) := by decide +kernel
theorem test_set_lock_map_bridge_wipe :
    slotOf .p (after (.setLockMap xp (.ok [(.caseOpen, .none), (.bridgeLost, .wipe)])) config) =
      .done (.refused 0x0E .badRange 0) := by decide +kernel
theorem test_set_lock_map_later_replaces :
    (match (after (.setLockMap xp (.ok [(.caseOpen, .none), (.caseOpen, .forced)])) config).plu.inflight with
     | [g] => g.parts.map.caseOpen
     | _ => none) = some .forced := by decide +kernel
theorem test_wipe_from_panel :
    (after (.wipe xp (.ok ())) config).acc.access = .wiping ∧
      slotOf .p (after (.wipe xp (.ok ())) config) = .done (.ok 0x0F (.wipe .panelAdmin .keysAndMedia false)) := by
  decide +kernel
theorem test_key_digit_fifteenth :
    (after (.keyDigit xp (.ok 3)) (typed (List.replicate 14 1) locked)).keu.digits = List.replicate 14 1 ++ [3] := by
  decide +kernel
theorem test_key_digit_sixteenth_is_overlong :
    (after (.keyDigit xp (.ok 3)) (typed (List.replicate 15 1) locked)).keu.overlong = true ∧
      (after (.keyDigit xp (.ok 3)) (typed (List.replicate 15 1) locked)).keu.digits = List.replicate 15 1 := by
  decide +kernel
theorem test_key_back_removes_newest : (after (.keyBack xp (.ok ())) typing).keu.digits = [1, 2, 3, 4, 5, 6] := by
  decide +kernel
theorem test_key_clear_keeps_dialogue :
    (after (.keyClear xp (.ok ())) enrolling).keu.digits = [] ∧
      (after (.keyClear xp (.ok ())) enrolling).keu.dialogue.isSome = true := by decide +kernel
theorem test_key_enter_five_digits :
    (match slotOf .p (after (.keyEnter xp (.ok ())) (typed [1, 2, 3, 4, 5] locked)) with
     | .done (.ok _ (.key o _ _)) => o
     | _ => .none) = .tooShort := by decide +kernel
theorem test_key_enter_counts_first :
    (after (.keyEnter xp (.ok ())) typing).rsc.current =
      some { entry := { contents := .limiter { fails := 1, served := false }, purpose := .preCount }, attempt := 1 } := by
  decide +kernel
theorem test_key_lock_offers : (after (.keyLock xp (.ok ())) user).acc.access = .locking := by decide +kernel
theorem test_key_lock_without_bridge :
    (after (.keyLock xp (.ok ())) (user.onLiu fun u => { u with bridge := .lost, capacity := none })).acc.access = .locked := by
  decide +kernel
theorem test_key_admin_sets_intent : (after (.keyAdmin xp (.ok ())) locked).keu.intent = .admin := by decide +kernel
theorem test_key_recover_ignored_when_collecting : (after (.keyRecover xp (.ok ())) typing).keu.intent = .unlock := by
  decide +kernel
theorem test_key_change_begins :
    (after (.keyChange xp (.ok ())) user).keu.dialogue.map (fun d => (d.kind, d.target)) = some (.change, 1) := by
  decide +kernel
theorem test_key_exit_ends_config : (after (.keyExit xp (.ok ())) config).acc.access = .locked := by decide +kernel
theorem test_key_exit_elsewhere : slotOf .p (after (.keyExit xp (.ok ())) user) = .done (.refused 0x20 .notNow 0) := by
  decide +kernel
theorem test_enrol_begin_masks_unused :
    (after (.enrolBegin xp (.ok { index := 2, mode := .readOnly, mask := 0xF })) config).keu.dialogue.bind
      (fun d => d.mask) = some 1 := by decide +kernel
theorem test_enrol_begin_ten :
    slotOf .p (after (.enrolBegin xp (.ok { index := 10, mode := .readWrite, mask := 1 })) config) =
      .done (.refused 0x21 .noSlot 0) := by decide +kernel
theorem test_attach_zero : slotOf .b (after (.attach xb (.ok 0#32)) locked) = .done (.refused 0x40 .badRange 0) := by
  decide +kernel
theorem test_attach_release_mask :
    slotOf .b (after (.attach xb (.ok 2048#32)) user) = .done (.ok 0x40 (.attach .unlocked (some 1) 1)) := by
  decide +kernel
theorem test_detach_locks : (after (.detach xb (.ok ())) user).acc.access = .locked ∧
    (after (.detach xb (.ok ())) user).liu.bq.keysRevoked = false := by decide +kernel
theorem test_lock_revokes : (after (.lock xb (.ok ())) user).liu.bq.keysRevoked = true := by decide +kernel
theorem test_activity_answers_fifteen_minutes :
    slotOf .b (after (.activity xb (.ok ())) (user.onAcc fun c => { c with idleTimer := some 3 })) =
      .done (.ok 0x43 (.activity 900)) := by decide +kernel
theorem test_fetch_key_three_unused : slotOf .b (after (.fetchKey xb (.ok 3)) user) = .done (.refused 0x44 .noVolume 0) := by
  decide +kernel
theorem test_fetch_key_beyond_capacity :
    slotOf .b (after (.fetchKey xb (.ok 0)) (user.onLiu fun u => { u with capacity := some 2047 })) =
      .done (.refused 0x44 .unreachable 0) := by decide +kernel
theorem test_lock_reply_last_hold :
    slotOf .b (after (.lockReply xb (.ok .hold)) locking) = .done (.ok 0x45 (.lockReply (.held 0))) := by decide +kernel
theorem test_lock_reply_overruled :
    slotOf .b (after (.lockReply xb (.ok .hold)) (locking.onAcc fun c => { c with deferrals := some 0 })) =
      .done (.ok 0x45 (.lockReply .overruled)) := by decide +kernel
theorem test_work_fetch_numbers_from_one :
    slotOf .b (after (.workFetch xb (.ok ())) erasing) = .done (.ok 0x46 (.work (some (1, 0, 2048)))) := by decide +kernel
theorem test_work_fetch_wraps_to_one :
    slotOf .b (after (.workFetch xb (.ok ())) (erasing.onWpe fun w => { w with counter := 65535 })) =
      .done (.ok 0x46 (.work (some (1, 0, 2048)))) := by decide +kernel
theorem test_work_done_second_failure_retries :
    slotOf .b (after (.workDone xb (.ok (1#16, .fail))) (issued 2)) = .done (.ok 0x47 (.workDone (.retry 3))) := by
  decide +kernel
theorem test_work_done_third_failure_abandons :
    slotOf .b (after (.workDone xb (.ok (1#16, .fail))) (issued 3)) = .done (.ok 0x47 (.workDone .abandoned)) := by
  decide +kernel
theorem test_define_volume_rounds_up :
    (match (after (.defineVolume xb (.ok (.range 1 1#32 4095#32 true))) admin).plu.inflight with
     | [g] => g.parts.volumes.get 1
     | _ => none) = some (.range 2048 2048 true) := by decide +kernel
theorem test_define_volume_overlap :
    slotOf .b (after (.defineVolume xb (.ok (.range 1 0#32 2048#32 false))) admin) = .done (.refused 0x48 .badRange 0) := by
  decide +kernel
theorem test_read_volumes_not_attached :
    slotOf .b (after (.readVolumes xb (.ok ())) (user.onLiu fun u => { u with bridge := .present })) =
      .done (.refused 0x49 .notAttached 0) := by decide +kernel
theorem test_write_options_outside_blank :
    slotOf .b (after (.writeOptions xb (.ok [])) locked) = .done (.refused 0x4A .notNow 0) := by decide +kernel
theorem test_write_options_runs :
    (after (.writeOptions xb (.ok [(.caseOpenLevel, 1)])) (drive .blank none)).rsc.current.map (fun w => w.entry.contents) =
      some (.option { Options.default with caseOpenHigh := false }) := by decide +kernel
theorem test_bad_frame_at_idle :
    slotOf .p (after (.badFrame { xp with clocked := 1 } [0x00]) locked) = .done .badFrame := by decide +kernel
theorem test_busy_notes : (after (.busy xp 0x01) (runs .p 0x20 locked)).liu.p.note = some 0x01 := by decide +kernel
theorem test_unknown_command :
    slotOf .p (after (.unknownCommand xp 0x10 []) locked) = .done (.unknownCommand 0x10) := by decide +kernel
theorem test_evaluation_end_penalty :
    (after .evaluationEnd (judging none 5)).atl.penalty = some 80 ∧
      (after .evaluationEnd (judging none 5)).acc.access = .penalty := by decide +kernel
theorem test_evaluation_end_threshold : (after .evaluationEnd (judging none 10)).acc.access = .wiping := by decide +kernel
theorem test_enrol_verifier_done_writes :
    (after .enrolVerifierDone (verifying .verifyConfirm)).rsc.current.map (fun w => w.entry.purpose) = some (.enrol 2) := by
  decide +kernel
theorem test_store_write_end_counts :
    (after (.storeWriteEnd .passed) counting).keu.flight = some (.judging (some 1)) := by decide +kernel
theorem test_store_write_end_retries :
    (after (.storeWriteEnd (.failed .neither)) counting).rsc.current.map (fun w => w.attempt) = some 2 := by decide +kernel
theorem test_tick_fallback_halves_penalty :
    ((after (.tick 3700) { penalized with tbu := { penalized.tbu with state := .fallback, run := some 0 } }).atl.penalty,
      (after (.tick 3700) penalized).atl.penalty) = (some 40, some 39) := by decide +kernel
theorem test_tick_fourth_low_sample :
    (after (.tick 3499) (locked.onSsv fun v =>
      { v with filterCount := 3, filterDir := some .falling, nearest := some .low })).ssv.level = .low := by decide +kernel
theorem test_fallback_raises_clock_fault : (after .fallback locked).acc.clockFault = true := by decide +kernel
theorem test_crystal_return_ends_clock_fault : (after .crystalReturn fallen).acc.clockFault = false := by decide +kernel
theorem test_crystal_silent_again_restarts_run :
    (after .crystalSilentAgain { fallen with tbu := { fallen.tbu with gap := 5, run := some 9 } }).tbu =
      { state := .fallback, divider := 0, gap := 0, run := some 0 } := by decide +kernel
theorem test_entry_timer_empties :
    (after .entryTimerExpiry (typing.onKeu fun k => { k with entryTimer := some 0 })).keu = Keu.init := by decide +kernel
theorem test_penalty_expiry_requests_served :
    (after .penaltyExpiry ((failing 4 false penalized).onAtl fun a => { a with penalty := some 0 })).rsc.current.map
      (fun w => w.entry) = some { contents := .limiter { fails := 4, served := true }, purpose := .served } := by
  decide +kernel
theorem test_idle_expiry_offers :
    (after .idleExpiry (user.onAcc fun c => { c with idleTimer := some 0 })).acc.lockCause = some .idleExpiry := by
  decide +kernel
theorem test_attach_expiry_locks :
    (after .attachExpiry (user.onAcc fun c => { c with attachTimer := some 0 })).acc.access = .locked := by decide +kernel
theorem test_defer_expiry_completes :
    (after .deferExpiry (locking.onAcc fun c => { c with deferTimer := some 0 })).acc.access = .locked := by decide +kernel
theorem test_config_timeout_ends_config :
    (after .configTimeout (config.onAcc fun c => { c with configTimer := some 0 })).acc.access = .locked := by
  decide +kernel
theorem test_link_timer_loses_bridge :
    (after .linkTimerExpiry (user.onLiu fun u => { u with linkTimer := some 0 })).liu.bridge = .lost ∧
      (after .linkTimerExpiry (user.onLiu fun u => { u with linkTimer := some 0 })).acc.access = .locked := by decide +kernel
theorem test_order_timer_second_attempt :
    (after .orderTimerExpiry ((issued 1).onWpe fun w => { w with orderTimer := some 0 })).wpe.attempt = 2 := by
  decide +kernel
theorem test_sleep_timer_marks :
    (after .sleepTimerExpiry (critCell.onSsv fun v => { v with sleepTimer := some 0 })).ssv.sleepDue = true := by
  decide +kernel
theorem test_case_change_starts_debounce :
    (after (.caseChange true) { locked with plu := { locked.plu with
      inForce := { Options.default with caseFitted := true } } }).ssv.caseTimer = some 2 := by decide +kernel
theorem test_case_debounce_wipes :
    (after .caseDebounceExpiry { locked with
      plu := { locked.plu with inForce := { Options.default with caseFitted := true } }
      pins := { locked.pins with caseHigh := true }
      ssv := { locked.ssv with caseTimer := some 0 } }).acc.access = .wiping := by decide +kernel
theorem test_cell_sleep_entry_sleeps : (after .cellSleepEntry sleepy).ssv.mode = .cellSleep := by decide +kernel
theorem test_wake_n_wakes :
    (after (.wakeN true) (after .cellSleepEntry sleepy)).ssv.mode = .cellAwake := by decide +kernel
theorem test_bus_power_arrival :
    (after .busPowerArrival { sleepy with pins := { sleepy.pins with busdet := false } }).liu.bridge = .present := by
  decide +kernel
theorem test_bus_power_loss_locks :
    (after (.busPowerLoss .afterPass) user).acc.access = .locked ∧
      (after (.busPowerLoss .afterPass) user).ssv.mode = .cellAwake := by decide +kernel
theorem test_power_on_blank :
    (after (.powerOn true) { State.reset with ssv := Ssv.init .off }).acc.startCause = .powerOn ∧
      (after (.powerOn true) { State.reset with ssv := Ssv.init .off }).acc.access = .blank := by decide +kernel
theorem test_power_on_reports_what_was_held :
    (after (.powerOn true) { State.reset with ssv := Ssv.init .off, starts := [disturbedStart] }).liu.pq.timebaseChanged =
        some .fallback ∧
      (after (.powerOn true) { State.reset with ssv := Ssv.init .off, starts := [disturbedStart] }).acc.clockFault = true := by
  decide +kernel
theorem test_power_loss_cuts_program :
    (after (.powerLoss (.program false)) counting).store.limiter = { written := true, body := .spoiled } := by
  decide +kernel
/-- R137: a start with F at 0 applies a stored set that needs no write but the settling one, which is current at once;
the wipe for an enclosure opened during the start then discards the set by a write that waits behind it (R131). -/
theorem test_settling_write_is_current_before_the_discard :
    (let s : State := { State.reset with
       ssv := Ssv.init .off
       starts := [{ disturbedStart with beforeLoad := [] }]
       store := { State.reset.store with
         option := { written := true, body := .valid { Options.default with caseFitted := true } }
         slots := State.reset.store.slots.set 0 { written := true, body := .valid (active pin0 none) }
         pset := { written := true, body := .valid { PendingSet.empty with
           policy := PendingSet.empty.policy.set 0 (some 3) } } } }
     ((after (.powerOn true) s).rsc.current.map fun w => w.entry.contents,
       (after (.powerOn true) s).rsc.queue.map WriteEntry.id,
       (after (.powerOn true) s).rsc.queue.head?.map WriteEntry.contents)) =
      (some (.pset .empty), [.pset, .journal], some (.pset .empty)) := by
  decide +kernel
/-- R79, R154: an enclosure debounced open and closed again within start-up, and a level adopted and left again, are taken
when the derivation completes: the map starts a wipe, and CELL_LEVEL is posted. -/
theorem test_start_takes_what_came_and_went :
    (let s : State := { interrupted .keys with
       starts := [{ beforeLoad := [],
                    afterLoad := [.caseChange true, .tick 3300, .tick 3300, .caseDebounced, .caseChange false,
                                  .tick 3300, .tick 3300, .caseDebounced, .tick 4000, .tick 4000, .tick 4000, .tick 4000] }]
       store := { State.reset.store with
         option := { written := true, body := .valid { Options.default with caseFitted := true } }
         slots := State.reset.store.slots.set 0 { written := true, body := .valid (active pin0 none) } } }
     let t := after (.powerOn true) s
     (t.acc.access, t.wpe.starting.map WipeRecord.cause, t.acc.caseOpen, t.ssv.level, t.liu.pq.cellLevel)) =
      (.wiping, some .caseOpen, false, .good, some (.low, .bus)) := by
  decide +kernel
theorem test_reset_n_holds :
    (after (.resetN (.settingMark false)) counting).store.limiter = { written := false, body := .erased } := by
  decide +kernel
theorem test_step_idles : step State.reset = .next State.reset := rfl

end Sys2Proof.Tests
end

