-- ==== Sys2Proof/Proofs/Body.lean ====
section
/-! The invariant cut along the blocks. `State.Body` holds what no access item and no timebase item takes part in, as a
predicate of the blocks it speaks of; `State.Rest` holds the access items and the rest of the WPE outside WIPING. They
stand at every point within a row, where the timebase clauses and the clause that a write is current whenever one waits
need not. -/

namespace Sys2Proof.Machine

/-- What a write may carry: a well-formed slot record or Pending Set (R3, R123). -/
def Contents.Ok (c : Contents) : Prop :=
  match c with
  | .slot i r => slotWellFormed i r = true
  | .pset a => a.wellFormed = true
  | _ => True

/-- The entry buffer by itself (the clauses of `State.KeyOk`). -/
structure Keu.Ok (k : Keu) : Prop where
  digits : k.digits.length ≤ Config.maxDigits
  dialogue : ∀ d, k.dialogue = some d → d.Ok
  flight : k.flight.isSome = true ↔ k.bstate = .evaluating
  timer : k.flight.isSome = true → k.entryTimer = none
  form : k.flight = some .verifyFirst ∨ k.flight = some .verifyConfirm → Config.minDigits ≤ k.digits.length

/-- The bridge link against a supply mode (the clauses of `State.LinkOk`). -/
structure Liu.Ok (m : SupplyMode) (u : Liu) : Prop where
  absent : u.bridge = .absent ↔ m ≠ .bus
  capacity : u.capacity.isSome = true ↔ u.bridge = .attached
  linkTimer : u.linkTimer.isSome = true → u.bridge = .attached

/-- The SSV by itself (the clauses of `State.SupplyOk`). -/
structure Ssv.Ok (v : Ssv) : Prop where
  sleepTimer : v.sleepTimer.isSome = true → v.mode = .cellAwake
  sleepDue : v.sleepDue = true → v.mode = .cellAwake
  filterDir : v.filterDir.isSome = true ↔ 0 < v.filterCount
  nearest : v.nearest.isSome = true ↔ 0 < v.filterCount
  off : v.nearest ≠ some v.level

/-- The write being carried out, then those that wait. -/
def Rsc.entries (r : Rsc) : List WriteEntry := (r.current.map CurrentWrite.entry).toList ++ r.queue

/-- At most one waiting write per record, attempt 1 or 2, and contents that may be written. -/
structure Rsc.Ok (r : Rsc) : Prop where
  waiting : (r.queue.map WriteEntry.id).Nodup
  attempt : ∀ w, r.current = some w → w.attempt = 1 ∨ w.attempt = 2
  contents : ∀ e ∈ r.entries, e.contents.Ok

/-- The working copy of the table by itself. -/
structure Ctb.Ok (c : Ctb) : Prop where
  slots : ∀ i : SlotIx, slotWellFormed i (c.slots.get i).record = true
  shadow : ∀ i : SlotIx, (c.slots.get i).shadow.isSome = true → (c.slots.get i).fault = true

/-- The order in hand against the bridge link (the clauses of `State.WipeOk` but the first). -/
structure Wpe.Ok (b : BridgeState) (w : Wpe) : Prop where
  order : w.order.isSome = true → b = .attached
  timer : w.orderTimer.isSome = true → ∃ o, w.order = some o ∧ o.number.isSome = true
  attempt : 1 ≤ w.attempt ∧ w.attempt ≤ 3

/-- The settings by themselves. -/
structure Plu.Ok (p : Plu) : Prop where
  policy : p.policy.wellFormed = true
  map : p.map.wellFormed = true
  committed : p.committed.wellFormed = true
  inflight : ∀ g ∈ p.inflight, g.parts.wellFormed = true

/-- The links that wait for a staging or for a write. -/
def storeWaiters (gs : List Staging) (r : Rsc) : List Link :=
  gs.filterMap Staging.requester ++ r.entries.filterMap fun e => e.purpose.waiter

/-- The links that wait for an answer. -/
def waitersOf (f : Option Flight) (gs : List Staging) (r : Rsc) : List Link :=
  (if f.isSome then [Link.p] else []) ++ storeWaiters gs r

/-- The answers to come, by the flight, the stagings, the writes and the command slots (the clauses of
`State.WaitOk`). -/
structure Waits (f : Option Flight) (gs : List Staging) (r : Rsc) (u : Liu) : Prop where
  once : (waitersOf f gs r).Nodup
  running : ∀ l ∈ waitersOf f gs r, (u.port l).slot.isRunning = true
  flight : ∀ e ∈ r.entries, e.purpose.ofFlight = true → ∃ g, f = some g ∧ g.awaits e.purpose = true
  single : (r.entries.filter fun e => e.purpose.ofFlight).length ≤ 1

/-- What holds of the blocks within a row. -/
structure BodyOf (r : Rsc) (c : Ctb) (k : Keu) (v : Kru) (w : Wpe) (p : Plu) (y : Ssv) (u : Liu) : Prop where
  keu : k.Ok
  liu : u.Ok y.mode
  ssv : y.Ok
  rsc : r.Ok
  ctb : c.Ok
  kru : ∀ i : VolIx, (v.volumes.get i).shaped = true
  wpe : w.Ok u.bridge
  plu : p.Ok
  wait : Waits k.flight p.inflight r u

/-- What holds within a row of every block but the ACC, the ATL and the TBU. -/
def State.Body (s : State) : Prop := BodyOf s.rsc s.ctb s.keu s.kru s.wpe s.plu s.ssv s.liu

/-- The ACC's items in their states (the clauses of `State.AccOk`). -/
structure Acc.Ok (c : Acc) : Prop where
  openSlot : c.openSlot.isSome = c.access.isOpen
  lockCause : c.lockCause.isSome = true → c.access = .locking
  deferrals : c.deferrals.isSome = true → c.access = .locking
  idle : c.idleTimer.isSome = true → c.access = .unlocked
  attach : c.attachTimer.isSome = true → c.access = .unlocked ∨ c.access = .locking
  defer : c.deferTimer.isSome = true → c.access = .locking
  config : c.configTimer.isSome = true → c.access = .config

/-- The ACC's items stand in their states, and the WPE rests outside WIPING. -/
structure AtRest (c : Acc) (w : Wpe) : Prop where
  acc : c.Ok
  wpe : c.access ≠ .wiping → w = .init

/-- `AtRest` of a state. -/
def State.Rest (s : State) : Prop := AtRest s.acc s.wpe

/-! ## The invariant from its parts -/

theorem Rsc.contents_eq (r : Rsc) : r.contents = r.entries.map WriteEntry.contents := by
  obtain ⟨c, q⟩ := r
  cases c <;> rfl

theorem Rsc.purposes_eq (r : Rsc) : r.purposes = r.entries.map WriteEntry.purpose := by
  obtain ⟨c, q⟩ := r
  cases c <;> rfl

theorem State.waiters_eq (s : State) : s.waiters = waitersOf s.keu.flight s.plu.inflight s.rsc := by
  simp [State.waiters, waitersOf, storeWaiters, Rsc.purposes_eq, List.filterMap_map]

theorem State.WaitOk.waits {s : State} (h : s.WaitOk) : Waits s.keu.flight s.plu.inflight s.rsc s.liu where
  once := s.waiters_eq ▸ h.once
  running := s.waiters_eq ▸ h.running
  flight e he hf := h.flight e.purpose (by rw [Rsc.purposes_eq]; exact List.mem_map_of_mem he) hf
  single := by simpa [Rsc.purposes_eq, List.filter_map, Function.comp_def] using h.single

theorem Waits.waitOk {s : State} (h : Waits s.keu.flight s.plu.inflight s.rsc s.liu) : s.WaitOk where
  once := s.waiters_eq ▸ h.once
  running := s.waiters_eq ▸ h.running
  flight p hp hf := by
    rw [Rsc.purposes_eq] at hp
    obtain ⟨e, he, rfl⟩ := List.mem_map.1 hp
    exact h.flight e he hf
  single := by simpa [Rsc.purposes_eq, List.filter_map, Function.comp_def] using h.single

theorem State.Inv.body {s : State} (h : s.Inv) : s.Body where
  keu := ⟨h.key.digits, h.key.dialogue, h.key.flight, h.key.timer, h.key.form⟩
  liu := ⟨h.link.absent, h.link.capacity, h.link.linkTimer⟩
  ssv := ⟨h.supply.sleepTimer, h.supply.sleepDue, h.supply.filterDir, h.supply.nearest, h.supply.off⟩
  rsc := by
    refine ⟨h.store.waiting, h.store.attempt, fun e he => ?_⟩
    have hc : e.contents ∈ s.rsc.contents := by rw [Rsc.contents_eq]; exact List.mem_map_of_mem he
    unfold Contents.Ok
    split
    · rename_i heq; exact h.table.written _ _ (heq ▸ hc)
    · rename_i heq; exact h.plu.written _ (heq ▸ hc)
    · trivial
  ctb := ⟨h.table.slots, h.table.shadow⟩
  kru := h.volumes
  wpe := ⟨h.wipe.order, h.wipe.timer, h.wipe.attempt⟩
  plu := ⟨h.plu.policy, h.plu.map, h.plu.committed, h.plu.inflight⟩
  wait := h.wait.waits

theorem State.Inv.rest {s : State} (h : s.Inv) : s.Rest :=
  ⟨⟨h.acc.openSlot, h.acc.lockCause, h.acc.deferrals, h.acc.idle, h.acc.attach, h.acc.defer, h.acc.config⟩,
    h.wipe.rest⟩

/-- The invariant, from its parts and the two clauses that need not stand within a row. -/
theorem State.inv_of_parts {s : State} (hb : s.Body) (hr : s.Rest) (ht : s.TimeOk)
    (hq : s.rsc.current = none → s.rsc.queue = []) : s.Inv where
  acc := ⟨hr.acc.openSlot, hr.acc.lockCause, hr.acc.deferrals, hr.acc.idle, hr.acc.attach, hr.acc.defer, hr.acc.config⟩
  key := ⟨hb.keu.digits, hb.keu.dialogue, hb.keu.flight, hb.keu.timer, hb.keu.form⟩
  time := ht
  link := ⟨hb.liu.absent, hb.liu.capacity, hb.liu.linkTimer⟩
  supply := ⟨hb.ssv.sleepTimer, hb.ssv.sleepDue, hb.ssv.filterDir, hb.ssv.nearest, hb.ssv.off⟩
  store := ⟨hb.rsc.waiting, hb.rsc.attempt, hq⟩
  wait := hb.wait.waitOk
  table := by
    refine ⟨hb.ctb.slots, hb.ctb.shadow, fun i r hc => ?_⟩
    rw [Rsc.contents_eq] at hc
    obtain ⟨e, he, heq⟩ := List.mem_map.1 hc
    have hk := hb.rsc.contents e he
    rwa [heq] at hk
  volumes := hb.kru
  wipe := ⟨hr.wpe, hb.wpe.order, hb.wpe.timer, hb.wpe.attempt⟩
  plu := by
    refine ⟨hb.plu.policy, hb.plu.map, hb.plu.committed, hb.plu.inflight, fun a hc => ?_⟩
    rw [Rsc.contents_eq] at hc
    obtain ⟨e, he, heq⟩ := List.mem_map.1 hc
    have hk := hb.rsc.contents e he
    rwa [heq] at hk

/-! ## The take at the end of a row -/

@[simp] theorem Rsc.kick_entries (r : Rsc) : r.kick.entries = r.entries := by
  obtain ⟨c, q⟩ := r
  cases c <;> cases q <;> rfl

theorem Rsc.Ok.kick {r : Rsc} (h : r.Ok) : r.kick.Ok := by
  refine ⟨?_, ?_, fun e he => h.contents e (by simpa using he)⟩
  · rcases r.kick_cases with ⟨_, hk⟩ | ⟨_, _, hk⟩ | ⟨e, rest, _, hq, hk⟩
    · rw [hk]; exact h.waiting
    · rw [hk]; exact h.waiting
    · have hw := h.waiting
      rw [hq] at hw
      rw [hk]
      exact (List.nodup_cons.1 hw).2
  · rcases r.kick_cases with ⟨_, hk⟩ | ⟨_, _, hk⟩ | ⟨e, rest, _, _, hk⟩
    · rw [hk]; exact h.attempt
    · rw [hk]; exact h.attempt
    · rw [hk]
      rintro w hw
      cases hw
      exact .inl rfl

/-- The answers to come are those of the writes, whichever of them is current. -/
theorem Waits.of_entries {f : Option Flight} {gs : List Staging} {r q : Rsc} {u : Liu} (h : Waits f gs r u)
    (he : q.entries = r.entries) : Waits f gs q u := by
  obtain ⟨ho, hr, hf, hs⟩ := h
  refine ⟨?_, ?_, ?_, ?_⟩ <;> simpa only [waitersOf, storeWaiters, he] using ‹_›

/-- A row whose work keeps the parts keeps the invariant. -/
theorem inv_of_finish {u t : State} (hb : u.Body) (hr : u.Rest) (ht : u.TimeOk) (h : finish u = .next t) : t.Inv := by
  obtain rfl := finish_next h
  refine State.inv_of_parts (s := { u with rsc := u.rsc.kick }) ?_ hr ?_ u.rsc.kick_served
  · exact { hb with rsc := hb.rsc.kick, wait := hb.wait.of_entries u.rsc.kick_entries }
  · exact ⟨ht.run, ht.phase, ht.clockFault, ht.caseOpen⟩

end Sys2Proof.Machine
end

