-- ==== Sys2Proof/Proofs/Keeps.lean ====
section
/-! What work within a row keeps: `Keeps s t` says of an `s` with the body that `t` has it too, that the timebase, the
enclosure and the two conditions are as they were, that no link came to wait, and that no write of a flight was added.
It composes, so each operation's lemma is a chain of those of its parts. -/

namespace Sys2Proof.Machine

/-! ## A request in the queue -/

/-- Where a request goes: in place of the waiting entry of its record, or to the end. -/
theorem enqueueEntry_split (e : WriteEntry) (q : List WriteEntry) :
    ∃ pre old post, q = pre ++ old ++ post ∧ enqueueEntry e q = pre ++ e :: post := by
  induction q with
  | nil => exact ⟨[], [], [], rfl, rfl⟩
  | cons w rest ih =>
    by_cases hw : w.id = e.id
    · exact ⟨[], [w], rest, rfl, by simp [enqueueEntry, hw]⟩
    · obtain ⟨pre, old, post, hq, he⟩ := ih
      exact ⟨w :: pre, old, post, by simp [hq], by simp [enqueueEntry, hw, he]⟩

/-- What a request does to the writes. -/
theorem Rsc.request_split (e : WriteEntry) (r : Rsc) :
    ∃ pre old post, r.entries = pre ++ old ++ post ∧ (r.request e).entries = pre ++ e :: post := by
  rcases r.request_cases e with ⟨hc, hq, h⟩ | ⟨_, h⟩
  · exact ⟨[], [], [], by simp [Rsc.entries, hc, hq], by simp [h, Rsc.entries]⟩
  · obtain ⟨pre, old, post, hq, he⟩ := enqueueEntry_split e r.queue
    exact ⟨(r.current.map CurrentWrite.entry).toList ++ pre, old, post, by simp [Rsc.entries, hq],
      by simp [h, Rsc.entries, he]⟩

/-- The writes after a request are the request and writes from before it. -/
theorem Rsc.mem_request {d e : WriteEntry} {r : Rsc} (h : d ∈ (r.request e).entries) : d = e ∨ d ∈ r.entries := by
  obtain ⟨pre, old, post, hr, hq⟩ := r.request_split e
  rw [hq] at h
  rw [hr]
  simp only [List.mem_append, List.mem_cons] at h ⊢
  tauto

/-- A request stands among the writes. -/
theorem Rsc.mem_request_self (e : WriteEntry) (r : Rsc) : e ∈ (r.request e).entries := by
  obtain ⟨pre, old, post, _, hq⟩ := r.request_split e
  simp [hq]

theorem Rsc.Ok.request {r : Rsc} (h : r.Ok) {e : WriteEntry} (he : e.contents.Ok) : (r.request e).Ok := by
  refine ⟨?_, ?_, fun d hd => ?_⟩
  · rcases r.request_cases e with ⟨_, _, hr⟩ | ⟨_, hr⟩
    · simp [hr]
    · rw [hr]; exact enqueueEntry_nodup e h.waiting
  · rcases r.request_cases e with ⟨_, _, hr⟩ | ⟨_, hr⟩
    · rw [hr]
      rintro w hw
      cases hw
      exact .inl rfl
    · rw [hr]; exact h.attempt
  · rcases Rsc.mem_request hd with rfl | hd
    · exact he
    · exact h.contents d hd

/-! ## Answers to come -/

/-- The answers to come stand with fewer waiting, and with the flights' writes among those that were. -/
theorem Waits.mono {f g : Option Flight} {gs hs : List Staging} {r q : Rsc} {u v : Liu} (h : Waits f gs r u)
    (hw : (waitersOf g hs q).Sublist (waitersOf f gs r))
    (hp : ∀ l ∈ waitersOf g hs q, (v.port l).slot.isRunning = (u.port l).slot.isRunning)
    (hf : g = f) (he : (q.entries.filter fun e => e.purpose.ofFlight).Sublist
      (r.entries.filter fun e => e.purpose.ofFlight)) : Waits g hs q v := by
  subst hf
  refine ⟨h.once.sublist hw, fun l hl => ?_, fun e hq ho => ?_, he.length_le.trans h.single⟩
  · rw [hp l hl]
    exact h.running l (hw.subset hl)
  · have hm := he.subset (List.mem_filter.2 ⟨hq, by simpa using ho⟩)
    exact h.flight e (List.mem_filter.1 hm).1 ho

/-- A request that nobody waits for takes the place of at most one that somebody may wait for. -/
theorem storeWaiters_request {gs : List Staging} {r : Rsc} {e : WriteEntry} (hw : e.purpose.waiter = none) :
    (storeWaiters gs (r.request e)).Sublist (storeWaiters gs r) := by
  obtain ⟨pre, old, post, hr, hq⟩ := r.request_split e
  refine (List.Sublist.refl _).append ?_
  rw [hr, hq]
  simp [hw]

/-- A request that carries no flight on leaves at most the flights' writes that were. -/
theorem ofFlight_request {r : Rsc} {e : WriteEntry} (hf : e.purpose.ofFlight = false) :
    ((r.request e).entries.filter fun d => d.purpose.ofFlight).Sublist
      (r.entries.filter fun d => d.purpose.ofFlight) := by
  obtain ⟨pre, old, post, hr, hq⟩ := r.request_split e
  rw [hr, hq]
  simp [List.filter_append, hf]

theorem Waits.request {f : Option Flight} {gs : List Staging} {r : Rsc} {u : Liu} (h : Waits f gs r u)
    {e : WriteEntry} (hw : e.purpose.waiter = none) (hf : e.purpose.ofFlight = false) :
    Waits f gs (r.request e) u :=
  h.mono ((List.Sublist.refl _).append (storeWaiters_request hw)) (fun _ _ => rfl) rfl (ofFlight_request hf)

/-! ## The relation -/

/-- The timebase, the enclosure and the two conditions. -/
def State.clock (s : State) : (Timebase × Option Nat) × Bool × Bool × Bool :=
  ((s.tbu.state, s.tbu.run), s.acc.clockFault, s.acc.caseOpen, s.ssv.caseIsOpen)

/-- What stands after work within a row: the body, the clock, and no new waiter and no new write of a flight. -/
structure Kept (s t : State) : Prop where
  body : t.Body
  clock : t.clock = s.clock
  phase : t.atl.phase = true → s.atl.phase = true
  stores : ∀ l ∈ storeWaiters t.plu.inflight t.rsc, l ∈ storeWaiters s.plu.inflight s.rsc
  flight : t.keu.flight.isSome = true → s.keu.flight.isSome = true
  writes : ∀ e ∈ t.rsc.entries, e.purpose.ofFlight = true → e ∈ s.rsc.entries

/-- Work within a row, from a state that has the body. -/
def Keeps (s t : State) : Prop := s.Body → Kept s t

theorem keeps_refl (s : State) : Keeps s s := fun hb => ⟨hb, rfl, id, fun _ h => h, id, fun _ h _ => h⟩

theorem Keeps.trans {s t u : State} (h : Keeps s t) (k : Keeps t u) : Keeps s u := by
  intro hs
  obtain ⟨ht, hc, hp, hw, hl, hf⟩ := h hs
  obtain ⟨hu, kc, kp, kw, kl, kf⟩ := k ht
  exact ⟨hu, kc.trans hc, hp ∘ kp, fun l h => hw l (kw l h), hl ∘ kl, fun e he ho => hf e (kf e he ho) ho⟩

/-- The body may be used to see what the work is. -/
theorem keeps_of_body {s t : State} (h : s.Body → Keeps s t) : Keeps s t := fun hb => h hb hb

/-- A choice keeps what both of its ways keep. -/
theorem keeps_ite {s t u : State} {c : Prop} [Decidable c] (h : c → Keeps s t) (k : ¬ c → Keeps s u) :
    Keeps s (if c then t else u) := by
  split
  · exact h ‹_›
  · exact k ‹_›

/-- The timebase clauses carry over. -/
theorem Kept.time {s t : State} (h : Kept s t) (ht : s.TimeOk) : t.TimeOk := by
  have hc := h.clock
  simp only [State.clock, Prod.mk.injEq] at hc
  obtain ⟨⟨htb, hrun⟩, hcf, hco, hci⟩ := hc
  exact ⟨by rw [hrun, htb]; exact ht.run, fun hp => htb ▸ ht.phase (h.phase hp),
    by rw [hcf, htb]; exact ht.clockFault, by rw [hco, hci]; exact ht.caseOpen⟩

/-- No write of a flight is waiting or being carried out. -/
def State.noFlightWrite (s : State) : Prop := ∀ e ∈ s.rsc.entries, e.purpose.ofFlight = false

theorem Kept.noFlightWrite {s t : State} (h : Kept s t) (hs : s.noFlightWrite) : t.noFlightWrite := by
  intro e he
  by_contra hf
  have hf : e.purpose.ofFlight = true := by simpa using hf
  rw [hs e (h.writes e he hf)] at hf
  cases hf

theorem Kept.waiters {s t : State} (h : Kept s t) {l : Link} (hl : l ∈ t.waiters) : l ∈ s.waiters := by
  rw [State.waiters_eq, waitersOf, List.mem_append] at hl ⊢
  refine hl.imp (fun hf => ?_) (h.stores l)
  split at hf
  · rename_i ht
    rwa [if_pos (h.flight ht)]
  · cases hf

/-- A link that nobody owes an answer stays one. -/
theorem Kept.free {s t : State} (h : Kept s t) {l : Link} (hl : l ∉ s.waiters) : l ∉ t.waiters :=
  fun hm => hl (h.waiters hm)

/-! ## Block-wise updates -/

theorem keeps_onAcc {f : Acc → Acc} {s : State} (hc : (f s.acc).clockFault = s.acc.clockFault)
    (ho : (f s.acc).caseOpen = s.acc.caseOpen) : Keeps s (s.onAcc f) := fun hb =>
  ⟨hb, by simp [State.clock, hc, ho], id, fun _ h => h, id, fun _ h _ => h⟩

theorem keeps_onAtl {f : Atl → Atl} {s : State} (hp : (f s.atl).phase = true → s.atl.phase = true) :
    Keeps s (s.onAtl f) := fun hb => ⟨hb, rfl, hp, fun _ h => h, id, fun _ h _ => h⟩

theorem keeps_onStore (f : Store → Store) (s : State) : Keeps s (s.onStore f) := fun hb =>
  ⟨hb, rfl, id, fun _ h => h, id, fun _ h _ => h⟩

theorem keeps_onPins (f : Pins → Pins) (s : State) : Keeps s (s.onPins f) := fun hb =>
  ⟨hb, rfl, id, fun _ h => h, id, fun _ h _ => h⟩

theorem keeps_onWpe {f : Wpe → Wpe} {s : State} (h : s.wpe.Ok s.liu.bridge → (f s.wpe).Ok s.liu.bridge) :
    Keeps s (s.onWpe f) := fun hb =>
  ⟨{ hb with wpe := h hb.wpe }, rfl, id, fun _ h => h, id, fun _ h _ => h⟩

theorem keeps_onKru {f : Kru → Kru} {s : State}
    (h : (∀ i : VolIx, (s.kru.volumes.get i).shaped = true) → ∀ i : VolIx, ((f s.kru).volumes.get i).shaped = true) :
    Keeps s (s.onKru f) := fun hb => ⟨{ hb with kru := h hb.kru }, rfl, id, fun _ h => h, id, fun _ h _ => h⟩

theorem keeps_onCtb {f : Ctb → Ctb} {s : State} (h : s.ctb.Ok → (f s.ctb).Ok) : Keeps s (s.onCtb f) := fun hb =>
  ⟨{ hb with ctb := h hb.ctb }, rfl, id, fun _ h => h, id, fun _ h _ => h⟩

/-- A change of the entry buffer that leaves the flight, or ends one that no write carries on. -/
theorem keeps_onKeu {f : Keu → Keu} {s : State} (hk : s.keu.Ok → (f s.keu).Ok)
    (hf : (f s.keu).flight = s.keu.flight ∨ ((f s.keu).flight = none ∧ s.noFlightWrite)) :
    Keeps s (s.onKeu f) := by
  intro hb
  have hsub : (waitersOf (f s.keu).flight s.plu.inflight s.rsc).Sublist
      (waitersOf s.keu.flight s.plu.inflight s.rsc) := by
    rcases hf with hf | ⟨hf, _⟩ <;> rw [hf]
    exact List.sublist_append_right _ _
  refine ⟨{ hb with keu := hk hb.keu, wait := ?_ }, rfl, id, fun _ h => h, fun h => ?_, fun _ h _ => h⟩
  · refine ⟨hb.wait.once.sublist hsub, fun l hl => hb.wait.running l (hsub.subset hl), fun e he ho => ?_,
      hb.wait.single⟩
    rcases hf with hf | ⟨_, hn⟩
    · exact hf.symm ▸ hb.wait.flight e he ho
    · rw [hn e he] at ho; cases ho
  · rw [State.onKeu_keu] at h
    rcases hf with hf | ⟨hf, _⟩ <;> rw [hf] at h
    · exact h
    · cases h

/-- A change of the LIU that leaves the bridge link and which slots run a command. -/
theorem keeps_onLiu {f : Liu → Liu} {s : State}
    (hp : ∀ l, ((f s.liu).port l).slot.isRunning = (s.liu.port l).slot.isRunning)
    (hb : (f s.liu).bridge = s.liu.bridge) (hc : (f s.liu).capacity = s.liu.capacity)
    (ht : (f s.liu).linkTimer.isSome = true → s.liu.linkTimer.isSome = true ∨ s.liu.bridge = .attached) :
    Keeps s (s.onLiu f) := by
  intro h
  refine ⟨{ h with liu := ?_, wpe := ?_, wait := ?_ }, rfl, id, fun _ h => h, id, fun _ h _ => h⟩
  · refine ⟨?_, ?_, fun hs => ?_⟩ <;> simp only [State.onLiu_liu, State.onLiu_ssv, hb, hc]
    · exact h.liu.absent
    · exact h.liu.capacity
    · exact (ht hs).elim h.liu.linkTimer id
  · simpa only [State.onLiu_liu, State.onLiu_wpe, hb] using h.wpe
  · exact h.wait.mono (List.Sublist.refl _) (fun l _ => hp l) rfl (List.Sublist.refl _)

/-- A change of the settings that leaves the stagings in flight, or drops some. -/
theorem keeps_onPlu {f : Plu → Plu} {s : State} (h : s.plu.Ok → (f s.plu).Ok)
    (hi : (f s.plu).inflight.Sublist s.plu.inflight) : Keeps s (s.onPlu f) := by
  intro hb
  have hsub : (storeWaiters (f s.plu).inflight s.rsc).Sublist (storeWaiters s.plu.inflight s.rsc) :=
    (hi.filterMap _).append (List.Sublist.refl _)
  refine ⟨{ hb with plu := h hb.plu, wait := ?_ }, rfl, id, fun l hl => hsub.subset hl, id, fun _ h _ => h⟩
  exact hb.wait.mono ((List.Sublist.refl _).append hsub) (fun _ _ => rfl) rfl (List.Sublist.refl _)

/-- A change of the SSV that leaves the mode and the debounced state. -/
theorem keeps_onSsv {f : Ssv → Ssv} {s : State} (h : s.ssv.Ok → (f s.ssv).Ok) (hm : (f s.ssv).mode = s.ssv.mode)
    (hc : (f s.ssv).caseIsOpen = s.ssv.caseIsOpen) : Keeps s (s.onSsv f) := by
  refine fun hb => ⟨{ hb with ssv := h hb.ssv, liu := ?_ }, by simp [State.clock, hc], id, fun _ h => h, id, fun _ h _ => h⟩
  exact (congrArg (Liu.Ok · s.liu) hm).mpr hb.liu

/-- A change of the writes that adds no contents, no waiter and no write of a flight. -/
theorem keeps_onRsc {f : Rsc → Rsc} {s : State} (h : s.rsc.Ok → (f s.rsc).Ok)
    (hw : (storeWaiters s.plu.inflight (f s.rsc)).Sublist (storeWaiters s.plu.inflight s.rsc))
    (hf : ((f s.rsc).entries.filter fun e => e.purpose.ofFlight).Sublist
      (s.rsc.entries.filter fun e => e.purpose.ofFlight)) : Keeps s (s.onRsc f) := by
  refine fun hb => ⟨{ hb with rsc := h hb.rsc, wait := ?_ }, rfl, id, fun l hl => hw.subset hl, id, fun e he ho => ?_⟩
  · exact hb.wait.mono ((List.Sublist.refl _).append hw) (fun _ _ => rfl) rfl hf
  · exact (List.mem_filter.1 (hf.subset (List.mem_filter.2 ⟨he, ho⟩))).1

/-- A write is requested that no link waits for and that carries no flight on. -/
theorem keeps_requestWrite {c : Contents} {p : Purpose} {s : State} (hc : c.Ok) (hw : p.waiter = none)
    (hf : p.ofFlight = false) : Keeps s (s.requestWrite c p) :=
  keeps_onRsc (fun h => h.request hc) (storeWaiters_request hw) (ofFlight_request hf)

/-! ## Answers -/

/-- An answer to a link that nothing else will answer. -/
theorem keeps_answer {l : Link} (mk : Byte → Result) {s : State} (h : l ∉ s.waiters) : Keeps s (s.answer l mk) := by
  have hport : ∀ m ≠ l, ((s.liu.onPort l fun p => { p with slot := p.slot.answer mk }).port m) = s.liu.port m :=
    fun m hm => Liu.port_onPort_ne (Ne.symm hm) _ _
  refine fun hb => ⟨⟨hb.keu, ?_, hb.ssv, hb.rsc, hb.ctb, hb.kru, ?_, hb.plu, ?_⟩, rfl, id, fun _ h => h,
    id, fun _ h _ => h⟩
  · obtain ⟨ha, hc, ht⟩ := hb.liu
    refine ⟨?_, ?_, ?_⟩ <;> simpa [State.answer]
  · have hw := hb.wpe
    simpa [State.answer] using hw
  · refine hb.wait.mono (List.Sublist.refl _) (fun m hm => ?_) rfl (List.Sublist.refl _)
    have hne : m ≠ l := by
      rintro rfl
      exact h (s.waiters_eq ▸ hm)
    simpa [State.answer] using congrArg (fun p => p.slot.isRunning) (hport m hne)

theorem keeps_replyOk {l : Link} (f : Fields) {s : State} (h : l ∉ s.waiters) : Keeps s (s.replyOk l f) :=
  keeps_answer _ h

theorem keeps_refuse {l : Link} (r : Reason) {s : State} (h : l ∉ s.waiters) : Keeps s (s.refuse l r) :=
  keeps_answer _ h

theorem keeps_replyOkTo {o : Option Link} (f : Fields) {s : State} (h : ∀ l ∈ o, l ∉ s.waiters) :
    Keeps s (s.replyOkTo o f) := by
  cases o with
  | none => exact keeps_refl s
  | some l => exact keeps_replyOk f (h l rfl)

theorem keeps_refuseTo {o : Option Link} (r : Reason) {s : State} (h : ∀ l ∈ o, l ∉ s.waiters) :
    Keeps s (s.refuseTo o r) := by
  cases o with
  | none => exact keeps_refl s
  | some l => exact keeps_refuse r (h l rfl)

/-- The answered command is marked LONG: it still runs. -/
theorem keeps_runLong (l : Link) (s : State) : Keeps s (s.runLong l) := by
  refine keeps_onLiu (fun m => ?_) (by simp) (by simp) (by simpa using Or.inl)
  by_cases hm : l = m
  · subst hm
    rw [Liu.port_onPort]
    cases (s.liu.port l).slot <;> rfl
  · rw [Liu.port_onPort_ne hm]

/-! ## Events -/

/-- A post to the P-link queue, as a change of the LIU. -/
theorem State.postP_eq_onLiu (e : Event) (s : State) :
    s.postP e = s.onLiu fun u => { u with pq := if s.corePowered then u.pq.post e else u.pq } := by
  cases h : s.corePowered <;> simp [State.postP, h, State.onLiu]

/-- A post to the B-link queue, as a change of the LIU. -/
theorem State.postB_eq_onLiu (e : Event) (s : State) :
    s.postB e = s.onLiu fun u =>
      { u with bq := if s.corePowered && s.liu.bridge != .absent then u.bq.post e else u.bq } := by
  cases h : s.corePowered && s.liu.bridge != .absent <;> simp [State.postB, h, State.onLiu]

/-- A change of the event queues alone. -/
theorem keeps_events {f : Liu → Liu} {s : State} (h : ∃ p q, f s.liu = { s.liu with pq := p, bq := q }) :
    Keeps s (s.onLiu f) := by
  obtain ⟨p, q, hf⟩ := h
  exact keeps_onLiu (fun l => by rw [hf]; cases l <;> rfl) (by rw [hf]) (by rw [hf]) (by rw [hf]; exact .inl)

theorem keeps_postP (e : Event) (s : State) : Keeps s (s.postP e) := by
  rw [State.postP_eq_onLiu]
  exact keeps_events ⟨_, _, rfl⟩

theorem keeps_postB (e : Event) (s : State) : Keeps s (s.postB e) := by
  rw [State.postB_eq_onLiu]
  exact keeps_events ⟨_, _, rfl⟩

theorem keeps_postAccessChanged (s : State) : Keeps s s.postAccessChanged :=
  (keeps_postP _ s).trans (keeps_postB _ _)

theorem keeps_withdrawLockPending (s : State) : Keeps s s.withdrawLockPending := keeps_events ⟨_, _, rfl⟩

theorem keeps_withdrawEraseWork (s : State) : Keeps s s.withdrawEraseWork := keeps_events ⟨_, _, rfl⟩

theorem keeps_revokeKeys (s : State) : Keeps s s.revokeKeys :=
  keeps_ite (fun _ => keeps_postB _ s) fun _ => keeps_refl s

end Sys2Proof.Machine
end

