-- ==== Sys2Proof/Proofs/KeepsEntry.lean ====
section
/-! The entry buffer and the settings: what each of their operations keeps. -/

namespace Sys2Proof.Machine

/-! ## The entry buffer -/

theorem Keu.Ok.not_evaluating {k : Keu} (h : k.Ok) (hf : k.flight = none) : k.bstate ≠ .evaluating := by
  intro he
  have := h.flight.2 he
  simp [hf] at this

/-- A buffer with no flight, whatever its dialogue, is Ok once it is emptied. -/
theorem Keu.Ok.of_emptied {k : Keu} (hd : ∀ d, k.dialogue = some d → d.Ok) (hf : k.flight = none) : k.emptied.Ok where
  digits := by simp [Keu.emptied]
  dialogue := hd
  flight := by simp [Keu.emptied, hf]
  timer := by simp [Keu.emptied, hf]
  form := by simp [Keu.emptied, hf]

/-- The entry timer of a buffer with no flight is free. -/
theorem Keu.Ok.withTimer {k : Keu} (h : k.Ok) (hf : k.flight = none) (t : Timer) : ({ k with entryTimer := t } : Keu).Ok where
  digits := h.digits
  dialogue := h.dialogue
  flight := h.flight
  timer := by simp [hf]
  form := h.form

theorem Keu.Ok.disturb {k : Keu} (h : k.Ok) (b : Bool) : ({ k with disturbed := b } : Keu).Ok :=
  ⟨h.digits, h.dialogue, h.flight, h.timer, h.form⟩

/-- The automatic dialogue's record (R35). -/
theorem Dialogue.ok_automatic :
    Dialogue.Ok { kind := .automatic, target := 0, mode := none, mask := none, step := .first, candidate := none } where
  candidate := by simp
  length := by simp
  automatic _ := rfl
  user := by simp

theorem keeps_emptyBuffer {s : State} (hf : s.keu.flight = none) : Keeps s s.emptyBuffer :=
  keeps_onKeu (fun h => .of_emptied h.dialogue hf) (.inl rfl)

theorem keeps_touchEntryTimer {s : State} (hf : s.keu.flight = none) : Keeps s s.touchEntryTimer :=
  keeps_onKeu (fun h => h.withTimer hf _) (.inl rfl)

theorem keeps_beginDialogue {kind : DialogueKind} {target : SlotIx} {mode : Option AccessMode} {mask : Option VolMask}
    {s : State} (hf : s.keu.flight = none)
    (hd : Dialogue.Ok { kind, target, mode, mask, step := .first, candidate := none }) :
    Keeps s (s.beginDialogue kind target mode mask) := by
  refine keeps_onKeu (fun _ => .of_emptied ?_ hf) (.inl rfl)
  rintro d ⟨⟩
  exact hd

theorem keeps_autoDialogue {s : State} (hf : s.keu.flight = none) : Keeps s s.autoDialogue :=
  keeps_ite (fun _ => keeps_beginDialogue hf Dialogue.ok_automatic) fun _ => keeps_refl s

theorem keeps_endDialogue {s : State} (hf : s.keu.flight = none) : Keeps s s.endDialogue :=
  Keeps.trans (keeps_onKeu (fun _ => (Keu.Ok.of_emptied (k := { s.keu with dialogue := none }) (fun _ h => nomatch h) hf).withTimer hf none) (.inl rfl))
    (keeps_autoDialogue hf)

theorem keeps_disturb (b : Bool) (s : State) : Keeps s (s.onKeu fun k => { k with disturbed := b }) :=
  keeps_onKeu (fun h => h.disturb b) (.inl rfl)

/-- A buffer that is not EVALUATING has no flight (R20). -/
theorem State.Body.no_flight {s : State} (hb : s.Body) (h : s.keu.bstate ≠ .evaluating) : s.keu.flight = none := by
  by_contra hf
  exact h (hb.keu.flight.1 (Option.isSome_iff_ne_none.2 hf))

/-- The KEU is told of a change: a flight goes on, and an entry that is not in flight ends (R39). -/
theorem keeps_interruptEntry (s : State) : Keeps s s.interruptEntry :=
  keeps_of_body fun hb => keeps_ite (fun _ => keeps_disturb true s) fun he => keeps_endDialogue (hb.no_flight he)

theorem keeps_tellGate (o : Bool) (s : State) : Keeps s (s.tellGate o) :=
  keeps_ite (fun _ => keeps_refl s) fun _ => keeps_ite (fun _ => keeps_interruptEntry s) fun _ =>
    keeps_ite (fun _ => keeps_disturb true s) fun _ => keeps_refl s

/-! ## Answers to the ENTER in flight -/

/-- The P-link waits for nothing but the ENTER in flight. -/
def State.panelFree (s : State) : Prop := Link.p ∉ storeWaiters s.plu.inflight s.rsc

/-- While an ENTER is in flight the P-link waits for that alone. -/
theorem State.Body.panelFree {s : State} (hb : s.Body) (hf : s.keu.flight.isSome = true) : s.panelFree := by
  have hn := hb.wait.once
  rw [waitersOf, if_pos hf] at hn
  exact (List.nodup_cons.1 hn).1

/-- A link that waits for nothing. -/
theorem State.panelFree_of_free {s : State} (h : Link.p ∉ s.waiters) : s.panelFree := by
  rw [State.waiters_eq] at h
  exact fun hm => h (List.mem_append_right _ hm)

/-- With no flight, a P-link that waits for nothing else waits for nothing. -/
theorem State.panelFree.free {s : State} (h : s.panelFree) (hf : s.keu.flight = none) : Link.p ∉ s.waiters := by
  rw [State.waiters_eq, waitersOf, hf]
  exact h

/-- The flight is over, the buffer emptied, its dialogue as it is. -/
theorem keeps_landEmptied {s : State} (hn : s.noFlightWrite) : Keeps s (s.onKeu fun k => k.landed.emptied) :=
  keeps_onKeu (fun h => .of_emptied (k := s.keu.landed) h.dialogue rfl) (.inr ⟨rfl, hn⟩)

@[simp] theorem State.touchEntryTimer_flight (s : State) : s.touchEntryTimer.keu.flight = s.keu.flight := rfl

theorem keeps_answerAttempt {s : State} (a : AttemptAnswer) (hn : s.noFlightWrite) (hp : s.panelFree) :
    Keeps s (s.answerAttempt a) := by
  let t := (s.onKeu fun k => k.landed.emptied).touchEntryTimer
  have hl : Link.p ∉ t.waiters := State.panelFree.free (s := t) hp rfl
  have ht : Keeps s t := (keeps_landEmptied hn).trans (keeps_touchEntryTimer rfl)
  cases a with
  | granted => exact ht.trans (keeps_replyOk _ hl)
  | rejected n secs => exact ht.trans (keeps_replyOk _ hl)
  | refusal r => exact ht.trans (keeps_refuse _ hl)

/-- The end of a dialogue leaves the flight. -/
@[simp] theorem State.endDialogue_flight (s : State) : s.endDialogue.keu.flight = s.keu.flight := by
  unfold State.endDialogue State.autoDialogue
  split <;> rfl

@[simp] theorem State.endDialogue_plu (s : State) : s.endDialogue.plu = s.plu :=
  endDialogue_frame s .plu (by simp)

@[simp] theorem State.endDialogue_rsc (s : State) : s.endDialogue.rsc = s.rsc :=
  endDialogue_frame s .rsc (by simp)

/-- The flight and its dialogue are over. -/
def Keu.concluded (k : Keu) : Keu := { Keu.emptied { k.landed with dialogue := none } with entryTimer := none }

/-- An enrolment step lands with the end of its dialogue. -/
theorem State.landEnrolment_eq (s : State) : s.landEnrolment = (s.onKeu Keu.concluded).autoDialogue := rfl

@[simp] theorem State.landEnrolment_flight (s : State) : s.landEnrolment.keu.flight = none := by
  simp [State.landEnrolment, Keu.landed]

theorem keeps_landEnrolment {s : State} (hn : s.noFlightWrite) : Keeps s s.landEnrolment := by
  have hl : Keeps s (s.onKeu Keu.concluded) := by
    refine keeps_onKeu (fun _ => ?_) (.inr ⟨rfl, hn⟩)
    exact (Keu.Ok.of_emptied (k := { s.keu.landed with dialogue := none }) (by simp) rfl).withTimer rfl none
  exact hl.trans (keeps_autoDialogue rfl)

theorem State.panelFree.landEnrolment {s : State} (hp : s.panelFree) : Link.p ∉ s.landEnrolment.waiters :=
  State.panelFree.free (by simpa [State.panelFree, State.landEnrolment] using hp) (by simp)

theorem keeps_answerEnrolment {s : State} (o : KeyOutcome) (hn : s.noFlightWrite) (hp : s.panelFree) :
    Keeps s (s.answerEnrolment o) :=
  (keeps_landEnrolment hn).trans (keeps_replyOk _ hp.landEnrolment)

theorem keeps_refuseEnrolment {s : State} (r : Reason) (hn : s.noFlightWrite) (hp : s.panelFree) :
    Keeps s (s.refuseEnrolment r) :=
  (keeps_landEnrolment hn).trans (keeps_refuse _ hp.landEnrolment)

/-- The buffer with its first entry taken as the candidate (R37). -/
def Keu.firstTaken (k : Keu) : Keu :=
  Keu.emptied { k.landed with
    dialogue := k.dialogue.map fun d =>
      { d with step := .confirm, candidate := some { length := k.digits.length, verifier := verifierOf k.digits } } }

theorem State.takeFirst_eq (s : State) :
    s.takeFirst = (s.onKeu Keu.firstTaken).touchEntryTimer.answerKey .firstTaken := rfl

/-- The candidate's length is that of digits that passed the form checks (R33). -/
theorem Keu.Ok.firstTaken {k : Keu} (h : k.Ok) (hf : k.flight = some .verifyFirst) : k.firstTaken.Ok := by
  refine .of_emptied ?_ rfl
  rintro d' hd'
  simp only [Option.map_eq_some_iff] at hd'
  obtain ⟨d, hd, rfl⟩ := hd'
  have hok := h.dialogue d hd
  refine ⟨by simp, ?_, hok.automatic, hok.user⟩
  rintro c ⟨⟩
  exact ⟨h.form (.inl hf), h.digits⟩

theorem keeps_takeFirst {s : State} (hf : s.keu.flight = some .verifyFirst) (hn : s.noFlightWrite)
    (hp : s.panelFree) : Keeps s s.takeFirst := by
  let t := (s.onKeu Keu.firstTaken).touchEntryTimer
  have ht : Keeps s t := (keeps_onKeu (fun h => h.firstTaken hf) (.inr ⟨rfl, hn⟩)).trans (keeps_touchEntryTimer rfl)
  exact ht.trans (keeps_replyOk _ (State.panelFree.free (s := t) hp rfl))

/-! ## Ranges of the settings (R120, R121, R123) -/

theorem PolicyField.mem_all (f : PolicyField) : f ∈ PolicyField.all := by cases f <;> decide

theorem mem_allVolumes (v : VolIx) : v ∈ allVolumes := by revert v; decide

theorem mem_allSlots (i : SlotIx) : i ∈ allSlots := by revert i; decide

/-- A staged definition covers whole granules (R123). -/
def VolumeDef.granular (d : VolumeDef) : Prop :=
  match d with
  | .range f c _ => f % Config.granule = 0 ∧ c % Config.granule = 0 ∧ Config.granule ≤ c
  | .unused => True

/-- A well-formed set: every staged value in range, every staged action allowed, every staged range of granules. -/
theorem PendingSet.wellFormed_iff (a : PendingSet) :
    a.wellFormed = true ↔
      (∀ f : PolicyField, ∀ n ∈ a.policy.get f.number, f.inRange n = true) ∧
      ((∀ x ∈ a.map.bridgeLost, mapAllows .bridgeLost x = true) ∧ (∀ x ∈ a.map.clockFault, mapAllows .clockFault x = true) ∧
        ∀ x ∈ a.map.caseOpen, mapAllows .caseOpen x = true) ∧
      ∀ v : VolIx, ∀ d ∈ a.volumes.get v, d.granular := by
  have hopt : ∀ (e : MapEntry) (o : Option LockAction),
      PendingSet.wellFormed.optAllows e o = true ↔ ∀ x ∈ o, mapAllows e x = true := by
    intro e o
    cases o <;> simp [PendingSet.wellFormed.optAllows]
  have hpol : (PolicyField.all.all fun f => match a.policy.get f.number with
      | some n => f.inRange n
      | none => true) = true ↔ ∀ f : PolicyField, ∀ n ∈ a.policy.get f.number, f.inRange n = true := by
    simp only [List.all_eq_true, PolicyField.mem_all, true_implies]
    refine forall_congr' fun f => ?_
    cases a.policy.get f.number <;> simp
  have hvol : (allVolumes.all fun v => match a.volumes.get v with
      | some (.range f c _) => decide (f % Config.granule = 0 ∧ c % Config.granule = 0 ∧ Config.granule ≤ c)
      | some .unused => true
      | none => true) = true ↔ ∀ v : VolIx, ∀ d ∈ a.volumes.get v, d.granular := by
    simp only [List.all_eq_true, mem_allVolumes, true_implies]
    refine forall_congr' fun v => ?_
    rcases a.volumes.get v with _ | ⟨f, c, r⟩ | _ <;> simp [VolumeDef.granular]
  simp only [PendingSet.wellFormed, Bool.and_eq_true, hopt, and_assoc]
  exact and_congr hpol (and_congr Iff.rfl (and_congr Iff.rfl (and_congr Iff.rfl hvol)))

theorem Vector.get_zipWith {α β γ : Type} {n : Nat} (f : α → β → γ) (a : Vector α n) (b : Vector β n) (i : Fin n) :
    (Vector.zipWith f a b).get i = f (a.get i) (b.get i) := by
  simp [Vector.get_eq_getElem]

/-- Laying a well-formed set over another gives one. -/
theorem PendingSet.overlay_wellFormed {a b : PendingSet} (ha : a.wellFormed = true) (hb : b.wellFormed = true) :
    (a.overlay b).wellFormed = true := by
  rw [PendingSet.wellFormed_iff] at *
  obtain ⟨hp, ⟨h1, h2, h3⟩, hv⟩ := ha
  obtain ⟨kp, ⟨k1, k2, k3⟩, kv⟩ := hb
  have hor : ∀ {α : Type} {P : α → Prop} {x y : Option α}, (∀ n ∈ x, P n) → (∀ n ∈ y, P n) → ∀ n ∈ y.or x, P n := by
    intro α P x y hx hy n hn
    cases y with
    | none => exact hx n (by simpa using hn)
    | some m => exact hy n (by simpa using hn)
  refine ⟨fun f => ?_, ⟨hor h1 k1, hor h2 k2, hor h3 k3⟩, fun v => ?_⟩
  · simp only [PendingSet.overlay, Vector.get_zipWith]
    exact hor (hp f) (kp f)
  · simp only [PendingSet.overlay, Vector.get_zipWith]
    exact hor (hv v) (kv v)

/-- Removing parts leaves a well-formed set so. -/
theorem PendingSet.less_wellFormed {a b : PendingSet} (ha : a.wellFormed = true) : (a.less b).wellFormed = true := by
  rw [PendingSet.wellFormed_iff] at *
  obtain ⟨hp, ⟨h1, h2, h3⟩, hv⟩ := ha
  have hdrop : ∀ {α : Type} [DecidableEq α] {P : α → Prop} {x y : Option α},
      (∀ n ∈ x, P n) → ∀ n ∈ dropEqual x y, P n := by
    intro α _ P x y hx n hn
    unfold dropEqual at hn
    split at hn
    · cases hn
    · exact hx n hn
  refine ⟨fun f => ?_, ⟨hdrop h1, hdrop h2, hdrop h3⟩, fun v => ?_⟩
  · simp only [PendingSet.less, Vector.get_zipWith]
    exact hdrop (hp f)
  · simp only [PendingSet.less, Vector.get_zipWith]
    exact hdrop (hv v)

/-- A set with well-formed stagings laid over it. -/
theorem overlays_wellFormed {gs : List Staging} (hg : ∀ g ∈ gs, g.parts.wellFormed = true) {a : PendingSet}
    (ha : a.wellFormed = true) : (gs.foldl (fun a g => a.overlay g.parts) a).wellFormed = true := by
  induction gs generalizing a with
  | nil => exact ha
  | cons g gs ih =>
    exact ih (fun k hk => hg k (List.mem_cons_of_mem g hk)) (PendingSet.overlay_wellFormed ha (hg g (by simp)))

theorem PendingSet.empty_wellFormed : PendingSet.empty.wellFormed = true := by
  rw [PendingSet.wellFormed_iff]
  refine ⟨fun f n hn => ?_, by simp [PendingSet.empty, StagedMap.empty], fun v d hd => ?_⟩
  · simp [PendingSet.empty] at hn
  · simp [PendingSet.empty] at hd

/-- Every field of a well-formed policy is in range, and W is above FREE_ATTEMPTS. -/
theorem Policy.wellFormed_iff (p : Policy) :
    p.wellFormed = true ↔ (∀ f : PolicyField, f.inRange (p.value f) = true) ∧ p.freeAttempts < p.wipeThreshold := by
  simp [Policy.wellFormed, PolicyField.mem_all]

/-- A field of two codes reads back a code put into it. -/
theorem depthCode_put {n : Nat} (h : n ≤ 1) : WipeDepth.code (if n = 0 then .keysOnly else .keysAndMedia) = n := by
  interval_cases n <;> rfl

theorem codeBool_put {n : Nat} (h : n ≤ 1) : codeBool (n != 0) = n := by
  interval_cases n <;> rfl

/-- A field reads back a value in range put into it, and the others what they held. -/
theorem Policy.value_put (p : Policy) (f g : PolicyField) {n : Nat} (hn : f.inRange n = true) :
    (p.put f n).value g = if g = f then n else p.value g := by
  by_cases hgf : g = f
  · subst hgf
    rw [if_pos rfl]
    cases g
    case wipeDepth => exact depthCode_put (by simpa [PolicyField.inRange, PolicyField.range] using hn)
    case wipeKeepAdmin => exact codeBool_put (by simpa [PolicyField.inRange, PolicyField.range] using hn)
    case driveReadOnly => exact codeBool_put (by simpa [PolicyField.inRange, PolicyField.range] using hn)
    case cellRiseReport => exact codeBool_put (by simpa [PolicyField.inRange, PolicyField.range] using hn)
    all_goals rfl
  · rw [if_neg hgf]
    cases f <;> cases g <;> first | rfl | exact absurd rfl hgf

/-- Values in range laid over a policy whose fields are in range leave them in range. -/
theorem Policy.overlay_inRange {p : Policy} {v : StagedPolicy} (hp : ∀ f : PolicyField, f.inRange (p.value f) = true)
    (hv : ∀ f : PolicyField, ∀ n ∈ v.at f, f.inRange n = true) (g : PolicyField) :
    g.inRange ((p.overlay v).value g) = true := by
  suffices h : ∀ (l : List PolicyField) (q : Policy), (∀ f : PolicyField, f.inRange (q.value f) = true) →
      g.inRange ((l.foldl (fun q f => match v.at f with
                                      | some n => q.put f n
                                      | none => q) q).value g) = true from h PolicyField.all p hp
  intro l
  induction l with
  | nil => exact fun q hq => hq g
  | cons f l ih =>
    intro q hq
    rw [List.foldl_cons]
    refine ih _ fun k => ?_
    cases hf : v.at f with
    | none => exact hq k
    | some n =>
      have hn := hv f n hf
      show k.inRange ((q.put f n).value k) = true
      rw [Policy.value_put q f k hn]
      split
      · rename_i hk
        exact hk ▸ hn
      · exact hq k

/-- FREE_ATTEMPTS and WIPE_THRESHOLD within their ranges. -/
theorem Policy.thresholds_of_inRange {p : Policy} (h : ∀ f : PolicyField, f.inRange (p.value f) = true) :
    p.freeAttempts ≤ 7 ∧ 4 ≤ p.wipeThreshold ∧ p.wipeThreshold ≤ 32 := by
  have hf : 0 ≤ p.freeAttempts ∧ p.freeAttempts ≤ 7 := of_decide_eq_true (h .freeAttempts)
  have hw : 4 ≤ p.wipeThreshold ∧ p.wipeThreshold ≤ 32 := of_decide_eq_true (h .wipeThreshold)
  exact ⟨hf.2, hw⟩

/-- W raised where it has to be makes a policy with its fields in range well formed (R129). -/
theorem Policy.raiseThreshold_wellFormed {p : Policy} (h : ∀ f : PolicyField, f.inRange (p.value f) = true) :
    p.raiseThreshold.wellFormed = true := by
  obtain ⟨hf, hw, _⟩ := Policy.thresholds_of_inRange h
  rw [Policy.wellFormed_iff]
  unfold Policy.raiseThreshold
  split
  · rename_i hle
    refine ⟨fun g => ?_, Nat.lt_succ_self _⟩
    have hr : PolicyField.inRange .wipeThreshold (p.freeAttempts + 1) = true := by
      exact decide_eq_true (show 4 ≤ p.freeAttempts + 1 ∧ p.freeAttempts + 1 ≤ 32 by omega)
    have hv := Policy.value_put p .wipeThreshold g hr
    simp only [Policy.put] at hv
    rw [hv]
    split
    · rename_i hg
      exact hg ▸ hr
    · exact h g
  · exact ⟨h, by omega⟩

/-- The defaults but for the four fields of the Attempt Limiter are well formed with them (R130). -/
theorem Policy.fallback_wellFormed {p : Policy} (h : p.wellFormed = true) : p.fallback.wellFormed = true := by
  rw [Policy.wellFormed_iff] at *
  refine ⟨fun f => ?_, h.2⟩
  have hf := h.1 f
  cases f
  case freeAttempts => exact hf
  case penaltyBase => exact hf
  case penaltyCap => exact hf
  case wipeThreshold => exact hf
  all_goals rfl

theorem LockMap.overlay_wellFormed {m : LockMap} {a : PendingSet} (hm : m.wellFormed = true)
    (ha : a.wellFormed = true) : (m.overlay a.map).wellFormed = true := by
  obtain ⟨-, ⟨h1, h2, h3⟩, -⟩ := (PendingSet.wellFormed_iff a).1 ha
  simp only [LockMap.wellFormed, Bool.and_eq_true] at hm ⊢
  obtain ⟨⟨k1, k2⟩, k3⟩ := hm
  have hget : ∀ {P : LockAction → Prop} {o : Option LockAction} {d : LockAction},
      (∀ x ∈ o, P x) → P d → P (o.getD d) := by
    intro P o d ho hd
    cases o with
    | none => exact hd
    | some x => exact ho x rfl
  exact ⟨⟨hget h1 k1, hget h2 k2⟩, hget h3 k3⟩

/-- Put a PolicyField number back: no two fields share one. -/
theorem PolicyField.number_inj {f g : PolicyField} : f.number = g.number ↔ f = g := by
  cases f <;> cases g <;> decide

theorem Vector.get_set_eq {α : Type} {n : Nat} (v : Vector α n) (i j : Fin n) (x : α) :
    (v.set i x).get j = if i = j then x else v.get j := by
  simp only [Vector.get_eq_getElem, Vector.getElem_set, Fin.ext_iff]

/-- The values an application takes are committed ones. -/
theorem State.takenPolicy_get (s : State) (f : PolicyField) :
    s.takenPolicy.get f.number =
      if s.atl.limiter.fails ≠ 0 ∧ f.held = true then none else s.plu.committed.policy.get f.number := by
  unfold State.takenPolicy
  by_cases h0 : s.atl.limiter.fails = 0
  · simp [h0]
  · have hfold : ∀ (l : List PolicyField) (v : StagedPolicy),
        (l.foldl (fun v g => if g.held then v.set g.number none else v) v).get f.number =
          if f ∈ l ∧ f.held = true then none else v.get f.number := by
      intro l
      induction l with
      | nil => simp
      | cons g l ih =>
        intro v
        rw [List.foldl_cons, ih]
        by_cases hm : f ∈ l
        · by_cases hh : f.held = true <;> by_cases hg : g.held = true <;>
            simp [hm, hh, hg, Vector.get_set_eq, PolicyField.number_inj]
          rintro rfl
          exact absurd hg hh
        · by_cases hgf : g = f
          · subst hgf
            by_cases hg : g.held = true <;> simp [hm, hg, Vector.get_set_eq]
          · have hfg : f ≠ g := fun h => hgf h.symm
            by_cases hg : g.held = true <;>
              simp [hm, hg, hgf, hfg, Vector.get_set_eq, PolicyField.number_inj]
    rw [if_neg h0, hfold]
    simp [h0, PolicyField.mem_all]

end Sys2Proof.Machine
end

