-- ==== Sys2Proof/Proofs/KeepsSettings.lean ====
section
/-! The settings, the volumes and the slots: what their operations keep. -/

namespace Sys2Proof.Machine

/-! ## Volumes (R82, R84, R95, R97, R98) -/

theorem VolumeRecord.unused_shaped (n : Nat) : (VolumeRecord.unused n).shaped = true := by
  simp [VolumeRecord.shaped, VolumeRecord.unused]

theorem keeps_setVolume {i : VolIx} {v : VolumeRecord} {s : State} (hv : s.Body → v.shaped = true) :
    Keeps s (s.setVolume i v) :=
  keeps_of_body fun hb => keeps_onKru fun h j => by
    rw [Vector.get_set_eq]
    split
    · exact hv hb
    · exact h j

theorem keeps_writeVolume {i : VolIx} {v : VolumeRecord} {p : Purpose} {s : State} (hv : s.Body → v.shaped = true)
    (hw : p.waiter = none) (hf : p.ofFlight = false) : Keeps s (s.writeVolume i v p) :=
  (keeps_setVolume hv).trans (keeps_requestWrite trivial hw hf)

theorem keeps_drawKey (s : State) : Keeps s s.drawKey.2 :=
  keeps_onKru (f := fun k => { k with keyDraws := k.keyDraws + 1 }) fun h => h

theorem keeps_volumeFailed (i : VolIx) (s : State) : Keeps s (s.volumeFailed i) := by
  unfold State.volumeFailed
  split
  · exact keeps_refl s
  · exact keeps_setVolume fun _ => VolumeRecord.unused_shaped _

/-- A PRESENT volume with another flag has the fields of its state. -/
theorem VolumeRecord.shaped_flag {v : VolumeRecord} (h : v.shaped = true) (hs : v.state = .present) (ro : Bool) :
    ({ v with readOnly := some ro } : VolumeRecord).shaped = true := by
  simp only [VolumeRecord.shaped, hs, Bool.and_eq_true] at h ⊢
  simp [h]

/-- A destroyed volume has the fields of its state. -/
theorem VolumeRecord.destroyed_shaped {v : VolumeRecord} (h : v.shaped = true) : v.destroyed.shaped = true := by
  cases hs : v.state with
  | unused =>
    simp only [VolumeRecord.shaped, hs, beq_iff_eq] at h
    rw [h]
    exact VolumeRecord.unused_shaped _
  | present =>
    simp only [VolumeRecord.shaped, hs, Bool.and_eq_true] at h
    simp [VolumeRecord.destroyed, VolumeRecord.shaped, hs, h]
  | erasing =>
    simp only [VolumeRecord.shaped, hs, Bool.and_eq_true] at h
    simp [VolumeRecord.destroyed, VolumeRecord.shaped, hs, h]

theorem keeps_applyDef (i : VolIx) (d : VolumeDef) (s : State) : Keeps s (s.applyDef i d).1 := by
  unfold State.applyDef
  cases d with
  | range first count ro =>
    dsimp only
    split
    · rename_i h
      split
      · exact keeps_refl s
      · exact keeps_writeVolume (fun hb => VolumeRecord.shaped_flag (hb.kru i) h.1 ro) rfl rfl
    · exact (keeps_drawKey s).trans (keeps_writeVolume (fun _ => rfl) rfl rfl)
  | unused =>
    dsimp only
    split
    · exact keeps_refl s
    · exact keeps_writeVolume (fun _ => VolumeRecord.unused_shaped _) rfl rfl

theorem keeps_destroyVolume (i : VolIx) (s : State) : Keeps s (s.destroyVolume i) :=
  keeps_writeVolume (fun hb => VolumeRecord.destroyed_shaped (hb.kru i)) rfl rfl

theorem keeps_rekeyVolume (i : VolIx) (first count target : Nat) (b : Bool) (s : State) :
    Keeps s (s.rekeyVolume i first count target b) :=
  (keeps_drawKey s).trans (keeps_writeVolume (fun _ => rfl) rfl rfl)

/-! ## The Pending Set (R124, R129 to R131) -/

theorem keeps_requestPendingSet (s : State) : Keeps s s.requestPendingSet :=
  keeps_of_body fun hb => keeps_requestWrite
    (overlays_wellFormed hb.plu.inflight (PendingSet.less_wellFormed hb.plu.committed)) rfl rfl

theorem keeps_setMap {m : LockMap} {s : State} (hm : s.Body → m.wellFormed = true) : Keeps s (s.setMap m) := by
  refine keeps_of_body fun hb => ?_
  have h1 : Keeps s (s.onPlu fun p => { p with map := m }) :=
    keeps_onPlu (fun h => { h with map := hm hb }) (List.Sublist.refl _)
  unfold State.setMap
  refine Keeps.trans ?_ (keeps_tellGate _ _)
  split
  · exact h1
  · exact h1.trans (keeps_postAccessChanged _)

theorem keeps_applyPolicy (s : State) : Keeps s s.applyPolicy.1 := by
  refine keeps_of_body fun hb => ?_
  have hv : ∀ f : PolicyField, ∀ n ∈ s.takenPolicy.at f, f.inRange n = true := by
    intro f n hn
    rw [StagedPolicy.at, State.takenPolicy_get] at hn
    split at hn
    · cases hn
    · exact ((PendingSet.wellFormed_iff _).1 hb.plu.committed).1 f n hn
  have hq : ((s.plu.policy.overlay s.takenPolicy).raiseThreshold).wellFormed = true :=
    Policy.raiseThreshold_wellFormed (Policy.overlay_inRange ((Policy.wellFormed_iff _).1 hb.plu.policy).1 hv)
  unfold State.applyPolicy
  dsimp only
  split
  · exact keeps_refl s
  · split
    · exact keeps_refl s
    · have h : Keeps s (s.onPlu fun p =>
          { p with policy := (s.plu.policy.overlay s.takenPolicy).raiseThreshold }) :=
        keeps_onPlu (fun h => ⟨hq, h.map, h.committed, h.inflight⟩) (List.Sublist.refl _)
      exact h.trans (keeps_requestWrite (c := .policy _) trivial rfl rfl)

theorem keeps_applyMap (s : State) : Keeps s s.applyMap.1 := by
  unfold State.applyMap
  dsimp only
  split
  · exact keeps_refl s
  · split
    · exact keeps_refl s
    · have h : Keeps s (s.setMap (s.plu.map.overlay s.plu.committed.map)) :=
        keeps_setMap fun hb => LockMap.overlay_wellFormed hb.plu.map hb.plu.committed
      exact h.trans (keeps_requestWrite (c := .map _) trivial rfl rfl)

theorem keeps_applyVolume (i : VolIx) (s : State) : Keeps s (s.applyVolume i).1 := by
  unfold State.applyVolume
  split
  · exact keeps_refl s
  · exact keeps_applyDef _ _ s

/-- The four volumes in index order. -/
theorem State.applyVolumes_fst (s : State) : s.applyVolumes.1 =
    ((((s.applyVolume 0).1.applyVolume 1).1.applyVolume 2).1.applyVolume 3).1 := rfl

theorem keeps_applyVolumes (s : State) : Keeps s s.applyVolumes.1 := by
  rw [State.applyVolumes_fst]
  exact (keeps_applyVolume 0 s).trans <| (keeps_applyVolume 1 _).trans <|
    (keeps_applyVolume 2 _).trans (keeps_applyVolume 3 _)

theorem keeps_settle (s : State) : Keeps s s.settle := by
  unfold State.settle
  split
  · exact keeps_refl s
  · rename_i a _
    have h : Keeps s (s.onPlu fun p => { p with applying := none, removing := p.removing.overlay a.doneParts }) :=
      keeps_onPlu (fun h => ⟨h.policy, h.map, h.committed, h.inflight⟩) (List.Sublist.refl _)
    exact keeps_ite (fun _ => keeps_refl s) fun _ =>
      keeps_ite (fun _ => h) fun _ => h.trans (keeps_requestPendingSet _)

theorem keeps_setApplying (f : Plu → Option Application) (s : State) :
    Keeps s (s.onPlu fun p => { p with applying := f p }) :=
  keeps_onPlu (fun h => ⟨h.policy, h.map, h.committed, h.inflight⟩) (List.Sublist.refl _)

theorem keeps_applyPendingSet (s : State) : Keeps s s.applyPendingSet := by
  unfold State.applyPendingSet
  exact (keeps_applyPolicy s).trans <| (keeps_applyMap _).trans <| (keeps_applyVolumes _).trans <|
    (keeps_setApplying _ _).trans (keeps_settle _)

theorem keeps_partEnded (f : Application → Application) (s : State) : Keeps s (s.partEnded f) :=
  (keeps_setApplying (fun p => p.applying.map f) s).trans (keeps_settle _)

theorem keeps_policyDone (s : State) : Keeps s s.policyDone :=
  (keeps_onPlu (f := fun p => { p with policyFault := false }) (fun h => ⟨h.policy, h.map, h.committed, h.inflight⟩)
    (List.Sublist.refl _)).trans (keeps_partEnded _ _)

theorem keeps_policyFailed (s : State) : Keeps s s.policyFailed :=
  (keeps_onPlu (f := fun p => { p with policy := p.policy.fallback, policyFault := true })
    (fun h => ⟨Policy.fallback_wellFormed h.policy, h.map, h.committed, h.inflight⟩)
    (List.Sublist.refl _)).trans (keeps_partEnded _ _)

theorem keeps_mapDone (s : State) : Keeps s s.mapDone :=
  (keeps_onPlu (f := fun p => { p with mapFault := false }) (fun h => ⟨h.policy, h.map, h.committed, h.inflight⟩)
    (List.Sublist.refl _)).trans (keeps_partEnded _ _)

theorem keeps_mapFailed (s : State) : Keeps s s.mapFailed :=
  (keeps_setMap (m := .default) fun _ => rfl).trans <|
    (keeps_onPlu (f := fun p => { p with mapFault := true }) (fun h => ⟨h.policy, h.map, h.committed, h.inflight⟩)
      (List.Sublist.refl _)).trans (keeps_partEnded _ _)

theorem keeps_volumePartEnded (i : VolIx) (st : PartStatus) (s : State) : Keeps s (s.volumePartEnded i st) :=
  keeps_partEnded _ s

/-! ## Answers to stagings -/

/-- Each of some stagings that no longer count is answered on its own link. -/
theorem keeps_foldl_answers {mk : Staging → State → State}
    (hmk : ∀ g s, (∀ l ∈ g.requester, l ∉ s.waiters) → Keeps s (mk g s)) (gs : List Staging) {s : State}
    (h : ∀ g ∈ gs, ∀ l ∈ g.requester, l ∉ s.waiters) : Keeps s (gs.foldl (fun t g => mk g t) s) := by
  induction gs generalizing s with
  | nil => exact keeps_refl s
  | cons g gs ih =>
    have hg := hmk g s (h g (by simp))
    refine keeps_of_body fun hb => hg.trans (ih fun k hk l hl => ?_)
    exact (hg hb).free (h k (List.mem_cons_of_mem g hk) l hl)

/-- The requester of a staging taken out of flight waits for nothing else. -/
theorem Waits.not_mem_of_filter {f : Option Flight} {gs : List Staging} {r : Rsc} {u : Liu} (h : Waits f gs r u)
    (keep : Staging → Bool) {g : Staging} (hg : g ∈ gs) (hk : keep g = false) {l : Link} (hl : l ∈ g.requester) :
    l ∉ waitersOf f (gs.filter keep) r := by
  obtain ⟨a, b, rfl⟩ := List.append_of_mem hg
  have hn : ((l :: waitersOf f (a ++ b) r)).Nodup := by
    refine (List.Perm.nodup_iff ?_).1 h.once
    simp only [waitersOf, storeWaiters, List.filterMap_append, List.filterMap_cons, Option.mem_def.1 hl,
      List.append_assoc, List.cons_append]
    rw [← List.append_assoc, ← List.append_assoc]
    exact List.perm_middle
  have hsub : (waitersOf f ((a ++ g :: b).filter keep) r).Sublist (waitersOf f (a ++ b) r) := by
    refine (List.Sublist.refl _).append (List.Sublist.append (List.Sublist.filterMap _ ?_) (List.Sublist.refl _))
    simp only [List.filter_append, List.filter_cons, hk]
    exact List.filter_sublist.append List.filter_sublist
  exact fun hm => (List.nodup_cons.1 hn).1 (hsub.subset hm)

/-- The stagings a write carried are out of flight and answered, each on its own link. -/
theorem keeps_answerStagings {mk : Staging → State → State}
    (hmk : ∀ g s, (∀ l ∈ g.requester, l ∉ s.waiters) → Keeps s (mk g s)) (carried : List Nat) (s : State) :
    Keeps s (s.answerStagings mk carried) := by
  refine keeps_of_body fun hb => ?_
  have h1 : Keeps s (s.onPlu fun p => { p with inflight := p.inflight.filter fun g => !carried.contains g.id }) :=
    keeps_onPlu (fun h => { h with inflight := fun g hg => h.inflight g (List.mem_filter.1 hg).1 }) List.filter_sublist
  refine h1.trans (keeps_foldl_answers hmk _ fun g hg l hl => ?_)
  obtain ⟨hg, hc⟩ := List.mem_filter.1 hg
  rw [State.waiters_eq]
  exact hb.wait.not_mem_of_filter _ hg (by simpa using hc) hl

theorem keeps_psetDone {a : PendingSet} (carried : List Nat) (discarded : Bool) {s : State}
    (ha : a.wellFormed = true) : Keeps s (s.psetDone a carried discarded) := by
  unfold State.psetDone
  refine Keeps.trans (keeps_onPlu (fun h => ⟨h.policy, h.map, ?_, h.inflight⟩) (List.Sublist.refl _))
    (keeps_answerStagings (fun g s h => keeps_replyOkTo _ h) carried _)
  dsimp only
  split
  · exact h.committed
  · exact ha

theorem keeps_psetFailed (carried : List Nat) (s : State) : Keeps s (s.psetFailed carried) := by
  unfold State.psetFailed
  have h : Keeps s (State.answerStagings (fun g w => w.refuseTo g.requester .storeFault) carried
      (s.onPlu fun p => { p with psetFault := true, removing := if s.psetWaits then p.removing else .empty })) :=
    Keeps.trans (keeps_onPlu (fun h => ⟨h.policy, h.map, h.committed, h.inflight⟩) (List.Sublist.refl _))
      (keeps_answerStagings (fun g s h => keeps_refuseTo _ h) carried _)
  exact keeps_ite (fun _ => h.trans (keeps_requestPendingSet _)) fun _ => h

/-! ## The discard (R131) -/

/-- Changing purposes alone leaves the records and the contents of the writes. -/
def Rsc.mapPurpose (f : Purpose → Purpose) (r : Rsc) : Rsc :=
  { current := r.current.map fun w => { w with entry := { w.entry with purpose := f w.entry.purpose } }
    queue := r.queue.map fun e => { e with purpose := f e.purpose } }

theorem Rsc.mapPurpose_entries (f : Purpose → Purpose) (r : Rsc) :
    (r.mapPurpose f).entries = r.entries.map fun e => { e with purpose := f e.purpose } := by
  obtain ⟨c, q⟩ := r
  cases c <;> simp [Rsc.mapPurpose, Rsc.entries]

theorem Rsc.Ok.mapPurpose {r : Rsc} (h : r.Ok) (f : Purpose → Purpose) : (r.mapPurpose f).Ok := by
  refine ⟨?_, fun w hw => ?_, fun e he => ?_⟩
  · have hid : (r.mapPurpose f).queue.map WriteEntry.id = r.queue.map WriteEntry.id := by
      simp [Rsc.mapPurpose, WriteEntry.id]
    exact hid ▸ h.waiting
  · simp only [Rsc.mapPurpose, Option.map_eq_some_iff] at hw
    obtain ⟨v, hv, rfl⟩ := hw
    exact h.attempt v hv
  · rw [Rsc.mapPurpose_entries] at he
    obtain ⟨d, hd, rfl⟩ := List.mem_map.1 he
    exact h.contents d hd

/-- A change of purposes that only drops waiters and leaves the flights' writes. -/
theorem keeps_mapPurpose {f : Purpose → Purpose} {s : State} (hw : ∀ p, (f p).waiter = p.waiter ∨ (f p).waiter = none)
    (hf : ∀ p, (f p).ofFlight = p.ofFlight) (hp : ∀ p, p.ofFlight = true → f p = p) :
    Keeps s (s.onRsc (Rsc.mapPurpose f)) := by
  refine keeps_onRsc (fun h => h.mapPurpose f) ((List.Sublist.refl _).append ?_) ?_
  · rw [Rsc.mapPurpose_entries, List.filterMap_map]
    induction s.rsc.entries with
    | nil => exact List.Sublist.refl _
    | cons e es ih =>
      rcases hw e.purpose with h | h
      · cases hq : e.purpose.waiter <;> simp [h, hq] <;> exact ih
      · cases hq : e.purpose.waiter <;> simp [h, hq]
        · exact ih
        · exact ih.cons _
  · rw [Rsc.mapPurpose_entries]
    induction s.rsc.entries with
    | nil => exact List.Sublist.refl _
    | cons e es ih =>
      cases hq : e.purpose.ofFlight with
      | true => simpa [List.filter_cons, hf, hq, hp _ hq] using ih
      | false => simpa [List.filter_cons, hf, hq] using ih

theorem keeps_markDiscarded (s : State) : Keeps s (s.onRsc Rsc.markDiscarded) :=
  keeps_mapPurpose (f := Purpose.markDiscarded) (fun p => .inl (by cases p <;> rfl)) (fun p => by cases p <;> rfl)
    fun p hp => by cases p <;> first | rfl | cases hp

theorem keeps_discardPendingSet (s : State) : Keeps s s.discardPendingSet := by
  refine keeps_of_body fun hb => ?_
  have h1 : Keeps s (s.onPlu fun p =>
      { p with committed := .empty, inflight := [], applying := none, removing := .empty }) :=
    keeps_onPlu (fun h => ⟨h.policy, h.map, PendingSet.empty_wellFormed, by simp⟩) (List.nil_sublist _)
  have h2 := h1.trans (keeps_markDiscarded _)
  have h3 : Keeps s (s.plu.inflight.foldl (fun w g => w.refuseTo g.requester .wiping) _) :=
    h2.trans (keeps_foldl_answers (mk := fun g w => w.refuseTo g.requester .wiping) (fun g s h => keeps_refuseTo _ h)
      s.plu.inflight fun g hg l hl => ?_)
  · exact keeps_ite (fun _ => h3.trans (keeps_requestWrite PendingSet.empty_wellFormed rfl rfl)) fun _ => h3
  · have hn := hb.wait.not_mem_of_filter (fun _ => false) hg rfl hl
    refine ((keeps_markDiscarded _) (h1 hb).body).free ?_
    rw [State.waiters_eq]
    simpa using hn

/-! ## Slots -/

theorem slotWellFormed_empty (i : SlotIx) : slotWellFormed i .empty = true := by simp [slotWellFormed, SlotRecord.empty]

theorem slotWellFormed_spent : slotWellFormed 9 .spentRecord = true := rfl

/-- A cell of the working copy is set. -/
theorem keeps_setCell {i : SlotIx} {c : SlotCell} {s : State} (hr : s.Body → slotWellFormed i c.record = true)
    (hs : s.Body → c.shadow.isSome = true → c.fault = true) : Keeps s (s.setCell i c) := by
  refine keeps_of_body fun hb => keeps_onCtb fun h => ⟨fun j => ?_, fun j => ?_⟩
  · rw [Vector.get_set_eq]
    split
    · rename_i hij
      exact hij ▸ hr hb
    · exact h.slots j
  · rw [Vector.get_set_eq]
    split
    · exact hs hb
    · exact h.shadow j

theorem keeps_slotDone {i : SlotIx} {r : SlotRecord} {s : State} (hr : slotWellFormed i r = true) :
    Keeps s (s.slotDone i r) :=
  keeps_setCell (fun _ => hr) fun _ h => by simp [SlotCell.of] at h

theorem keeps_slotFailed (i : SlotIx) (r : SlotRecord) (s : State) : Keeps s (s.slotFailed i r) :=
  keeps_setCell (fun hb => hb.ctb.slots i) fun _ _ => rfl

theorem keeps_destroyFailed (i : SlotIx) (old : Option Verifier) (s : State) : Keeps s (s.destroyFailed i old) :=
  keeps_setCell (fun _ => slotWellFormed_empty i) fun _ _ => rfl

/-- The purpose found for a record is that of its waiting entry. -/
theorem waitingPurpose_eq_some {id : RecordId} {q : List WriteEntry} {p : Purpose} (h : waitingPurpose id q = some p) :
    ∃ e ∈ q, e.id = id ∧ e.purpose = p := by
  induction q with
  | nil => cases h
  | cons w rest ih =>
    unfold waitingPurpose at h
    split at h
    · rename_i hw
      exact ⟨w, by simp, hw, by simpa using h⟩
    · obtain ⟨e, he, hp⟩ := ih h
      exact ⟨e, List.mem_cons_of_mem w he, hp⟩

end Sys2Proof.Machine
end

