-- ==== Sys2Proof/Proofs/KeepsAccess.lean ====
section
/-! Access changes, wipes and lock causes: what their operations keep. -/

namespace Sys2Proof.Machine

/-! ## The destroy of a slot (R8, R19) -/

/-- A request for a record that has a waiting entry takes that entry's place. -/
theorem enqueueEntry_waiting {e : WriteEntry} {q : List WriteEntry} {p : Purpose} (h : waitingPurpose e.id q = some p) :
    ∃ pre w post, q = pre ++ w :: post ∧ w.purpose = p ∧ enqueueEntry e q = pre ++ e :: post := by
  induction q with
  | nil => cases h
  | cons w rest ih =>
    unfold waitingPurpose at h
    by_cases hw : w.id = e.id
    · exact ⟨[], w, rest, rfl, by simpa [hw] using h, by simp [enqueueEntry, hw]⟩
    · obtain ⟨pre, v, post, hq, hp, he⟩ := ih (by simpa [hw] using h)
      exact ⟨w :: pre, v, post, by simp [hq], hp, by simp [enqueueEntry, hw, he]⟩

theorem Rsc.request_waiting {e : WriteEntry} {r : Rsc} {p : Purpose} (h : waitingPurpose e.id r.queue = some p) :
    ∃ pre w post, r.entries = pre ++ w :: post ∧ w.purpose = p ∧ (r.request e).entries = pre ++ e :: post := by
  obtain ⟨pre, w, post, hq, hp, he⟩ := enqueueEntry_waiting h
  rcases r.request_cases e with ⟨_, hn, _⟩ | ⟨_, hr⟩
  · rw [hn] at h; cases h
  · exact ⟨(r.current.map CurrentWrite.entry).toList ++ pre, w, post, by simp [Rsc.entries, hq], hp,
      by simp [hr, Rsc.entries, he]⟩

/-- The requester of a superseded write waits for nothing once the write that supersedes it is in its place. -/
theorem Waits.superseded {f : Option Flight} {gs : List Staging} {r : Rsc} {u : Liu} (h : Waits f gs r u)
    {e : WriteEntry} {p : Purpose} (hp : waitingPurpose e.id r.queue = some p) (he : e.purpose.waiter = none) {l : Link}
    (hl : l ∈ p.waiter) : l ∉ waitersOf f gs (r.request e) := by
  obtain ⟨pre, w, post, hr, rfl, hq⟩ := r.request_waiting hp
  have hn : (l :: waitersOf f gs (r.request e)).Nodup := by
    refine (List.Perm.nodup_iff ?_).1 h.once
    simp only [waitersOf, storeWaiters, hr, hq, List.filterMap_append, List.filterMap_cons, Option.mem_def.1 hl, he]
    rw [← List.append_assoc, ← List.append_assoc, ← List.append_assoc, ← List.append_assoc]
    exact List.perm_middle
  exact (List.nodup_cons.1 hn).1

/-- Where the one write of a flight is superseded, none is left. -/
theorem Waits.superseded_flight {f : Option Flight} {gs : List Staging} {r : Rsc} {u : Liu} (h : Waits f gs r u)
    {e : WriteEntry} {p : Purpose} (hp : waitingPurpose e.id r.queue = some p) (he : e.purpose.ofFlight = false)
    (hf : p.ofFlight = true) : ∀ d ∈ (r.request e).entries, d.purpose.ofFlight = false := by
  obtain ⟨pre, w, post, hr, rfl, hq⟩ := r.request_waiting hp
  have hs := h.single
  rw [hr] at hs
  simp only [List.filter_append, List.filter_cons, hf, if_true, List.length_append, List.length_cons] at hs
  have hpre : pre.filter (fun e => e.purpose.ofFlight) = [] := List.length_eq_zero_iff.1 (by omega)
  have hpost : post.filter (fun e => e.purpose.ofFlight) = [] := List.length_eq_zero_iff.1 (by omega)
  rw [List.filter_eq_nil_iff] at hpre hpost
  intro d hd
  rw [hq] at hd
  rcases List.mem_append.1 hd with hd | hd
  · simpa using hpre d hd
  · rcases List.mem_cons.1 hd with rfl | hd
    · exact he
    · simpa using hpost d hd

/-- A request and an answer touch different blocks. -/
theorem State.refuseTo_requestWrite (o : Option Link) (r : Reason) (c : Contents) (p : Purpose) (s : State) :
    (s.refuseTo o r).requestWrite c p = (s.requestWrite c p).refuseTo o r := by cases o <;> rfl

theorem State.autoDialogue_requestWrite (c : Contents) (p : Purpose) (s : State) :
    s.autoDialogue.requestWrite c p = (s.requestWrite c p).autoDialogue :=
  apply_ite (State.requestWrite c p) _ _ _

theorem State.refuseEnrolment_requestWrite (r : Reason) (c : Contents) (p : Purpose) (s : State) :
    (s.refuseEnrolment r).requestWrite c p = (s.requestWrite c p).refuseEnrolment r := by
  show (s.landEnrolment.requestWrite c p).refuse .p r = _
  rw [State.landEnrolment_eq, State.autoDialogue_requestWrite]
  rfl

/-- The destroy of a slot, with its write requested first. -/
theorem keeps_destroySlot (i : SlotIx) (s : State) : Keeps s (s.destroySlot i) := by
  refine keeps_of_body fun hb => ?_
  let e : WriteEntry := { contents := .slot i .empty, purpose := .slotDestroy i (s.cell i).record.verifier }
  have hreq : Keeps s (s.requestWrite e.contents e.purpose) :=
    keeps_requestWrite (slotWellFormed_empty i) rfl rfl
  have hkey : Keeps s ((s.answerSuperseded i).requestWrite e.contents e.purpose) := by
    unfold State.answerSuperseded
    split
    · rename_i req hw
      rw [State.refuseTo_requestWrite]
      refine hreq.trans (keeps_refuseTo _ fun l hl => ?_)
      rw [State.waiters_eq]
      exact hb.wait.superseded (e := e) hw rfl hl
    · rename_i j hw
      rw [State.refuseEnrolment_requestWrite]
      have hf := hb.wait.superseded_flight (e := e) hw rfl rfl
      refine hreq.trans (keeps_refuseEnrolment _ hf ?_)
      obtain ⟨d, hd, -, hp⟩ := waitingPurpose_eq_some hw
      obtain ⟨g, hg, -⟩ := hb.wait.flight d (by simp [Rsc.entries, hd]) (by rw [hp]; rfl)
      exact (hreq hb).body.panelFree (by rw [show (s.requestWrite e.contents e.purpose).keu = s.keu from rfl, hg]; rfl)
    · exact hreq
  have hcell : ∀ t : State, t.ctb = s.ctb → Keeps t (t.setCell i { s.cell i with record := .empty }) := fun t ht =>
    keeps_setCell (fun _ => slotWellFormed_empty i) fun hb' => by
      have hsh := hb'.ctb.shadow i
      rw [ht] at hsh
      exact hsh
  have hctb : ((s.answerSuperseded i).requestWrite e.contents e.purpose).ctb = s.ctb := by
    show (s.answerSuperseded i).ctb = s.ctb
    unfold State.answerSuperseded
    split
    · exact (refuseTo_frame _ _ s) .ctb (by simp)
    · exact ((answer_frame .p _ s.landEnrolment) .ctb (by simp)).trans (endDialogue_frame _ .ctb (by simp))
    · rfl
  exact hkey.trans (hcell _ hctb)

theorem keeps_destroy (d : Destroy) (s : State) : Keeps s (s.destroy d) := by
  cases d with
  | volume i => exact keeps_destroyVolume i s
  | slot i => exact keeps_destroySlot i s

/-! ## Access changes -/

theorem keeps_changeAccess (a : Access) (o : Option SlotIx) (s : State) : Keeps s (s.changeAccess a o) :=
  (keeps_onAcc rfl rfl).trans ((keeps_interruptEntry _).trans (keeps_postAccessChanged _))

theorem keeps_closeOpen (s : State) : Keeps s s.closeOpen :=
  (keeps_onAcc rfl rfl).trans ((keeps_withdrawLockPending _).trans (keeps_revokeKeys _))

theorem keeps_enterLocked (s : State) : Keeps s s.enterLocked :=
  (keeps_applyPendingSet s).trans (keeps_changeAccess _ _ _)

theorem keeps_completeLock (s : State) : Keeps s s.completeLock := (keeps_closeOpen s).trans (keeps_enterLocked _)

theorem keeps_leaveConfig (s : State) : Keeps s s.leaveConfig := keeps_onAcc rfl rfl

theorem keeps_endConfig (s : State) : Keeps s s.endConfig := (keeps_leaveConfig s).trans (keeps_enterLocked _)

theorem keeps_offerLock (c : LockCause) (n : Nat) (s : State) : Keeps s (s.offerLock c n) := keeps_postB _ s

theorem keeps_enterLocking (c : LockCause) (s : State) : Keeps s (s.enterLocking c) :=
  Keeps.trans (t := State.onAcc _ s) (keeps_onAcc rfl rfl) ((keeps_offerLock _ _ _).trans (keeps_changeAccess _ _ _))

theorem keeps_openUnlocked (i : SlotIx) (s : State) : Keeps s (s.openUnlocked i) := by
  unfold State.openUnlocked
  refine Keeps.trans ?_ (keeps_changeAccess _ _ _)
  exact keeps_ite (fun _ => keeps_onAcc rfl rfl) fun _ => keeps_onAcc rfl rfl

theorem keeps_openConfig (i : SlotIx) (s : State) : Keeps s (s.openConfig i) :=
  (keeps_onAcc rfl rfl).trans (keeps_changeAccess _ _ _)

theorem keeps_stopPenalty (s : State) : Keeps s s.stopPenalty := keeps_onAtl (fun h => nomatch h)

theorem Wpe.init_attempt : 1 ≤ Wpe.init.attempt ∧ Wpe.init.attempt ≤ 3 := by decide

/-- The WPE at rest has no order. -/
theorem Wpe.init_ok (b : BridgeState) : Wpe.init.Ok b :=
  ⟨by simp [Wpe.init], by simp [Wpe.init], by simp [Wpe.init]⟩

/-- The WPE without an order. -/
theorem Wpe.Ok.of_no_order {w : Wpe} (ho : w.order = none) (ht : w.orderTimer = none) (ha : 1 ≤ w.attempt ∧ w.attempt ≤ 3)
    (b : BridgeState) : w.Ok b := ⟨by simp [ho], by simp [ht], ha⟩

/-- A change of the WPE that leaves its order. -/
theorem Wpe.Ok.of_same {v w : Wpe} {b : BridgeState} (h : v.Ok b) (ho : w.order = v.order)
    (ht : w.orderTimer = v.orderTimer) (ha : w.attempt = v.attempt) : w.Ok b :=
  ⟨ho ▸ h.order, by rw [ht, ho]; exact h.timer, ha ▸ h.attempt⟩

theorem keeps_wpeSame {f : Wpe → Wpe} {s : State} (ho : (f s.wpe).order = s.wpe.order)
    (ht : (f s.wpe).orderTimer = s.wpe.orderTimer) (ha : (f s.wpe).attempt = s.wpe.attempt) : Keeps s (s.onWpe f) :=
  keeps_onWpe fun h => h.of_same ho ht ha

theorem keeps_wpeInit (s : State) : Keeps s (s.onWpe fun _ => Wpe.init) := keeps_onWpe fun _ => Wpe.init_ok _

theorem keeps_enterHalted (s : State) : Keeps s s.enterHalted :=
  keeps_ite (fun _ => keeps_refl s) fun _ =>
    (keeps_onAcc rfl rfl).trans <| (keeps_stopPenalty _).trans <| (keeps_wpeInit _).trans <|
      (keeps_withdrawLockPending _).trans <| (keeps_revokeKeys _).trans (keeps_changeAccess _ _ _)

/-! ## Wipes -/

theorem keeps_postWipeState (s : State) : Keeps s s.postWipeState := by
  unfold State.postWipeState
  split
  · exact keeps_postP _ s
  · exact keeps_refl s

theorem keeps_refreshRun (s : State) : Keeps s s.refreshRun :=
  keeps_ite (fun _ => (keeps_wpeSame rfl rfl rfl).trans (keeps_postWipeState _)) fun _ => keeps_refl s

theorem keeps_quitForWipe (s : State) : Keeps s s.quitForWipe := by
  unfold State.quitForWipe
  split
  · exact keeps_closeOpen s
  · exact keeps_closeOpen s
  · exact keeps_leaveConfig s
  all_goals exact keeps_refl s

theorem keeps_armWipe (c : WipeCause) (s : State) : Keeps s (s.armWipe c) :=
  (keeps_onWpe fun _ => ⟨by simp [Wpe.init], by simp [Wpe.init], Wpe.init_attempt⟩).trans (keeps_requestWrite (c := .journal _) trivial rfl rfl)

theorem keeps_startWipe (c : WipeCause) (s : State) : Keeps s (s.startWipe c) := by
  refine keeps_ite (fun _ => keeps_refl s) fun _ => ?_
  refine Keeps.trans ?_ (keeps_wpeSame rfl rfl rfl)
  exact (keeps_quitForWipe s).trans <| (keeps_stopPenalty _).trans <| (keeps_discardPendingSet _).trans <|
    (keeps_armWipe c _).trans (keeps_changeAccess _ _ _)

theorem keeps_boundaryWrite (w : WipeRecord) (step : WipeStep) (s : State) : Keeps s (s.boundaryWrite w step) :=
  keeps_requestWrite (c := .journal _) trivial rfl rfl

theorem keeps_cursorWrite (w : WipeRecord) (c : Cursor) (s : State) : Keeps s (s.cursorWrite w c) :=
  keeps_requestWrite (c := .journal _) trivial rfl rfl

theorem keeps_postEraseWork (w : WipeRecord) (s : State) : Keeps s (s.postEraseWork w) := keeps_postB _ s

theorem keeps_formOrder (w : WipeRecord) (s : State) : Keeps s (s.formOrder w) := by
  unfold State.formOrder
  split
  · exact keeps_boundaryWrite _ _ s
  · split
    · rename_i hbr hno _
      refine keeps_ite (fun _ => ?_) fun _ => keeps_cursorWrite _ _ s
      refine Keeps.trans (keeps_onWpe fun h => ?_) (keeps_postEraseWork _ _)
      refine ⟨fun _ => hbr, fun ht => ?_, h.attempt⟩
      obtain ⟨o, ho, -⟩ := h.timer ht
      rw [hno] at ho; cases ho
    · exact keeps_refl s

theorem keeps_rekeyOne (w : WipeRecord) (i : VolIx) (s : State) : Keeps s (s.rekeyOne w i) := by
  unfold State.rekeyOne
  split <;> exact keeps_rekeyVolume _ _ _ _ _ s

theorem keeps_rekeyNext (w : WipeRecord) (k : Nat) (s : State) : Keeps s (s.rekeyNext w k) := by
  unfold State.rekeyNext
  split
  · exact (keeps_wpeSame rfl rfl rfl).trans (keeps_rekeyOne _ _ _)
  · exact keeps_requestWrite (c := .journal _) trivial rfl rfl

theorem keeps_passEnded (w : WipeRecord) (pass : Nat) (faulted : Bool) (s : State) :
    Keeps s (s.passEnded w pass faulted) :=
  keeps_ite (fun _ => keeps_boundaryWrite _ _ s) fun _ =>
    keeps_ite (fun _ => (keeps_wpeSame rfl rfl rfl).trans (keeps_destroy _ _)) fun _ =>
      (keeps_wpeSame rfl rfl rfl).trans (keeps_refreshRun _)

/-- The WPE's next action, whichever it is. -/
theorem keeps_proceed (s : State) : Keeps s s.proceed := by
  refine keeps_ite (fun _ => keeps_refl s) fun _ => ?_
  split
  · exact keeps_refl s
  · split
    case h_4 =>
      split
      · exact keeps_destroy _ s
      · exact keeps_passEnded _ _ _ s
    case h_5 => exact (keeps_stopPenalty s).trans (keeps_requestWrite (c := .limiter _) trivial rfl rfl)
    case h_6 => exact keeps_boundaryWrite _ _ s
    case h_7 => exact keeps_formOrder _ s
    case h_8 => exact keeps_rekeyNext _ _ s
    all_goals exact keeps_refl s

theorem keeps_wpeTold (s : State) : Keeps s s.wpeTold := (keeps_refreshRun s).trans (keeps_proceed _)

theorem keeps_destroyAnswered (ok : Bool) (s : State) : Keeps s (s.destroyAnswered ok) :=
  (keeps_wpeSame rfl rfl rfl).trans (keeps_proceed _)

theorem keeps_resetAnswered (s : State) : Keeps s s.resetAnswered :=
  (keeps_wpeSame rfl rfl rfl).trans (keeps_proceed _)

theorem keeps_rekeyAnswered (s : State) : Keeps s s.rekeyAnswered :=
  (keeps_wpeSame rfl rfl rfl).trans (keeps_proceed _)

theorem keeps_closeWipe (w : WipeRecord) (s : State) : Keeps s (s.closeWipe w) := by
  unfold State.closeWipe
  extract_lets t
  have ht : Keeps s t := (keeps_wpeInit s).trans (keeps_postP _ _)
  exact ht.trans <| keeps_ite (fun _ => keeps_enterLocked _) fun _ => keeps_changeAccess _ _ _

/-- The step a journal write records begins, is reported, and the WPE goes on. -/
theorem keeps_recordedStep {f : Wpe → Wpe} {s : State} (h : s.wpe.Ok s.liu.bridge → (f s.wpe).Ok s.liu.bridge) :
    Keeps s (s.onWpe f).refreshRun.postWipeState.proceed :=
  (keeps_onWpe h).trans <| (keeps_refreshRun _).trans <| (keeps_postWipeState _).trans (keeps_proceed _)

theorem keeps_journalDone (which : JournalWrite) (j : Journal) (s : State) : Keeps s (s.journalDone which j) := by
  unfold State.journalDone
  have ht : Keeps s (s.onWpe fun w => { w with journal := j, starting := none }) := keeps_wpeSame rfl rfl rfl
  refine keeps_ite (fun _ => keeps_refl s) fun _ => ?_
  split
  · split
    · exact ht.trans (keeps_closeWipe _ _)
    · exact ht
  · split
    · exact ht.trans (keeps_recordedStep fun h => ⟨h.order, h.timer, by simp⟩)
    · exact ht.trans (keeps_recordedStep fun h => h.of_same rfl rfl rfl)

theorem keeps_dropOrder (s : State) : Keeps s s.dropOrder :=
  keeps_onWpe fun h => .of_no_order (w := { s.wpe with order := none, orderTimer := none }) rfl rfl h.attempt _

theorem keeps_bridgeLeft (s : State) : Keeps s s.bridgeLeft := (keeps_dropOrder s).trans (keeps_refreshRun _)

theorem keeps_bridgeAttached (s : State) : Keeps s s.bridgeAttached :=
  (keeps_dropOrder s).trans <| (keeps_refreshRun _).trans (keeps_proceed _)

theorem keeps_finishOrder (o : EraseOrder) (failed : Nat) (s : State) : Keeps s (s.finishOrder o failed) := by
  unfold State.finishOrder
  split
  · split
    · exact (keeps_dropOrder s).trans (keeps_cursorWrite _ _ _)
    · exact keeps_dropOrder s
  · exact keeps_dropOrder s

/-- An attempt fails with an order in hand. -/
theorem keeps_failAttempt {o : EraseOrder} {s : State} (hb : s.Body → s.liu.bridge = .attached) :
    Keeps s (s.failAttempt o).1 := by
  unfold State.failAttempt
  split
  · rename_i ha
    have h : Keeps s (s.onWpe fun w =>
        { w with attempt := w.attempt + 1, order := some { o with number := none }, orderTimer := none }) :=
      keeps_of_body fun hs => keeps_onWpe fun _ => ⟨fun _ => hb hs, (nomatch ·), ⟨by simp, Nat.succ_le_of_lt ha⟩⟩
    dsimp only
    split
    · exact h.trans (keeps_postEraseWork _ _)
    · exact h
  · exact keeps_finishOrder _ _ s

theorem keeps_resumeWipe (w : WipeRecord) (s : State) : Keeps s (s.resumeWipe w) :=
  (keeps_onWpe fun _ => ⟨by simp [Wpe.init], by simp [Wpe.init], Wpe.init_attempt⟩).trans <| (keeps_changeAccess _ _ _).trans <|
    (keeps_wpeSame rfl rfl rfl).trans <| (keeps_postWipeState _).trans (keeps_proceed _)

/-! ## Lock causes and conditions -/

theorem keeps_orderly (c : LockCause) (s : State) : Keeps s (s.orderly c) := by
  unfold State.orderly
  split
  · exact keeps_ite (fun _ => keeps_enterLocking c s) fun _ => keeps_completeLock s
  · exact keeps_endConfig s
  all_goals exact keeps_refl s

theorem keeps_forced (s : State) : Keeps s s.forced := by
  unfold State.forced
  split
  · exact keeps_completeLock s
  · exact keeps_completeLock s
  · exact keeps_endConfig s
  all_goals exact keeps_refl s

theorem keeps_wipeAction (s : State) : Keeps s s.wipeAction :=
  keeps_ite (fun _ => keeps_onAcc rfl rfl) fun _ => keeps_startWipe _ s

theorem keeps_raise (c : LockCause) (a : CauseAction) (s : State) : Keeps s (s.raise c a) := by
  cases a with
  | none => exact keeps_refl s
  | orderly => exact keeps_orderly c s
  | forced => exact keeps_forced s
  | immediate => exact keeps_forced s
  | wipe => exact keeps_wipeAction s

theorem keeps_conditionChanged (o : Bool) (s : State) : Keeps s (s.conditionChanged o) :=
  (keeps_postAccessChanged s).trans (keeps_tellGate _ _)

theorem keeps_recheck (s : State) : Keeps s s.recheck := by
  unfold State.recheck
  have ha : Keeps s (if s.acc.clockFault && rechecked s.plu.map.clockFault then
      s.raise .clockFault (causeAction s.plu.map.clockFault) else s) :=
    keeps_ite (fun _ => keeps_raise _ _ s) fun _ => keeps_refl s
  refine ha.trans ?_
  generalize (if s.acc.clockFault && rechecked s.plu.map.clockFault then
      s.raise .clockFault (causeAction s.plu.map.clockFault) else s) = a
  have hb : Keeps a (if s.acc.caseOpen && rechecked s.plu.map.caseOpen then
      a.raise .caseOpen (causeAction s.plu.map.caseOpen) else a) :=
    keeps_ite (fun _ => keeps_raise _ _ a) fun _ => keeps_refl a
  refine hb.trans ?_
  exact keeps_ite (fun _ => keeps_raise _ _ _) fun _ => keeps_refl _

theorem keeps_endOfFlight (s : State) : Keeps s s.endOfFlight :=
  keeps_ite (fun _ => (keeps_onAcc rfl rfl).trans (keeps_startWipe _ _)) fun _ =>
    keeps_ite (fun _ => keeps_recheck s) fun _ => keeps_refl s

theorem keeps_endAttempt {s : State} (a : AttemptAnswer) (hn : s.noFlightWrite) (hp : s.panelFree) :
    Keeps s (s.endAttempt a) :=
  (keeps_answerAttempt a hn hp).trans (keeps_endOfFlight _)

end Sys2Proof.Machine
end

