-- ==== Sys2Proof/Proofs/AccessItems.lean ====
section
/-! Which parts the larger operations change, and what the access items are after each: the access clauses of the
invariant follow from these. -/

namespace Sys2Proof.Machine

/-! ## Frames of the larger operations -/

/-- Two pieces of work change what either changes. -/
theorem changesOnly_append {l m : List Block} {s t u : State} (h : State.changesOnly l s t)
    (k : State.changesOnly m t u) : State.changesOnly (l ++ m) s u :=
  changesOnly_trans (changesOnly_mono h (List.subset_append_left _ _))
    (changesOnly_mono k (List.subset_append_right _ _))

theorem setVolume_frame (i : VolIx) (v : VolumeRecord) (s : State) : State.changesOnly [.kru] s (s.setVolume i v) :=
  onKru_frame _ s

theorem setCell_frame (i : SlotIx) (c : SlotCell) (s : State) : State.changesOnly [.ctb] s (s.setCell i c) :=
  onCtb_frame _ s

theorem writeVolume_frame (i : VolIx) (v : VolumeRecord) (p : Purpose) (s : State) :
    State.changesOnly [.kru, .rsc] s (s.writeVolume i v p) :=
  changesOnly_append (setVolume_frame i v s) (requestWrite_frame _ _ _)

theorem applyDef_frame (i : VolIx) (d : VolumeDef) (s : State) :
    State.changesOnly [.kru, .rsc] s (s.applyDef i d).1 := by
  unfold State.applyDef
  cases d with
  | range first count ro =>
    dsimp only
    split
    · split
      · exact changesOnly_refl _ s
      · exact writeVolume_frame _ _ _ s
    · exact changesOnly_mono (changesOnly_append (onKru_frame _ s) (writeVolume_frame _ _ _ _)) (by decide)
  | unused =>
    dsimp only
    split
    · exact changesOnly_refl _ s
    · exact writeVolume_frame _ _ _ s

theorem requestPendingSet_frame (s : State) : State.changesOnly [.rsc] s s.requestPendingSet :=
  requestWrite_frame _ _ s

theorem settle_frame (s : State) : State.changesOnly [.plu, .rsc] s s.settle := by
  unfold State.settle
  split
  · exact changesOnly_refl _ s
  · refine changesOnly_ite (fun _ => changesOnly_refl _ s) fun _ => changesOnly_ite (fun _ => ?_) fun _ => ?_
    · exact changesOnly_mono (onPlu_frame _ s) (by decide)
    · exact changesOnly_append (onPlu_frame _ s) (requestPendingSet_frame _)

theorem applyPolicy_frame (s : State) : State.changesOnly [.plu, .rsc] s s.applyPolicy.1 := by
  unfold State.applyPolicy
  dsimp only
  split
  · exact changesOnly_refl _ s
  · split
    · exact changesOnly_refl _ s
    · exact changesOnly_append (onPlu_frame _ s) (requestWrite_frame _ _ _)

theorem applyMap_frame (s : State) : State.changesOnly [.plu, .keu, .liu, .rsc] s s.applyMap.1 := by
  unfold State.applyMap
  dsimp only
  split
  · exact changesOnly_refl _ s
  · split
    · exact changesOnly_refl _ s
    · exact changesOnly_append (setMap_frame _ s) (requestWrite_frame _ _ _)

theorem applyVolume_frame (i : VolIx) (s : State) : State.changesOnly [.kru, .rsc] s (s.applyVolume i).1 := by
  unfold State.applyVolume
  split
  · exact changesOnly_refl _ s
  · exact applyDef_frame _ _ s

theorem applyVolumes_frame (s : State) : State.changesOnly [.kru, .rsc] s s.applyVolumes.1 := by
  rw [State.applyVolumes_fst]
  exact changesOnly_trans (applyVolume_frame 0 s) <| changesOnly_trans (applyVolume_frame 1 _) <|
    changesOnly_trans (applyVolume_frame 2 _) (applyVolume_frame 3 _)

/-- The application of the Pending Set leaves the access items, the slots, the Attempt Limiter and the wipe alone. -/
theorem applyPendingSet_frame (s : State) : State.changesOnly [.plu, .rsc, .kru, .keu, .liu] s s.applyPendingSet := by
  unfold State.applyPendingSet
  refine changesOnly_mono (changesOnly_append (applyPolicy_frame s) <| changesOnly_append (applyMap_frame _) <|
    changesOnly_append (applyVolumes_frame _) <| changesOnly_append (onPlu_frame _ _) (settle_frame _)) (by decide)

theorem partEnded_frame (f : Application → Application) (s : State) :
    State.changesOnly [.plu, .rsc] s (s.partEnded f) :=
  changesOnly_mono (changesOnly_append (onPlu_frame _ s) (settle_frame _)) (by decide)

theorem foldl_frame {α : Type} {l : List Block} {f : State → α → State} (h : ∀ s a, State.changesOnly l s (f s a))
    (as : List α) (s : State) : State.changesOnly l s (as.foldl f s) := by
  induction as generalizing s with
  | nil => exact changesOnly_refl _ s
  | cons a as ih => exact changesOnly_trans (h s a) (ih _)

theorem answerStagings_frame {mk : Staging → State → State} (h : ∀ g s, State.changesOnly [.liu] s (mk g s))
    (carried : List Nat) (s : State) : State.changesOnly [.plu, .liu] s (s.answerStagings mk carried) :=
  changesOnly_append (onPlu_frame _ s) (foldl_frame (fun t g => h g t) _ _)

theorem discardPendingSet_frame (s : State) : State.changesOnly [.plu, .rsc, .liu] s s.discardPendingSet := by
  unfold State.discardPendingSet
  extract_lets gs t u
  have ht : State.changesOnly [.plu, .rsc] s t := changesOnly_append (onPlu_frame _ s) (onRsc_frame _ _)
  have hu : State.changesOnly [.liu] t u :=
    foldl_frame (f := fun w g => w.refuseTo g.requester .wiping) (fun w g => refuseTo_frame _ _ w) gs t
  have h : State.changesOnly [.plu, .rsc, .liu] s u := changesOnly_append ht hu
  exact changesOnly_ite (fun _ => changesOnly_trans h (changesOnly_mono (requestWrite_frame _ _ _) (by decide)))
    fun _ => h

theorem enterLocked_frame (s : State) : State.changesOnly lockBlocks s s.enterLocked :=
  changesOnly_mono (changesOnly_append (applyPendingSet_frame s) (changeAccess_frame _ _ _)) (by decide)

theorem postWipeState_frame (s : State) : State.changesOnly [.liu] s s.postWipeState := by
  unfold State.postWipeState
  split
  · exact postP_frame _ s
  · exact changesOnly_refl _ s

theorem refreshRun_frame (s : State) : State.changesOnly [.wpe, .liu] s s.refreshRun :=
  changesOnly_ite (fun _ => changesOnly_append (onWpe_frame _ s) (postWipeState_frame _)) fun _ => changesOnly_refl _ s

theorem landEnrolment_frame (s : State) : State.changesOnly [.keu] s s.landEnrolment :=
  changesOnly_trans (onKeu_frame _ s) (endDialogue_frame _)

theorem refuseEnrolment_frame (r : Reason) (s : State) : State.changesOnly [.keu, .liu] s (s.refuseEnrolment r) :=
  changesOnly_append (landEnrolment_frame s) (answer_frame _ _ _)

theorem answerEnrolment_frame (o : KeyOutcome) (s : State) : State.changesOnly [.keu, .liu] s (s.answerEnrolment o) :=
  changesOnly_append (landEnrolment_frame s) (answer_frame _ _ _)

theorem answerSuperseded_frame (i : SlotIx) (s : State) : State.changesOnly [.keu, .liu] s (s.answerSuperseded i) := by
  unfold State.answerSuperseded
  split
  · exact changesOnly_mono (refuseTo_frame _ _ s) (by decide)
  · exact refuseEnrolment_frame _ s
  · exact changesOnly_refl _ s

theorem destroySlot_frame (i : SlotIx) (s : State) : State.changesOnly [.keu, .liu, .ctb, .rsc] s (s.destroySlot i) :=
  changesOnly_append (changesOnly_append (answerSuperseded_frame i s) (setCell_frame _ _ _)) (requestWrite_frame _ _ _)

theorem destroyVolume_frame (i : VolIx) (s : State) : State.changesOnly [.kru, .rsc] s (s.destroyVolume i) :=
  writeVolume_frame _ _ _ s

theorem destroy_frame (d : Destroy) (s : State) :
    State.changesOnly [.kru, .keu, .liu, .ctb, .rsc] s (s.destroy d) := by
  cases d with
  | volume i => exact changesOnly_mono (destroyVolume_frame i s) (by decide)
  | slot i => exact changesOnly_mono (destroySlot_frame i s) (by decide)

theorem rekeyVolume_frame (i : VolIx) (first count target : Nat) (b : Bool) (s : State) :
    State.changesOnly [.kru, .rsc] s (s.rekeyVolume i first count target b) :=
  changesOnly_mono (changesOnly_append (onKru_frame _ s) (writeVolume_frame _ _ _ _)) (by decide)

theorem rekeyNext_frame (w : WipeRecord) (k : Nat) (s : State) :
    State.changesOnly [.wpe, .kru, .rsc] s (s.rekeyNext w k) := by
  unfold State.rekeyNext State.rekeyOne
  split
  · split <;> exact changesOnly_append (onWpe_frame _ s) (rekeyVolume_frame _ _ _ _ _ _)
  · exact changesOnly_mono (requestWrite_frame _ _ s) (by decide)

theorem formOrder_frame (w : WipeRecord) (s : State) : State.changesOnly [.wpe, .liu, .rsc] s (s.formOrder w) := by
  unfold State.formOrder
  split
  · exact changesOnly_mono (requestWrite_frame _ _ s) (by decide)
  · split
    · refine changesOnly_ite (fun _ => ?_) fun _ => changesOnly_mono (requestWrite_frame _ _ s) (by decide)
      exact changesOnly_mono (changesOnly_append (onWpe_frame _ s) (postB_frame _ _)) (by decide)
    · exact changesOnly_refl _ s

theorem passEnded_frame (w : WipeRecord) (pass : Nat) (faulted : Bool) (s : State) :
    State.changesOnly [.wpe, .kru, .keu, .liu, .ctb, .rsc] s (s.passEnded w pass faulted) := by
  refine changesOnly_ite (fun _ => changesOnly_mono (requestWrite_frame _ _ s) (by decide)) fun _ =>
    changesOnly_ite (fun _ => ?_) fun _ => ?_
  · exact changesOnly_append (onWpe_frame _ s) (destroy_frame _ _)
  · exact changesOnly_mono (changesOnly_append (onWpe_frame _ s) (refreshRun_frame _)) (by decide)

theorem stopPenalty_frame (s : State) : State.changesOnly [.atl] s s.stopPenalty := onAtl_frame _ s

/-- The parts the WPE's next action may change. -/
theorem proceed_frame (s : State) : State.changesOnly [.wpe, .kru, .keu, .liu, .ctb, .rsc, .atl] s s.proceed := by
  refine changesOnly_ite (fun _ => changesOnly_refl _ s) fun _ => ?_
  split
  · exact changesOnly_refl _ s
  · split
    case h_4 =>
      split
      · exact changesOnly_mono (destroy_frame _ s) (by decide)
      · exact changesOnly_mono (passEnded_frame _ _ _ s) (by decide)
    case h_5 =>
      exact changesOnly_mono (changesOnly_append (stopPenalty_frame s) (requestWrite_frame _ _ _)) (by decide)
    case h_6 => exact changesOnly_mono (requestWrite_frame _ _ s) (by decide)
    case h_7 => exact changesOnly_mono (formOrder_frame _ s) (by decide)
    case h_8 => exact changesOnly_mono (rekeyNext_frame _ _ s) (by decide)
    all_goals exact changesOnly_refl _ s

/-! ## The access items and the WPE after each operation -/

theorem interruptEntry_acc (s : State) : s.interruptEntry.acc = s.acc := interruptEntry_frame s .acc (by simp)

@[simp] theorem State.postAccessChanged_acc (s : State) : s.postAccessChanged.acc = s.acc :=
  postAccessChanged_frame s .acc (by simp)

@[simp] theorem State.changeAccess_acc (a : Access) (o : Option SlotIx) (s : State) :
    (s.changeAccess a o).acc = { s.acc with access := a, openSlot := o } :=
  (State.postAccessChanged_acc _).trans (interruptEntry_acc _)

@[simp] theorem State.changeAccess_wpe (a : Access) (o : Option SlotIx) (s : State) : (s.changeAccess a o).wpe = s.wpe :=
  changeAccess_frame a o s .wpe (by simp)

@[simp] theorem State.applyPendingSet_acc (s : State) : s.applyPendingSet.acc = s.acc :=
  applyPendingSet_frame s .acc (by decide)

@[simp] theorem State.enterLocked_acc (s : State) :
    s.enterLocked.acc = { s.acc with access := .locked, openSlot := none } := by
  simp [State.enterLocked]

@[simp] theorem State.enterLocked_wpe (s : State) : s.enterLocked.wpe = s.wpe := enterLocked_frame s .wpe (by decide)

@[simp] theorem State.closeOpen_acc (s : State) :
    s.closeOpen.acc = { s.acc with openSlot := none, idleTimer := none, attachTimer := none, deferTimer := none,
                                   lockCause := none, deferrals := none } :=
  revokeKeys_frame _ .acc (by simp)

@[simp] theorem State.closeOpen_wpe (s : State) : s.closeOpen.wpe = s.wpe := closeOpen_frame s .wpe (by simp)

/-- A lock completion shuts the ACC (R72). -/
@[simp] theorem State.completeLock_acc (s : State) : s.completeLock.acc = s.acc.shut := by
  simp [State.completeLock, Acc.shut]

@[simp] theorem State.completeLock_wpe (s : State) : s.completeLock.wpe = s.wpe := by simp [State.completeLock]

@[simp] theorem State.endConfig_acc (s : State) :
    s.endConfig.acc = { s.acc with access := .locked, openSlot := none, configTimer := none } := by
  simp [State.endConfig, State.leaveConfig]

@[simp] theorem State.endConfig_wpe (s : State) : s.endConfig.wpe = s.wpe := by
  simp [State.endConfig, State.leaveConfig]

@[simp] theorem State.enterLocking_acc (c : LockCause) (s : State) :
    (s.enterLocking c).acc = { s.acc with
      access := .locking, idleTimer := none, lockCause := some c, deferrals := some s.plu.policy.deferLimit,
      deferTimer := Timer.start s.plu.policy.deferTicks } := by
  unfold State.enterLocking
  rw [State.changeAccess_acc, State.offerLock, (postB_frame _ _) .acc (by simp)]
  rfl

@[simp] theorem State.enterLocking_wpe (c : LockCause) (s : State) : (s.enterLocking c).wpe = s.wpe := by
  unfold State.enterLocking
  rw [State.changeAccess_wpe, State.offerLock, (postB_frame _ _) .wpe (by simp)]
  rfl

@[simp] theorem State.openConfig_acc (i : SlotIx) (s : State) :
    (s.openConfig i).acc = { s.acc with access := .config, openSlot := some i, configTimer := some 480 } := by
  simp [State.openConfig]
  rfl

@[simp] theorem State.openConfig_wpe (i : SlotIx) (s : State) : (s.openConfig i).wpe = s.wpe := by
  simp [State.openConfig]

@[simp] theorem State.openUnlocked_wpe (i : SlotIx) (s : State) : (s.openUnlocked i).wpe = s.wpe := by
  unfold State.openUnlocked
  rw [State.changeAccess_wpe]
  split <;> rfl

theorem State.openUnlocked_acc (i : SlotIx) (s : State) :
    (s.openUnlocked i).acc = if s.liu.bridge = .attached then
        { s.acc with access := .unlocked, openSlot := some i, idleTimer := s.plu.policy.idleTimer }
      else { s.acc with access := .unlocked, openSlot := some i, attachTimer := s.plu.policy.attachTimer } := by
  unfold State.openUnlocked
  rw [State.changeAccess_acc]
  split <;> rfl

/-- What entering HALTED leaves of the access items (R80). -/
theorem State.enterHalted_acc {s : State} (h : s.acc.access ≠ .halted) :
    s.enterHalted.acc = { s.acc with
      access := .halted, openSlot := none, idleTimer := none, attachTimer := none, deferTimer := none,
      configTimer := none, lockCause := none, deferrals := none, heldWipe := false } := by
  unfold State.enterHalted
  rw [if_neg h, State.changeAccess_acc, (revokeKeys_frame _) .acc (by simp)]
  rfl

theorem State.enterHalted_wpe {s : State} (h : s.acc.access ≠ .halted) : s.enterHalted.wpe = .init := by
  unfold State.enterHalted
  rw [if_neg h, State.changeAccess_wpe, (revokeKeys_frame _) .wpe (by simp)]
  rfl

@[simp] theorem State.refreshRun_acc (s : State) : s.refreshRun.acc = s.acc := refreshRun_frame s .acc (by decide)

@[simp] theorem State.proceed_acc (s : State) : s.proceed.acc = s.acc := proceed_frame s .acc (by decide)

/-- Outside WIPING the run condition is not looked at. -/
theorem State.refreshRun_of_not_wiping {s : State} (h : s.acc.access ≠ .wiping) : s.refreshRun = s := by
  simp [State.refreshRun, h]

/-- Outside WIPING the WPE does nothing. -/
theorem State.proceed_of_not_wiping {s : State} (h : s.acc.access ≠ .wiping) : s.proceed = s := by
  simp [State.proceed, h]

/-- Before a wipe starts nothing of the ACC stands that belongs to an open state (R76). -/
theorem State.quitForWipe_wpe (s : State) : s.quitForWipe.wpe = s.wpe := by
  unfold State.quitForWipe
  split <;> first | rfl | exact State.closeOpen_wpe s

/-- What a wipe's start leaves of the access items. -/
theorem State.startWipe_acc {c : WipeCause} {s : State} (h : s.acc.access ≠ .wiping) (hh : s.acc.access ≠ .halted) :
    (s.startWipe c).acc = { s.quitForWipe.acc with access := .wiping, openSlot := none } := by
  unfold State.startWipe
  rw [if_neg (by simp [h, hh])]
  dsimp only [State.onWpe_acc]
  rw [State.changeAccess_acc, State.armWipe, (requestWrite_frame _ _ _) .acc (by simp), State.onWpe_acc,
    (discardPendingSet_frame _) .acc (by decide), (stopPenalty_frame _) .acc (by simp)]

end Sys2Proof.Machine
end

