-- ==== Sys2Proof/Proofs/Work.lean ====
section
/-! Work within a row: what it keeps, with the access items in their states and the WPE at rest outside WIPING. -/

namespace Sys2Proof.Machine

/-- Work within a row that leaves the access items in their states. -/
def Work (s t : State) : Prop := s.Body → s.Rest → Kept s t ∧ t.Rest

theorem work_refl (s : State) : Work s s := fun hb hr => ⟨keeps_refl s hb, hr⟩

theorem Work.trans {s t u : State} (h : Work s t) (k : Work t u) : Work s u := by
  intro hb hr
  obtain ⟨ht, hrt⟩ := h hb hr
  obtain ⟨hu, hru⟩ := k ht.body hrt
  exact ⟨Keeps.trans (fun _ => ht) (fun _ => hu) hb, hru⟩

/-- What holds before the work may be used to see what it is. -/
theorem work_of {s t : State} (h : s.Body → s.Rest → Work s t) : Work s t := fun hb hr => h hb hr hb hr

theorem work_ite {s t u : State} {c : Prop} [Decidable c] (h : c → Work s t) (k : ¬ c → Work s u) :
    Work s (if c then t else u) := by
  split
  · exact h ‹_›
  · exact k ‹_›

theorem Keeps.work {s t : State} (h : Keeps s t) (hr : s.Rest → t.Rest) : Work s t := fun hb hs => ⟨h hb, hr hs⟩

/-- Work that changes neither the access items nor the WPE. -/
theorem Keeps.same {s t : State} (h : Keeps s t) (ha : t.acc = s.acc) (hw : t.wpe = s.wpe) : Work s t :=
  h.work fun hr => by rw [State.Rest, ha, hw]; exact hr

theorem Keeps.framed {l : List Block} {s t : State} (h : Keeps s t) (hf : State.changesOnly l s t)
    (ha : Block.acc ∉ l := by decide) (hw : Block.wpe ∉ l := by decide) : Work s t := h.same (hf .acc ha) (hf .wpe hw)

/-- Work of the WPE, which outside WIPING leaves it as it is. -/
theorem Keeps.wpe {s t : State} (h : Keeps s t) (ha : t.acc = s.acc)
    (hw : s.acc.access ≠ .wiping → s.wpe = .init → t.wpe = .init) : Work s t :=
  h.work fun hr => ⟨by rw [ha]; exact hr.acc, fun hn => by rw [ha] at hn; exact hw hn (hr.wpe hn)⟩

/-! ## The access items -/

/-- Nothing of the ACC's items stands in a state where no slot is open, and so in the next such state. -/
theorem Acc.Ok.closed {c : Acc} (h : c.Ok) (hc : c.access.isOpen = false) {a : Access} (ha : a.isOpen = false) :
    ({ c with access := a, openSlot := none } : Acc).Ok where
  openSlot := by simp [ha]
  lockCause hs := by rw [h.lockCause hs] at hc; cases hc
  deferrals hs := by rw [h.deferrals hs] at hc; cases hc
  idle hs := by rw [h.idle hs] at hc; cases hc
  attach hs := by rcases h.attach hs with he | he <;> rw [he] at hc <;> cases hc
  defer hs := by rw [h.defer hs] at hc; cases hc
  config hs := by rw [h.config hs] at hc; cases hc

/-- The items of an open UNLOCKED or LOCKING are gone after its end, whatever state it ends in. -/
theorem Acc.Ok.shutInto {c : Acc} (h : c.Ok) (hc : c.access = .unlocked ∨ c.access = .locking) {a : Access}
    (ha : a.isOpen = false) : ({ c.shut with access := a } : Acc).Ok where
  openSlot := by simp [Acc.shut, ha]
  lockCause := by simp [Acc.shut]
  deferrals := by simp [Acc.shut]
  idle := by simp [Acc.shut]
  attach := by simp [Acc.shut]
  defer := by simp [Acc.shut]
  config hs := by rcases hc with hc | hc <;> rw [h.config hs] at hc <;> cases hc

/-- The items of CONFIG are gone after its end, whatever state it ends in. -/
theorem Acc.Ok.configInto {c : Acc} (h : c.Ok) (hc : c.access = .config) {a : Access} (ha : a.isOpen = false) :
    ({ c with access := a, openSlot := none, configTimer := none } : Acc).Ok where
  openSlot := by simp [ha]
  lockCause hs := by rw [h.lockCause hs] at hc; cases hc
  deferrals hs := by rw [h.deferrals hs] at hc; cases hc
  idle hs := by rw [h.idle hs] at hc; cases hc
  attach hs := by rcases h.attach hs with he | he <;> rw [he] at hc <;> cases hc
  defer hs := by rw [h.defer hs] at hc; cases hc
  config := by simp

/-- A change of the access items that leaves the access state is enough for `Rest` where it keeps the items in their
states. -/
theorem work_onAcc {f : Acc → Acc} {s : State} (hc : (f s.acc).clockFault = s.acc.clockFault)
    (ho : (f s.acc).caseOpen = s.acc.caseOpen) (ha : (f s.acc).access = s.acc.access) (h : s.acc.Ok → (f s.acc).Ok) :
    Work s (s.onAcc f) :=
  (keeps_onAcc hc ho).work fun hr => ⟨h hr.acc, fun hn => hr.wpe (by rwa [State.onAcc_acc, ha] at hn)⟩

/-- Fewer items stand where they stood. -/
theorem Acc.Ok.of_le {c d : Acc} (h : c.Ok) (ha : d.access = c.access) (ho : d.openSlot = c.openSlot)
    (hl : d.lockCause.isSome = true → c.lockCause.isSome = true)
    (hd : d.deferrals.isSome = true → c.deferrals.isSome = true)
    (hi : d.idleTimer.isSome = true → c.idleTimer.isSome = true)
    (ht : d.attachTimer.isSome = true → c.attachTimer.isSome = true)
    (hf : d.deferTimer.isSome = true → c.deferTimer.isSome = true)
    (hg : d.configTimer.isSome = true → c.configTimer.isSome = true) : d.Ok := by
  constructor <;> simp only [ha, ho]
  · exact h.openSlot
  · exact h.lockCause ∘ hl
  · exact h.deferrals ∘ hd
  · exact h.idle ∘ hi
  · exact h.attach ∘ ht
  · exact h.defer ∘ hf
  · exact h.config ∘ hg

/-! ## Access changes -/

/-- From a state with nothing open into another. -/
theorem work_changeAccess {a : Access} {s : State} (hc : s.acc.access.isOpen = false) (ha : a.isOpen = false)
    (hw : s.acc.access ≠ .wiping ∨ a = .wiping) : Work s (s.changeAccess a none) :=
  (keeps_changeAccess a none s).work fun hr => by
    refine ⟨by rw [State.changeAccess_acc]; exact hr.acc.closed hc ha, fun hn => ?_⟩
    rw [State.changeAccess_acc] at hn
    rw [State.changeAccess_wpe]
    exact hr.wpe (hw.resolve_right hn)

theorem work_enterLocked {s : State} (hc : s.acc.access.isOpen = false) (hw : s.acc.access ≠ .wiping) :
    Work s s.enterLocked :=
  (keeps_enterLocked s).work fun hr => by
    refine ⟨by rw [State.enterLocked_acc]; exact hr.acc.closed hc rfl, fun _ => ?_⟩
    rw [State.enterLocked_wpe]
    exact hr.wpe hw

theorem work_completeLock {s : State} (hc : s.acc.access = .unlocked ∨ s.acc.access = .locking) :
    Work s s.completeLock :=
  (keeps_completeLock s).work fun hr => by
    refine ⟨by rw [State.completeLock_acc]; exact hr.acc.shutInto hc rfl, fun _ => ?_⟩
    rw [State.completeLock_wpe]
    exact hr.wpe (by rcases hc with hc | hc <;> rw [hc] <;> decide)

theorem work_endConfig {s : State} (hc : s.acc.access = .config) : Work s s.endConfig :=
  (keeps_endConfig s).work fun hr => by
    refine ⟨by rw [State.endConfig_acc]; exact hr.acc.configInto hc rfl, fun _ => ?_⟩
    rw [State.endConfig_wpe]
    exact hr.wpe (by rw [hc]; decide)

theorem work_enterLocking {c : LockCause} {s : State} (hc : s.acc.access = .unlocked) : Work s (s.enterLocking c) :=
  (keeps_enterLocking c s).work fun hr => by
    refine ⟨?_, fun _ => ?_⟩
    · have ho := hr.acc.openSlot
      rw [hc] at ho
      rw [State.enterLocking_acc]
      refine ⟨ho, fun _ => rfl, fun _ => rfl, (nomatch ·), fun _ => .inr rfl, fun _ => rfl, fun hs => ?_⟩
      have := hr.acc.config hs
      rw [hc] at this; cases this
    · rw [State.enterLocking_wpe]
      exact hr.wpe (by rw [hc]; decide)

/-- In LOCKED no item of an open state stands. -/
theorem Acc.Ok.locked {c : Acc} (h : c.Ok) (hc : c.access = .locked) :
    c.lockCause = none ∧ c.deferrals = none ∧ c.idleTimer = none ∧ c.attachTimer = none ∧ c.deferTimer = none ∧
      c.configTimer = none := by
  have hn : ∀ {α : Type} {o : Option α}, ¬ o.isSome = true → o = none := fun h => Option.not_isSome_iff_eq_none.1 h
  refine ⟨hn fun hs => ?_, hn fun hs => ?_, hn fun hs => ?_, hn fun hs => ?_, hn fun hs => ?_, hn fun hs => ?_⟩
  · have := h.lockCause hs; rw [hc] at this; cases this
  · have := h.deferrals hs; rw [hc] at this; cases this
  · have := h.idle hs; rw [hc] at this; cases this
  · rcases h.attach hs with this | this <;> rw [hc] at this <;> cases this
  · have := h.defer hs; rw [hc] at this; cases this
  · have := h.config hs; rw [hc] at this; cases this

theorem work_openUnlocked {i : SlotIx} {s : State} (hc : s.acc.access = .locked) : Work s (s.openUnlocked i) :=
  (keeps_openUnlocked i s).work fun hr => by
    refine ⟨?_, fun _ => ?_⟩
    · obtain ⟨h1, h2, h3, h4, h5, h6⟩ := hr.acc.locked hc
      rw [State.openUnlocked_acc]
      split <;> constructor <;> simp [Access.isOpen, h1, h2, h3, h4, h5, h6]
    · rw [State.openUnlocked_wpe]
      exact hr.wpe (by rw [hc]; decide)

theorem work_openConfig {i : SlotIx} {s : State} (hc : s.acc.access = .locked) : Work s (s.openConfig i) :=
  (keeps_openConfig i s).work fun hr => by
    refine ⟨?_, fun _ => ?_⟩
    · obtain ⟨h1, h2, h3, h4, h5, -⟩ := hr.acc.locked hc
      rw [State.openConfig_acc]
      constructor <;> simp [Access.isOpen, h1, h2, h3, h4, h5]
    · rw [State.openConfig_wpe]
      exact hr.wpe (by rw [hc]; decide)

/-- Every item is gone in HALTED, from whatever state it is entered. -/
theorem rest_enterHalted {s : State} (h : s.acc.access = .halted → s.Rest) : s.enterHalted.Rest := by
  by_cases hh : s.acc.access = .halted
  · simpa [State.enterHalted, hh] using h hh
  · refine ⟨?_, fun _ => State.enterHalted_wpe hh⟩
    rw [State.enterHalted_acc hh]
    constructor <;> simp [Access.isOpen]

theorem work_enterHalted (s : State) : Work s s.enterHalted :=
  (keeps_enterHalted s).work fun hr => rest_enterHalted fun _ => hr

/-! ## Wipes -/

/-- The access items after the start of a wipe, met by any state but WIPING and HALTED (R76). -/
theorem Acc.Ok.wipe {s : State} (h : s.acc.Ok) : ({ s.quitForWipe.acc with access := .wiping, openSlot := none } : Acc).Ok := by
  unfold State.quitForWipe
  cases ha : s.acc.access with
  | unlocked =>
    dsimp only
    rw [State.closeOpen_acc]
    exact h.shutInto (a := .wiping) (.inl ha) rfl
  | locking =>
    dsimp only
    rw [State.closeOpen_acc]
    exact h.shutInto (a := .wiping) (.inr ha) rfl
  | config => exact h.configInto ha rfl
  | blank => exact h.closed (by rw [ha]; rfl) rfl
  | locked => exact h.closed (by rw [ha]; rfl) rfl
  | penalty => exact h.closed (by rw [ha]; rfl) rfl
  | wiping => exact h.closed (by rw [ha]; rfl) rfl
  | halted => exact h.closed (by rw [ha]; rfl) rfl

theorem rest_startWipe {c : WipeCause} {s : State} (h : s.acc.Ok)
    (hr : s.acc.access = .wiping ∨ s.acc.access = .halted → s.Rest) : (s.startWipe c).Rest := by
  by_cases hw : s.acc.access = .wiping ∨ s.acc.access = .halted
  · simpa [State.startWipe, hw] using hr hw
  · obtain ⟨hw, hh⟩ := not_or.1 hw
    have ha := State.startWipe_acc (c := c) hw hh
    exact ⟨by rw [ha]; exact h.wipe, fun hn => absurd (by rw [ha]) hn⟩

theorem work_startWipe (c : WipeCause) (s : State) : Work s (s.startWipe c) :=
  (keeps_startWipe c s).work fun hr => rest_startWipe hr.acc fun _ => hr

theorem work_refreshRun (s : State) : Work s s.refreshRun :=
  (keeps_refreshRun s).wpe s.refreshRun_acc fun hn hw => by rw [State.refreshRun_of_not_wiping hn, hw]

theorem work_proceed (s : State) : Work s s.proceed :=
  (keeps_proceed s).wpe s.proceed_acc fun hn hw => by rw [State.proceed_of_not_wiping hn, hw]

theorem work_wpeTold (s : State) : Work s s.wpeTold := (work_refreshRun s).trans (work_proceed _)

/-- A change of the WPE that leaves its order, and leaves a WPE at rest alone. -/
theorem work_wpeSame {f : Wpe → Wpe} {s : State} (ho : (f s.wpe).order = s.wpe.order)
    (ht : (f s.wpe).orderTimer = s.wpe.orderTimer) (ha : (f s.wpe).attempt = s.wpe.attempt)
    (hi : s.acc.access ≠ .wiping → s.wpe = .init → f s.wpe = .init) : Work s (s.onWpe f) :=
  (keeps_wpeSame ho ht ha).wpe rfl hi

theorem work_destroyAnswered (ok : Bool) (s : State) : Work s (s.destroyAnswered ok) :=
  (work_wpeSame rfl rfl rfl fun _ h => by rw [h]; rfl).trans (work_proceed _)

theorem work_resetAnswered (s : State) : Work s s.resetAnswered :=
  (work_wpeSame rfl rfl rfl fun _ h => by rw [h]; rfl).trans (work_proceed _)

theorem work_rekeyAnswered (s : State) : Work s s.rekeyAnswered :=
  (work_wpeSame rfl rfl rfl fun _ h => by rw [h]; rfl).trans (work_proceed _)

theorem State.closeWipe_acc (w : WipeRecord) (s : State) :
    ∃ a : Access, a.isOpen = false ∧ (s.closeWipe w).acc = { s.acc with access := a, openSlot := none } ∧
      (s.closeWipe w).wpe = .init := by
  unfold State.closeWipe
  extract_lets t
  have ha : t.acc = s.acc := postP_frame _ _ .acc (by simp)
  have hw : t.wpe = .init := postP_frame _ _ .wpe (by simp)
  split
  · exact ⟨.locked, rfl, by rw [State.enterLocked_acc, ha], by rw [State.enterLocked_wpe, hw]⟩
  · exact ⟨.blank, rfl, by rw [State.changeAccess_acc, ha], by rw [State.changeAccess_wpe, hw]⟩

/-- A wipe closes into LOCKED or BLANK with the WPE at rest (R77, R110). -/
theorem work_closeWipe {w : WipeRecord} {s : State} (hw : s.acc.access = .wiping) : Work s (s.closeWipe w) :=
  (keeps_closeWipe w s).work fun hr => by
    obtain ⟨a, ha, hacc, hwpe⟩ := State.closeWipe_acc w s
    exact ⟨by rw [hacc]; exact hr.acc.closed (by rw [hw]; rfl) ha, fun _ => hwpe⟩

/-- In WIPING the WPE may be at anything. -/
theorem Keeps.wiping {s t : State} (h : Keeps s t) (hw : s.acc.access = .wiping) (ha : t.acc = s.acc) : Work s t :=
  h.wpe ha fun hn => absurd hw hn

/-- In WIPING a recorded step begins, is reported, and the WPE goes on. -/
theorem work_recordedStep {f : Wpe → Wpe} {s : State} (hw : s.acc.access = .wiping)
    (h : s.wpe.Ok s.liu.bridge → (f s.wpe).Ok s.liu.bridge) :
    Work s (s.onWpe f).refreshRun.postWipeState.proceed :=
  (keeps_recordedStep h).wiping hw (by
    rw [State.proceed_acc, (postWipeState_frame _) .acc (by simp), State.refreshRun_acc, State.onWpe_acc])

theorem work_journalDone (which : JournalWrite) (j : Journal) (s : State) : Work s (s.journalDone which j) := by
  unfold State.journalDone
  extract_lets t
  refine work_ite (fun _ => work_refl s) fun hw => ?_
  have hw : s.acc.access = .wiping := not_not.1 hw
  have ht : Work s t := (keeps_wpeSame rfl rfl rfl).wiping hw rfl
  cases j with
  | none =>
    dsimp only
    split
    · exact ht.trans (work_closeWipe hw)
    · exact ht
  | some w =>
    dsimp only
    split
    · exact ht.trans (work_recordedStep hw fun h => ⟨h.order, h.timer, by simp⟩)
    · exact ht.trans (work_recordedStep hw fun h => h.of_same rfl rfl rfl)

theorem work_dropOrder (s : State) : Work s s.dropOrder :=
  (keeps_dropOrder s).wpe rfl fun _ h => by simp only [State.dropOrder, State.onWpe_wpe, h]; rfl

theorem work_bridgeLeft (s : State) : Work s s.bridgeLeft := (work_dropOrder s).trans (work_refreshRun _)

theorem work_bridgeAttached (s : State) : Work s s.bridgeAttached :=
  (work_dropOrder s).trans <| (work_refreshRun _).trans (work_proceed _)

theorem work_finishOrder (o : EraseOrder) (failed : Nat) (s : State) : Work s (s.finishOrder o failed) := by
  have hc : ∀ w c (t : State), Work t (t.cursorWrite w c) := fun w c t =>
    (keeps_cursorWrite w c t).framed (requestWrite_frame _ _ t)
  unfold State.finishOrder
  split
  · split
    · exact (work_dropOrder s).trans (hc _ _ _)
    · exact work_dropOrder s
  · exact work_dropOrder s

/-! ## Lock causes -/

theorem work_orderly (c : LockCause) (s : State) : Work s (s.orderly c) := by
  unfold State.orderly
  cases ha : s.acc.access with
  | unlocked => exact work_ite (fun _ => work_enterLocking ha) fun _ => work_completeLock (.inl ha)
  | config => exact work_endConfig ha
  | _ => exact work_refl s

theorem work_forced (s : State) : Work s s.forced := by
  unfold State.forced
  cases ha : s.acc.access with
  | unlocked => exact work_completeLock (.inl ha)
  | locking => exact work_completeLock (.inr ha)
  | config => exact work_endConfig ha
  | _ => exact work_refl s

theorem work_heldWipe (b : Bool) (s : State) : Work s (s.onAcc fun c => { c with heldWipe := b }) :=
  work_onAcc rfl rfl rfl fun h => h.of_le rfl rfl id id id id id id

theorem work_wipeAction (s : State) : Work s s.wipeAction :=
  work_ite (fun _ => work_heldWipe true s) fun _ => work_startWipe _ s

theorem work_raise (c : LockCause) (a : CauseAction) (s : State) : Work s (s.raise c a) := by
  cases a with
  | none => exact work_refl s
  | orderly => exact work_orderly c s
  | forced => exact work_forced s
  | immediate => exact work_forced s
  | wipe => exact work_wipeAction s

theorem work_recheck (s : State) : Work s s.recheck := by
  unfold State.recheck
  extract_lets a b
  have ha : Work s a := work_ite (fun _ => work_raise _ _ s) fun _ => work_refl s
  have hb : Work a b := work_ite (fun _ => work_raise _ _ a) fun _ => work_refl a
  exact (ha.trans hb).trans (work_ite (fun _ => work_raise _ _ b) fun _ => work_refl b)

theorem work_endOfFlight (s : State) : Work s s.endOfFlight :=
  work_ite (fun _ => (work_heldWipe false s).trans (work_startWipe _ _)) fun _ =>
    work_ite (fun _ => work_recheck s) fun _ => work_refl s

theorem answerAttempt_frame (a : AttemptAnswer) (s : State) : State.changesOnly [.keu, .liu] s (s.answerAttempt a) := by
  have ht : State.changesOnly [.keu] s (s.onKeu fun k => k.landed.emptied).touchEntryTimer :=
    changesOnly_trans (onKeu_frame _ s) (onKeu_frame _ _)
  cases a <;> exact changesOnly_append ht (answer_frame _ _ _)

theorem work_endAttempt {s : State} (a : AttemptAnswer) (hn : s.noFlightWrite) (hp : s.panelFree) :
    Work s (s.endAttempt a) :=
  ((keeps_answerAttempt a hn hp).framed (answerAttempt_frame a s)).trans (work_endOfFlight _)

end Sys2Proof.Machine
end

