-- ==== Sys2Proof/Proofs/WorkEntry.lean ====
section
/-! An ENTER from the hand-over to its answer, and the ends of writes: what each step leaves of the invariant. -/

namespace Sys2Proof.Machine

/-! ## The end of a row -/

/-- The clock is as it was, and the pair phase stands where it stood or where FALLBACK lets it. -/
def SameClock (s t : State) : Prop :=
  t.clock = s.clock ∧ (t.atl.phase = true → s.atl.phase = true ∨ s.tbu.state = .fallback)

theorem SameClock.refl (s : State) : SameClock s s := ⟨rfl, .inl⟩

theorem SameClock.timebase {s t : State} (h : SameClock s t) : t.tbu.state = s.tbu.state :=
  congrArg (fun c => c.1.1) h.1

theorem SameClock.run {s t : State} (h : SameClock s t) : t.tbu.run = s.tbu.run := congrArg (fun c => c.1.2) h.1

theorem SameClock.clockFault {s t : State} (h : SameClock s t) : t.acc.clockFault = s.acc.clockFault :=
  congrArg (fun c => c.2.1) h.1

theorem SameClock.caseOpen {s t : State} (h : SameClock s t) : t.acc.caseOpen = s.acc.caseOpen :=
  congrArg (fun c => c.2.2.1) h.1

theorem SameClock.caseIsOpen {s t : State} (h : SameClock s t) : t.ssv.caseIsOpen = s.ssv.caseIsOpen :=
  congrArg (fun c => c.2.2.2) h.1

theorem SameClock.trans {s t u : State} (h : SameClock s t) (k : SameClock t u) : SameClock s u :=
  ⟨k.1.trans h.1, fun hu => (k.2 hu).elim h.2 fun hf => .inr (h.timebase ▸ hf)⟩

theorem SameClock.time {s t : State} (h : SameClock s t) (ht : s.TimeOk) : t.TimeOk :=
  ⟨by rw [h.run, h.timebase]; exact ht.run, fun hp => h.timebase ▸ (h.2 hp).elim ht.phase id,
    by rw [h.clockFault, h.timebase]; exact ht.clockFault, by rw [h.caseOpen, h.caseIsOpen]; exact ht.caseOpen⟩

/-- What a row leaves, where a link may have come to wait or may wait no more. -/
def Ends (s t : State) : Prop := s.Body → s.Rest → t.Body ∧ t.Rest ∧ SameClock s t

theorem Work.ends {s t : State} (h : Work s t) : Ends s t := fun hb hr =>
  ⟨(h hb hr).1.body, (h hb hr).2, (h hb hr).1.clock, fun hp => .inl ((h hb hr).1.phase hp)⟩

theorem Ends.trans {s t u : State} (h : Ends s t) (k : Ends t u) : Ends s u := by
  intro hb hr
  obtain ⟨htb, htr, ht⟩ := h hb hr
  obtain ⟨hub, hur, hu⟩ := k htb htr
  exact ⟨hub, hur, ht.trans hu⟩

theorem Work.then {s t u : State} (h : Work s t) (k : Ends t u) : Ends s u := h.ends.trans k

theorem ends_refl (s : State) : Ends s s := (work_refl s).ends

theorem ends_of {s t : State} (h : s.Body → s.Rest → Ends s t) : Ends s t := fun hb hr => h hb hr hb hr

theorem ends_ite {s t u : State} {c : Prop} [Decidable c] (h : c → Ends s t) (k : ¬ c → Ends s u) :
    Ends s (if c then t else u) := by
  split
  · exact h ‹_›
  · exact k ‹_›

/-- A row whose work ends with the parts in place keeps the invariant. -/
theorem Ends.inv {s u t : State} (h : Ends s u) (hs : s.Inv) (ht : finish u = .next t) : t.Inv :=
  let ⟨hb, hr, hu⟩ := h hs.body hs.rest
  inv_of_finish hb hr (hu.time hs.time) ht

/-! ## Links that come to wait -/

theorem Kept.panelFree {s t : State} (h : Kept s t) (hs : s.panelFree) : t.panelFree := fun hm => hs (h.stores _ hm)

/-- No flight, no write of a flight. -/
theorem State.Body.noFlightWrite {s : State} (hb : s.Body)
    (hf : ∀ f, s.keu.flight = some f → ∀ p, f.awaits p = false) : s.noFlightWrite := by
  intro e he
  by_contra ho
  obtain ⟨f, hg, ha⟩ := hb.wait.flight e he (by simpa using ho)
  rw [hf f hg] at ha
  cases ha

/-- An ENTER is handed on by a P-link that waits for nothing (R33). -/
theorem ends_handOn {f : Flight} {s : State} (hp : Link.p ∉ s.waiters) (hr : s.liu.p.slot.isRunning = true)
    (hf : f = .verifyFirst ∨ f = .verifyConfirm → Config.minDigits ≤ s.keu.digits.length) : Ends s (s.handOn f) := by
  refine Ends.trans (t := s.onKeu (Keu.handedOn f)) (fun hb hrest => ⟨?_, hrest, rfl, .inl⟩)
    ((keeps_runLong .p _).framed (runLong_frame _ _)).ends
  · have hno : s.keu.flight = none := by
      by_contra hn
      exact hp (by rw [State.waiters_eq]; simp [waitersOf, Option.isSome_iff_ne_none.2 hn])
    have hw : waitersOf (some f) s.plu.inflight s.rsc = .p :: waitersOf s.keu.flight s.plu.inflight s.rsc := by
      simp [waitersOf, hno]
    have hnone : s.noFlightWrite := hb.noFlightWrite fun f hf => by rw [hno] at hf; cases hf
    refine { hb with keu := ?_, wait := ⟨?_, fun l hl => ?_, fun e he ho => ?_, hb.wait.single⟩ }
    · exact ⟨hb.keu.digits, hb.keu.dialogue, by simp [Keu.handedOn], fun _ => rfl,
        fun hg => hf (by simpa [Keu.handedOn] using hg)⟩
    · show (waitersOf (some f) s.plu.inflight s.rsc).Nodup
      rw [hw]
      exact List.nodup_cons.2 ⟨s.waiters_eq ▸ hp, hb.wait.once⟩
    · have hl : l ∈ waitersOf (some f) s.plu.inflight s.rsc := hl
      rw [hw] at hl
      rcases List.mem_cons.1 hl with rfl | hl
      · exact hr
      · exact hb.wait.running l hl
    · rw [hnone e he] at ho; cases ho

/-- The flight goes on to another point of it. -/
theorem work_setFlight {f : Flight} {s : State} (hs : s.keu.flight.isSome = true) (hn : s.noFlightWrite)
    (hf : f ≠ .verifyFirst ∧ f ≠ .verifyConfirm) : Work s (s.setFlight f) := by
  have hw : waitersOf (some f) s.plu.inflight s.rsc = waitersOf s.keu.flight s.plu.inflight s.rsc := by
    simp [waitersOf, hs]
  refine Keeps.same (fun hb => ⟨{ hb with keu := ?_, wait := ?_ }, rfl, id, fun _ h => h, fun _ => hs, fun _ h _ => h⟩)
    rfl rfl
  · exact ⟨hb.keu.digits, hb.keu.dialogue, iff_of_true rfl (hb.keu.flight.1 hs), fun _ => hb.keu.timer hs,
      by simp [State.setFlight, hf]⟩
  · refine ⟨?_, ?_, fun e he ho => ?_, hb.wait.single⟩
    · exact (congrArg List.Nodup hw).mpr hb.wait.once
    · intro l hl
      exact hb.wait.running l (hw ▸ hl)
    · rw [hn e he] at ho; cases ho

/-- The write that a flight waits for is requested. -/
theorem ends_flightWrite {c : Contents} {p : Purpose} {f : Flight} {s : State} (hc : s.Body → c.Ok)
    (hw : p.waiter = none) (hf : s.keu.flight = some f) (ha : f.awaits p = true) (hn : s.noFlightWrite) :
    Ends s (s.requestWrite c p) := by
  refine fun hb hr => ⟨{ hb with rsc := hb.rsc.request (hc hb), wait := ?_ }, hr,
    rfl, .inl⟩
  have hsub := (List.Sublist.refl (if s.keu.flight.isSome then [Link.p] else [])).append
    (storeWaiters_request (gs := s.plu.inflight) (r := s.rsc) (e := ⟨c, p⟩) hw)
  refine ⟨hb.wait.once.sublist hsub, fun l hl => hb.wait.running l (hsub.subset hl), fun e he ho => ?_, ?_⟩
  · rcases Rsc.mem_request he with rfl | he
    · exact ⟨f, hf, ha⟩
    · rw [hn e he] at ho; cases ho
  · obtain ⟨pre, old, post, hr, hq⟩ := s.rsc.request_split ⟨c, p⟩
    have hpre : pre.filter (fun e => e.purpose.ofFlight) = [] :=
      List.filter_eq_nil_iff.2 fun e he => by simp [hn e (by simp [hr, he])]
    have hpost : post.filter (fun e => e.purpose.ofFlight) = [] :=
      List.filter_eq_nil_iff.2 fun e he => by simp [hn e (by simp [hr, he])]
    show ((s.rsc.request ⟨c, p⟩).entries.filter fun e => e.purpose.ofFlight).length ≤ 1
    rw [hq, List.filter_append, List.filter_cons, hpre, hpost]
    split <;> simp

/-- A write is requested that a link with a command running, which waits for nothing, will wait for. -/
theorem ends_awaitedWrite {c : Contents} {p : Purpose} {l : Link} {s : State} (hc : s.Body → c.Ok)
    (hw : p.waiter = some l) (hp : p.ofFlight = false) (hl : l ∉ s.waiters) (hr : (s.liu.port l).slot.isRunning = true) :
    Ends s ((s.requestWrite c p).runLong l) := by
  refine Ends.trans (t := s.requestWrite c p) (fun hb hrest => ⟨{ hb with rsc := hb.rsc.request (hc hb), wait := ?_ },
    hrest, rfl, .inl⟩)
    ((keeps_runLong l _).framed (runLong_frame _ _)).ends
  obtain ⟨pre, old, post, hre, hq⟩ := s.rsc.request_split ⟨c, p⟩
  have hperm : (waitersOf s.keu.flight s.plu.inflight (s.rsc.request ⟨c, p⟩)).Perm
      (l :: ((if s.keu.flight.isSome then [Link.p] else []) ++ s.plu.inflight.filterMap Staging.requester ++
        (pre ++ post).filterMap fun e => e.purpose.waiter)) := by
    simp only [waitersOf, storeWaiters, hq, List.filterMap_append, List.filterMap_cons, hw]
    rw [← List.append_assoc, ← List.append_assoc, ← List.append_assoc]
    exact List.perm_middle
  have hsub : ((if s.keu.flight.isSome then [Link.p] else []) ++ s.plu.inflight.filterMap Staging.requester ++
      (pre ++ post).filterMap fun e => e.purpose.waiter).Sublist (waitersOf s.keu.flight s.plu.inflight s.rsc) := by
    simp only [waitersOf, storeWaiters, hre, List.append_assoc]
    refine (List.Sublist.refl _).append ((List.Sublist.refl _).append (List.Sublist.filterMap _ ?_))
    exact (List.Sublist.refl _).append (List.sublist_append_right _ _)
  rw [State.waiters_eq] at hl
  refine ⟨hperm.nodup_iff.2 (List.nodup_cons.2 ⟨fun hm => hl (hsub.subset hm), hb.wait.once.sublist hsub⟩),
    fun m hm => ?_, fun e he ho => ?_, (ofFlight_request (e := ⟨c, p⟩) hp).length_le.trans hb.wait.single⟩
  · rcases List.mem_cons.1 (hperm.subset hm) with rfl | hm
    · exact hr
    · exact hb.wait.running m (hsub.subset hm)
  · rcases Rsc.mem_request he with rfl | he
    · rw [hp] at ho; cases ho
    · exact hb.wait.flight e he ho

/-- Well-formed parts are staged for a link with a command running that waits for nothing (R124). -/
theorem ends_stage {l : Link} {parts : PendingSet} {kind : StagingKind} {s : State}
    (hw : s.Body → parts.wellFormed = true) (hl : l ∉ s.waiters) (hr : (s.liu.port l).slot.isRunning = true) :
    Ends s (s.stage l parts kind) := by
  unfold State.stage
  extract_lets g t
  refine Ends.trans (t := t) (fun hb hrest => ⟨{ hb with plu := ?_, wait := ?_ }, hrest,
      rfl, .inl⟩)
    (((keeps_requestPendingSet t).framed (requestPendingSet_frame t)).trans
      ((keeps_runLong l _).framed (runLong_frame _ _))).ends
  · refine { hb.plu with inflight := fun k hk => ?_ }
    rcases List.mem_append.1 hk with hk | hk
    · exact hb.plu.inflight k hk
    · rw [List.mem_singleton.1 hk]
      exact hw hb
  · have hperm : (waitersOf s.keu.flight (s.plu.inflight ++ [g]) s.rsc).Perm
        (l :: waitersOf s.keu.flight s.plu.inflight s.rsc) := by
      simp only [waitersOf, storeWaiters, List.filterMap_append]
      rw [← List.append_assoc, ← List.append_assoc, ← List.append_assoc, List.append_assoc]
      exact List.perm_middle
    rw [State.waiters_eq] at hl
    refine ⟨hperm.nodup_iff.2 (List.nodup_cons.2 ⟨hl, hb.wait.once⟩), fun m hm => ?_, hb.wait.flight, hb.wait.single⟩
    rcases List.mem_cons.1 (hperm.subset hm) with rfl | hm
    · exact hr
    · exact hb.wait.running m hm

/-! ## An entry from its ENTER to its answer (R44 to R49) -/

/-- A P-link that waits for nothing has no ENTER in flight. -/
theorem State.no_flight_of_free {s : State} (hp : Link.p ∉ s.waiters) : s.keu.flight = none := by
  by_contra hn
  exact hp (by rw [State.waiters_eq]; simp [waitersOf, Option.isSome_iff_ne_none.2 hn])

theorem State.Body.noFlightWrite_of_free {s : State} (hb : s.Body) (hp : Link.p ∉ s.waiters) : s.noFlightWrite :=
  hb.noFlightWrite fun f hf => by rw [State.no_flight_of_free hp] at hf; cases hf

/-- Work whose end answers the attempt in flight. -/
theorem Work.answered {s t : State} (h : Work s t) (a : AttemptAnswer) (hn : s.noFlightWrite) (hp : s.panelFree) :
    Work s (t.endAttempt a) := work_of fun hb hr =>
  h.trans (work_endAttempt a ((h hb hr).1.noFlightWrite hn) ((h hb hr).1.panelFree hp))

theorem ends_evaluate {s : State} (hp : Link.p ∉ s.waiters) (hr : s.liu.p.slot.isRunning = true) :
    Ends s s.evaluate := by
  refine ends_of fun hb _ => ?_
  have hn : (s.handOn .preCount).noFlightWrite := hb.noFlightWrite_of_free hp
  have hpf : (s.handOn .preCount).panelFree := State.panelFree_of_free (s := s) hp
  have hh : Ends s (s.handOn .preCount) := ends_handOn hp hr (by simp)
  exact ends_ite
    (fun _ => hh.trans (ends_flightWrite (c := .limiter _) (fun _ => trivial) rfl (f := .preCount) rfl rfl hn))
    fun _ => hh.trans ((work_startWipe _ _).answered _ hn hpf).ends

theorem work_setLimiter (r : Limiter) (s : State) : Work s (s.setLimiter r) := (keeps_onAtl id).same rfl rfl

theorem work_preCountDone (r : Limiter) {s : State} (hf : s.keu.flight.isSome = true) (hn : s.noFlightWrite) :
    Work s (s.preCountDone r) :=
  (work_setLimiter r s).trans (work_setFlight hf hn (by simp))

theorem work_evaluationHalted {s : State} (hn : s.noFlightWrite) (hp : s.panelFree) : Work s s.evaluationHalted :=
  (work_enterHalted s).answered _ hn hp

theorem work_startPenalty (n : Nat) (s : State) : Work s (s.startPenalty n) := (keeps_onAtl (by simp)).same rfl rfl

theorem work_postP (e : Event) (s : State) : Work s (s.postP e) := (keeps_postP e s).framed (postP_frame e s)

theorem work_reportPenalty (s : State) : Work s s.reportPenalty :=
  work_ite (fun h => work_changeAccess (by rw [h]; rfl) rfl (.inl (by rw [h]; decide))) fun _ => work_refl s

theorem work_failAttemptOfEntry (b : Bool) {s : State} (hn : s.noFlightWrite) (hp : s.panelFree) :
    Work s (s.failAttemptOfEntry b) :=
  work_ite (fun _ => (work_startWipe _ s).answered _ hn hp) fun _ =>
    work_ite (fun _ => work_endAttempt _ hn hp) fun _ =>
      ((work_startPenalty _ s).trans <| (work_reportPenalty _).trans (work_postP _ _)).answered _ hn hp

theorem work_grant (i : SlotIx) {s : State} (hn : s.noFlightWrite) (hp : s.panelFree) : Work s (s.grant i) :=
  Work.answered (work_ite (fun h => work_ite (fun _ => work_openUnlocked h) fun _ => work_openConfig h)
    fun _ => work_refl s) _ hn hp

/-- A count below its saturation may be raised in a well-formed record (R11). -/
theorem slotWellFormed_bump {i : SlotIx} {r : SlotRecord} (h : slotWellFormed i r = true) (hs : r.saturated = false) :
    slotWellFormed i r.bump = true := by
  have hfields : slotWellFormed.slotFieldsOk i r = true → slotWellFormed.slotFieldsOk i r.bump = true := by
    intro hf
    simp only [slotWellFormed.slotFieldsOk, Bool.and_eq_true, SlotRecord.bump] at hf ⊢
    refine ⟨⟨hf.1.1, ?_⟩, hf.2⟩
    have hu := hf.1.2
    cases hr : r.uses with
    | none => rw [hr] at hu; cases hu
    | some n =>
      rw [hr] at hu
      have hne : n ≠ Config.max16 := fun he => by simp [SlotRecord.saturated, hr, he] at hs
      exact decide_eq_true (Nat.succ_le_of_lt (lt_of_le_of_ne (of_decide_eq_true hu) hne))
  have hb : r.bump.state = r.state := rfl
  unfold slotWellFormed at h ⊢
  rw [hb]
  cases hst : r.state with
  | empty =>
    simp only [hst, beq_iff_eq] at h ⊢
    rw [h]; rfl
  | active => exact hfields (by simpa only [hst] using h)
  | barred =>
    simp only [hst, Bool.and_eq_true] at h ⊢
    exact ⟨h.1, hfields h.2⟩
  | spent =>
    simp only [hst, Bool.and_eq_true, beq_iff_eq] at h ⊢
    refine ⟨h.1, ?_⟩
    rw [h.2]; rfl

theorem ends_requestUses (i : SlotIx) {s : State} (hf : s.keu.flight.isSome = true) (hn : s.noFlightWrite)
    (hp : s.panelFree) : Ends s (s.requestUses i) := by
  refine ends_ite (fun _ => (work_grant i hn hp).ends) fun hs => ?_
  refine (work_setFlight (f := .uses i) hf hn (by simp)).then (ends_flightWrite (fun hb => ?_) rfl rfl ?_ hn)
  · exact slotWellFormed_bump (hb.ctb.slots i) (by simpa using hs)
  · simp [Flight.awaits]

theorem ends_refundDone (r : Limiter) {s : State} (hn : s.noFlightWrite) (hp : s.panelFree) :
    Ends s (s.refundDone r) := by
  have ht : Work s (s.setLimiter r) := work_setLimiter r s
  unfold State.refundDone
  dsimp only
  split
  · rename_i i hf
    exact ht.then (ends_requestUses i (by show s.keu.flight.isSome = true; simp [hf]) hn hp)
  · exact (ht.trans (work_grant 9 hn hp)).ends
  · exact ht.ends

theorem ends_requestRefund {s : State} {f : Flight} (hf : s.keu.flight = some f) (ha : f.awaits .refund = true)
    (hn : s.noFlightWrite) : Ends s s.requestRefund :=
  ends_flightWrite (c := .limiter _) (fun _ => trivial) rfl hf ha hn

theorem ends_judge (a : Option SlotIx) {s : State} (hf : s.keu.flight.isSome = true) (hn : s.noFlightWrite)
    (hp : s.panelFree) : Ends s (s.judge a) := by
  cases a with
  | none => exact (work_failAttemptOfEntry false hn hp).ends
  | some i =>
    refine ends_ite (fun _ => ?_) fun _ => ?_
    · exact (work_setFlight (f := .spend) hf hn (by simp)).then
        (ends_flightWrite (fun _ => slotWellFormed_spent) rfl rfl rfl hn)
    · exact (work_setFlight (f := .refund i) hf hn (by simp)).then (ends_requestRefund rfl rfl hn)

theorem ends_spendDone {s : State} (hf : s.keu.flight.isSome = true) (hn : s.noFlightWrite) : Ends s s.spendDone :=
  (work_setFlight (f := .recoveryRefund) hf hn (by simp)).then (ends_requestRefund rfl rfl hn)

theorem work_servedDone (r : Limiter) (s : State) : Work s (s.servedDone r) := by
  refine work_ite (fun h => ?_) fun _ => work_setLimiter r s
  exact (work_setLimiter r s).trans <|
    (work_enterLocked (s := s.setLimiter r) (by show s.acc.access.isOpen = false; rw [h]; rfl)
      (by show s.acc.access ≠ _; rw [h]; decide)).trans (work_postP _ _)

theorem work_requestServed (s : State) : Work s s.requestServed :=
  (keeps_requestWrite (c := .limiter _) trivial rfl rfl).framed (requestWrite_frame _ _ s)

/-! ## Enrolment (R13, R14, R37, R38) -/

/-- The record an enrolment builds is well formed: its length is the candidate's, and a user slot's mode and mask come
from the dialogue, or for a PIN change from the slot (R13, R14). -/
theorem enrolRecord_wellFormed {s : State} {d : Dialogue} {c : Candidate} (hb : s.Body) (hd : d.Ok)
    (hc : d.candidate = some c) (he : s.eligible d.kind d.target = true) :
    slotWellFormed d.target (s.enrolRecord d c) = true := by
  have hlen := hd.length c hc
  have hmm : isUserSlot d.target = true → (s.enrolRecord d c).mode.isSome = true ∧
      ∃ m, (s.enrolRecord d c).mask = some m ∧ m ≠ 0 := by
    intro hu
    simp only [State.enrolRecord, hu, if_true]
    cases hk : d.kind with
    | change =>
      rw [hk] at he
      have hact : (s.slotRec d.target).state = .active := by
        simp only [State.eligible, Bool.and_eq_true, beq_iff_eq] at he
        exact he.1
      have hw : slotWellFormed d.target (s.slotRec d.target) = true := hb.ctb.slots d.target
      simp only [slotWellFormed, hact, slotWellFormed.slotFieldsOk, hu, if_true, Bool.and_eq_true] at hw
      obtain ⟨-, hmode, hmask⟩ := hw
      simp only [if_true]
      cases hm : (s.slotRec d.target).mask with
      | none => rw [hm] at hmask; cases hmask
      | some m => exact ⟨hmode, m, rfl, by simpa [hm] using hmask⟩
    | enrol => simpa using hd.user hk hu
    | automatic => rw [hd.automatic hk] at hu; cases hu
  have hnone : isUserSlot d.target = false → (s.enrolRecord d c).mode = none ∧ (s.enrolRecord d c).mask = none := by
    intro hu
    simp [State.enrolRecord, hu]
  show slotWellFormed.slotFieldsOk d.target (s.enrolRecord d c) = true
  simp only [slotWellFormed.slotFieldsOk, Bool.and_eq_true]
  refine ⟨⟨⟨decide_eq_true hlen, rfl⟩, rfl⟩, ?_⟩
  cases hu : isUserSlot d.target with
  | true =>
    obtain ⟨hmode, m, hm, hne⟩ := hmm hu
    simpa [hmode, hm] using hne
  | false =>
    obtain ⟨hmode, hmask⟩ := hnone hu
    simp [hmode, hmask]

theorem work_answerEnrolment {s : State} (o : KeyOutcome) (hn : s.noFlightWrite) (hp : s.panelFree) :
    Work s (s.answerEnrolment o) := (keeps_answerEnrolment o hn hp).framed (answerEnrolment_frame o s)

theorem work_refuseEnrolment {s : State} (r : Reason) (hn : s.noFlightWrite) (hp : s.panelFree) :
    Work s (s.refuseEnrolment r) := (keeps_refuseEnrolment r hn hp).framed (refuseEnrolment_frame r s)

theorem ends_enrolWrite {d : Dialogue} {c : Candidate} {s : State} (hd : s.keu.dialogue = some d)
    (hc : d.candidate = some c) (hf : s.keu.flight.isSome = true) (hn : s.noFlightWrite) (hp : s.panelFree) :
    Ends s (s.enrolWrite d c) := by
  refine ends_ite (fun _ => (work_refuseEnrolment _ hn hp).ends) fun he =>
    ends_ite (fun _ => (work_answerEnrolment _ hn hp).ends) fun _ => ?_
  refine (work_setFlight (f := .enrolWrite) hf hn (by simp)).then (ends_flightWrite (fun hb => ?_) rfl rfl rfl hn)
  have hel : s.eligible d.kind d.target = true := by simpa using he
  exact enrolRecord_wellFormed (s := s.setFlight .enrolWrite) hb (hb.keu.dialogue d hd) hc hel

theorem ends_confirmEntry {s : State} (hf : s.keu.flight.isSome = true) (hn : s.noFlightWrite) (hp : s.panelFree) :
    Ends s s.confirmEntry := by
  have hm : Ends s (s.answerEnrolment .mismatch) := (work_answerEnrolment _ hn hp).ends
  unfold State.confirmEntry
  split
  · exact hm
  · split
    · exact hm
    · exact ends_ite (fun _ => ends_enrolWrite ‹_› ‹_› hf hn hp) fun _ => hm

theorem takeFirst_frame (s : State) : State.changesOnly [.keu, .liu] s s.takeFirst :=
  changesOnly_mono (changesOnly_append (onKeu_frame _ s) <| changesOnly_append (onKeu_frame _ _) (answer_frame _ _ _))
    (by decide)

theorem work_takeFirst {s : State} (hf : s.keu.flight = some .verifyFirst) (hn : s.noFlightWrite) (hp : s.panelFree) :
    Work s s.takeFirst := (keeps_takeFirst hf hn hp).framed (takeFirst_frame s)

theorem work_enrolled {s : State} (hn : s.noFlightWrite) (hp : s.panelFree) : Work s s.enrolled := by
  unfold State.enrolled
  have h : Work s (if s.keu.inAutomatic && s.acc.access == .blank then s.enterLocked else s) :=
    work_ite (fun h => by
      have hb : s.acc.access = .blank := by simp at h; exact h.2
      exact work_enterLocked (by rw [hb]; rfl) (by rw [hb]; decide)) fun _ => work_refl s
  exact work_of fun hb hr => h.trans (work_answerEnrolment _ ((h hb hr).1.noFlightWrite hn) ((h hb hr).1.panelFree hp))

/-! ## The ends of writes (R139, R140) -/

/-- A write with this purpose has just ended: a flight that waited for it stands with no other write of it, and its
requester waits for nothing else. -/
structure State.Ended (p : Purpose) (s : State) : Prop where
  flight : p.ofFlight = true → s.noFlightWrite ∧ s.keu.flight.isSome = true
  waiter : ∀ l ∈ p.waiter, l ∉ s.waiters

theorem State.Ended.landing {p : Purpose} {s : State} (h : s.Ended p) (hb : s.Body) (hp : p.ofFlight = true) :
    s.keu.flight.isSome = true ∧ s.noFlightWrite ∧ s.panelFree :=
  let ⟨hn, hf⟩ := h.flight hp
  ⟨hf, hn, hb.panelFree hf⟩

theorem work_replyOkTo {o : Option Link} (f : Fields) {s : State} (h : ∀ l ∈ o, l ∉ s.waiters) :
    Work s (s.replyOkTo o f) := (keeps_replyOkTo f h).framed (replyOkTo_frame o f s)

theorem work_refuseTo {o : Option Link} (r : Reason) {s : State} (h : ∀ l ∈ o, l ∉ s.waiters) :
    Work s (s.refuseTo o r) := (keeps_refuseTo r h).framed (refuseTo_frame o r s)

theorem ends_limiterWritten {p : Purpose} (r : Limiter) {s : State} (h : s.Ended p) :
    Ends s (s.limiterWritten p r) := by
  refine ends_of fun hb _ => ?_
  unfold State.limiterWritten
  split
  · obtain ⟨hf, hn, -⟩ := h.landing hb rfl
    exact (work_preCountDone r hf hn).ends
  · obtain ⟨-, hn, hp⟩ := h.landing hb rfl
    exact ends_refundDone r hn hp
  · exact (work_servedDone r s).ends
  · exact ((work_setLimiter r s).trans (work_resetAnswered _)).ends
  · exact (work_setLimiter r s).ends

theorem ends_slotWritten {p : Purpose} {i : SlotIx} {r : SlotRecord} {s : State} (hr : slotWellFormed i r = true)
    (h : s.Ended p) : Ends s (s.slotWritten p i r) := by
  have ht : Work s (s.slotDone i r) := (keeps_slotDone hr).framed (setCell_frame _ _ s)
  refine ends_of fun hb _ => ?_
  unfold State.slotWritten
  extract_lets t
  split
  · obtain ⟨-, hn, hp⟩ := h.landing hb rfl
    exact (ht.trans (work_grant i (s := t) hn hp)).ends
  · obtain ⟨hf, hn, -⟩ := h.landing hb rfl
    exact ht.then (ends_spendDone (s := t) hf hn)
  · obtain ⟨-, hn, hp⟩ := h.landing hb rfl
    exact (ht.trans (work_enrolled (s := t) hn hp)).ends
  · exact (ht.trans (work_replyOkTo (s := t) .none h.waiter)).ends
  · exact (ht.trans (work_destroyAnswered true t)).ends
  · exact ht.ends

theorem work_volumePartEnded (i : VolIx) (st : PartStatus) (s : State) : Work s (s.volumePartEnded i st) :=
  (keeps_volumePartEnded i st s).framed (partEnded_frame _ s)

theorem work_volumeWritten (p : Purpose) (i : VolIx) (s : State) : Work s (s.volumeWritten p i) := by
  unfold State.volumeWritten
  split
  · exact work_volumePartEnded _ _ s
  · exact work_destroyAnswered true s
  · exact work_rekeyAnswered s
  · exact work_refl s

theorem psetDone_frame (a : PendingSet) (carried : List Nat) (discarded : Bool) (s : State) :
    State.changesOnly [.plu, .liu] s (s.psetDone a carried discarded) :=
  changesOnly_mono (changesOnly_append (onPlu_frame _ s) (answerStagings_frame (fun _ t => replyOkTo_frame _ _ t) _ _))
    (by decide)

theorem psetFailed_frame (carried : List Nat) (s : State) :
    State.changesOnly [.plu, .liu, .rsc] s (s.psetFailed carried) := by
  unfold State.psetFailed
  extract_lets t u
  have hu : State.changesOnly [.plu, .liu] s u :=
    changesOnly_mono (changesOnly_append (onPlu_frame _ s) (answerStagings_frame (fun _ t => refuseTo_frame _ _ t) _ _))
      (by decide)
  exact changesOnly_ite (fun _ => changesOnly_append hu (requestPendingSet_frame _)) fun _ =>
    changesOnly_mono hu (by decide)

theorem work_policyDone (s : State) : Work s s.policyDone :=
  (keeps_policyDone s).framed (changesOnly_append (onPlu_frame _ s) (partEnded_frame _ _))

theorem work_policyFailed (s : State) : Work s s.policyFailed :=
  (keeps_policyFailed s).framed (changesOnly_append (onPlu_frame _ s) (partEnded_frame _ _))

theorem work_mapDone (s : State) : Work s s.mapDone :=
  (keeps_mapDone s).framed (changesOnly_append (onPlu_frame _ s) (partEnded_frame _ _))

theorem work_mapFailed (s : State) : Work s s.mapFailed :=
  (keeps_mapFailed s).framed
    (changesOnly_append (setMap_frame _ s) (changesOnly_append (onPlu_frame _ _) (partEnded_frame _ _)))

/-- Settings that change only in their option items. -/
theorem work_options (f : Plu → Plu) (hf : ∀ p, (f p).policy = p.policy ∧ (f p).map = p.map ∧
    (f p).committed = p.committed ∧ (f p).inflight = p.inflight) (s : State) : Work s (s.onPlu f) := by
  obtain ⟨hp, hm, hc, hi⟩ := hf s.plu
  exact (keeps_onPlu (fun h => ⟨hp ▸ h.policy, hm ▸ h.map, hc ▸ h.committed, hi ▸ h.inflight⟩)
    (by rw [hi])).same rfl rfl

theorem ends_optionsDone {o : Options} {req : Option Link} {s : State} (h : s.Ended (.options req)) :
    Ends s (s.optionsDone o req) :=
  ((work_options (fun p => { p with stored := o, storedDamaged := false }) (fun _ => ⟨rfl, rfl, rfl, rfl⟩) s).trans
    (work_replyOkTo (o := req) (.options o) h.waiter)).ends

theorem ends_optionsFailed {req : Option Link} {s : State} (h : s.Ended (.options req)) : Ends s (s.optionsFailed req) :=
  ((work_options (fun p => { p with storedDamaged := true }) (fun _ => ⟨rfl, rfl, rfl, rfl⟩) s).trans
    (work_refuseTo (o := req) .storeFault h.waiter)).ends

/-- The owner of a completed write is answered done. -/
theorem ends_writeDone {e : WriteEntry} {s : State} (hc : e.contents.Ok) (h : s.Ended e.purpose) :
    Ends s (s.writeDone e) := by
  obtain ⟨c, p⟩ := e
  unfold State.writeDone
  cases c with
  | limiter r => exact ends_limiterWritten r h
  | slot i r => exact ends_slotWritten hc h
  | volume i r => exact (work_volumeWritten p i s).ends
  | policy r => exact (work_policyDone s).ends
  | map r => exact (work_mapDone s).ends
  | journal j =>
    cases p with
    | journal w => exact (work_journalDone w j s).ends
    | _ => exact ends_refl s
  | pset a =>
    cases p with
    | pset carried discarded => exact ((keeps_psetDone carried discarded hc).framed (psetDone_frame _ _ _ s)).ends
    | _ => exact ends_refl s
  | option o =>
    cases p with
    | options req => exact ends_optionsDone h
    | _ => exact ends_refl s

theorem ends_slotWriteFailed {p : Purpose} (i : SlotIx) (r : SlotRecord) {s : State} (h : s.Ended p) :
    Ends s (s.slotWriteFailed p i r) := by
  have ht : Work s (s.slotFailed i r) := (keeps_slotFailed i r s).framed (setCell_frame _ _ s)
  refine ends_of fun hb _ => ?_
  unfold State.slotWriteFailed
  split
  · obtain ⟨-, hn, hp⟩ := h.landing hb rfl
    exact (ht.trans (work_grant i hn hp)).ends
  · obtain ⟨-, hn, hp⟩ := h.landing hb rfl
    exact (ht.trans (work_failAttemptOfEntry true hn hp)).ends
  · obtain ⟨-, hn, hp⟩ := h.landing hb rfl
    exact (ht.trans (work_refuseEnrolment _ hn hp)).ends
  · rename_i req
    exact (ht.trans (work_refuseTo (o := req) (s := s.slotFailed i r) .storeFault h.waiter)).ends
  · exact (((keeps_destroyFailed i _ s).framed (setCell_frame _ _ s)).trans (work_destroyAnswered false _)).ends
  · exact ht.ends

theorem volumeFailed_frame (i : VolIx) (s : State) : State.changesOnly [.kru] s (s.volumeFailed i) := by
  unfold State.volumeFailed
  split
  · exact changesOnly_refl _ s
  · exact setVolume_frame _ _ s

theorem work_volumeWriteFailed (p : Purpose) (i : VolIx) (s : State) : Work s (s.volumeWriteFailed p i) := by
  have ht : Work s (s.volumeFailed i) := (keeps_volumeFailed i s).framed (volumeFailed_frame i s)
  unfold State.volumeWriteFailed
  split
  · exact ht.trans (work_volumePartEnded _ _ _)
  · exact ht.trans (work_destroyAnswered false _)
  · exact ht.trans (work_rekeyAnswered _)
  · exact ht

theorem ends_limiterFailed {p : Purpose} {s : State} (h : s.Ended p) : Ends s (s.limiterFailed p) := by
  refine ends_of fun hb _ => ?_
  unfold State.limiterFailed
  split
  · obtain ⟨-, hn, hp⟩ := h.landing hb rfl
    exact (work_evaluationHalted hn hp).ends
  · obtain ⟨-, hn, hp⟩ := h.landing hb rfl
    exact (work_evaluationHalted hn hp).ends
  · exact (work_enterHalted s).ends

/-- The owner of a failed write is answered failed. -/
theorem ends_writeFailed {e : WriteEntry} {s : State} (h : s.Ended e.purpose) : Ends s (s.writeFailed e) := by
  obtain ⟨c, p⟩ := e
  unfold State.writeFailed
  cases c with
  | limiter r => exact ends_limiterFailed h
  | slot i r => exact ends_slotWriteFailed i r h
  | volume i r => exact (work_volumeWriteFailed p i s).ends
  | policy r => exact (work_policyFailed s).ends
  | map r => exact (work_mapFailed s).ends
  | journal j => exact (work_enterHalted s).ends
  | pset a =>
    cases p with
    | pset carried discarded => exact ((keeps_psetFailed carried s).framed (psetFailed_frame _ s)).ends
    | _ => exact ends_refl s
  | option o =>
    cases p with
    | options req => exact ends_optionsFailed h
    | _ => exact ends_refl s

/-- With a write current, the writes are that one and those that wait. -/
theorem Rsc.entries_of_current {r : Rsc} {w : CurrentWrite} (h : r.current = some w) :
    r.entries = w.entry :: r.queue := by simp [Rsc.entries, h]

theorem work_clearCurrent (s : State) : Work s s.clearCurrent := by
  have hsub : ({ s.rsc with current := none } : Rsc).entries.Sublist s.rsc.entries := by
    simp [Rsc.entries]
  refine Keeps.same (keeps_onRsc (fun h => ⟨h.waiting, by simp, fun e he => h.contents e (hsub.subset he)⟩) ?_ ?_) rfl rfl
  · exact (List.Sublist.refl _).append (hsub.filterMap _)
  · exact hsub.filter _

/-- The current write has ended. -/
theorem State.Body.ended {s : State} (hb : s.Body) {w : CurrentWrite} (hw : s.rsc.current = some w)
    (f : Store → Store) : ((s.onStore f).clearCurrent).Ended w.entry.purpose := by
  have he := Rsc.entries_of_current hw
  have hq : ((s.onStore f).clearCurrent).rsc.entries = s.rsc.queue := by simp [State.clearCurrent, Rsc.entries]
  refine ⟨fun ho => ⟨fun e hm => ?_, ?_⟩, fun l hl => ?_⟩
  · have hs := hb.wait.single
    rw [he, List.filter_cons, if_pos ho, List.length_cons] at hs
    have hnil : s.rsc.queue.filter (fun e => e.purpose.ofFlight) = [] := List.length_eq_zero_iff.1 (by omega)
    rw [hq] at hm
    simpa using List.filter_eq_nil_iff.1 hnil e hm
  · obtain ⟨g, hg, -⟩ := hb.wait.flight w.entry (by simp [he]) ho
    show s.keu.flight.isSome = true
    simp [hg]
  · have hn := hb.wait.once
    rw [State.waiters_eq]
    show l ∉ waitersOf s.keu.flight s.plu.inflight _
    simp only [waitersOf, storeWaiters, he, hq, List.filterMap_cons, Option.mem_def.1 hl] at hn ⊢
    rw [← List.append_assoc] at hn ⊢
    exact (List.nodup_cons.1 (List.perm_middle.nodup_iff.1 hn)).1

/-- An attempt of the current write ends. -/
theorem ends_attemptEnds {w : CurrentWrite} (r : AttemptEnd) {s : State} (hw : s.rsc.current = some w) :
    Ends s (s.attemptEnds w r) := by
  have hstore : ∀ f, Work s (s.onStore f) := fun f => (keeps_onStore f s).same rfl rfl
  have hclear : ∀ f, Work s (s.onStore f).clearCurrent := fun f => (hstore f).trans (work_clearCurrent _)
  have he := Rsc.entries_of_current hw
  refine ends_of fun hb _ => ?_
  cases r with
  | passed => exact (hclear _).then (ends_writeDone (hb.rsc.contents w.entry (by simp [he])) (hb.ended hw _))
  | failed left =>
    refine ends_ite (fun _ => ?_) fun _ => (hclear _).then (ends_writeFailed (hb.ended hw _))
    refine (hstore _).then (Keeps.same (keeps_onRsc (fun h => ⟨h.waiting, ?_, ?_⟩) ?_ ?_) rfl rfl).ends
    · rintro v ⟨⟩
      exact .inr rfl
    · exact fun e hm => h.contents e (by simpa [Rsc.entries, hw] using hm)
    · simp [storeWaiters, Rsc.entries, hw]
    · simp [Rsc.entries, hw]

end Sys2Proof.Machine
end

