-- ==== Sys2Proof/Proofs/SupplySteps.lean ====
section
/-! The timebase, the cell monitor, the CASE input and the supplies: what each change leaves of the invariant. -/

namespace Sys2Proof.Machine

/-! ## Timebase and conditions (R67, R145, R146, R162) -/

theorem work_conditionChanged (o : Bool) (s : State) : Work s (s.conditionChanged o) :=
  (keeps_conditionChanged o s).framed
    (changesOnly_append (postAccessChanged_frame s) (tellGate_frame o _))

theorem work_penaltyRateChanged (s : State) : Work s s.penaltyRateChanged := by
  have h : Work s (s.onAtl fun a => { a with phase := false }) := (keeps_onAtl (by simp)).same rfl rfl
  exact work_ite (fun _ => h.trans (work_postP _ _)) fun _ => h

theorem work_postTimebase (s : State) : Work s s.postTimebase := work_postP _ s

/-- A change of the TBU: the body does not speak of it. -/
theorem State.Body.onTbu {s : State} (h : s.Body) (f : Tbu → Tbu) : (s.onTbu f).Body := { h with }

/-- A flag of a condition changes: neither the body nor the rest speaks of it. -/
theorem State.Rest.flags {s : State} (h : s.Rest) (f o : Bool) :
    (s.onAcc fun c => { c with clockFault := f, caseOpen := o }).Rest :=
  ⟨h.acc.of_le rfl rfl id id id id id id, h.wpe⟩

/-- What stands after a row that changes the clock on its way. -/
def State.Stands (s : State) : Prop := s.Body ∧ s.Rest ∧ s.TimeOk

theorem Ends.stands {s t : State} (h : Ends s t) (hb : s.Body) (hr : s.Rest) (ht : s.TimeOk) : t.Stands :=
  let ⟨htb, htr, hc⟩ := h hb hr
  ⟨htb, htr, hc.time ht⟩

theorem State.Stands.step {s t : State} (h : s.Stands) (k : Ends s t) : t.Stands :=
  let ⟨hb, hr, ht⟩ := h
  k.stands hb hr ht

/-- A flag is set or cleared in a state whose clock it then agrees with; what follows keeps the clock. -/
theorem stands_flag {s : State} {f : Acc → Acc} (hb : s.Body) (hr : s.Rest)
    (hf : f s.acc = { s.acc with clockFault := (f s.acc).clockFault, caseOpen := (f s.acc).caseOpen })
    (ht : (s.onAcc f).TimeOk) : (s.onAcc f).Stands := by
  refine ⟨{ hb with }, ?_, ht⟩
  have h : s.onAcc f = s.onAcc fun c => { c with clockFault := (f s.acc).clockFault, caseOpen := (f s.acc).caseOpen } :=
    congrArg (fun a => ({ s with acc := a } : State)) hf
  rw [h]
  exact hr.flags _ _

theorem ends_clockFaultOnset (s : State) : Ends (s.onAcc fun c => { c with clockFault := true }) s.clockFaultOnset :=
  ((work_conditionChanged _ _).trans (work_raise _ _ _)).ends

theorem stands_clockFaultOnset {s : State} (hb : s.Body) (hr : s.Rest)
    (ht : (s.onAcc fun c => { c with clockFault := true }).TimeOk) : s.clockFaultOnset.Stands :=
  (stands_flag hb hr rfl ht).step (ends_clockFaultOnset s)

theorem stands_clockFaultEnd {s : State} (hb : s.Body) (hr : s.Rest)
    (ht : (s.onAcc fun c => { c with clockFault := false }).TimeOk) : s.clockFaultEnd.Stands :=
  (stands_flag hb hr rfl ht).step (work_conditionChanged _ _).ends

theorem stands_caseOpenOnset {s : State} (hb : s.Body) (hr : s.Rest)
    (ht : (s.onAcc fun c => { c with caseOpen := true }).TimeOk) : s.caseOpenOnset.Stands :=
  (stands_flag hb hr rfl ht).step ((work_conditionChanged _ _).trans (work_raise _ _ _)).ends

theorem stands_caseOpenEnd {s : State} (hb : s.Body) (hr : s.Rest)
    (ht : (s.onAcc fun c => { c with caseOpen := false }).TimeOk) : s.caseOpenEnd.Stands :=
  (stands_flag hb hr rfl ht).step (work_conditionChanged _ _).ends

/-- The timebase has changed and what R145 and R146 tell of it is told; the flag of CLOCK_FAULT comes next. -/
theorem rateChanged_parts {f : Tbu → Tbu} {s : State} (hs : s.Stands) :
    ((s.onTbu f).penaltyRateChanged.postTimebase).Body ∧ ((s.onTbu f).penaltyRateChanged.postTimebase).Rest ∧
      ((s.onTbu f).penaltyRateChanged.postTimebase).clock = (s.onTbu f).clock ∧
      ((s.onTbu f).penaltyRateChanged.postTimebase).atl.phase = false := by
  obtain ⟨hb, hr, -⟩ := hs
  have hb1 := hb.onTbu f
  have hk := ((work_penaltyRateChanged (s.onTbu f)).trans (work_postTimebase _)) hb1 hr
  refine ⟨hk.1.body, hk.2, hk.1.clock, ?_⟩
  have hp : ((s.onTbu f).penaltyRateChanged.postTimebase).atl = (s.onTbu f).penaltyRateChanged.atl :=
    postP_frame _ _ .atl (by simp)
  rw [hp]
  unfold State.penaltyRateChanged
  extract_lets t
  split
  · exact congrArg Atl.phase (postP_frame _ t .atl (by simp))
  · rfl

theorem stands_enterFallback {s : State} (hs : s.Stands) : s.enterFallback.Stands := by
  obtain ⟨hb, hr, hc, hp⟩ := rateChanged_parts (f := Tbu.fallen) hs
  refine stands_clockFaultOnset hb hr ?_
  simp only [State.clock, Prod.mk.injEq] at hc
  obtain ⟨⟨htb, hrun⟩, -, hco, hci⟩ := hc
  refine ⟨?_, ?_, ?_, ?_⟩
  · simp only [State.onAcc_tbu, htb, hrun]; simp [Tbu.fallen]
  · simp only [State.onAcc_atl, hp]; simp
  · simp only [State.onAcc_tbu, State.onAcc_acc, htb]; simp [Tbu.fallen]
  · exact hco.trans (hs.2.2.caseOpen.trans hci.symm)

theorem stands_enterCrystal {s : State} (hs : s.Stands) : s.enterCrystal.Stands := by
  obtain ⟨hb, hr, hc, hp⟩ := rateChanged_parts (f := Tbu.returned) hs
  refine stands_clockFaultEnd hb hr ?_
  simp only [State.clock, Prod.mk.injEq] at hc
  obtain ⟨⟨htb, hrun⟩, -, hco, hci⟩ := hc
  refine ⟨?_, ?_, ?_, ?_⟩
  · simp only [State.onAcc_tbu, htb, hrun]; simp [Tbu.returned]
  · simp only [State.onAcc_atl, hp]; simp
  · simp only [State.onAcc_tbu, State.onAcc_acc, htb]; simp [Tbu.returned]
  · exact hco.trans (hs.2.2.caseOpen.trans hci.symm)

/-! ## Losing the core domain, wake and sleep (R153, R158, R159) -/

theorem Liu.Ok.init {b : BridgeState} {m : SupplyMode} (hb : b = .absent ↔ m ≠ .bus) (ha : b ≠ .attached) :
    (Liu.init b).Ok m :=
  ⟨hb, by simp [Liu.init, ha], by simp [Liu.init]⟩

theorem Rsc.Ok.init : Rsc.init.Ok := ⟨by simp [Rsc.init], by simp [Rsc.init], by simp [Rsc.init, Rsc.entries]⟩

theorem Keu.Ok.init : Keu.init.Ok :=
  ⟨by simp [Keu.init], by simp [Keu.init], by simp [Keu.init], by simp [Keu.init], by simp [Keu.init]⟩

/-- With no flight, no staging and no write, nothing waits for an answer. -/
theorem Waits.init (u : Liu) : Waits none [] Rsc.init u :=
  ⟨by simp [waitersOf, storeWaiters, Rsc.entries, Rsc.init], by simp [waitersOf, storeWaiters, Rsc.entries, Rsc.init],
    by simp [Rsc.entries, Rsc.init], by simp [Rsc.entries, Rsc.init]⟩

/-- The core domain is lost, the mode changing with it: what it held is at its starting values. -/
theorem ends_coreInit {f : Ssv → Ssv} {b : BridgeState} {s : State} (hf : s.ssv.Ok → (f s.ssv).Ok)
    (hc : (f s.ssv).caseIsOpen = s.ssv.caseIsOpen) (hb : b = .absent ↔ (f s.ssv).mode ≠ .bus) (ha : b ≠ .attached) :
    Ends s ((s.onSsv f).coreInit b) := by
  intro h hr
  refine ⟨?_, ⟨?_, fun hw => ?_⟩, ?_, .inl⟩
  · exact { h with
      keu := .init, liu := .init hb ha, ssv := hf h.ssv, rsc := .init
      wpe := .of_no_order rfl rfl (show 1 ≤ 1 ∧ 1 ≤ 3 by decide) _
      plu := ⟨h.plu.policy, h.plu.map, h.plu.committed, by simp [State.coreInit]⟩
      wait := Waits.init _ }
  · exact hr.acc.of_le rfl rfl (nomatch ·) (nomatch ·) (nomatch ·) (nomatch ·) (nomatch ·) (nomatch ·)
  · show s.wpe.coreLost = .init
    rw [hr.wpe hw]
    rfl
  · show (_, _, _, (f s.ssv).caseIsOpen) = _
    rw [hc]
    rfl

theorem work_startSleepTimer {s : State} (h : s.ssv.mode = .cellAwake) : Work s s.startSleepTimer :=
  (keeps_onSsv (fun hv => ⟨fun _ => h, hv.sleepDue, hv.filterDir, hv.nearest, hv.off⟩) rfl rfl).same rfl rfl

theorem work_autoDialogue {s : State} (h : s.keu.flight = none) : Work s s.autoDialogue :=
  (keeps_autoDialogue h).framed (autoDialogue_frame s)

/-- A mode with the core domain powered, taken from a sleeping part: the sleep items stand at rest there. -/
theorem Ssv.Ok.awake {v : Ssv} (h : v.Ok) (hm : v.mode = .cellSleep) (m : SupplyMode) : ({ v with mode := m } : Ssv).Ok :=
  ⟨fun ht => absurd (hm.symm.trans (h.sleepTimer ht)) (by decide), fun hd => absurd (hm.symm.trans (h.sleepDue hd)) (by decide),
    h.filterDir, h.nearest, h.off⟩

theorem ends_powerCore {m : SupplyMode} {s : State} (hs : s.ssv.mode = .cellSleep) (hm : m = .bus ∨ m = .cellAwake) :
    Ends s (s.powerCore m) := by
  have h : Ends s ((s.onSsv fun v => { v with mode := m }).coreInit (bridgeBy (m == .bus))) :=
    ends_coreInit (fun hv => hv.awake hs m) rfl (by rcases hm with rfl | rfl <;> simp [bridgeBy])
      (by rcases hm with rfl | rfl <;> simp [bridgeBy])
  have ha := h.trans (work_autoDialogue rfl).ends
  refine ends_ite (fun hc => ha.trans (work_startSleepTimer ?_).ends) fun _ => ha
  exact (congrArg Ssv.mode (autoDialogue_frame _ .ssv (by simp))).trans hc

theorem work_postAccessChanged (s : State) : Work s s.postAccessChanged :=
  (keeps_postAccessChanged s).framed (postAccessChanged_frame s)

theorem work_postWipeState (s : State) : Work s s.postWipeState :=
  (keeps_postWipeState s).framed (postWipeState_frame s)

theorem work_wakeLevel (s : State) : Work s s.wakeLevel := by
  unfold State.wakeLevel
  extract_lets t
  have h : Work s t := work_ite (fun _ => work_refl s) fun _ => work_postP _ s
  exact work_ite (fun _ => h.trans (work_raise _ _ _)) fun _ => h

theorem ends_wake {m : SupplyMode} {s : State} (hs : s.ssv.mode = .cellSleep) (hm : m = .bus ∨ m = .cellAwake) :
    Ends s (s.wake m) := by
  refine (ends_powerCore hs hm).trans (Work.ends ?_)
  refine (work_postAccessChanged _).trans (Work.trans ?_ ((work_wakeLevel _).trans (work_proceed _)))
  exact work_ite (fun _ => (work_refreshRun _).trans (work_postWipeState _)) fun _ => work_refl _

theorem ends_enterSleep (s : State) : Ends s s.enterSleep := by
  have h : Ends s ((s.onSsv fun v =>
      { v with mode := .cellSleep, sleepTimer := none, sleepDue := false, samplePhase := 0 }).coreInit .absent) :=
    ends_coreInit (fun hv => ⟨by simp, by simp, hv.filterDir, hv.nearest, hv.off⟩) rfl (by simp) (by simp)
  exact ends_ite (fun _ => h.trans (ends_wake rfl (.inr rfl))) fun _ => h

/-! ## Cell monitor (R160, R161) -/

theorem direction_isSome_iff (l c : CellLevel) : (direction l c).isSome = true ↔ c ≠ l := by
  unfold direction
  split
  · simp [*]
  · split <;> simp [*]

theorem Ssv.Ok.filter {v : Ssv} (h : v.Ok) (c : CellLevel) : (v.filter c).Ok := by
  unfold Ssv.filter
  split
  · exact ⟨h.sleepTimer, h.sleepDue, by simp, by simp, by simp⟩
  · rename_i d hd
    have hc : c ≠ v.level := (direction_isSome_iff _ _).1 (by simp [hd])
    have hstart : ({ v with filterCount := 1, filterDir := some d, nearest := some c } : Ssv).Ok :=
      ⟨h.sleepTimer, h.sleepDue, by simp, by simp, by simpa using hc⟩
    split
    · exact hstart
    · split
      · rename_i hz hdir
        refine ⟨h.sleepTimer, h.sleepDue, by simp [hdir], by simp, ?_⟩
        have hn : nearer v.level v.nearest c ≠ v.level := by
          unfold nearer
          split
          · rename_i held hheld
            split
            · exact hc
            · exact fun he => h.off (by rw [hheld, he])
          · exact hc
        simpa using hn
      · exact hstart

theorem Ssv.Ok.atLevel {v : Ssv} (h : v.Ok) (l : CellLevel) : (v.atLevel l).Ok :=
  ⟨h.sleepTimer, h.sleepDue, by simp [Ssv.atLevel], by simp [Ssv.atLevel], by simp [Ssv.atLevel]⟩

theorem filter_mode (c : CellLevel) (v : Ssv) : (v.filter c).mode = v.mode := by
  unfold Ssv.filter
  repeat' split
  all_goals rfl

theorem filter_caseIsOpen (c : CellLevel) (v : Ssv) : (v.filter c).caseIsOpen = v.caseIsOpen := by
  unfold Ssv.filter
  repeat' split
  all_goals rfl

theorem work_onSsv {f : Ssv → Ssv} {s : State} (h : s.ssv.Ok → (f s.ssv).Ok) (hm : (f s.ssv).mode = s.ssv.mode)
    (hc : (f s.ssv).caseIsOpen = s.ssv.caseIsOpen) : Work s (s.onSsv f) := (keeps_onSsv h hm hc).same rfl rfl

theorem work_tellGate (o : Bool) (s : State) : Work s (s.tellGate o) :=
  (keeps_tellGate o s).framed (tellGate_frame o s)

theorem ends_adoptLevel (l : CellLevel) (s : State) : Ends s (s.adoptLevel l) := by
  unfold State.adoptLevel
  extract_lets t u w x
  have ht : Work s t := work_onSsv (fun h => h.atLevel l) rfl rfl
  have hu : Work s u := work_ite (fun _ => ht.trans (work_postP _ _)) fun _ => ht
  have hw : Work s w := hu.trans (work_tellGate _ _)
  have hx : Work s x := work_ite (fun _ => hw.trans (work_raise _ _ _)) fun _ => hw
  refine ends_ite (fun hp => hx.then (ends_wake ?_ (.inr rfl))) fun _ => (hx.trans (work_wpeTold _)).ends
  have hm : s.ssv.mode = .cellSleep := by
    simp only [State.pauseWake, Bool.and_eq_true, beq_iff_eq] at hp
    exact hp.1.1.1.1.1
  have hut : State.changesOnly [.liu] t u := changesOnly_ite (fun _ => postP_frame _ t) fun _ => changesOnly_refl _ t
  have hws : w.ssv = t.ssv := (tellGate_frame _ u .ssv (by simp)).trans (hut .ssv (by simp))
  have hwm : w.ssv.mode = .cellSleep := by rw [hws]; exact hm
  have hx : x = w := if_neg (by simp [State.cellCritAwake, hwm])
  rw [hx]
  exact hwm

theorem ends_sample (mv : Nat) (s : State) : Ends s (s.sample mv) := by
  unfold State.sample
  extract_lets t
  have ht : Work s t := work_onSsv (fun h => h.filter _) (filter_mode _ _) (filter_caseIsOpen _ _)
  split
  · exact ht.then (ends_adoptLevel _ t)
  · exact ht.ends

theorem ends_sampleTick (mv : Nat) (s : State) : Ends s (s.sampleTick mv) := by
  have hphase : ∀ n : Ssv → Nat, Work s (s.onSsv fun v => { v with samplePhase := n s.ssv }) := fun n =>
    work_onSsv (fun h => ⟨h.sleepTimer, h.sleepDue, h.filterDir, h.nearest, h.off⟩) rfl rfl
  refine ends_ite (fun _ => ends_refl s) fun _ => ?_
  split
  · exact ends_sample mv s
  · exact ends_sample mv s
  · exact ends_ite (fun _ => (hphase fun v => v.samplePhase + 1).ends) fun _ =>
      (hphase fun _ => 0).then (ends_sample mv _)
  · exact ends_refl s

/-! ## The tick (R144, R150) -/

theorem Atl.tick_phase (t : Timebase) (a : Atl) (h : (a.tick t).phase = true) : a.phase = true ∨ t = .fallback := by
  unfold Atl.tick at h
  cases t with
  | crystal => split at h <;> exact .inl h
  | fallback => exact .inr rfl

theorem work_tickTimers (s : State) : Work s s.tickTimers := by
  have hkeu : ∀ s : State, Work s (s.onKeu fun k => { k with entryTimer := k.entryTimer.tick }) := by
    refine fun s => (keeps_onKeu (fun h => ⟨h.digits, h.dialogue, h.flight, fun hf => ?_, h.form⟩) (.inl rfl)).same rfl rfl
    show s.keu.entryTimer.tick = none
    rw [h.timer hf]
    rfl
  have hacc : ∀ s : State, Work s (s.onAcc fun c => { c with
      idleTimer := c.idleTimer.tick, attachTimer := c.attachTimer.tick, deferTimer := c.deferTimer.tick,
      configTimer := c.configTimer.tick }) := fun s =>
    work_onAcc rfl rfl rfl fun h => h.of_le rfl rfl id id (by simp) (by simp) (by simp) (by simp)
  have hwpe : ∀ s : State, Work s (s.onWpe fun w => { w with orderTimer := w.orderTimer.tick }) := by
    refine fun s => (keeps_onWpe fun h => ⟨h.order, fun ht => h.timer (by simpa using ht), h.attempt⟩).wpe rfl
      fun _ hi => ?_
    rw [State.onWpe_wpe, hi]
    rfl
  have hssv : ∀ s : State, Work s (s.onSsv fun v => { v with
      sleepTimer := v.sleepTimer.tick, caseTimer := v.caseTimer.tick }) := fun s =>
    work_onSsv (fun h => ⟨fun ht => h.sleepTimer (by simpa using ht), h.sleepDue, h.filterDir, h.nearest, h.off⟩)
      rfl rfl
  have hliu : ∀ s : State, Work s (s.onLiu fun u => { u with linkTimer := u.linkTimer.tick }) := fun s =>
    (keeps_onLiu (fun l => by cases l <;> rfl) rfl rfl (by simpa using .inl)).same rfl rfl
  exact (hkeu s).trans <| (hacc _).trans <| (hwpe _).trans <| (hssv _).trans (hliu _)

theorem ends_divider (s : State) : Ends s (s.onTbu fun b => { b with divider := 0 }) :=
  fun hb hr => ⟨hb.onTbu _, hr, rfl, .inl⟩

theorem ends_penaltyTick (s : State) : Ends s (s.onAtl fun a => a.tick s.tbu.state) :=
  fun hb hr => ⟨{ hb with }, hr, rfl, Atl.tick_phase _ _⟩

theorem ends_takeTick (mv : Nat) (s : State) : Ends s (s.takeTick mv) :=
  (ends_divider s).trans <| (work_tickTimers _).ends.trans <| (ends_penaltyTick _).trans (ends_sampleTick mv _)

/-! ## The CASE input (R162) -/

theorem work_debounceCase (s : State) : Work s s.debounceCase := by
  have h : ∀ t : Timer, Work s (s.onSsv fun v => { v with caseTimer := t }) := fun t =>
    work_onSsv (fun h => ⟨h.sleepTimer, h.sleepDue, h.filterDir, h.nearest, h.off⟩) rfl rfl
  exact work_ite (fun _ => work_refl s) fun _ => work_ite (fun _ => h none) fun _ =>
    work_ite (fun _ => h _) fun _ => work_refl s

/-- The enclosure's debounced state moves: the body stands, and the flag of CASE_OPEN comes next. -/
theorem stands_caseDebounced {s : State} (hs : s.Stands) : s.caseDebounced.Stands := by
  obtain ⟨hb, hr, ht⟩ := hs
  unfold State.caseDebounced
  extract_lets t
  have htb : t.Body := { hb with
    ssv := ⟨hb.ssv.sleepTimer, hb.ssv.sleepDue, hb.ssv.filterDir, hb.ssv.nearest, hb.ssv.off⟩ }
  have htr : t.Rest := hr
  split
  · rename_i he
    exact ⟨htb, htr, ht.run, ht.phase, ht.clockFault, ht.caseOpen.trans he.symm⟩
  · split
    · rename_i ho
      obtain ⟨hub, hur, hc⟩ := ends_ite (s := t) (c := s.ssv.mode = .cellSleep)
        (fun hm => ends_wake (s := t) hm (.inr rfl)) (fun _ => ends_refl t) htb htr
      refine stands_caseOpenOnset hub hur ?_
      generalize hu : (if s.ssv.mode = .cellSleep then t.wake .cellAwake else t) = u at hub hur hc
      refine ⟨?_, fun hp => hc.timebase.symm ▸ (hc.2 hp).elim ht.phase id, ?_, (hc.caseIsOpen.trans ho).symm⟩
      · rw [State.onAcc_tbu, hc.timebase, hc.run]
        exact ht.run
      · show u.acc.clockFault = true ↔ u.tbu.state = .fallback
        rw [hc.timebase, hc.clockFault]
        exact ht.clockFault
    · rename_i ho
      exact stands_caseOpenEnd htb htr ⟨ht.run, ht.phase, ht.clockFault, (Bool.eq_false_iff.2 ho).symm⟩

/-! ## Bus power (R86, R155, R156) -/

/-- With no order in hand the bridge link may be in any state. -/
theorem Wpe.Ok.moved {w : Wpe} {b c : BridgeState} (h : w.Ok b) (ho : w.order = none) : w.Ok c :=
  ⟨by simp [ho], h.timer, h.attempt⟩

theorem filterMap_dropB {α : Type} (f : α → Option Link) (l : List α) :
    l.filterMap (fun a => Machine.dropB (f a)) = (l.filterMap f).filter (· ≠ .b) := by
  induction l with
  | nil => rfl
  | cons a l ih =>
    rw [List.filterMap_cons, List.filterMap_cons, ih]
    rcases f a with _ | _ | _ <;> simp [Machine.dropB]

theorem Purpose.waiter_dropB (p : Purpose) : p.dropB.waiter = Machine.dropB p.waiter := by cases p <;> rfl

theorem Purpose.ofFlight_dropB (p : Purpose) : p.dropB.ofFlight = p.ofFlight := by cases p <;> rfl

theorem Purpose.dropB_of_flight {p : Purpose} (h : p.ofFlight = true) : p.dropB = p := by
  cases p <;> first | rfl | cases h

/-- The B-link waits for nothing more; the P-link as before. -/
theorem Waits.dropB {f : Option Flight} {gs : List Staging} {r : Rsc} {u v : Liu} (h : Waits f gs r u)
    (hp : v.p = u.p) :
    Waits f (gs.map fun g => { g with requester := Machine.dropB g.requester }) (r.mapPurpose Purpose.dropB) v := by
  have hw : waitersOf f (gs.map fun g => { g with requester := Machine.dropB g.requester })
      (r.mapPurpose Purpose.dropB) = (waitersOf f gs r).filter (· ≠ .b) := by
    have hgs : (gs.map fun g => { g with requester := Machine.dropB g.requester }).filterMap Staging.requester =
        (gs.filterMap Staging.requester).filter (· ≠ .b) := by
      rw [List.filterMap_map, ← filterMap_dropB]
      rfl
    have hr : (r.mapPurpose Purpose.dropB).entries.filterMap (fun e => e.purpose.waiter) =
        (r.entries.filterMap fun e => e.purpose.waiter).filter (· ≠ .b) := by
      rw [Rsc.mapPurpose_entries, List.filterMap_map, ← filterMap_dropB]
      exact congrArg (List.filterMap · _) (funext fun e => Purpose.waiter_dropB _)
    simp only [waitersOf, storeWaiters, hgs, hr, List.filter_append]
    congr 1
    split <;> simp
  have hof : ((r.mapPurpose Purpose.dropB).entries.filter fun e => e.purpose.ofFlight).length =
      (r.entries.filter fun e => e.purpose.ofFlight).length := by
    rw [Rsc.mapPurpose_entries, List.filter_map, List.length_map]
    exact congrArg (fun p => (List.filter p r.entries).length) (funext fun e => Purpose.ofFlight_dropB _)
  refine ⟨hw ▸ h.once.filter _, fun l hl => ?_, fun e he ho => ?_, hof ▸ h.single⟩
  · rw [hw, List.mem_filter] at hl
    obtain ⟨hl, hne⟩ := hl
    cases l with
    | p => exact (congrArg (fun q => q.slot.isRunning) hp).trans (h.running .p hl)
    | b => simp at hne
  · rw [Rsc.mapPurpose_entries] at he
    obtain ⟨d, hd, rfl⟩ := List.mem_map.1 he
    have hdo : d.purpose.ofFlight = true := (Purpose.ofFlight_dropB _).symm.trans ho
    obtain ⟨g, hg, ha⟩ := h.flight d hd hdo
    exact ⟨g, hg, by simpa [Purpose.dropB_of_flight hdo] using ha⟩

/-- Bus power goes with no order in hand: the mode and the bridge link move together, and the B-link is cleared. -/
theorem ends_unpowered {f : Ssv → Ssv} {s : State} (hf : s.ssv.Ok → (f s.ssv).Ok)
    (hc : (f s.ssv).caseIsOpen = s.ssv.caseIsOpen) (hm : (f s.ssv).mode ≠ .bus) (ho : s.wpe.order = none) :
    Ends s (((s.onSsv f).onLiu fun u => { u.leave .absent with b := .init, bq := .empty }).orphanB) := by
  intro h hr
  refine ⟨?_, hr, ?_, .inl⟩
  · refine { h with
      liu := ⟨iff_of_true rfl hm, by simp [State.orphanB, Liu.leave], by simp [State.orphanB, Liu.leave]⟩
      ssv := hf h.ssv
      rsc := h.rsc.mapPurpose Purpose.dropB
      wpe := h.wpe.moved ho
      plu := ⟨h.plu.policy, h.plu.map, h.plu.committed, fun g hg => ?_⟩
      wait := h.wait.dropB rfl }
    obtain ⟨d, hd, rfl⟩ := List.mem_map.1 hg
    exact h.plu.inflight d hd
  · show (_, _, _, (f s.ssv).caseIsOpen) = _
    rw [hc]
    rfl

theorem ends_busLost (s : State) : Ends s s.busLost := by
  refine Ends.trans (t := State.bridgeUnpowered ((s.onSsv fun v => { v with mode := .cellAwake }).startSleepTimer)) ?_
    ((work_raise _ _ _).trans (work_wpeTold _)).ends
  have hok : s.ssv.Ok → ({ s.ssv with mode := .cellAwake, sleepTimer := Timer.start Config.sleepTicks } : Ssv).Ok :=
    fun h => ⟨fun _ => rfl, fun _ => rfl, h.filterDir, h.nearest, h.off⟩
  refine ends_of fun hb _ => ends_ite (fun _ => ?_) fun ha => ?_
  · refine (work_dropOrder s).then (Ends.trans ?_ (work_refreshRun _).ends)
    exact ends_unpowered (s := s.dropOrder) (f := fun v =>
      { v with mode := .cellAwake, sleepTimer := Timer.start Config.sleepTicks }) hok rfl (nomatch ·) rfl
  · have ho : s.wpe.order = none := by
      by_contra hn
      exact ha (hb.wpe.order (Option.isSome_iff_ne_none.2 hn))
    exact ends_unpowered (f := fun v =>
      { v with mode := .cellAwake, sleepTimer := Timer.start Config.sleepTicks }) hok rfl (nomatch ·) ho

/-- The bridge link moves with no order in hand, to a state that fits the mode. -/
theorem work_moveBridge {f : Ssv → Ssv} {b : BridgeState} {s : State} (hf : s.ssv.Ok → (f s.ssv).Ok)
    (hc : (f s.ssv).caseIsOpen = s.ssv.caseIsOpen) (hm : b = .absent ↔ (f s.ssv).mode ≠ .bus) (ha : b ≠ .attached)
    (ho : s.wpe.order = none) : Work s ((s.onSsv f).onLiu (Liu.leave b)) := by
  refine fun h hr => ⟨⟨?_, ?_, id, fun _ h => h, id, fun _ h _ => h⟩, hr⟩
  · exact { h with
      liu := ⟨hm, by simp [Liu.leave, ha], by simp [Liu.leave]⟩
      ssv := hf h.ssv
      wpe := h.wpe.moved ho
      wait := h.wait.mono (List.Sublist.refl _) (fun l _ => by cases l <;> rfl) rfl (List.Sublist.refl _) }
  · show (_, _, _, (f s.ssv).caseIsOpen) = _
    rw [hc]
    rfl

theorem State.Body.no_order {s : State} (h : s.Body) (hb : s.liu.bridge ≠ .attached) : s.wpe.order = none := by
  by_contra hn
  exact hb (h.wpe.order (Option.isSome_iff_ne_none.2 hn))

theorem work_busArrives {s : State} (hm : s.ssv.mode = .cellAwake) : Work s s.busArrives := by
  refine work_of fun hb _ => ?_
  have ho : s.wpe.order = none := hb.no_order (by rw [hb.liu.absent.2 (by rw [hm]; decide)]; decide)
  refine Work.trans ?_ ((work_tellGate _ _).trans (work_wpeTold _))
  exact work_moveBridge (f := fun v => { v with mode := .bus, sleepTimer := none, sleepDue := false })
    (fun h => ⟨(nomatch ·), (nomatch ·), h.filterDir, h.nearest, h.off⟩) rfl (by simp) (by decide) ho

end Sys2Proof.Machine
end

