-- ==== Sys2Proof/Proofs/StartUpSteps.lean ====
section
/-! Start-up and the loss of a supply: the load gives working copies that the invariant allows, and what is held until
the end of the derivation brings the conditions back in step with the timebase and the enclosure. -/

namespace Sys2Proof.Machine

/-! ## Starting values (R147, R153, R154) -/

theorem Ctb.Ok.init : Ctb.init.Ok := ⟨by decide, by decide⟩

theorem Plu.Ok.init : Plu.init.Ok := ⟨by decide, by decide, PendingSet.empty_wellFormed, by simp [Plu.init]⟩

theorem Acc.Ok.init : Acc.init.Ok := by constructor <;> simp [Acc.init, Access.isOpen]

theorem Ssv.Ok.init (m : SupplyMode) : (Ssv.init m).Ok := by constructor <;> simp [Ssv.init]

/-- Every volatile state at its starting value: the invariant holds, whatever stood before. -/
theorem stands_volatileInit {m : SupplyMode} {b : BridgeState} (s : State) (hb : b = .absent ↔ m ≠ .bus)
    (ha : b ≠ .attached) : (s.volatileInit m b).Stands := by
  refine ⟨?_, ⟨.init, fun _ => rfl⟩, by constructor <;> simp [State.volatileInit, Tbu.init, Atl.init, Acc.init, Ssv.init]⟩
  exact {
    keu := .init, liu := .init hb ha, ssv := .init m, rsc := .init, ctb := .init
    kru := show ∀ i : VolIx, (Kru.init.volumes.get i).shaped = true by decide
    wpe := .of_no_order rfl rfl Wpe.init_attempt _
    plu := .init, wait := Waits.init _ }

theorem stands_powerOff (k : CutPoint) (s : State) : (s.powerOff k).Stands :=
  stands_volatileInit _ (by simp) (by simp)

theorem modeBy_bridgeBy (bus : Bool) : (bridgeBy bus = .absent ↔ modeBy bus ≠ .bus) ∧ bridgeBy bus ≠ .attached := by
  cases bus <;> decide

theorem modeBy_ne_off (bus : Bool) : modeBy bus ≠ .off := by cases bus <;> decide

theorem stands_startBegins (s : State) : s.startBegins.Stands :=
  stands_volatileInit s (modeBy_bridgeBy _).1 (modeBy_bridgeBy _).2

theorem stands_held {s : State} (h : s.Stands) : s.held.Stands := by
  unfold State.held
  split
  · exact h
  · exact stands_volatileInit s (modeBy_bridgeBy _).1 (modeBy_bridgeBy _).2

/-! ## The load (R5, R83, R122, R123) -/

theorem loadSlot_wellFormed (i : SlotIx) (l : Location SlotRecord) :
    slotWellFormed i (loadSlot i l).1.record = true ∧ (loadSlot i l).1.shadow = none := by
  unfold loadSlot
  split
  · split
    · exact ⟨‹_›, rfl⟩
    · exact ⟨slotWellFormed_empty i, rfl⟩
  all_goals exact ⟨slotWellFormed_empty i, rfl⟩

theorem loadSlots_ok (st : Store) : (loadSlots st).1.Ok := by
  have h : ∀ i : SlotIx, slotWellFormed i ((loadSlots st).1.slots.get i).record = true ∧
      ((loadSlots st).1.slots.get i).shadow = none := by
    intro i
    simp only [loadSlots, dropDuplicates, Vector.get_ofFn]
    split
    · exact ⟨slotWellFormed_empty i, rfl⟩
    · exact loadSlot_wellFormed i _
  exact ⟨fun i => (h i).1, fun i hs => by rw [(h i).2] at hs; cases hs⟩

theorem VolumeRecord.shaped_of_wellFormed {v : VolumeRecord} (h : v.wellFormed = true) : v.shaped = true := by
  have hrange : ∀ hd : VolumeRecord.wellFormed.defined v = true,
      (v.first.isSome && v.count.isSome && v.readOnly.isSome && v.incomplete.isSome) = true := by
    intro hd
    simp only [VolumeRecord.wellFormed.defined, Bool.and_eq_true] at hd ⊢
    obtain ⟨⟨hr, hro⟩, hi⟩ := hd
    cases hf : v.first <;> cases hc : v.count <;> simp_all
  unfold VolumeRecord.wellFormed at h
  unfold VolumeRecord.shaped
  cases hs : v.state with
  | unused =>
    simp only [hs, Bool.and_eq_true] at h ⊢
    exact h.2
  | present =>
    simp only [hs, Bool.and_eq_true] at h hrange ⊢
    obtain ⟨-, ⟨hk, hkey⟩, hd⟩ := h
    obtain ⟨⟨⟨hf, hc⟩, hro⟩, hi⟩ := hrange hd
    exact ⟨⟨⟨⟨⟨hk, hkey⟩, hf⟩, hc⟩, hro⟩, hi⟩
  | erasing =>
    simp only [hs, Bool.and_eq_true] at h hrange ⊢
    obtain ⟨-, ⟨hk, hkey⟩, hd⟩ := h
    obtain ⟨⟨⟨hf, hc⟩, hro⟩, hi⟩ := hrange hd
    exact ⟨⟨⟨⟨⟨hk, hkey⟩, hf⟩, hc⟩, hro⟩, hi⟩

theorem loadVolume_shaped (j : Bool) (l : Location VolumeRecord) : (loadVolume j l).shaped = true := by
  unfold loadVolume
  split
  · split
    · exact VolumeRecord.unused_shaped 1
    · split
      · exact VolumeRecord.unused_shaped 1
      · rename_i h _
        exact VolumeRecord.shaped_of_wellFormed (by simpa using h)
  all_goals exact VolumeRecord.unused_shaped 1

theorem loadVolumes_shaped (j : Bool) (st : Store) (i : VolIx) : ((loadVolumes j st).get i).shaped = true := by
  have hfold : ∀ (is : List VolIx) (t : Vector VolumeRecord 4), (∀ k : VolIx, (t.get k).shaped = true) →
      ∀ k : VolIx, ((is.foldl dropOverlap t).get k).shaped = true := by
    intro is
    induction is with
    | nil => exact fun t ht => ht
    | cons a is ih =>
      refine fun t ht => ih _ fun k => ?_
      unfold dropOverlap
      split
      · rw [Vector.get_set_eq]
        split
        · exact VolumeRecord.unused_shaped 1
        · exact ht k
      · exact ht k
  refine hfold _ _ (fun k => ?_) i
  rw [Vector.get_ofFn]
  exact loadVolume_shaped j _

theorem loadPolicy_wellFormed (l : Location Policy) : (loadPolicy l).wellFormed = true := by
  unfold loadPolicy
  split
  · split
    · exact ‹_›
    · decide
  all_goals decide

theorem loadMap_wellFormed (l : Location LockMap) : (loadMap l).wellFormed = true := by
  unfold loadMap
  split
  · split
    · exact ‹_›
    · decide
  all_goals decide

theorem loadPendingSet_wellFormed (l : Location PendingSet) : (loadPendingSet l).wellFormed = true := by
  unfold loadPendingSet
  split
  · split
    · exact ‹_›
    · exact PendingSet.empty_wellFormed
  all_goals exact PendingSet.empty_wellFormed

/-! ## Before the derivation (R154) -/

/-- Start-up before the derivation: the body stands, the run count follows the timebase, and the items that the
derivation decides stand as given; or the supply went, and every item is at its starting value. -/
structure State.Starting (c : Acc) (w : Wpe) (s : State) : Prop where
  body : s.Body
  run : s.tbu.run.isSome = true ↔ s.tbu.state = .fallback
  phase : s.atl.phase = false
  bridge : s.liu.bridge ≠ .attached
  powered : s.ssv.mode ≠ .off
  acc : s.acc = c
  wpe : s.wpe = w

/-- Where one event of start-up leads. -/
def State.Underway (c : Acc) (w : Wpe) (s : State) : Prop := s.Starting c w ∨ (s.ssv.mode = .off ∧ s.Stands)

theorem State.Underway.stands {c : Acc} {w : Wpe} {s : State} (h : s.Underway c w) (ho : s.ssv.mode = .off) :
    s.Stands := h.elim (fun hs => absurd ho hs.powered) And.right

theorem State.Starting.onSsv {c : Acc} {w : Wpe} {s : State} (h : s.Starting c w) {f : Ssv → Ssv}
    (hf : s.ssv.Ok → (f s.ssv).Ok) (hm : (f s.ssv).mode = s.ssv.mode) : (s.onSsv f).Starting c w := by
  obtain ⟨hb, hr, hp, ha, ho, hc, hw⟩ := h
  exact ⟨{ hb with ssv := hf hb.ssv, liu := (congrArg (Liu.Ok · s.liu) hm).mpr hb.liu }, hr, hp, ha,
    fun h => ho (hm.symm.trans h), hc, hw⟩

theorem State.Starting.moveBridge {c : Acc} {w : Wpe} {s : State} (h : s.Starting c w) {f : Ssv → Ssv} {b : BridgeState}
    (hf : s.ssv.Ok → (f s.ssv).Ok) (hm : b = .absent ↔ (f s.ssv).mode ≠ .bus) (hna : b ≠ .attached)
    (hon : (f s.ssv).mode ≠ .off) : ((s.onSsv f).onLiu (Liu.leave b)).Starting c w := by
  obtain ⟨hb, hr, hp, ha, ho, hc, hw⟩ := h
  refine ⟨{ hb with ssv := hf hb.ssv, liu := ?_, wpe := ?_, wait := ?_ }, hr, hp, hna, hon, hc, hw⟩
  · exact ⟨hm, by simp [Liu.leave, hna], by simp [Liu.leave]⟩
  · exact hb.wpe.moved (hb.no_order ha)
  · exact hb.wait.mono (List.Sublist.refl _) (fun l _ => by cases l <;> rfl) rfl (List.Sublist.refl _)

theorem State.Starting.onPins {c : Acc} {w : Wpe} {s : State} (h : s.Starting c w) (f : Pins → Pins) :
    (s.onPins f).Starting c w := by
  obtain ⟨hb, hr, hp, ha, ho, hc, hw⟩ := h
  exact ⟨{ hb with }, hr, hp, ha, ho, hc, hw⟩

theorem State.Starting.onTbu {c : Acc} {w : Wpe} {s : State} (h : s.Starting c w) {f : Tbu → Tbu}
    (hf : (f s.tbu).run.isSome = true ↔ (f s.tbu).state = .fallback) : (s.onTbu f).Starting c w := by
  obtain ⟨hb, -, hp, ha, ho, hc, hw⟩ := h
  exact ⟨hb.onTbu f, hf, hp, ha, ho, hc, hw⟩

/-- A change of the case items of the SSV. -/
theorem Ssv.Ok.caseItems {v : Ssv} (h : v.Ok) (o : Bool) (t : Timer) :
    ({ v with caseIsOpen := o, caseTimer := t } : Ssv).Ok :=
  ⟨h.sleepTimer, h.sleepDue, h.filterDir, h.nearest, h.off⟩

theorem State.Starting.debounceCase {c : Acc} {w : Wpe} {s : State} (h : s.Starting c w) :
    s.debounceCase.Starting c w := by
  unfold State.debounceCase
  repeat' split
  · exact h
  · exact h.onSsv (fun hv => hv.caseItems _ _) rfl
  · exact h.onSsv (fun hv => hv.caseItems _ _) rfl
  · exact h

theorem State.Starting.startSample {c : Acc} {w : Wpe} {s : State} (h : s.Starting c w) (mv : Nat) :
    (s.startSample mv).Starting c w := by
  unfold State.startSample
  extract_lets t
  have ht : t.Starting c w := h.onSsv (fun hv => hv.filter _) (filter_mode _ _)
  split
  · exact ht.onSsv (fun hv => hv.atLevel _) rfl
  · exact ht

theorem State.Starting.startBus {c : Acc} {w : Wpe} {s : State} (h : s.Starting c w) (bus : Bool) :
    (s.startBus bus).Underway c w := by
  unfold State.startBus
  extract_lets t
  have ht : t.Starting c w := h.onPins _
  split
  · exact .inl (ht.moveBridge (f := fun v => { v with mode := .bus, sleepTimer := none, sleepDue := false })
      (fun hv => ⟨(nomatch ·), (nomatch ·), hv.filterDir, hv.nearest, hv.off⟩) (by simp) (by decide) (by simp))
  · split
    · exact .inl (ht.moveBridge (f := fun v => { v with mode := .cellAwake, sleepTimer := Timer.start Config.sleepTicks })
        (fun hv => ⟨fun _ => rfl, fun _ => rfl, hv.filterDir, hv.nearest, hv.off⟩) (by simp) (by decide) (by simp))
    · exact .inr ⟨rfl, stands_volatileInit _ (by simp) (by simp)⟩

theorem State.Underway.startEvent {c : Acc} {w : Wpe} {s : State} (h : s.Underway c w) (e : StartEvent) :
    (s.startEvent e).Underway c w := by
  unfold State.startEvent
  split
  · exact h
  · rename_i hoff
    have h : s.Starting c w := h.resolve_right fun hs => hoff hs.1
    cases e with
    | tick mv =>
      dsimp only
      have ht : (s.onSsv fun v => { v with caseTimer := v.caseTimer.tick, sleepTimer := v.sleepTimer.tick }).Starting c w :=
        h.onSsv (fun hv => ⟨fun hs => hv.sleepTimer (by simpa using hs), hv.sleepDue, hv.filterDir, hv.nearest, hv.off⟩) rfl
      split
      · exact .inl (ht.startSample mv)
      · exact .inl ht
    | fallback =>
      dsimp only
      split
      · exact .inl (h.onTbu (by simp [Tbu.fallen]))
      · exact .inl h
    | crystalReturn =>
      dsimp only
      split
      · exact .inl (h.onTbu (by simp [Tbu.returned]))
      · exact .inl h
    | caseChange high => exact .inl (h.onPins _).debounceCase
    | caseDebounced =>
      dsimp only
      split
      · exact .inl (h.onSsv (fun hv => hv.caseItems _ _) rfl)
      · exact .inl h
    | busArrives =>
      dsimp only
      split
      · exact .inl h
      · exact h.startBus true
    | busLost =>
      dsimp only
      split
      · exact h.startBus false
      · exact .inl h

theorem State.Underway.startEvents {c : Acc} {w : Wpe} (es : List StartEvent) {s : State} (h : s.Underway c w) :
    (es.foldl State.startEvent s).Underway c w := by
  induction es generalizing s with
  | nil => exact h
  | cons e es ih => exact ih (h.startEvent e)

/-! ## The load and the derivation (R78, R135) -/

/-- The access items that the load leaves for the derivation. -/
def Acc.loaded (cause : StartCause) : Acc := { Acc.init with access := .locked, startCause := cause }

theorem State.Starting.loaded {s : State} (h : s.Starting .init .init) (cause : StartCause) :
    (s.loaded cause).Starting (.loaded cause) { Wpe.init with journal := (loadJournal s.store.journal).1 } := by
  obtain ⟨hb, hr, hp, ha, ho, -, -⟩ := h
  have hload : (s.load cause).Starting (.loaded cause)
      { Wpe.init with journal := (loadJournal s.store.journal).1 } := by
    refine ⟨{ hb with ctb := loadSlots_ok _, kru := loadVolumes_shaped _ _, wpe := ?_, plu := ?_, wait := ?_ }, hr, rfl, ha,
      ho, rfl, rfl⟩
    · exact .of_no_order rfl rfl (show 1 ≤ 1 ∧ 1 ≤ 3 by decide) _
    · exact ⟨loadPolicy_wellFormed _, loadMap_wellFormed _, loadPendingSet_wellFormed _, by simp [State.load, loadPlu, Plu.init]⟩
    · refine hb.wait.mono ?_ (fun _ _ => rfl) rfl (List.Sublist.refl _)
      exact (List.Sublist.refl _).append ((List.nil_sublist _).append (List.Sublist.refl _))
  refine State.Starting.debounceCase ?_
  split
  · exact hload
  · exact hload.onSsv (fun hv => hv.atLevel _) rfl

theorem State.loaded_caseIsOpen (cause : StartCause) (s : State) :
    (s.loaded cause).ssv.caseIsOpen = s.ssv.caseIsOpen := by
  unfold State.loaded State.optionsInForce State.debounceCase
  repeat' split
  all_goals rfl

theorem rest_resumeWipe {w : WipeRecord} {s : State} (h : s.acc.access = .locked) (ha : s.acc.Ok) :
    (s.resumeWipe w).Rest := by
  have hacc : (s.resumeWipe w).acc = { s.acc with access := .wiping, openSlot := none } := by
    unfold State.resumeWipe
    rw [State.proceed_acc, postWipeState_frame _ .acc (by simp), State.onWpe_acc, State.changeAccess_acc, State.onWpe_acc]
  refine ⟨?_, fun hn => absurd (by rw [hacc]) hn⟩
  rw [hacc]
  exact ha.closed (by rw [h]; rfl) rfl

theorem Acc.Ok.loaded (cause : StartCause) : (Acc.loaded cause).Ok := by
  constructor <;> simp [Acc.loaded, Acc.init, Access.isOpen]

theorem work_resumePenalty {s : State} (h : s.acc.access = .locked) : Work s s.resumePenalty := by
  have ha : (s.startPenalty (s.plu.policy.penaltyTicks s.atl.limiter.fails)).postPenaltyChanged.acc.access = .locked :=
    (congrArg Acc.access (postP_frame _ _ .acc (by simp))).trans h
  exact (work_startPenalty _ s).trans <| (work_postP _ _).trans <|
    work_changeAccess (congrArg Access.isOpen ha) rfl (.inl fun hw => absurd (ha.symm.trans hw) (by decide))

theorem ends_derive {cause : StartCause} {j : Journal} (r : LoadReport) {s : State}
    (h : s.Starting (.loaded cause) { Wpe.init with journal := j }) :
    (s.derive r).Body ∧ (s.derive r).Rest ∧ SameClock s (s.derive r) := by
  obtain ⟨hb, -, -, -, -, hc, hw⟩ := h
  have hacc : s.acc.access = .locked := by rw [hc]; rfl
  have hok : s.acc.Ok := by rw [hc]; exact .loaded cause
  unfold State.derive
  split
  · have hk := keeps_enterHalted s hb
    exact ⟨hk.body, rest_enterHalted fun hh => absurd (hacc.symm.trans hh) (by decide), hk.clock, fun hp => .inl (hk.phase hp)⟩
  · split
    · rename_i w _
      have hk := keeps_resumeWipe w s hb
      exact ⟨hk.body, rest_resumeWipe hacc hok, hk.clock, fun hp => .inl (hk.phase hp)⟩
    · rename_i hj
      have hr : s.Rest := ⟨hok, fun _ => by rw [hw] at hj ⊢; exact congrArg (fun j => { Wpe.init with journal := j }) hj⟩
      have hchange : ∀ a : Access, a.isOpen = false → Work s (s.changeAccess a none) := fun a ha =>
        work_changeAccess (by rw [hacc]; rfl) ha (.inl (by rw [hacc]; decide))
      refine Work.ends ?_ hb hr
      exact work_ite (fun _ => work_startWipe _ s) fun _ => work_ite (fun _ => work_startWipe _ s) fun _ =>
        work_ite (fun _ => hchange .blank rfl) fun _ => work_ite (fun _ => work_resumePenalty hacc) fun _ =>
          work_enterLocked (by rw [hacc]; rfl) (by rw [hacc]; decide)

/-! ## What is held for the end of the derivation (R79, R154) -/

/-- The condition CASE_OPEN after some reports. -/
def caseAfter (o : Bool) (rs : List HeldReport) : Bool :=
  rs.foldl (fun o r => match r with
    | .caseOpened => true
    | .caseClosed => false
    | _ => o) o

/-- The state with its flag of CASE_OPEN as given. -/
def State.withCase (o : Bool) (s : State) : State := s.onAcc fun c => { c with caseOpen := o }

theorem State.withCase_self (s : State) : s.withCase s.acc.caseOpen = s := rfl

theorem SameClock.withCase {s t u : State} {o p : Bool} (h : SameClock (s.withCase o) t)
    (k : SameClock (t.withCase p) u) : SameClock (s.withCase p) u := by
  refine ⟨?_, fun hp => (k.2 hp).elim h.2 fun hf => .inr (h.timebase ▸ hf)⟩
  refine k.1.trans ?_
  have hc := h.1
  simp only [State.clock, State.withCase, State.onAcc_tbu, State.onAcc_acc, State.onAcc_ssv, Prod.mk.injEq] at hc ⊢
  obtain ⟨ht, hf, -, hi⟩ := hc
  exact ⟨ht, hf, trivial, hi⟩

theorem stands_takeReport (r : HeldReport) {s : State} (hb : s.Body) (hr : s.Rest) :
    (s.takeReport r).Body ∧ (s.takeReport r).Rest ∧
      SameClock (s.withCase (caseAfter s.acc.caseOpen [r])) (s.takeReport r) := by
  have hflag : ∀ o : Bool, (s.withCase o).Body ∧ (s.withCase o).Rest := fun o => ⟨{ hb with }, hr.flags _ o⟩
  cases r with
  | level falling new => exact (work_ite (fun _ => work_postP _ s) fun _ => work_refl s).ends hb hr
  | caseOpened =>
    exact ((work_conditionChanged _ _).trans (work_raise _ _ _)).ends (hflag true).1 (hflag true).2
  | caseClosed => exact (work_conditionChanged _ _).ends (hflag false).1 (hflag false).2
  | busLost => exact (work_raise _ _ s).ends hb hr

theorem stands_takeReports (rs : List HeldReport) {s : State} (hb : s.Body) (hr : s.Rest) :
    (rs.foldl State.takeReport s).Body ∧ (rs.foldl State.takeReport s).Rest ∧
      SameClock (s.withCase (caseAfter s.acc.caseOpen rs)) (rs.foldl State.takeReport s) := by
  induction rs generalizing s with
  | nil => exact ⟨hb, hr, SameClock.refl s⟩
  | cons r rs ih =>
    obtain ⟨htb, htr, ht⟩ := stands_takeReport r hb hr
    obtain ⟨hub, hur, hu⟩ := ih htb htr
    refine ⟨hub, hur, ?_⟩
    have hc : (s.takeReport r).acc.caseOpen = caseAfter s.acc.caseOpen [r] := ht.caseOpen
    rw [hc] at hu
    exact ht.withCase hu

theorem caseAfter_append (o : Bool) (a b : List HeldReport) : caseAfter o (a ++ b) = caseAfter (caseAfter o a) b :=
  List.foldl_append

/-- Once the part is in OFF no event of start-up changes it. -/
theorem startEvents_off (es : List StartEvent) {s : State} (h : s.ssv.mode = .off) :
    es.foldl State.startEvent s = s := by
  induction es with
  | nil => rfl
  | cons e es ih =>
    have he : s.startEvent e = s := if_pos h
    rw [List.foldl_cons, he, ih]

theorem caseAfter_startReports {s : State} {e : StartEvent} (h : (s.startEvent e).ssv.mode ≠ .off) :
    caseAfter s.ssv.caseIsOpen (s.startReports e) = (s.startEvent e).ssv.caseIsOpen := by
  have hlevel : ∀ o, caseAfter o (if (s.startEvent e).ssv.level = s.ssv.level then []
      else [HeldReport.level (decide (s.ssv.level.severity < (s.startEvent e).ssv.level.severity))
        (s.startEvent e).ssv.level]) = o := fun o => by split <;> rfl
  have hbus : ∀ o, caseAfter o (if s.pins.busdet && !(s.startEvent e).pins.busdet then [HeldReport.busLost] else []) = o :=
    fun o => by split <;> rfl
  simp only [State.startReports, if_neg h, caseAfter_append, hlevel, hbus]
  split
  · exact Eq.symm ‹_›
  · cases (s.startEvent e).ssv.caseIsOpen <;> rfl

/-- The reports held of some events bring the condition CASE_OPEN to the debounced state that the events leave. -/
theorem caseAfter_heldReports (es : List StartEvent) {s : State} (h : (es.foldl State.startEvent s).ssv.mode ≠ .off) :
    caseAfter s.ssv.caseIsOpen (heldReports es s) = (es.foldl State.startEvent s).ssv.caseIsOpen := by
  induction es generalizing s with
  | nil => rfl
  | cons e es ih =>
    have he : (s.startEvent e).ssv.mode ≠ .off := fun ho => h (by
      rw [List.foldl_cons, startEvents_off es ho]; exact ho)
    rw [heldReports_cons, caseAfter_append, caseAfter_startReports he, ih h]
    rfl

/-! ## The end of start-up (R79, R147, R154) -/

/-- After the report of the timebase its flag stands as the timebase does; the flag of CASE_OPEN is left. -/
theorem stands_reportTimebase {s : State} (hb : s.Body) (hr : s.Rest)
    (hrun : s.tbu.run.isSome = true ↔ s.tbu.state = .fallback) (hphase : s.atl.phase = true → s.tbu.state = .fallback)
    (hflag : s.acc.clockFault = false) (o : Bool) :
    s.reportTimebase.Body ∧ s.reportTimebase.Rest ∧ s.reportTimebase.acc.caseOpen = s.acc.caseOpen ∧
      (s.ssv.caseIsOpen = o → (s.reportTimebase.withCase o).TimeOk) := by
  unfold State.reportTimebase
  split
  · rename_i hf
    obtain ⟨hpb, hpr, hp⟩ := (work_postTimebase s).ends hb hr
    obtain ⟨htb, htr, ht⟩ := ends_clockFaultOnset s.postTimebase { hpb with } (hpr.flags true s.postTimebase.acc.caseOpen)
    have hfall : s.postTimebase.clockFaultOnset.tbu.state = .fallback := ht.timebase.trans (hp.timebase.trans hf)
    refine ⟨htb, htr, ht.caseOpen.trans hp.caseOpen, fun ho => ⟨?_, fun _ => hfall, ?_, ?_⟩⟩
    · refine iff_of_true ?_ hfall
      show s.postTimebase.clockFaultOnset.tbu.run.isSome = true
      rw [ht.run]
      show s.postTimebase.tbu.run.isSome = true
      rw [hp.run]
      exact hrun.2 hf
    · exact iff_of_true ht.clockFault hfall
    · exact (ht.caseIsOpen.trans (hp.caseIsOpen.trans ho)).symm
  · rename_i hf
    exact ⟨hb, hr, rfl, fun ho => ⟨hrun, hphase, iff_of_false (by simp [State.withCase, hflag]) hf, ho.symm⟩⟩

theorem State.Starting.reportStart {cause : StartCause} {j : Journal} {held : List HeldReport} (r : LoadReport) {s : State}
    (h : s.Starting (.loaded cause) { Wpe.init with journal := j }) (hc : caseAfter false held = s.ssv.caseIsOpen) :
    ((s.derive r).reportStart held).Stands := by
  obtain ⟨hdb, hdr, hd⟩ := ends_derive r h
  have hflag : (s.derive r).acc.clockFault = false := hd.clockFault.trans (by rw [h.acc]; rfl)
  have hopen : (s.derive r).acc.caseOpen = false := hd.caseOpen.trans (by rw [h.acc]; rfl)
  have hrun : (s.derive r).tbu.run.isSome = true ↔ (s.derive r).tbu.state = .fallback := by
    rw [hd.run, hd.timebase]; exact h.run
  have hphase : (s.derive r).atl.phase = true → (s.derive r).tbu.state = .fallback := fun hp =>
    hd.timebase.trans ((hd.2 hp).elim (fun hs => by rw [h.phase] at hs; cases hs) id)
  obtain ⟨hb, hr, hco, ht⟩ := stands_reportTimebase hdb hdr hrun hphase hflag (s.derive r).ssv.caseIsOpen
  rw [hd.caseIsOpen] at ht
  obtain ⟨hub, hur, hu⟩ := stands_takeReports held hb hr
  rw [hco, hopen, hc] at hu
  have hstands : (held.foldl State.takeReport (s.derive r).reportTimebase).Stands := ⟨hub, hur, hu.time (ht rfl)⟩
  have hcrit : Work (held.foldl State.takeReport (s.derive r).reportTimebase) _ :=
    work_ite (c := (held.foldl State.takeReport (s.derive r).reportTimebase).cellCritAwake = true)
      (fun _ => work_raise .cellCrit .forced _) fun _ => work_refl _
  unfold State.reportStart
  extract_lets t
  have htold : t.Stands := hstands.step (hcrit.trans (work_wpeTold _)).ends
  split
  · exact htold.step (work_startSleepTimer ‹_›).ends
  · exact htold

theorem stands_startWith (cause : StartCause) (start : StartEvents) (s : State) : (s.startWith cause start).Stands := by
  unfold State.startWith
  extract_lets u t
  have hu : u.Starting .init .init := by
    obtain ⟨hb, -, ht⟩ := stands_startBegins s
    exact ⟨hb, ht.run, rfl, (modeBy_bridgeBy _).2, modeBy_ne_off _, rfl, rfl⟩
  have ht : t.Underway .init .init := State.Underway.startEvents _ (.inl hu)
  split
  · rename_i hoff
    exact ht.stands hoff
  · rename_i hon
    have ht : t.Starting .init .init := ht.resolve_right fun h => hon h.1
    split
    · exact stands_volatileInit _ (by simp) (by simp)
    · unfold State.loadAndDerive
      extract_lets v w
      have hv := ht.loaded cause
      have hw := State.Underway.startEvents start.afterLoad (.inl hv)
      split
      · exact hw.stands ‹_›
      · rename_i hwon
        have hw := hw.resolve_right fun h => hwon h.1
        refine hw.reportStart _ ?_
        have hvo : v.ssv.caseIsOpen = t.ssv.caseIsOpen := State.loaded_caseIsOpen cause t
        rw [caseAfter_append, show false = u.ssv.caseIsOpen from rfl, caseAfter_heldReports _ hon, ← hvo,
          caseAfter_heldReports _ hwon]

end Sys2Proof.Machine
end

