-- ==== Sys2Proof/Proofs/EventRows.lean ====
section
/-! The rows that are no commands: the ends of operations, the tick, the expiries, the CASE input and the supplies keep
the invariant. -/

namespace Sys2Proof.Machine

/-! ## A row and the invariant -/

theorem State.Inv.stands {s : State} (h : s.Inv) : s.Stands := ⟨h.body, h.rest, h.time⟩

/-- A row whose meaning leaves the parts in place keeps the invariant. -/
theorem State.Stands.inv {u t : State} (h : u.Stands) (ht : finish u = .next t) : t.Inv :=
  let ⟨hb, hr, hu⟩ := h
  inv_of_finish hb hr hu ht

theorem State.Stands.work {s t : State} (h : s.Stands) (k : Work s t) : t.Stands := h.step k.ends

theorem State.Stands.ite {s t : State} {c : Prop} [Decidable c] (h : c → s.Stands) (k : ¬ c → t.Stands) :
    (if c then s else t).Stands := by
  split
  · exact h ‹_›
  · exact k ‹_›

/-- A change of the pins: no clause speaks of them. -/
theorem State.Stands.onPins {s : State} (h : s.Stands) (f : Pins → Pins) : (s.onPins f).Stands :=
  h.work ((keeps_onPins f s).same rfl rfl)

/-! ## Ends of operations (R37, R38, R46) -/

theorem stands_evaluationEnd {s : State} (h : s.Stands) :
    State.Stands (match s.keu.flight with
      | some (.judging a) => s.judge a
      | _ => s) := by
  split
  · rename_i a hf
    have hsome : s.keu.flight.isSome = true := by rw [hf]; rfl
    have hn : s.noFlightWrite := h.1.noFlightWrite fun f hg p => by
      obtain rfl : Flight.judging a = f := by rw [hf] at hg; exact Option.some.inj hg
      rfl
    exact h.step (ends_judge a hsome hn (h.1.panelFree hsome))
  · exact h

theorem stands_enrolVerifierDone {s : State} (h : s.Stands) :
    State.Stands (match s.keu.flight with
      | some .verifyFirst => if s.keu.disturbed then s.answerEnrolment .mismatch else s.takeFirst
      | some .verifyConfirm => if s.keu.disturbed then s.answerEnrolment .mismatch else s.confirmEntry
      | _ => s) := by
  have hparts : ∀ f, s.keu.flight = some f → (∀ p, f.awaits p = false) →
      s.keu.flight.isSome = true ∧ s.noFlightWrite ∧ s.panelFree := fun f hf ha => by
    have hsome : s.keu.flight.isSome = true := by rw [hf]; rfl
    refine ⟨hsome, h.1.noFlightWrite fun g hg => ?_, h.1.panelFree hsome⟩
    obtain rfl : f = g := by rw [hf] at hg; exact Option.some.inj hg
    exact ha
  split
  · rename_i hf
    obtain ⟨-, hn, hp⟩ := hparts _ hf fun _ => rfl
    exact .ite (fun _ => h.work (work_answerEnrolment _ hn hp)) fun _ => h.work (work_takeFirst hf hn hp)
  · rename_i hf
    obtain ⟨hs, hn, hp⟩ := hparts _ hf fun _ => rfl
    exact .ite (fun _ => h.work (work_answerEnrolment _ hn hp)) fun _ => h.step (ends_confirmEntry hs hn hp)
  · exact h

theorem stands_storeWriteEnd (r : AttemptEnd) {s : State} (h : s.Stands) :
    State.Stands (match s.rsc.current with
      | some w => s.attemptEnds w r
      | none => s) := by
  split
  · exact h.step (ends_attemptEnds r ‹_›)
  · exact h

/-! ## Expiries (R31, R55, R63, R64, R70, R75, R89, R115, R157) -/

theorem Timer.isSome_of_due {t : Timer} (h : t.due = true) : t.isSome = true := by
  rw [Timer.due, beq_iff_eq] at h
  rw [h]
  rfl

theorem work_endDialogue {s : State} (h : s.keu.flight = none) : Work s s.endDialogue :=
  (keeps_endDialogue h).framed (endDialogue_frame s)

theorem stands_entryTimerExpiry {s : State} (h : s.Stands) (hd : s.keu.entryTimer.due = true) :
    (s.endDialogue.postP .entryAbandoned).Stands := by
  have hf : s.keu.flight = none := by
    by_contra hn
    have ht := h.1.keu.timer (Option.isSome_iff_ne_none.2 hn)
    rw [ht] at hd
    cases hd
  exact h.work ((work_endDialogue hf).trans (work_postP _ _))

theorem work_stopPenalty (s : State) : Work s s.stopPenalty := (keeps_stopPenalty s).framed (stopPenalty_frame s)

theorem ends_penaltyExpires (s : State) : Ends s s.penaltyExpires := by
  refine (work_stopPenalty s).then (Ends.trans ?_ (work_requestServed _).ends)
  exact ends_ite (fun hm => ends_wake (s := s.stopPenalty) hm (.inr rfl)) fun _ => ends_refl _

/-- A timer of the ACC stops. -/
theorem work_stopTimer {f : Acc → Acc} {s : State} (hf : (f s.acc).clockFault = s.acc.clockFault ∧
    (f s.acc).caseOpen = s.acc.caseOpen ∧ (f s.acc).access = s.acc.access) (h : s.acc.Ok → (f s.acc).Ok) :
    Work s (s.onAcc f) :=
  let ⟨hc, ho, ha⟩ := hf
  work_onAcc hc ho ha h

theorem work_idleStops (s : State) : Work s (s.onAcc fun c => { c with idleTimer := none }) :=
  work_stopTimer ⟨rfl, rfl, rfl⟩ fun h => h.of_le rfl rfl id id (nomatch ·) id id id

theorem work_attachStops (s : State) : Work s (s.onAcc fun c => { c with attachTimer := none }) :=
  work_stopTimer ⟨rfl, rfl, rfl⟩ fun h => h.of_le rfl rfl id id id (nomatch ·) id id

theorem work_deferStops (s : State) : Work s (s.onAcc fun c => { c with deferTimer := none }) :=
  work_stopTimer ⟨rfl, rfl, rfl⟩ fun h => h.of_le rfl rfl id id id id (nomatch ·) id

theorem work_configStops (s : State) : Work s (s.onAcc fun c => { c with configTimer := none }) :=
  work_stopTimer ⟨rfl, rfl, rfl⟩ fun h => h.of_le rfl rfl id id id id id (nomatch ·)

theorem work_deferExpires (s : State) : Work s s.deferExpires :=
  work_ite (fun ha => (work_deferStops s).trans (work_completeLock (.inr ha))) fun _ => work_deferStops s

theorem work_configTimedOut (s : State) : Work s s.configTimedOut :=
  work_ite (fun ha => work_endConfig ha) fun _ => work_refl s

/-- The bridge link leaves ATTACHED for a state of a powered bus, and the WPE is told. -/
theorem work_leaveAttached {b : BridgeState} {s : State} (hs : s.liu.bridge = .attached) (hb : b ≠ .attached)
    (hab : b ≠ .absent) : Work s ((s.onLiu fun u => u.leave b).bridgeLeft) := by
  refine work_of fun h _ => (work_dropOrder s).trans (Work.trans ?_ (work_refreshRun _))
  have hm : s.ssv.mode = .bus := by
    by_contra hn
    exact absurd (hs.symm.trans (h.liu.absent.2 hn)) (by decide)
  exact work_moveBridge (s := s.dropOrder) (f := id) id rfl (by simp [State.dropOrder, hm, hab]) hb rfl

theorem work_linkLost {s : State} (h : s.Body) (hd : s.liu.linkTimer.due = true) : Work s s.linkLost :=
  (work_leaveAttached (h.liu.linkTimer (Timer.isSome_of_due hd)) (by decide) (by decide)).trans (work_raise _ _ _)

/-- An order in hand is the WPE's in WIPING. -/
theorem State.Rest.wiping_of_order {s : State} (h : s.Rest) {o : EraseOrder} (ho : s.wpe.order = some o) :
    s.acc.access = .wiping := by
  by_contra hn
  rw [h.wpe hn] at ho
  cases ho

theorem failAttempt_frame (o : EraseOrder) (s : State) : State.changesOnly [.wpe, .liu, .rsc] s (s.failAttempt o).1 := by
  unfold State.failAttempt
  split
  · dsimp only
    split
    · exact changesOnly_mono (changesOnly_append (onWpe_frame _ s) (postB_frame _ _)) (by decide)
    · exact changesOnly_mono (onWpe_frame _ s) (by decide)
  · unfold State.finishOrder
    have hd : State.changesOnly [.wpe] s s.dropOrder := onWpe_frame _ s
    split
    · split
      · exact changesOnly_mono (changesOnly_append hd (requestWrite_frame _ _ _)) (by decide)
      · exact changesOnly_mono hd (by decide)
    · exact changesOnly_mono hd (by decide)

theorem work_failAttempt {o : EraseOrder} {s : State} (ho : s.wpe.order = some o) : Work s (s.failAttempt o).1 :=
  work_of fun hb hr => (keeps_failAttempt fun _ => hb.wpe.order (by rw [ho]; rfl)).wiping (hr.wiping_of_order ho)
    (failAttempt_frame o s .acc (by decide))

theorem work_orderExpires (s : State) : Work s s.orderExpires := by
  have ht : Work s (s.onWpe fun w => { w with orderTimer := none }) :=
    (keeps_onWpe fun h => ⟨h.order, by simp, h.attempt⟩).wpe rfl fun _ hi => by rw [State.onWpe_wpe, hi]; rfl
  unfold State.orderExpires
  extract_lets t
  split
  · rename_i o ho
    exact ht.trans (work_failAttempt (s := t) ho)
  · exact ht

theorem work_sleepTimerExpires {s : State} (h : s.Body) (hd : s.ssv.sleepTimer.due = true) :
    Work s (s.onSsv fun v => { v with sleepTimer := none, sleepDue := true }) :=
  work_onSsv (fun hv => ⟨(nomatch ·), fun _ => h.ssv.sleepTimer (Timer.isSome_of_due hd), hv.filterDir, hv.nearest,
    hv.off⟩) rfl rfl

theorem stands_silentAgain {s : State} (h : s.Stands) (hf : s.tbu.state = .fallback) :
    (s.onTbu fun b => { b with gap := 0, run := some 0 }).Stands := by
  obtain ⟨hb, hr, ht⟩ := h
  exact ⟨hb.onTbu _, hr, iff_of_true rfl hf, ht.phase, ht.clockFault, ht.caseOpen⟩

/-! ## Supplies and RESET_N (R147, R154 to R156) -/

theorem stands_powerUp (s : State) : s.powerUp.Stands := by
  unfold State.powerUp
  split
  · exact stands_startBegins s
  · exact stands_startWith _ _ _

theorem stands_busPowerArrives {s : State} (h : s.Stands) : s.busPowerArrives.Stands := by
  unfold State.busPowerArrives
  cases hm : s.ssv.mode with
  | off => exact stands_powerUp s
  | bus => exact .ite (fun _ => stands_held h) fun _ => h
  | cellAwake => exact .ite (fun _ => stands_held h) fun _ => h.work (work_busArrives hm)
  | cellSleep => exact .ite (fun _ => stands_held h) fun _ => h.step (ends_wake hm (.inl rfl))

theorem stands_busPowerLost (k : CutPoint) {s : State} (h : s.Stands) : (s.busPowerLost k).Stands :=
  .ite (fun _ => stands_held h) fun _ => .ite (fun _ => h.step (ends_busLost s)) fun _ => stands_powerOff k s

theorem cutStore_ssv (k : CutPoint) (s : State) : (s.cutStore k).ssv = s.ssv := by
  unfold State.cutStore
  split <;> rfl

theorem stands_holdReset (k : CutPoint) {s : State} (h : s.Stands) : (s.holdReset k).Stands := by
  refine .ite (fun _ => h) fun hon => ?_
  unfold State.held
  rw [cutStore_ssv, if_neg hon]
  exact stands_startBegins _

end Sys2Proof.Machine
end

