-- ==== Sys2Proof/Proofs/CommandRows.lean ====
section
/-! The rows that take a frame keep the invariant: what an exchange does, the taking of a command, and each owner. -/

namespace Sys2Proof.Machine

/-! ## Exchanges (R163 to R167) -/

/-- A change of one port that leaves its slot. -/
theorem work_onPort {l : Link} {f : LinkPort → LinkPort} {s : State} (h : (f (s.liu.port l)).slot = (s.liu.port l).slot) :
    Work s (s.onLiu fun u => u.onPort l f) := by
  refine (keeps_onLiu (fun m => ?_) (by simp) (by simp) (by simp +contextual)).same rfl rfl
  by_cases hm : l = m
  · subst hm
    simp [h]
  · rw [Liu.port_onPort_ne hm]

theorem work_shiftOut (x : Exchange) (s : State) : Work s (s.shiftOut x) := work_onPort rfl

theorem work_setNote (l : Link) (code : Byte) (s : State) : Work s (s.setNote l code) := work_onPort rfl

theorem work_restartWatch (l : Link) (s : State) : Work s (s.restartWatch l) := by
  cases l with
  | p =>
    refine work_ite (fun hm => ?_) fun _ => work_refl s
    exact work_onSsv (f := fun v => { v with sleepTimer := Timer.start Config.sleepTicks, sleepDue := false })
      (fun h => ⟨fun _ => hm, fun _ => hm, h.filterDir, h.nearest, h.off⟩) rfl rfl
  | b =>
    refine work_ite (fun hb => ?_) fun _ => work_refl s
    exact (keeps_onLiu (fun l => by cases l <;> rfl) rfl rfl fun _ => .inr hb).same rfl rfl

theorem work_validFrame (x : Exchange) (s : State) : Work s (s.validFrame x) :=
  (work_shiftOut x s).trans <| (work_onPort rfl).trans (work_restartWatch _ _)

/-- A slot that no answer is to come to changes. -/
theorem work_setSlot {l : Link} (c : CmdSlot) {s : State} (h : l ∉ s.waiters) : Work s (s.setSlot l c) := by
  refine fun hb hr => ⟨⟨{ hb with liu := ?_, wpe := ?_, wait := ?_ }, rfl, id, fun _ h => h, id, fun _ h _ => h⟩, hr⟩
  · obtain ⟨ha, hc, ht⟩ := hb.liu
    exact ⟨by simpa [State.setSlot] using ha, by simpa [State.setSlot] using hc, by simpa [State.setSlot] using ht⟩
  · simpa [State.setSlot] using hb.wpe
  · refine hb.wait.mono (List.Sublist.refl _) (fun m hm => ?_) rfl (List.Sublist.refl _)
    have hne : l ≠ m := fun he => h (by rw [State.waiters_eq, he]; exact hm)
    exact congrArg (fun p => p.slot.isRunning) (Liu.port_onPort_ne hne _ s.liu)

/-- A link with no command running waits for nothing. -/
theorem State.Body.free_of_not_running {s : State} (h : s.Body) {l : Link} (hl : (s.liu.port l).slot.isRunning = false) :
    l ∉ s.waiters := by
  intro hm
  rw [State.waiters_eq] at hm
  rw [h.wait.running l hm] at hl
  cases hl

/-- A result is collected, or a slot at rest takes one: the slot runs nothing. -/
theorem work_setSlot_of_not_running {l : Link} (c : CmdSlot) {s : State} (h : (s.liu.port l).slot.isRunning = false) :
    Work s (s.setSlot l c) :=
  work_of fun hb _ => work_setSlot c (hb.free_of_not_running h)

theorem restartWatch_slot (l m : Link) (s : State) : ((s.restartWatch l).liu.port m).slot = (s.liu.port m).slot := by
  cases l <;> unfold State.restartWatch <;> dsimp only <;> split <;> cases m <;> rfl

/-- A valid frame leaves every command slot. -/
theorem validFrame_slot (x : Exchange) (m : Link) (s : State) :
    ((s.validFrame x).liu.port m).slot = (s.liu.port m).slot := by
  rw [State.validFrame, restartWatch_slot]
  by_cases hm : x.link = m
  · subst hm
    simp [State.clearNote, State.shiftOut]
  · simp [State.clearNote, State.shiftOut, Liu.port_onPort_ne hm]

theorem validFrame_bridge (x : Exchange) (s : State) : (s.validFrame x).liu.bridge = s.liu.bridge := by
  have h : ∀ t : State, (t.restartWatch x.link).liu.bridge = t.liu.bridge := by
    intro t
    unfold State.restartWatch
    split <;> split <;> rfl
  rw [State.validFrame, h]
  simp [State.clearNote, State.shiftOut]

theorem occupy_bridge (l : Link) (code : Byte) (s : State) : (s.occupy l code).liu.bridge = s.liu.bridge := by
  unfold State.occupy State.restartConfig State.setSlot
  split <;> simp

theorem work_collect (x : Exchange) (s : State) : Work s (s.collect x) := by
  refine work_ite (fun hc => ?_) fun _ => work_validFrame x s
  refine (work_validFrame x s).trans (work_setSlot_of_not_running _ ?_)
  rw [validFrame_slot]
  simp only [LinkPort.collected, Bool.and_eq_true] at hc
  obtain ⟨⟨-, hd⟩, -⟩ := hc
  cases hs : (s.liu.port x.link).slot <;> rw [hs] at hd <;> first | rfl | cases hd

theorem work_discardFrame (x : Exchange) (s : State) : Work s (s.discardFrame x) := by
  unfold State.discardFrame
  extract_lets t
  have ht : Work s t := work_shiftOut x s
  refine work_ite (fun _ => ht) fun _ => ?_
  split
  · rename_i hs
    refine ht.trans (work_setSlot_of_not_running _ ?_)
    have hslot : (t.liu.port x.link).slot = .idle := by simp [t, State.shiftOut, hs]
    rw [hslot]
    rfl
  · exact ht
  · exact ht

/-! ## The taking of a command (R165, R166) -/

/-- A link runs a command that nothing else is to answer. -/
structure State.Runs (l : Link) (s : State) : Prop where
  free : l ∉ s.waiters
  running : (s.liu.port l).slot.isRunning = true
  present : l = .b → s.liu.bridge ≠ .absent

theorem work_restartConfig (l : Link) (code : Byte) (s : State) : Work s (s.restartConfig l code) :=
  work_ite (fun h => work_onAcc rfl rfl rfl fun ha =>
    ⟨ha.openSlot, ha.lockCause, ha.deferrals, ha.idle, ha.attach, ha.defer, fun _ => h.2.1⟩) fun _ => work_refl s

/-- A command is taken or not; where it is, its owner meets a slot that runs it. -/
theorem ends_command {x : Exchange} {code : Byte} {body : State → State} {s : State}
    (h : ∀ t : State, t.Runs x.link → Ends t (body t)) : Ends s (s.command x code body) := by
  by_cases hs : s.serves x = false
  · rw [State.command_unserved _ _ hs]
    exact (work_shiftOut x s).ends
  · rw [Bool.not_eq_false] at hs
    cases hr : (s.liu.port x.link).slot.isRunning with
    | true =>
      rw [State.command_running _ _ hs hr]
      exact ((work_validFrame x s).trans (work_setNote _ _ _)).ends
    | false =>
      rw [State.command_taken _ _ hs hr]
      refine ends_of fun hb hrest => ?_
      have hslot : ((s.validFrame x).liu.port x.link).slot.isRunning = false := by rw [validFrame_slot]; exact hr
      have hw : Work s ((s.validFrame x).occupy x.link code) :=
        (work_validFrame x s).trans <| (work_setSlot_of_not_running _ hslot).trans (work_restartConfig _ _ _)
      refine hw.then (h _ ⟨(hw hb hrest).1.free (hb.free_of_not_running hr), by simp [CmdSlot.isRunning], fun hl => ?_⟩)
      rw [occupy_bridge, validFrame_bridge]
      have hserved := ((State.serves_iff x s).1 hs).1
      rw [hl] at hserved
      rw [State.served, Bool.and_eq_true, bne_iff_ne] at hserved
      exact hserved.2

theorem work_replyOk {l : Link} (f : Fields) {s : State} (h : l ∉ s.waiters) : Work s (s.replyOk l f) :=
  (keeps_replyOk f h).framed (answer_frame _ _ s)

theorem work_refuse {l : Link} (r : Reason) {s : State} (h : l ∉ s.waiters) : Work s (s.refuse l r) :=
  (keeps_refuse r h).framed (answer_frame _ _ s)

/-- Work whose end answers a command that nothing else is to answer. -/
theorem Work.replied {s t : State} (h : Work s t) (l : Link) (f : Fields) (hl : l ∉ s.waiters) :
    Work s (t.replyOk l f) := work_of fun hb hr => h.trans (work_replyOk f ((h hb hr).1.free hl))

/-- A command of a defined code: its owner meets a slot that runs it, on a link that allows the code. -/
theorem ends_take {α : Type} {x : Exchange} {code : Byte} {q : Payload α} {owner : α → State → State} {s : State}
    (h : ∀ a t, codeOnLink code x.link = true → t.Runs x.link → Ends t (owner a t)) :
    Ends s (s.take x code q owner) := by
  refine ends_command fun t ht => ?_
  have hans : ∀ mk, Ends t (t.answer x.link mk) := fun mk =>
    ((keeps_answer mk ht.free).framed (answer_frame _ _ t)).ends
  rcases t.checked_cases x.link code q owner with ⟨_, he⟩ | ⟨_, _, _, he⟩ | ⟨hc, _, ⟨b, _, he⟩ | ⟨a, _, he⟩⟩ <;> rw [he]
  · exact hans _
  · exact hans _
  · exact hans _
  · exact h a t hc ht

/-- The links a code is defined on. -/
theorem link_eq_b {code : Byte} {l : Link} (h : codeOnLink code l = true) (hp : codeOnLink code .p = false) : l = .b := by
  cases l with
  | p => rw [hp] at h; cases h
  | b => rfl

theorem link_eq_p {code : Byte} {l : Link} (h : codeOnLink code l = true) (hb : codeOnLink code .b = false) : l = .p := by
  cases l with
  | p => rfl
  | b => rw [hb] at h; cases h

/-! ## The commands of the LIU (R169, R171) -/

theorem work_takeEvent {l : Link} {s : State} (h : l ∉ s.waiters) : Work s (s.takeEvent l) := by
  cases l with
  | p => exact Work.replied ((keeps_events ⟨s.liu.pq.take.2, _, rfl⟩).same rfl rfl) _ _ h
  | b => exact Work.replied ((keeps_events ⟨_, s.liu.bq.take.2, rfl⟩).same rfl rfl) _ _ h

/-! ## The bridge's commands (chapters 4 to 6) -/

/-- The bridge attaches: with a powered bus the link may be in any state. -/
theorem work_attachLink (n : Nat) {s : State} (hc : s.liu.bridge ≠ .absent) :
    Work s (s.onLiu fun u => u.attach n) := by
  refine fun h hr => ⟨⟨{ h with liu := ?_, wpe := ?_, wait := ?_ }, rfl, id, fun _ h => h, id, fun _ h _ => h⟩, hr⟩
  · have hm : s.ssv.mode = .bus := by
      by_contra hn
      exact hc (h.liu.absent.2 hn)
    exact ⟨by simp [Liu.attach, hm], by simp [Liu.attach], fun _ => rfl⟩
  · exact ⟨fun _ => rfl, h.wpe.timer, h.wpe.attempt⟩
  · exact h.wait.mono (List.Sublist.refl _) (fun l _ => by cases l <;> rfl) rfl (List.Sublist.refl _)

theorem work_accAttached (s : State) : Work s s.accAttached := by
  unfold State.accAttached
  cases ha : s.acc.access with
  | unlocked =>
    exact work_onAcc rfl rfl rfl fun h =>
      ⟨h.openSlot, h.lockCause, h.deferrals, fun _ => ha, (nomatch ·), h.defer, h.config⟩
  | locking => exact work_completeLock (.inr ha)
  | _ => exact work_refl s

theorem work_attach {n : Nat} {s : State} (h : s.Runs .b) : Work s (s.attach n) :=
  work_ite (fun _ => work_refuse _ h.free) fun _ =>
    ((work_attachLink n (h.present rfl)).trans <| (work_accAttached _).trans (work_bridgeAttached _)).replied _ _ h.free

theorem work_detach {s : State} (h : s.Runs .b) : Work s s.detach := by
  unfold State.detach
  split
  · rename_i hb
    exact ((work_leaveAttached hb (by decide) (by decide)).trans (work_raise _ _ _)).replied _ _ h.free
  · rename_i hb
    refine Work.replied (work_of fun hbody _ => ?_) _ _ h.free
    have hm : s.ssv.mode = .bus := by
      by_contra hn
      exact absurd (hb.symm.trans (hbody.liu.absent.2 hn)) (by decide)
    exact work_moveBridge (f := id) id rfl (by simp [hm]) (by decide) (hbody.no_order (by rw [hb]; decide))
  · exact work_refuse _ h.free
  · exact work_refuse _ h.free

theorem work_hostActive (s : State) : Work s s.hostActive :=
  work_ite (fun h => work_onAcc rfl rfl rfl fun ha =>
    ⟨ha.openSlot, ha.lockCause, ha.deferrals, fun _ => h.1, ha.attach, ha.defer, ha.config⟩) fun _ => work_refl s

theorem work_activity {s : State} (h : s.Runs .b) : Work s s.activity :=
  work_ite (fun _ => work_refuse _ h.free) fun _ => (work_hostActive s).replied _ _ h.free

theorem work_offerLock (c : LockCause) (n : Nat) (s : State) : Work s (s.offerLock c n) :=
  (keeps_offerLock c n s).framed (postB_frame _ s)

theorem work_hold (n : Nat) {s : State} (ha : s.acc.access = .locking) (h : s.Runs .b) : Work s (s.hold n) := by
  have ht : Work s (s.onAcc fun c => { c with deferrals := some n, deferTimer := Timer.start s.plu.policy.deferTicks }) :=
    work_onAcc rfl rfl rfl fun h => ⟨h.openSlot, h.lockCause, fun _ => ha, h.idle, h.attach, fun _ => ha, h.config⟩
  exact (ht.trans (work_offerLock _ n _)).replied _ _ h.free

theorem work_lockReply (r : LockReplyCode) {s : State} (h : s.Runs .b) : Work s (s.lockReply r) := by
  refine work_ite (fun _ => work_refuse _ h.free) fun _ => work_ite (fun _ => work_refuse _ h.free) fun ha => ?_
  have ha : s.acc.access = .locking := not_not.1 ha
  cases r with
  | ready => exact (work_completeLock (.inr ha)).replied _ _ h.free
  | hold =>
    dsimp only
    split
    · exact work_hold _ ha h
    · exact (work_completeLock (.inr ha)).replied _ _ h.free

theorem work_fetchKey (b : Byte) {s : State} (h : s.Runs .b) : Work s (s.fetchKey b) := by
  unfold State.fetchKey
  repeat' split
  · exact work_refuse _ h.free
  · exact work_refuse _ h.free
  · exact work_refuse _ h.free
  · exact work_replyOk _ h.free

theorem work_issueOrder {o : EraseOrder} {s : State} (ho : s.wpe.order = some o) (h : s.Runs .b) :
    Work s (s.issueOrder o) := by
  have ht : Work s (s.onWpe fun w => { w with counter := nextOrderNumber s.wpe.counter
                                              order := some { o with number := some (nextOrderNumber s.wpe.counter) }
                                              orderTimer := Timer.start Config.orderTicks }) :=
    work_of fun _ hr => (keeps_onWpe fun hw =>
      ⟨fun _ => hw.order (by rw [ho]; rfl), fun _ => ⟨_, rfl, rfl⟩, hw.attempt⟩).wiping (hr.wiping_of_order ho) rfl
  exact (ht.trans ((keeps_withdrawEraseWork _).framed (onLiu_frame _ _))).replied _ _ h.free

theorem work_workFetch {s : State} (h : s.Runs .b) : Work s s.workFetch := by
  refine work_ite (fun _ => work_refuse _ h.free) fun _ => work_ite (fun _ => work_refuse _ h.free) fun _ => ?_
  split
  · exact work_replyOk _ h.free
  · split
    · exact work_issueOrder ‹_› h
    · exact work_replyOk _ h.free

theorem State.issuedOrder_eq_some {n : Nat} {o : EraseOrder} {s : State} (h : s.issuedOrder n = some o) :
    s.wpe.order = some o := by
  unfold State.issuedOrder at h
  split at h
  · rename_i p hp
    split at h
    · exact hp.trans h
    · cases h
  · cases h

theorem work_workDone (n : Nat) (r : WorkReport) {s : State} (h : s.Runs .b) : Work s (s.workDone n r) := by
  refine work_ite (fun _ => work_refuse _ h.free) fun _ => ?_
  split
  · exact work_refuse _ h.free
  · rename_i o ho
    cases r with
    | ok => exact (work_finishOrder o 0 s).replied _ _ h.free
    | fail => exact (work_failAttempt (State.issuedOrder_eq_some ho)).replied _ _ h.free

theorem roundUp_granular (n : Nat) : roundUp n % Config.granule = 0 := Nat.mul_mod_left _ _

theorem roundDown_granular (n : Nat) : roundDown n % Config.granule = 0 := Nat.mul_mod_left _ _

/-- One granular definition is a well-formed Pending Set. -/
theorem stagedVolume_wellFormed (i : VolIx) {d : VolumeDef} (hd : d.granular) : (stagedVolume i d).wellFormed = true := by
  obtain ⟨hp, hm, hv⟩ := (PendingSet.wellFormed_iff _).1 PendingSet.empty_wellFormed
  refine (PendingSet.wellFormed_iff _).2 ⟨hp, hm, fun v e he => ?_⟩
  rw [stagedVolume, Vector.get_set_eq] at he
  split at he
  · obtain rfl : d = e := Option.some.inj he
    exact hd
  · exact hv v e he

theorem ends_defineVolume (a : DefineArgs) {s : State} (h : s.Runs .b) : Ends s (s.defineVolume a) := by
  have hstage : ∀ (i : VolIx) (d : VolumeDef), d.granular → Ends s (s.stageDef i d) := fun i d hd =>
    ends_stage (fun _ => stagedVolume_wellFormed i hd) h.free h.running
  unfold State.defineVolume
  split
  · exact (work_refuse _ h.free).ends
  · split
    · rename_i i _
      cases a with
      | unused _ => exact hstage i .unused trivial
      | range _ f c ro =>
        refine ends_ite (fun _ => (work_refuse _ h.free).ends) fun hr => hstage i _ ?_
        refine ⟨roundUp_granular _, roundDown_granular _, ?_⟩
        simp only [State.rangeRefused, Bool.or_eq_true, decide_eq_true_eq, not_or, not_lt] at hr
        exact hr.1.1
    · exact (work_refuse _ h.free).ends

theorem work_readVolumes {s : State} (h : s.Runs .b) : Work s s.readVolumes :=
  work_ite (fun _ => work_refuse _ h.free) fun _ => work_replyOk _ h.free

/-! ## The panel's keys (chapter 2) -/

theorem work_touchEntryTimer {s : State} (h : s.keu.flight = none) : Work s s.touchEntryTimer :=
  (keeps_touchEntryTimer h).framed (onKeu_frame _ s)

/-- Work that leaves no ENTER in flight, answered as a key is. -/
theorem Work.keyed {s t : State} (h : Work s t) (o : KeyOutcome) (hp : Link.p ∉ s.waiters) :
    Work s (t.touchEntryTimer.answerKey o) := by
  refine work_of fun hb hr => ?_
  have hfree := (h hb hr).1.free hp
  exact (h.trans (work_touchEntryTimer (State.no_flight_of_free hfree))).replied _ _ hp

/-- A change of the entry buffer by a key that meets no ENTER in flight. -/
theorem work_buffer {f : Keu → Keu} {s : State} (hp : Link.p ∉ s.waiters) (hf : (f s.keu).flight = s.keu.flight)
    (h : s.keu.flight = none → s.keu.Ok → (f s.keu).Ok) : Work s (s.onKeu f) :=
  (keeps_onKeu (h (State.no_flight_of_free hp)) (.inl hf)).same rfl rfl

theorem ends_entryKey {allowed : State → Bool} {work : State → State} {s : State} (h : s.Runs .p)
    (hw : Ends s (work s)) : Ends s (s.entryKey allowed work) := by
  unfold State.entryKey
  split
  · exact (work_ite (fun _ => (keeps_answer _ h.free).framed (answer_frame _ _ s)) fun _ => work_refuse _ h.free).ends
  · exact ends_ite (fun _ => hw) fun _ => (work_refuse _ h.free).ends

/-- A buffer that no ENTER has handed on, with digits and state as given. -/
theorem Keu.Ok.collect {k : Keu} (h : k.Ok) (hf : k.flight = none) {ds : List Digit} (hd : ds.length ≤ Config.maxDigits)
    {o : Bool} {i : Intent} {b : BufferState} (hb : b ≠ .evaluating) :
    ({ k with digits := ds, overlong := o, intent := i, bstate := b } : Keu).Ok :=
  ⟨hd, h.dialogue, by simp [hf, hb], by simp [hf], by simp [hf]⟩

theorem work_digit (d : Digit) {s : State} (hp : Link.p ∉ s.waiters) : Work s (s.onKeu fun k => k.digit d) := by
  refine work_buffer hp ?_ fun hf h => ?_
  · unfold Keu.digit
    split <;> rfl
  · unfold Keu.digit
    split
    · rename_i hd
      exact h.collect hf (by simpa using hd.1) (nomatch ·)
    · exact h.collect hf h.digits (nomatch ·)

theorem work_back {s : State} (hp : Link.p ∉ s.waiters) : Work s (s.onKeu Keu.back) := by
  refine work_buffer hp ?_ fun hf h => ?_
  · unfold Keu.back
    split <;> rfl
  · unfold Keu.back
    split
    · exact h
    · exact h.collect hf (by simpa using (Nat.sub_le _ 1).trans h.digits) (by split <;> decide)

theorem work_clear {s : State} (hp : Link.p ∉ s.waiters) : Work s (s.onKeu Keu.clear) := by
  refine work_buffer hp ?_ fun hf h => ?_
  · unfold Keu.clear
    split <;> rfl
  · unfold Keu.clear
    split
    · exact h
    · exact .of_emptied h.dialogue hf

theorem work_emptyBuffer {s : State} (hp : Link.p ∉ s.waiters) : Work s s.emptyBuffer :=
  (keeps_emptyBuffer (State.no_flight_of_free hp)).same rfl rfl

theorem work_enterEnds (o : KeyOutcome) {s : State} (hp : Link.p ∉ s.waiters) : Work s (s.enterEnds o) :=
  (work_emptyBuffer hp).keyed o hp

theorem ends_enterAttempt {s : State} (h : s.Runs .p) : Ends s s.enterAttempt := by
  refine ends_ite (fun _ => Work.ends (work_of fun hb hr => ?_)) fun _ => ends_evaluate h.free h.running
  have ht : Work s s.emptyBuffer.touchEntryTimer :=
    (work_emptyBuffer h.free).trans (work_touchEntryTimer (State.no_flight_of_free (s := s) h.free))
  exact ht.trans (work_refuse _ ((ht hb hr).1.free h.free))

theorem Keu.minDigits_of_formOutcome {k : Keu} (h : k.formOutcome = none) : Config.minDigits ≤ k.digits.length := by
  unfold Keu.formOutcome at h
  repeat' split at h
  · cases h
  · cases h
  · cases h
  · exact Nat.le_of_not_lt ‹_›

theorem ends_enter {s : State} (h : s.Runs .p) : Ends s s.enter := by
  unfold State.enter
  split
  · exact (work_enterEnds _ h.free).ends
  · rename_i hform
    have hmin := Keu.minDigits_of_formOutcome hform
    split
    · rename_i d _
      unfold State.enterDialogue
      split
      · exact ends_ite (fun _ => (work_enterEnds _ h.free).ends) fun _ => ends_handOn h.free h.running fun _ => hmin
      · exact ends_handOn h.free h.running fun _ => hmin
    · exact ends_enterAttempt h

theorem work_lockEmpties {s : State} (hp : Link.p ∉ s.waiters) : Work s s.lockEmpties :=
  work_ite (fun _ => work_clear hp) fun _ => work_refl s

theorem work_setIntent (i : Intent) {s : State} (hp : Link.p ∉ s.waiters) :
    Work s (s.onKeu fun k => k.setIntent i) := by
  refine work_buffer hp ?_ fun hf h => ?_
  · unfold Keu.setIntent
    split <;> rfl
  · unfold Keu.setIntent
    split
    · exact h.collect hf h.digits (nomatch ·)
    · exact h

theorem work_beginDialogue {kind : DialogueKind} {target : SlotIx} {mode : Option AccessMode} {mask : Option VolMask}
    {s : State} (hf : s.keu.flight = none)
    (hd : Dialogue.Ok { kind, target, mode, mask, step := .first, candidate := none }) :
    Work s (s.beginDialogue kind target mode mask) := (keeps_beginDialogue hf hd).same rfl rfl

/-- A dialogue that has just begun holds no candidate (R22). -/
theorem Dialogue.Ok.begun {kind : DialogueKind} {target : SlotIx} {mode : Option AccessMode} {mask : Option VolMask}
    (ha : kind = .automatic → target = 0)
    (hu : kind = .enrol → isUserSlot target = true → mode.isSome = true ∧ ∃ m, mask = some m ∧ m ≠ 0) :
    Dialogue.Ok { kind, target, mode, mask, step := .first, candidate := none } :=
  ⟨by simp, by simp, ha, hu⟩

theorem work_beginChange {s : State} (hp : Link.p ∉ s.waiters) : Work s s.beginChange := by
  unfold State.beginChange
  split
  · refine work_ite (fun _ => ?_) fun _ => work_refuse _ hp
    exact (work_beginDialogue (kind := .change) (State.no_flight_of_free hp)
      (.begun (nomatch ·) (nomatch ·))).keyed .none hp
  · exact work_refuse _ hp

theorem work_exitKey {s : State} (hp : Link.p ∉ s.waiters) : Work s s.exitKey :=
  work_ite (fun ha => (work_endConfig ha).keyed .none hp) fun _ =>
    work_ite (fun _ => (work_endDialogue (State.no_flight_of_free hp)).keyed .none hp) fun _ => work_refuse _ hp

theorem work_beginEnrol {i : SlotIx} {a : EnrolArgs} {s : State} (hp : Link.p ∉ s.waiters)
    (hm : isUserSlot i = true → s.checkedMask a.mask ≠ 0) : Work s (s.beginEnrol i a) := by
  have hf := State.no_flight_of_free hp
  refine ((work_endDialogue hf).trans (work_beginDialogue (by rw [State.endDialogue_flight, hf]) ?_)).keyed .none hp
  refine .begun (nomatch ·) fun _ hu => ?_
  rw [if_pos hu, if_pos hu]
  exact ⟨rfl, _, rfl, hm hu⟩

theorem work_enrolBegin (a : EnrolArgs) {s : State} (hp : Link.p ∉ s.waiters) : Work s (s.enrolBegin a) := by
  unfold State.enrolBegin
  split
  · exact work_refuse _ hp
  · split
    · exact work_refuse _ hp
    · split
      · exact work_refuse _ hp
      · rename_i i _ ht
        refine work_beginEnrol hp fun hu hz => ?_
        unfold State.enrolTargetRefusal at ht
        split at ht
        · cases ht
        · simp [hu, hz] at ht

/-! ## Administration and settings (R15 to R18, R100, R125 to R128, R133) -/

theorem ends_asAdmin {l : Link} {work : State → State} {s : State} (h : s.Runs l) (hw : Ends s (work s)) :
    Ends s (s.asAdmin l work) := by
  unfold State.asAdmin
  split
  · exact (work_refuse _ h.free).ends
  · exact hw

theorem ends_adminWrite {l : Link} {i : SlotIx} {r : SlotRecord} {s : State} (h : s.Runs l)
    (hr : s.Body → slotWellFormed i r = true) : Ends s (s.adminWrite l i r) :=
  ends_awaitedWrite (c := .slot i r) (p := .admin (some l)) hr rfl rfl h.free h.running

/-- A user slot's record between ACTIVE and BARRED: the same fields (R1, R16). -/
theorem slotWellFormed_moved {i : SlotIx} {r : SlotRecord} {old new : SlotState} (hu : isUserSlot i = true)
    (h : slotWellFormed i r = true) (hold : r.state = old) (ho : old = .active ∨ old = .barred)
    (hn : new = .active ∨ new = .barred) : slotWellFormed i { r with state := new } = true := by
  have hf : slotWellFormed.slotFieldsOk i r = true := by
    unfold slotWellFormed at h
    rcases ho with rfl | rfl
    · simpa only [hold] using h
    · simp only [hold, Bool.and_eq_true] at h
      exact h.2
  have hg : slotWellFormed.slotFieldsOk i { r with state := new } = true := hf
  rcases hn with rfl | rfl
  · exact hg
  · simp only [slotWellFormed, hu, Bool.true_and]
    exact hg

theorem ends_moveSlot {l : Link} (b : Byte) {old new : SlotState} (ho : old = .active ∨ old = .barred)
    (hn : new = .active ∨ new = .barred) {s : State} (h : s.Runs l) : Ends s (s.moveSlot l b old new) := by
  unfold State.moveSlot
  split
  · refine ends_ite (fun _ => (work_refuse _ h.free).ends) fun hu =>
      ends_ite (fun _ => (work_refuse _ h.free).ends) fun hs => ends_adminWrite h fun hb => ?_
    exact slotWellFormed_moved (by simpa using hu) (hb.ctb.slots _) (not_not.1 hs) ho hn
  · exact (work_refuse _ h.free).ends

theorem ends_clearSlot {l : Link} (b : Byte) {s : State} (h : s.Runs l) : Ends s (s.clearSlot l b) := by
  unfold State.clearSlot
  split
  · exact ends_ite (fun _ => (work_refuse _ h.free).ends) fun _ =>
      ends_ite (fun _ => (work_replyOk _ h.free).ends) fun _ => ends_adminWrite h fun _ => slotWellFormed_empty _
  · exact (work_refuse _ h.free).ends

theorem clampTo_inRange {lo hi : Nat} (h : lo ≤ hi) (v : Nat) : lo ≤ clampTo lo hi v ∧ clampTo lo hi v ≤ hi := by
  unfold clampTo
  split
  · omega
  · split <;> omega

/-- A clamped value lies in its field's range (R126). -/
theorem PolicyField.clamp_inRange (f : PolicyField) (v : Nat) : f.inRange (f.clamp v) = true := by
  have hcode : ∀ w : Nat, 0 ≤ (if w = 0 then 0 else 1) ∧ (if w = 0 then 0 else 1) ≤ 1 := fun w => by split <;> omega
  cases f
  case cellFilter =>
    simp only [PolicyField.inRange, PolicyField.clamp, clampFilter]
    split
    · rfl
    · split
      · rfl
      · split
        · have hv : v = 1 ∨ v = 2 ∨ v = 4 := by omega
          rcases hv with rfl | rfl | rfl <;> rfl
        · rfl
  case wipeDepth => exact decide_eq_true (hcode v)
  case wipeKeepAdmin => exact decide_eq_true (hcode v)
  case driveReadOnly => exact decide_eq_true (hcode v)
  case cellRiseReport => exact decide_eq_true (hcode v)
  all_goals exact decide_eq_true (clampTo_inRange (by decide) v)

theorem stagedValues_inRange (l : List (PolicyField × BitVec 16)) (f : PolicyField) :
    ∀ n ∈ (stagedValues l).at f, f.inRange n = true := by
  have hfold : ∀ (l : List (PolicyField × BitVec 16)) (v : StagedPolicy), (∀ n ∈ v.at f, f.inRange n = true) →
      ∀ n ∈ StagedPolicy.at (l.foldl (fun v e => v.set e.1.number (some (e.1.clamp e.2.toNat))) v) f,
        f.inRange n = true := by
    intro l
    induction l with
    | nil => exact fun v hv => hv
    | cons e l ih =>
      refine fun v hv => ih _ fun n hn => ?_
      rw [StagedPolicy.at, Vector.get_set_eq] at hn
      split at hn
      · rename_i he
        obtain rfl := PolicyField.number_inj.1 he
        obtain rfl : _ = n := Option.some.inj hn
        exact PolicyField.clamp_inRange _ _
      · exact hv n hn
  exact hfold l _ (by simp [StagedPolicy.at])

/-- The staged values of a SET_POLICY are in range, WIPE_THRESHOLD also where it is raised (R126). -/
theorem withRaisedThreshold_inRange {v : StagedPolicy} {s : State} (hb : s.Body)
    (hv : ∀ f : PolicyField, ∀ n ∈ v.at f, f.inRange n = true) (f : PolicyField) :
    ∀ n ∈ (s.withRaisedThreshold v).at f, f.inRange n = true := by
  have hpros : s.prospective.wellFormed = true := overlays_wellFormed hb.plu.inflight hb.plu.committed
  have hq : ∀ g : PolicyField,
      g.inRange (((s.plu.policy.overlay s.prospective.policy).overlay v).value g) = true :=
    Policy.overlay_inRange (Policy.overlay_inRange ((Policy.wellFormed_iff _).1 hb.plu.policy).1
      ((PendingSet.wellFormed_iff _).1 hpros).1) hv
  unfold State.withRaisedThreshold
  extract_lets q
  obtain ⟨hfree, hlo, -⟩ : q.freeAttempts ≤ 7 ∧ 4 ≤ q.wipeThreshold ∧ q.wipeThreshold ≤ 32 :=
    Policy.thresholds_of_inRange hq
  split
  · rename_i hle
    intro n hn
    rw [StagedPolicy.at, Vector.get_set_eq] at hn
    split at hn
    · rename_i he
      obtain rfl := PolicyField.number_inj.1 he
      obtain rfl : _ = n := Option.some.inj hn
      exact decide_eq_true (show 4 ≤ q.freeAttempts + 1 ∧ q.freeAttempts + 1 ≤ 32 by omega)
    · exact hv f n hn
  · exact hv f

theorem ends_setPolicy {l : Link} (values : List (PolicyField × BitVec 16)) {s : State} (h : s.Runs l) :
    Ends s (s.setPolicy l values) := by
  refine ends_ite (fun _ => (work_replyOk _ h.free).ends) fun _ => ends_stage (fun hb => ?_) h.free h.running
  obtain ⟨-, hm, hv⟩ := (PendingSet.wellFormed_iff _).1 PendingSet.empty_wellFormed
  exact (PendingSet.wellFormed_iff _).2 ⟨withRaisedThreshold_inRange hb (stagedValues_inRange values), hm, hv⟩

theorem StagedMap.put_allowed {m : StagedMap} {e : MapEntry} {a : LockAction} (ha : mapAllows e a = true)
    (hm : (∀ x ∈ m.bridgeLost, mapAllows .bridgeLost x = true) ∧ (∀ x ∈ m.clockFault, mapAllows .clockFault x = true) ∧
      ∀ x ∈ m.caseOpen, mapAllows .caseOpen x = true) :
    (∀ x ∈ (m.put e a).bridgeLost, mapAllows .bridgeLost x = true) ∧
      (∀ x ∈ (m.put e a).clockFault, mapAllows .clockFault x = true) ∧
      ∀ x ∈ (m.put e a).caseOpen, mapAllows .caseOpen x = true := by
  obtain ⟨h1, h2, h3⟩ := hm
  have hone : ∀ {P : LockAction → Prop}, P a → ∀ x ∈ some a, P x := fun h x hx => Option.some.inj hx ▸ h
  cases e with
  | bridgeLost => exact ⟨hone ha, h2, h3⟩
  | clockFault => exact ⟨h1, hone ha, h3⟩
  | caseOpen => exact ⟨h1, h2, hone ha⟩

/-- The staged map of a SET_LOCK_MAP that is not refused holds allowed actions (R127). -/
theorem stagedEntries_wellFormed {l : List (MapEntry × LockAction)} (h : ∀ e ∈ l, mapAllows e.1 e.2 = true) :
    ({ PendingSet.empty with map := stagedEntries l } : PendingSet).wellFormed = true := by
  obtain ⟨hp, hm, hv⟩ := (PendingSet.wellFormed_iff _).1 PendingSet.empty_wellFormed
  refine (PendingSet.wellFormed_iff _).2 ⟨hp, ?_, hv⟩
  have hfold : ∀ (l : List (MapEntry × LockAction)) (m : StagedMap), (∀ e ∈ l, mapAllows e.1 e.2 = true) →
      ((∀ x ∈ m.bridgeLost, mapAllows .bridgeLost x = true) ∧ (∀ x ∈ m.clockFault, mapAllows .clockFault x = true) ∧
        ∀ x ∈ m.caseOpen, mapAllows .caseOpen x = true) →
      (∀ x ∈ (l.foldl (fun m e => m.put e.1 e.2) m).bridgeLost, mapAllows .bridgeLost x = true) ∧
        (∀ x ∈ (l.foldl (fun m e => m.put e.1 e.2) m).clockFault, mapAllows .clockFault x = true) ∧
        ∀ x ∈ (l.foldl (fun m e => m.put e.1 e.2) m).caseOpen, mapAllows .caseOpen x = true := by
    intro l
    induction l with
    | nil => exact fun m _ hm => hm
    | cons e l ih =>
      exact fun m hl hm => ih _ (fun d hd => hl d (List.mem_cons_of_mem e hd)) (StagedMap.put_allowed (hl e (by simp)) hm)
  exact hfold l .empty h hm

theorem ends_setLockMap {l : Link} (entries : List (MapEntry × LockAction)) {s : State} (h : s.Runs l) :
    Ends s (s.setLockMap l entries) := by
  refine ends_ite (fun _ => (work_refuse _ h.free).ends) fun ha =>
    ends_ite (fun _ => (work_replyOk _ h.free).ends) fun _ => ends_stage (fun _ => ?_) h.free h.running
  exact stagedEntries_wellFormed (by simpa using ha)

theorem work_adminWipe {l : Link} {s : State} (h : s.Runs l) : Work s (s.adminWipe l) :=
  (work_startWipe _ s).replied _ _ h.free

theorem ends_writeOptions {l : Link} (values : List (OptionField × Byte)) {s : State} (h : s.Runs l) :
    Ends s (s.writeOptions l values) :=
  ends_ite (fun _ => (work_refuse _ h.free).ends) fun _ => ends_ite (fun _ => (work_refuse _ h.free).ends) fun _ =>
    ends_ite (fun _ => (work_refuse _ h.free).ends) fun _ => ends_ite (fun _ => (work_replyOk _ h.free).ends) fun _ =>
      ends_awaitedWrite (c := .option _) (p := .options (some l)) (fun _ => trivial) rfl rfl h.free h.running

end Sys2Proof.Machine
end

