-- ==== Sys2Proof/Proofs/Invariant.lean ====
section
/-! The invariant is inductive: it holds at reset, and every row keeps it. -/

namespace Sys2Proof.Machine

/-- The bridge's commands are defined on the B-link alone. -/
theorem State.Runs.onB {x : Exchange} {code : Byte} {s : State} (h : s.Runs x.link) (hc : codeOnLink code x.link = true)
    (hp : codeOnLink code .p = false := by decide) : s.Runs .b := link_eq_b hc hp ▸ h

/-- The panel's keys are defined on the P-link alone. -/
theorem State.Runs.onP {x : Exchange} {code : Byte} {s : State} (h : s.Runs x.link) (hc : codeOnLink code x.link = true)
    (hb : codeOnLink code .b = false := by decide) : s.Runs .p := link_eq_p hc hb ▸ h

/-- A key of the panel that the entry gate guards: work that leaves no ENTER in flight. -/
theorem ends_key {allowed : State → Bool} {work : State → State} {s : State} (h : s.Runs .p) (hw : Work s (work s)) :
    Ends s (s.entryKey allowed fun u => (work u).keyTaken) :=
  ends_entryKey h (hw.keyed .none h.free).ends

/-- Every row keeps the invariant. -/
theorem exec_keeps_inv {c : Instr} {s t : State} (h : s.Stands) (ht : exec c s = .next t) : t.Inv := by
  cases c with
  | poll x payload =>
    exact (h.work (work_ite (c := s.serves x = true) (fun _ => work_collect x s) fun _ => work_shiftOut x s)).inv ht
  | status x q => exact (h.step (ends_take fun _ t _ hr => (work_replyOk _ hr.free).ends)).inv ht
  | getEvent x q => exact (h.step (ends_take fun _ t _ hr => (work_takeEvent hr.free).ends)).inv ht
  | listSlots x q =>
    exact (h.step (ends_take fun _ t _ hr => ends_asAdmin hr (work_replyOk _ hr.free).ends)).inv ht
  | barSlot x q =>
    exact (h.step (ends_take fun b t _ hr => ends_asAdmin hr (ends_moveSlot b (.inl rfl) (.inr rfl) hr))).inv ht
  | unbarSlot x q =>
    exact (h.step (ends_take fun b t _ hr => ends_asAdmin hr (ends_moveSlot b (.inr rfl) (.inl rfl) hr))).inv ht
  | clearSlot x q => exact (h.step (ends_take fun b t _ hr => ends_asAdmin hr (ends_clearSlot b hr))).inv ht
  | setPolicy x q => exact (h.step (ends_take fun v t _ hr => ends_asAdmin hr (ends_setPolicy v hr))).inv ht
  | readPolicy x q =>
    exact (h.step (ends_take fun _ t _ hr => ends_asAdmin hr (work_replyOk _ hr.free).ends)).inv ht
  | setLockMap x q => exact (h.step (ends_take fun v t _ hr => ends_asAdmin hr (ends_setLockMap v hr))).inv ht
  | wipe x q => exact (h.step (ends_take fun _ t _ hr => ends_asAdmin hr (work_adminWipe hr).ends)).inv ht
  | keyDigit x q =>
    exact (h.step (ends_take fun d t hc hr => ends_key (hr.onP hc) (work_digit d (hr.onP hc).free))).inv ht
  | keyBack x q => exact (h.step (ends_take fun _ t hc hr => ((work_back (hr.onP hc).free).keyed .none (hr.onP hc).free).ends)).inv ht
  | keyClear x q => exact (h.step (ends_take fun _ t hc hr => ((work_clear (hr.onP hc).free).keyed .none (hr.onP hc).free).ends)).inv ht
  | keyEnter x q => exact (h.step (ends_take fun _ t hc hr => ends_entryKey (hr.onP hc) (ends_enter (hr.onP hc)))).inv ht
  | keyLock x q =>
    exact (h.step (ends_take fun _ t hc hr =>
      (((work_lockEmpties (hr.onP hc).free).trans (work_raise _ _ _)).keyed .none (hr.onP hc).free).ends)).inv ht
  | keyAdmin x q =>
    exact (h.step (ends_take fun _ t hc hr => ends_key (hr.onP hc) (work_setIntent .admin (hr.onP hc).free))).inv ht
  | keyRecover x q =>
    exact (h.step (ends_take fun _ t hc hr => ends_key (hr.onP hc) (work_setIntent .recover (hr.onP hc).free))).inv ht
  | keyChange x q =>
    exact (h.step (ends_take fun _ t hc hr => ends_entryKey (hr.onP hc) (work_beginChange (hr.onP hc).free).ends)).inv ht
  | keyExit x q => exact (h.step (ends_take fun _ t hc hr => (work_exitKey (hr.onP hc).free).ends)).inv ht
  | enrolBegin x q => exact (h.step (ends_take fun a t hc hr => (work_enrolBegin a (hr.onP hc).free).ends)).inv ht
  | attach x q => exact (h.step (ends_take fun _ t hc hr => (work_attach (hr.onB hc)).ends)).inv ht
  | detach x q => exact (h.step (ends_take fun _ t hc hr => (work_detach (hr.onB hc)).ends)).inv ht
  | lock x q =>
    exact (h.step (ends_take fun _ t hc hr => ((work_raise _ _ t).replied _ _ (hr.onB hc).free).ends)).inv ht
  | activity x q => exact (h.step (ends_take fun _ t hc hr => (work_activity (hr.onB hc)).ends)).inv ht
  | fetchKey x q => exact (h.step (ends_take fun b t hc hr => (work_fetchKey b (hr.onB hc)).ends)).inv ht
  | lockReply x q => exact (h.step (ends_take fun r t hc hr => (work_lockReply r (hr.onB hc)).ends)).inv ht
  | workFetch x q => exact (h.step (ends_take fun _ t hc hr => (work_workFetch (hr.onB hc)).ends)).inv ht
  | workDone x q => exact (h.step (ends_take fun a t hc hr => (work_workDone _ _ (hr.onB hc)).ends)).inv ht
  | defineVolume x q => exact (h.step (ends_take fun a t hc hr => ends_defineVolume a (hr.onB hc))).inv ht
  | readVolumes x q => exact (h.step (ends_take fun _ t hc hr => (work_readVolumes (hr.onB hc)).ends)).inv ht
  | writeOptions x q => exact (h.step (ends_take fun v t _ hr => ends_writeOptions v hr)).inv ht
  | badFrame x bytes =>
    exact (h.work (work_ite (c := (checkFrame bytes).isSome = true) (fun _ => work_refl s) fun _ =>
      work_ite (c := bytes = []) (fun _ => work_shiftOut x s) fun _ => work_discardFrame x s)).inv ht
  | busy x code =>
    exact (h.work (work_ite (c := (!s.serves x) = true) (fun _ => work_shiftOut x s) fun _ =>
      work_ite (c := code ≠ 0 ∧ (s.liu.port x.link).slot.isRunning = true)
        (fun _ => (work_validFrame x s).trans (work_setNote _ _ _)) fun _ => work_refl s)).inv ht
  | unknownCommand x code payload =>
    refine (h.step (ends_ite (c := (codeLinks code).isSome = true) (fun _ => ends_refl s) fun _ =>
      ends_command fun t hr => ?_)).inv ht
    exact ((keeps_answer _ hr.free).framed (answer_frame _ _ t)).ends
  | evaluationEnd => exact (stands_evaluationEnd h).inv ht
  | enrolVerifierDone => exact (stands_enrolVerifierDone h).inv ht
  | storeWriteEnd r => exact (stands_storeWriteEnd r h).inv ht
  | tick mv => exact (h.step (ends_ite (c := s.powered = true) (fun _ => ends_takeTick mv s) fun _ => ends_refl s)).inv ht
  | fallback =>
    exact (State.Stands.ite (c := s.powered = true ∧ s.tbu.state = .crystal) (fun _ => stands_enterFallback h) fun _ => h).inv ht
  | crystalReturn =>
    exact (State.Stands.ite (c := s.powered = true ∧ s.tbu.state = .fallback) (fun _ => stands_enterCrystal h) fun _ => h).inv ht
  | crystalSilentAgain =>
    exact (State.Stands.ite (c := s.powered = true ∧ s.tbu.state = .fallback) (fun hc => stands_silentAgain h hc.2) fun _ => h).inv ht
  | entryTimerExpiry =>
    exact (State.Stands.ite (c := s.keu.entryTimer.due = true) (fun hd => stands_entryTimerExpiry h hd) fun _ => h).inv ht
  | penaltyExpiry =>
    exact (State.Stands.ite (c := s.atl.penalty.due = true) (fun _ => h.step (ends_penaltyExpires s)) fun _ => h).inv ht
  | idleExpiry =>
    exact (State.Stands.ite (c := s.acc.idleTimer.due = true)
      (fun _ => h.work ((work_idleStops s).trans (work_raise _ _ _))) fun _ => h).inv ht
  | attachExpiry =>
    exact (State.Stands.ite (c := s.acc.attachTimer.due = true)
      (fun _ => h.work ((work_attachStops s).trans (work_raise _ _ _))) fun _ => h).inv ht
  | deferExpiry =>
    exact (State.Stands.ite (c := s.acc.deferTimer.due = true) (fun _ => h.work (work_deferExpires s)) fun _ => h).inv ht
  | configTimeout =>
    exact (State.Stands.ite (c := s.acc.configTimer.due = true)
      (fun _ => h.work ((work_configStops s).trans (work_configTimedOut _))) fun _ => h).inv ht
  | linkTimerExpiry =>
    exact (State.Stands.ite (c := s.liu.linkTimer.due = true) (fun hd => h.work (work_linkLost h.1 hd)) fun _ => h).inv ht
  | orderTimerExpiry =>
    exact (State.Stands.ite (c := s.wpe.orderTimer.due = true) (fun _ => h.work (work_orderExpires s)) fun _ => h).inv ht
  | sleepTimerExpiry =>
    exact (State.Stands.ite (c := s.ssv.sleepTimer.due = true) (fun hd => h.work (work_sleepTimerExpires h.1 hd)) fun _ => h).inv ht
  | caseChange high =>
    exact ((h.onPins _).work (work_ite (c := s.powered = true) (fun _ => work_debounceCase _) fun _ => work_refl _)).inv ht
  | caseDebounceExpiry =>
    exact (State.Stands.ite (c := s.ssv.caseTimer.due = true) (fun _ => stands_caseDebounced h) fun _ => h).inv ht
  | cellSleepEntry =>
    exact (State.Stands.ite (c := s.sleepConditions = true) (fun _ => h.step (ends_enterSleep s)) fun _ => h).inv ht
  | wakeN low =>
    have hp : (s.onPins fun p => { p with wakeLow := low }).Stands := h.onPins _
    exact (State.Stands.ite (c := low = true ∧ s.powered = true ∧ s.ssv.mode = .cellSleep)
      (fun hc => hp.step (ends_wake hc.2.2 (.inr rfl))) fun _ => hp).inv ht
  | busPowerArrival =>
    exact (State.Stands.ite (c := s.pins.busdet = true) (fun _ => h) fun _ => stands_busPowerArrives (h.onPins _)).inv ht
  | busPowerLoss cut =>
    have hp : (s.onPins fun p => { p with busdet := false }).Stands := h.onPins _
    exact (State.Stands.ite (c := s.pins.busdet = true) (fun _ =>
      State.Stands.ite (c := s.ssv.mode = .bus) (fun _ => stands_busPowerLost cut hp) fun _ => hp) fun _ => h).inv ht
  | powerOn bus =>
    exact (State.Stands.ite (c := s.ssv.mode = .off) (fun _ => stands_powerUp _) fun _ => h).inv ht
  | powerLoss cut =>
    exact (State.Stands.ite (c := s.ssv.mode = .off) (fun _ => h) fun _ => stands_powerOff cut _).inv ht
  | resetN cut =>
    exact (State.Stands.ite (c := s.pins.resetLow = true) (fun _ => h) fun _ => stands_holdReset cut (h.onPins _)).inv ht
  | resetNRelease =>
    exact (State.Stands.ite (c := s.pins.resetLow = true ∧ s.ssv.mode ≠ .off) (fun _ => stands_startWith _ _ _)
      fun _ => h.onPins _).inv ht

/-- Settles O5: every row keeps the parts of the invariant within it, and its end restores the clause of the writes. -/
theorem stepKeepsInv : Obligations.StepKeepsInv := by
  intro s t h ht
  unfold step at ht
  split at ht
  · cases ht
    exact h
  · obtain ⟨hb, hr, ht'⟩ := h.stands
    refine exec_keeps_inv ?_ ht
    exact ⟨hb, hr, ht'.run, ht'.phase, ht'.clockFault, ht'.caseOpen⟩

/-- Settles O4: the state after reset is what start-up leaves of a factory-new array, and start-up gives a state that the
invariant allows whatever stood before. -/
theorem invAtReset : Obligations.InvAtReset :=
  State.Stands.inv (u := State.startUp .resetPin State.reset) (stands_startWith _ _ _) rfl

end Sys2Proof.Machine
end

