-- ==== Sys2Proof/Proofs/TakenFrames.lean ====
section
/-! A taken frame and its answer, said once: the restarted timers and the link's port, as the statements write them. -/

namespace Sys2Proof.Machine

/-- A note is cleared where its four bytes were shifted out (R166). -/
theorem LinkPort.note_after (x : Exchange) (p : LinkPort) :
    (if p.noteShown x then none else p.note) = if 4 ≤ x.clocked then none else p.note := by
  cases hn : p.note with
  | none => simp
  | some c =>
    have hlen : (noteFrame (some c)).length = 4 := rfl
    simp [LinkPort.noteShown, hn, hlen]

/-- What the exchange and the taking of its command make of the link's port. -/
theorem LinkPort.exchanged_eq (x : Exchange) (c : CmdSlot) (p : LinkPort) :
    p.exchanged x c =
      { slot := c, note := if p.noteShown x then none else p.note, dout := p.shifted x } := by
  rw [LinkPort.note_after]
  rfl

/-- The state once a frame has been taken: the restarted timers, and the port after the exchange with its slot as given. -/
def State.taken (x : Exchange) (code : Byte) (c : CmdSlot) (s : State) : State :=
  (s.frameTaken x code).onLiu fun u => u.onPort x.link (LinkPort.exchanged x c)

theorem restartWatch_onPort (l m : Link) (f : LinkPort → LinkPort) (s : State) :
    (s.onLiu fun u => u.onPort l f).restartWatch m = (s.restartWatch m).onLiu fun u => u.onPort l f := by
  cases m with
  | p =>
    by_cases hm : s.ssv.mode = .cellAwake
    · simp [State.restartWatch, hm]
      rfl
    · simp [State.restartWatch, hm]
  | b =>
    cases l <;> by_cases hb : s.liu.bridge = .attached <;>
      simp only [State.restartWatch, State.onLiu_liu, Liu.onPort_bridge, hb, if_true, if_false] <;> rfl

theorem restartConfig_onPort (l m : Link) (code : Byte) (f : LinkPort → LinkPort) (s : State) :
    (s.onLiu fun u => u.onPort l f).restartConfig m code = (s.restartConfig m code).onLiu fun u => u.onPort l f := by
  by_cases hc : m = .p ∧ s.acc.access = .config ∧ isQuery code = false
  · simp [State.restartConfig, hc]
    rfl
  · simp [State.restartConfig, hc]

/-- The timers that a taken frame restarts, as the part restarts them. -/
theorem State.frameTaken_eq (x : Exchange) (code : Byte) (s : State) :
    s.frameTaken x code = (s.restartWatch x.link).restartConfig x.link code := by
  unfold State.frameTaken State.restartWatch State.restartConfig
  cases x.link with
  | p =>
    by_cases hm : s.ssv.mode = .cellAwake
    · simp only [if_pos hm, true_and, State.onSsv_acc]
      by_cases hc : s.acc.access = .config ∧ isQuery code = false
      · simp only [if_pos hc]
        rfl
      · simp only [if_neg hc]
        rfl
    · simp only [if_neg hm, true_and]
      by_cases hc : s.acc.access = .config ∧ isQuery code = false
      · simp only [if_pos hc]
        rfl
      · simp only [if_neg hc]
  | b =>
    simp only [reduceCtorEq, false_and, if_false]
    by_cases hb : s.liu.bridge = .attached
    · simp only [if_pos hb]
      rfl
    · simp only [if_neg hb]

theorem State.shiftOut_served {x : Exchange} {s : State} (h : s.serves x = true) :
    s.shiftOut x = s.onLiu fun u => u.onPort x.link fun p => { p with dout := p.shifted x } := by
  simp [State.shiftOut, h]

/-- A command that is taken: its frame's passage and the occupied slot are one change of the port. -/
theorem validFrame_occupy {x : Exchange} (code : Byte) {s : State} (h : s.serves x = true) :
    (s.validFrame x).occupy x.link code = s.taken x code (.running .short code) := by
  have hport : ((fun p => { p with slot := .running .short code }) ∘
      (fun p : LinkPort => { p with note := if p.noteShown x then none else p.note }) ∘
      fun p : LinkPort => { p with dout := p.shifted x }) = LinkPort.exchanged x (.running .short code) := by
    funext p
    rw [LinkPort.exchanged_eq]
    rfl
  rw [State.taken, ← hport, State.frameTaken_eq, State.validFrame, State.shiftOut_served h, State.clearNote,
    restartWatch_onPort, restartWatch_onPort, State.occupy, State.setSlot, restartConfig_onPort, restartConfig_onPort,
    restartConfig_onPort]
  simp only [State.onLiu, Liu.onPort_onPort]


section
variable (x : Exchange) (code : Byte) (s : State)

@[simp] theorem State.frameTaken_rsc : (s.frameTaken x code).rsc = s.rsc := by unfold State.frameTaken; split <;> rfl
@[simp] theorem State.frameTaken_ctb : (s.frameTaken x code).ctb = s.ctb := by unfold State.frameTaken; split <;> rfl
@[simp] theorem State.frameTaken_keu : (s.frameTaken x code).keu = s.keu := by unfold State.frameTaken; split <;> rfl
@[simp] theorem State.frameTaken_atl : (s.frameTaken x code).atl = s.atl := by unfold State.frameTaken; split <;> rfl
@[simp] theorem State.frameTaken_kru : (s.frameTaken x code).kru = s.kru := by unfold State.frameTaken; split <;> rfl
@[simp] theorem State.frameTaken_plu : (s.frameTaken x code).plu = s.plu := by unfold State.frameTaken; split <;> rfl
@[simp] theorem State.frameTaken_tbu : (s.frameTaken x code).tbu = s.tbu := by unfold State.frameTaken; split <;> rfl

@[simp] theorem State.frameTaken_access : (s.frameTaken x code).acc.access = s.acc.access := by
  unfold State.frameTaken
  split <;> dsimp only
  split <;> rfl

@[simp] theorem State.frameTaken_openSlot : (s.frameTaken x code).acc.openSlot = s.acc.openSlot := by
  unfold State.frameTaken
  split <;> dsimp only
  split <;> rfl

@[simp] theorem State.frameTaken_clockFault : (s.frameTaken x code).acc.clockFault = s.acc.clockFault := by
  unfold State.frameTaken
  split <;> dsimp only
  split <;> rfl

@[simp] theorem State.frameTaken_caseOpen : (s.frameTaken x code).acc.caseOpen = s.acc.caseOpen := by
  unfold State.frameTaken
  split <;> dsimp only
  split <;> rfl

@[simp] theorem State.frameTaken_bridge : (s.frameTaken x code).liu.bridge = s.liu.bridge := by
  unfold State.frameTaken
  split <;> dsimp only
  split <;> rfl

variable (c : CmdSlot)

@[simp] theorem State.taken_rsc : (s.taken x code c).rsc = s.rsc := s.frameTaken_rsc x code
@[simp] theorem State.taken_ctb : (s.taken x code c).ctb = s.ctb := s.frameTaken_ctb x code
@[simp] theorem State.taken_keu : (s.taken x code c).keu = s.keu := s.frameTaken_keu x code
@[simp] theorem State.taken_atl : (s.taken x code c).atl = s.atl := s.frameTaken_atl x code
@[simp] theorem State.taken_kru : (s.taken x code c).kru = s.kru := s.frameTaken_kru x code
@[simp] theorem State.taken_plu : (s.taken x code c).plu = s.plu := s.frameTaken_plu x code
@[simp] theorem State.taken_tbu : (s.taken x code c).tbu = s.tbu := s.frameTaken_tbu x code
@[simp] theorem State.taken_access : (s.taken x code c).acc.access = s.acc.access := s.frameTaken_access x code
@[simp] theorem State.taken_openSlot : (s.taken x code c).acc.openSlot = s.acc.openSlot := s.frameTaken_openSlot x code
@[simp] theorem State.taken_clockFault : (s.taken x code c).acc.clockFault = s.acc.clockFault :=
  s.frameTaken_clockFault x code
@[simp] theorem State.taken_caseOpen : (s.taken x code c).acc.caseOpen = s.acc.caseOpen := s.frameTaken_caseOpen x code
@[simp] theorem State.taken_bridge : (s.taken x code c).liu.bridge = s.liu.bridge := by simp [State.taken]

@[simp] theorem State.taken_cell (i : SlotIx) : (s.taken x code c).cell i = s.cell i := by simp [State.cell]
@[simp] theorem State.taken_slotRec (i : SlotIx) : (s.taken x code c).slotRec i = s.slotRec i := by simp [State.slotRec]

/-- An answer takes the place of the running command in the exchanged port. -/
theorem State.taken_answer (cls : CmdClass) (mk : Byte → Result) :
    (s.taken x code (.running cls code)).answer x.link mk = s.taken x code (.done (mk code)) := by
  unfold State.answer State.taken
  simp only [State.onLiu, Liu.onPort_onPort]
  rfl

theorem State.taken_refuse (cls : CmdClass) (r : Reason) :
    (s.taken x code (.running cls code)).refuse x.link r = s.taken x code (.done (.refused code r 0)) :=
  s.taken_answer x code cls _

theorem State.taken_replyOk (cls : CmdClass) (f : Fields) :
    (s.taken x code (.running cls code)).replyOk x.link f = s.taken x code (.done (.ok code f)) :=
  s.taken_answer x code cls _

/-- A command whose only effect is its answer. -/
theorem State.answersOnly_taken (r : Result) :
    ∃ t, finish (s.taken x code (.done r)) = .next t ∧ s.answersOnly x code r t := ⟨_, rfl, rfl⟩

end

/-- An accepted command is handed to its owner with its frame taken and its slot RUNNING. -/
theorem take_accepted {α : Type} {x : Exchange} {code : Byte} {s : State} (h : s.accepts x code) (a : α)
    (owner : α → State → State) :
    s.take x code (.ok a) owner = owner a (s.taken x code (.running .short code)) := by
  obtain ⟨⟨hserved, hidle⟩, hlink, hhalted⟩ := h
  have hgoes : ¬ ((s.taken x code (.running .short code)).acc.access = .halted ∧ isQuery code = false) := by
    rw [State.taken_access]
    rintro ⟨ha, hq⟩
    rcases hhalted with hh | hh
    · exact hh ha
    · rw [hq] at hh
      exact absurd hh Bool.false_ne_true
  rw [State.take, State.command_taken _ _ hserved hidle, validFrame_occupy code hserved, State.checked, hlink, if_neg hgoes]
  rfl

end Sys2Proof.Machine
end

