-- ==== Sys2Proof/Proofs/SlotCommands.lean ====
section
/-! Administration of the slots from a link (R8, R15 to R17): who may, what is refused, and the record that is
requested to be written. -/

namespace Sys2Proof.Machine

/-! ## Authority (R15, R100, R125) -/

@[simp] theorem State.taken_adminRefusal (x : Exchange) (code : Byte) (c : CmdSlot) (s : State) (l : Link) :
    (s.taken x code c).adminRefusal l = s.adminRefusal l := by
  simp [State.adminRefusal]

/-- A link that may administer is not refused. -/
theorem adminRefusal_of_administers {l : Link} {s : State} (h : s.administers l) : s.adminRefusal l = none := by
  obtain ⟨hbridge, haccess, hopen⟩ := h
  have hb : ¬ (l = .b ∧ s.liu.bridge ≠ .attached) := fun ⟨hl, hn⟩ => hn (hbridge hl)
  have hw : adminState l ≠ .wiping := by cases l <;> decide
  simp [State.adminRefusal, hb, haccess, hw, hopen]

/-- A link that may not administer is refused by the first check of the four that fails. -/
theorem adminRefusal_of_not_administers {l : Link} {s : State} (h : ¬ s.administers l) :
    s.adminRefusal l = some
      (if l = .b ∧ s.liu.bridge ≠ .attached then .notAttached
       else if s.acc.access = .wiping then .wiping
       else if s.acc.access ≠ adminState l then .notNow
       else .noAuthority) := by
  unfold State.adminRefusal
  split_ifs with hb hw ha ho
  · rfl
  · rfl
  · rfl
  · rfl
  · refine absurd ⟨fun hl => ?_, not_not.mp ha, not_not.mp ho⟩ h
    exact not_not.mp fun hn => hb ⟨hl, hn⟩

/-- An accepted administration command from a link that may administer is carried out. -/
theorem take_asAdmin {α : Type} {x : Exchange} {code : Byte} {s : State} (h : s.accepts x code)
    (ha : s.administers x.link) (a : α) (work : α → State → State) :
    (s.take x code (.ok a) fun b t => t.asAdmin x.link (work b)) = work a (s.taken x code (.running .short code)) := by
  simp only [take_accepted h, State.asAdmin, State.taken_adminRefusal, adminRefusal_of_administers ha]

/-- From a link that may not administer it is refused, and nothing else changes. -/
theorem take_asAdmin_refused {α : Type} {x : Exchange} {code : Byte} {s : State} (h : s.accepts x code)
    (ha : ¬ s.administers x.link) (q : Payload α) (hq : q.isMalformed = false) (work : α → State → State) :
    ∃ t, finish (s.take x code q fun b t => t.asAdmin x.link (work b)) = .next t ∧
      s.answersOnly x code (.refused code
        (if x.link = .b ∧ s.liu.bridge ≠ .attached then .notAttached
         else if s.acc.access = .wiping then .wiping
         else if s.acc.access ≠ adminState x.link then .notNow
         else .noAuthority) 0) t := by
  cases q with
  | ok a =>
    simp only [take_accepted h, State.asAdmin, State.taken_adminRefusal, adminRefusal_of_not_administers ha,
      State.taken_refuse]
    exact State.answersOnly_taken x code s _
  | malformed b => cases hq

/-- Settles O20: each administration command goes through the four authority checks. -/
theorem administrationNeedsAuthority : Obligations.AdministrationNeedsAuthority := by
  intro c x code s hx hcode hmem hwf hpayload hbusy haccepts hno
  cases c
  case listSlots x' q => cases hx; cases hcode; exact take_asAdmin_refused haccepts hno q hpayload _
  case barSlot x' q => cases hx; cases hcode; exact take_asAdmin_refused haccepts hno q hpayload _
  case unbarSlot x' q => cases hx; cases hcode; exact take_asAdmin_refused haccepts hno q hpayload _
  case clearSlot x' q => cases hx; cases hcode; exact take_asAdmin_refused haccepts hno q hpayload _
  case setPolicy x' q => cases hx; cases hcode; exact take_asAdmin_refused haccepts hno q hpayload _
  case readPolicy x' q => cases hx; cases hcode; exact take_asAdmin_refused haccepts hno q hpayload _
  case setLockMap x' q => cases hx; cases hcode; exact take_asAdmin_refused haccepts hno q hpayload _
  case wipe x' q => cases hx; cases hcode; exact take_asAdmin_refused haccepts hno q hpayload _
  case busy x' c' => cases hbusy
  case unknownCommand x' c' b =>
    cases hcode
    have hdefined : commandOf x' code b ≠ .unknownCommand x' code b := by
      simp only [List.mem_cons, List.not_mem_nil, or_false] at hmem
      rcases hmem with rfl | rfl | rfl | rfl | rfl | rfl | rfl | rfl <;> exact Instr.noConfusion
    simp [Instr.wellFormed, hdefined] at hwf
  all_goals
    simp only [Instr.code, reduceCtorEq, Option.some.injEq] at hcode
  all_goals
    subst hcode
    exact absurd hmem (by decide)

/-! ## The record that is requested (R8, R16, R17) -/

/-- A slot command that requests a write runs on as LONG, and nothing else changes until the write ends. -/
theorem adminWrite_taken (x : Exchange) (code : Byte) (i : SlotIx) (r : SlotRecord) (s : State) :
    ∃ t, finish ((s.taken x code (.running .short code)).adminWrite x.link i r) = .next t ∧
      ((s.frameTaken x code).withWrite (.slot i r) (.admin (some x.link))).leaves x (.running .long code) t := by
  refine ⟨_, rfl, ?_⟩
  have hrsc := Rsc.kick_request { contents := .slot i r, purpose := .admin (some x.link) } (s.frameTaken x code).rsc
  simp only [State.leaves, State.withWrite, ← hrsc]
  simp only [State.adminWrite, State.writeSlot, State.requestWrite, State.runLong, State.taken, State.onLiu, State.onRsc,
    Liu.onPort_onPort]
  rfl

theorem slotIx?_of_lt {b : Byte} (h : b.toNat < 10) : slotIx? b = some (Fin.ofNat 10 b.toNat) := by
  rw [slotIx?, dif_pos h]
  exact congrArg some (Fin.ext (Nat.mod_eq_of_lt h).symm)

theorem slotIx?_of_le {b : Byte} (h : 10 ≤ b.toNat) : slotIx? b = none := dif_neg (Nat.not_lt.mpr h)

theorem ofNat_eq_zero_iff {n : Nat} (h : n < 10) : (Fin.ofNat 10 n : SlotIx) = 0 ↔ n = 0 := by
  rw [Fin.ext_iff, Fin.val_ofNat, Nat.mod_eq_of_lt h]
  rfl

theorem ofNat_eq_nine_iff {n : Nat} (h : n < 10) : (Fin.ofNat 10 n : SlotIx) = 9 ↔ n = 9 := by
  rw [Fin.ext_iff, Fin.val_ofNat, Nat.mod_eq_of_lt h]
  rfl

theorem isUserSlot_iff (i : SlotIx) : isUserSlot i = true ↔ i ≠ 0 ∧ i ≠ 9 := by simp [isUserSlot]

/-- An index that is not one of a user slot. -/
theorem userSlot_cases (b : Byte) :
    (b.toNat = 0 ∨ 9 ≤ b.toNat) ∧ (∀ i, slotIx? b = some i → isUserSlot i = false) ∨
    ¬ (b.toNat = 0 ∨ 9 ≤ b.toNat) ∧ slotIx? b = some (Fin.ofNat 10 b.toNat) ∧
      isUserSlot (Fin.ofNat 10 b.toNat) = true := by
  by_cases hlt : b.toNat < 10
  · have hi := slotIx?_of_lt hlt
    by_cases hu : isUserSlot (Fin.ofNat 10 b.toNat) = true
    · have h := (isUserSlot_iff _).mp hu
      rw [Ne, Ne, ofNat_eq_zero_iff hlt, ofNat_eq_nine_iff hlt] at h
      exact .inr ⟨by omega, hi, hu⟩
    · have h := mt (isUserSlot_iff _).mpr hu
      rw [Ne, Ne, ofNat_eq_zero_iff hlt, ofNat_eq_nine_iff hlt] at h
      refine .inl ⟨by omega, fun i he => ?_⟩
      rw [hi] at he
      cases he
      simpa using hu
  · exact .inl ⟨by omega, fun i he => by rw [slotIx?_of_le (by omega)] at he; cases he⟩

/-- BAR_SLOT and UNBAR_SLOT, once taken (R16). -/
theorem moveSlot_taken (x : Exchange) (code b : Byte) (old new : SlotState) (s : State) :
    ∃ t, finish ((s.taken x code (.running .short code)).moveSlot x.link b old new) = .next t ∧
      (if b.toNat = 0 ∨ 9 ≤ b.toNat then s.answersOnly x code (.refused code .noSlot 0) t
       else if (s.slotRec (Fin.ofNat 10 b.toNat)).state ≠ old then
         s.answersOnly x code (.refused code .slotState 0) t
       else ((s.frameTaken x code).withWrite
         (.slot (Fin.ofNat 10 b.toNat) { s.slotRec (Fin.ofNat 10 b.toNat) with state := new })
         (.admin (some x.link))).leaves x (.running .long code) t) := by
  rcases userSlot_cases b with ⟨hb, hno⟩ | ⟨hb, hi, hu⟩
  · simp only [if_pos hb, State.moveSlot]
    cases hi : slotIx? b with
    | none => simpa only [State.taken_refuse] using State.answersOnly_taken x code s _
    | some i =>
      simp only [hno i hi, Bool.not_false, if_true, State.taken_refuse]
      exact State.answersOnly_taken x code s _
  · simp only [if_neg hb, State.moveSlot, hi, hu, Bool.not_true, Bool.false_eq_true, if_false, State.taken_slotRec]
    split_ifs with hs
    · rw [State.taken_refuse]
      exact State.answersOnly_taken x code s _
    · exact adminWrite_taken x code _ _ s

/-- CLEAR_SLOT, once taken (R17). -/
theorem clearSlot_taken (x : Exchange) (code b : Byte) (s : State) :
    ∃ t, finish ((s.taken x code (.running .short code)).clearSlot x.link b) = .next t ∧
      (if b.toNat = 0 ∨ 10 ≤ b.toNat then s.answersOnly x code (.refused code .noSlot 0) t
       else if (s.slotRec (Fin.ofNat 10 b.toNat)).state = .empty ∧ (s.cell (Fin.ofNat 10 b.toNat)).fault = false then
         s.answersOnly x code (.ok code .none) t
       else ((s.frameTaken x code).withWrite (.slot (Fin.ofNat 10 b.toNat) .empty)
         (.admin (some x.link))).leaves x (.running .long code) t) := by
  rw [State.clearSlot]
  by_cases hlt : b.toNat < 10
  · simp only [slotIx?_of_lt hlt, ofNat_eq_zero_iff hlt, State.taken_slotRec, State.taken_cell, Nat.not_le.mpr hlt, or_false]
    split_ifs with h0 hs
    · rw [State.taken_refuse]
      exact State.answersOnly_taken x code s _
    · rw [State.taken_replyOk]
      exact State.answersOnly_taken x code s _
    · exact adminWrite_taken x code _ _ s
  · have hle : 10 ≤ b.toNat := Nat.not_lt.mp hlt
    simpa only [slotIx?_of_le hle, hle, or_true, if_true, State.taken_refuse] using State.answersOnly_taken x code s _

/-- Settles O21: the index, the state and the mark decide between a refusal, an answer at once, and a write. -/
theorem slotCommandsQueueTheRecord : Obligations.SlotCommandsQueueTheRecord := by
  intro x b s
  refine ⟨fun ⟨h, ha⟩ => ?_, fun ⟨h, ha⟩ => ?_, fun ⟨h, ha⟩ => ?_⟩
  · change ∃ t, finish (s.take x 0x09 (.ok b) _) = .next t ∧ _
    rw [take_asAdmin h ha b]
    exact moveSlot_taken x 0x09 b .active .barred s
  · change ∃ t, finish (s.take x 0x0A (.ok b) _) = .next t ∧ _
    rw [take_asAdmin h ha b]
    exact moveSlot_taken x 0x0A b .barred .active s
  · change ∃ t, finish (s.take x 0x0B (.ok b) _) = .next t ∧ _
    rw [take_asAdmin h ha b]
    exact clearSlot_taken x 0x0B b s

end Sys2Proof.Machine
end

