-- ==== Sys2Proof/Proofs/EnrolBegin.lean ====
section
/-! ENROL_BEGIN (R13, R34): the mask the CTB checks, the target's eligibility, and the dialogue that begins. -/

namespace Sys2Proof.Machine

/-! ## The checked mask (R13) -/

theorem getLsbD_strike (m : VolMask) (v w : VolIx) :
    (m &&& ~~~(1#4 <<< w.val)).getLsbD v.val = (m.getLsbD v.val && !decide (v = w)) := by
  revert m v w
  decide

/-- Striking out volumes one by one leaves the bits of the others. -/
theorem getLsbD_foldl_strike (p : VolIx → Bool) (v : VolIx) (l : List VolIx) (m : VolMask) :
    (l.foldl (fun acc w => if p w = true then acc &&& ~~~(1#4 <<< w.val) else acc) m).getLsbD v.val =
      (m.getLsbD v.val && !(decide (v ∈ l) && p v)) := by
  induction l generalizing m with
  | nil => simp
  | cons w rest ih =>
    rw [List.foldl_cons, ih]
    by_cases hw : p w = true
    · rw [if_pos hw, getLsbD_strike]
      by_cases hv : v = w
      · subst hv
        simp [hw]
      · simp [hv]
    · rw [if_neg hw]
      by_cases hv : v = w
      · subst hv
        simp [hw]
      · simp [hv]

/-- A user slot's mask loses its UNUSED volumes. -/
theorem getLsbD_checkedMask (m : VolMask) (v : VolIx) (s : State) :
    (s.checkedMask m).getLsbD v.val = (m.getLsbD v.val && !((s.volume v).state == .unused)) := by
  have hv : v ∈ allVolumes := by revert v; decide
  have h := getLsbD_foldl_strike (fun w => (s.volume w).state == .unused) v allVolumes m
  rwa [decide_eq_true hv, Bool.true_and] at h

/-- The checked mask is empty where every volume of the mask is UNUSED. -/
theorem checkedMask_eq_zero_iff (m : VolMask) (s : State) :
    s.checkedMask m = 0 ↔ ∀ v : VolIx, m.getLsbD v.val = true → (s.volume v).state = .unused := by
  constructor
  · intro h v hv
    have hbit := getLsbD_checkedMask m v s
    simpa [h, hv] using hbit
  · intro h
    refine BitVec.eq_of_getLsbD_eq fun i hi => ?_
    have hbit := getLsbD_checkedMask m ⟨i, hi⟩ s
    rw [hbit]
    cases hm : m.getLsbD i with
    | false => simp
    | true => simp [h ⟨i, hi⟩ hm]

/-! ## The checks (R34) -/

theorem enrol_eligible_iff (i : SlotIx) (s : State) :
    s.eligible .enrol i = true ↔ (s.slotRec i).state = .empty ∨ (i = 0 ∧ (s.slotRec i).state = .active) ∨
      (i = 9 ∧ (s.slotRec i).state = .spent) := by
  unfold State.eligible State.slotRec
  by_cases h0 : i = 0
  · simp [h0]
  · by_cases h9 : i = 9 <;> simp [h0, h9]

/-! ## The dialogue that begins -/

/-- A dialogue that begins in CONFIG replaces the one that ran, and its first entry's time starts. -/
theorem beginDialogue_of_config {s : State} (h : s.acc.access = .config) (k : DialogueKind) (i : SlotIx)
    (mode : Option AccessMode) (mask : Option VolMask) :
    (s.endDialogue.beginDialogue k i mode mask).touchEntryTimer =
      State.timed { s with keu := { s.keu with
        digits := [], overlong := false, intent := .enrolFirst, bstate := .empty,
        dialogue := some { kind := k, target := i, mode := mode, mask := mask, step := .first, candidate := none } } } := by
  have hend : s.endDialogue = s.onKeu fun k => { Keu.emptied { k with dialogue := none } with entryTimer := none } := by
    simp [State.endDialogue, State.autoDialogue, h]
  rw [hend]
  rfl

/-- A key's answer is its command's, and besides the KEU's work nothing changes. -/
theorem keyAnswered_taken {x : Exchange} (hl : x.link = .p) (code : Byte) (o : KeyOutcome) (k : Keu) (s : State) :
    ∃ t, finish ((State.timed { s.taken x code (.running .short code) with keu := k }).answerKey o) = .next t ∧
      State.keyAnswered x code o (State.timed { s.frameTaken x code with keu := k }) t := by
  let f : State → State := fun u => State.timed { u with keu := k }
  have hanswer (g : Fields) : (f (s.taken x code (.running .short code))).replyOk .p g =
      f (s.taken x code (.done (.ok code g))) := by
    rw [← hl, ← State.taken_replyOk x code s .short g]
    rfl
  change ∃ t, finish ((f (s.taken x code (.running .short code))).answerKey o) = .next t ∧ _
  rw [State.answerKey, hanswer]
  exact ⟨_, rfl, rfl⟩

theorem refuse_taken {x : Exchange} (hl : x.link = .p) (code : Byte) (r : Reason) (s : State) :
    ∃ t, finish ((s.taken x code (.running .short code)).refuse .p r) = .next t ∧
      s.answersOnly x code (.refused code r 0) t := by
  rw [← hl, State.taken_refuse]
  exact State.answersOnly_taken x code s _

section
variable (x : Exchange) (code : Byte) (c : CmdSlot) (s : State)

@[simp] theorem State.taken_clockBars : (s.taken x code c).clockBars = s.clockBars := by simp [State.clockBars]
@[simp] theorem State.taken_caseBars : (s.taken x code c).caseBars = s.caseBars := by simp [State.caseBars]

@[simp] theorem State.taken_eligible (k : DialogueKind) (i : SlotIx) :
    (s.taken x code c).eligible k i = s.eligible k i := by simp [State.eligible]

@[simp] theorem State.taken_checkedMask (m : VolMask) : (s.taken x code c).checkedMask m = s.checkedMask m := by
  simp [State.checkedMask]

end

/-- The dialogue of an accepted ENROL_BEGIN. -/
theorem beginEnrol_taken {x : Exchange} (hl : x.link = .p) {s : State} (hconfig : s.acc.access = .config) (i : SlotIx)
    (a : EnrolArgs) :
    ∃ t, finish ((s.taken x 0x21 (.running .short 0x21)).beginEnrol i a) = .next t ∧
      State.keyAnswered x 0x21 .none (State.timed { s.frameTaken x 0x21 with keu := { s.keu with
        digits := [], overlong := false, intent := .enrolFirst, bstate := .empty,
        dialogue := some { kind := .enrol, target := i, mode := if isUserSlot i then some a.mode else none,
                           mask := if isUserSlot i then some (s.checkedMask a.mask) else none,
                           step := .first, candidate := none } } }) t := by
  rw [State.beginEnrol, State.keyTaken, beginDialogue_of_config (by simpa using hconfig), State.taken_checkedMask]
  rw [State.taken_keu]
  exact keyAnswered_taken hl 0x21 .none _ s

/-- Settles O34: the first check that fails refuses, and otherwise the dialogue begins. -/
theorem enrolBeginBeginsADialogue : Obligations.EnrolBeginBeginsADialogue := by
  intro x a s haccepts
  have hl : x.link = .p := by
    have h := haccepts.2.1
    cases hx : x.link with
    | p => rfl
    | b => rw [hx] at h; exact absurd h (by decide)
  change ∃ t, finish (s.take x 0x21 (.ok a) _) = .next t ∧ _
  simp only [take_accepted haccepts, State.enrolBegin, State.enrolRefusal, State.taken_access, State.taken_openSlot,
    State.taken_clockBars, State.taken_caseBars]
  by_cases hw : s.acc.access = .wiping
  · simp only [hw, if_true]
    exact refuse_taken hl _ _ s
  by_cases hc : s.acc.access = .config
  case neg =>
    simp only [hw, hc, if_false, ne_eq, not_false_eq_true, if_true]
    exact refuse_taken hl _ _ s
  simp only [hc, ne_eq, not_true_eq_false, if_false, reduceCtorEq]
  by_cases hlt : a.index.toNat < 10
  case neg =>
    have hle : 10 ≤ a.index.toNat := Nat.not_lt.mp hlt
    simp only [slotIx?_of_le hle, hle, if_true]
    exact refuse_taken hl _ _ s
  simp only [slotIx?_of_lt hlt, Nat.not_le.mpr hlt, if_false]
  generalize hi : (Fin.ofNat 10 a.index.toNat : SlotIx) = i
  by_cases ho : s.acc.openSlot ≠ some 0 ∧ i ≠ 0
  · simp only [if_pos ho]
    exact refuse_taken hl _ _ s
  simp only [if_neg ho, Bool.or_eq_true]
  by_cases hb : s.clockBars = true ∨ s.caseBars = true
  · simp only [if_pos hb]
    exact refuse_taken hl _ _ s
  simp only [if_neg hb, State.enrolTargetRefusal, State.taken_eligible, State.taken_checkedMask, Bool.not_eq_true']
  by_cases he : s.eligible .enrol i = true
  case neg =>
    simp only [he, if_true, mt (enrol_eligible_iff i s).mpr he, not_false_eq_true]
    exact refuse_taken hl _ _ s
  simp only [he, Bool.true_eq_false, if_false, (enrol_eligible_iff i s).mp he, not_true_eq_false,
    ← checkedMask_eq_zero_iff, ← isUserSlot_iff]
  by_cases hm : isUserSlot i = true ∧ s.checkedMask a.mask = 0
  · simp only [hm, beq_self_eq_true, Bool.and_self, if_true, and_self]
    exact refuse_taken hl _ _ s
  · obtain ⟨t, ht, hanswered⟩ := beginEnrol_taken hl hc i a
    have hm' : (isUserSlot i && s.checkedMask a.mask == 0) = false := by simpa using hm
    simp only [hm', Bool.false_eq_true, if_false, if_neg hm]
    exact ⟨t, ht, s.checkedMask a.mask, fun v => getLsbD_checkedMask a.mask v s, hanswered⟩

end Sys2Proof.Machine
end

