-- ==== Sys2Proof/Proofs/WriteEnds.lean ====
section
/-! The end of a write as its owner meets it (R139, R140), and the end of an administration write (R8, R9). -/

namespace Sys2Proof.Machine

/-! ## The state an owner meets -/

/-- A write has completed: its contents stand in the array and no write is current. -/
def State.passed (e : WriteEntry) (s : State) : State :=
  (s.onStore (Store.onLocation Location.complete e.contents)).clearCurrent

/-- A write has failed its second attempt: the array keeps the residue and no write is current. -/
def State.spoilt (left : Residue) (e : WriteEntry) (s : State) : State :=
  (s.onStore (Store.onLocation (Location.fail (e.contents.residue left)) e.contents)).clearCurrent

/-- The owner of a completed write is answered done. -/
theorem exec_passed {w : CurrentWrite} {s : State} (hw : s.rsc.current = some w) :
    exec (.storeWriteEnd .passed) s = finish ((s.passed w.entry).writeDone w.entry) := by
  change execStoreWriteEnd .passed s = _
  simp only [execStoreWriteEnd, hw]
  rfl

/-- The owner of a write that fails after its retry is answered failed. -/
theorem exec_failed {w : CurrentWrite} {s : State} (left : Residue) (hw : s.rsc.current = some w) (hn : w.attempt ≠ 1) :
    exec (.storeWriteEnd (.failed left)) s = finish ((s.spoilt left w.entry).writeFailed w.entry) := by
  change execStoreWriteEnd (.failed left) s = _
  simp only [execStoreWriteEnd, hw, State.attemptEnds, if_neg hn]
  rfl

theorem passed_frame (e : WriteEntry) (s : State) : State.changesOnly [.store, .rsc] s (s.passed e) :=
  changesOnly_append (onStore_frame _ s) (onRsc_frame _ _)

theorem spoilt_frame (left : Residue) (e : WriteEntry) (s : State) :
    State.changesOnly [.store, .rsc] s (s.spoilt left e) :=
  changesOnly_append (onStore_frame _ s) (onRsc_frame _ _)

/-- The take of the next write changes the RSC alone. -/
theorem finish_frame {l : List Block} {s t : State} (h : State.changesOnly l s t) (hr : Block.rsc ∈ l) :
    ∃ u, finish t = .next u ∧ u = { t with rsc := t.rsc.kick } ∧ State.changesOnly l s u :=
  ⟨_, rfl, rfl, changesOnly_trans h (changesOnly_mono (onRsc_frame Rsc.kick t) (by simpa using hr))⟩

/-! ## Answers -/

/-- An answer to a running command is its result. -/
theorem State.answer_slot {l : Link} {cls : CmdClass} {code : Byte} {s : State} (mk : Byte → Result)
    (h : (s.liu.port l).slot = .running cls code) : ((s.answer l mk).liu.port l).slot = .done (mk code) := by
  simp [State.answer, h]

/-- A completed slot write reads as written. -/
theorem Store.read_slot_complete (i : SlotIx) (r : SlotRecord) (st : Store) :
    ((st.onLocation Location.complete (.slot i r)).slots.get i).read = .valid r := by
  rw [Store.onLocation, Vector.get_set_eq, if_pos rfl, Location.read_complete]

/-- Settles O22: the record or the mark, and the answer. -/
theorem adminSlotWriteEnds : Obligations.AdminSlotWriteEnds := by
  intro l i r n left cls code s hw hrun
  constructor
  · have hframe : State.changesOnly [.store, .rsc, .ctb, .liu] s
        (((s.passed { contents := .slot i r, purpose := .admin (some l) }).slotDone i r).replyOk l .none) :=
      changesOnly_mono (changesOnly_append (changesOnly_append (passed_frame _ s) (setCell_frame _ _ _))
        (answer_frame _ _ _)) (by decide)
    obtain ⟨t, ht, rfl, hkeeps⟩ := finish_frame hframe (by decide)
    rw [exec_passed hw]
    refine ⟨_, ht, rfl, State.answer_slot _ hrun, ?_, hkeeps⟩
    exact Store.read_slot_complete i r s.store
  · intro hn
    have hframe : State.changesOnly [.store, .rsc, .ctb, .liu] s
        (((s.spoilt left { contents := .slot i r, purpose := .admin (some l) }).slotFailed i r).refuse l .storeFault) :=
      changesOnly_mono (changesOnly_append (changesOnly_append (spoilt_frame left _ s) (setCell_frame _ _ _))
        (answer_frame _ _ _)) (by decide)
    obtain ⟨t, ht, rfl, hkeeps⟩ := finish_frame hframe (by decide)
    rw [exec_failed left hw hn]
    exact ⟨_, ht, rfl, State.answer_slot _ hrun, hkeeps⟩

end Sys2Proof.Machine
end

