-- ==== Sys2Proof/Proofs/Ports.lean ====
section
/-! What the shared operations leave of the command slots: an event, a change of access state or an application of the
Pending Set changes no port, so that the answer that follows reaches the command that waits for it. -/

namespace Sys2Proof.Machine

/-- Both links' ports are the same in two states. -/
def State.SamePorts (s t : State) : Prop := t.liu.p = s.liu.p ∧ t.liu.b = s.liu.b

theorem State.SamePorts.refl (s : State) : s.SamePorts s := ⟨rfl, rfl⟩

theorem State.SamePorts.trans {s t u : State} (h : s.SamePorts t) (k : t.SamePorts u) : s.SamePorts u :=
  ⟨k.1.trans h.1, k.2.trans h.2⟩

theorem samePorts_of_liu {s t : State} (h : t.liu = s.liu) : s.SamePorts t := by
  unfold State.SamePorts
  rw [h]
  exact ⟨rfl, rfl⟩

theorem samePorts_of_frame {l : List Block} {s t : State} (h : State.changesOnly l s t) (hl : Block.liu ∉ l) :
    s.SamePorts t := samePorts_of_liu (h .liu hl)

theorem samePorts_ite {s t u : State} {c : Prop} [Decidable c] (ht : s.SamePorts t) (hu : s.SamePorts u) :
    s.SamePorts (if c then t else u) := by
  split
  · exact ht
  · exact hu

theorem samePorts_postP (e : Event) (s : State) : s.SamePorts (s.postP e) := samePorts_ite ⟨rfl, rfl⟩ (.refl s)

theorem samePorts_postB (e : Event) (s : State) : s.SamePorts (s.postB e) := samePorts_ite ⟨rfl, rfl⟩ (.refl s)

theorem samePorts_postAccessChanged (s : State) : s.SamePorts s.postAccessChanged :=
  (samePorts_postP _ s).trans (samePorts_postB _ _)

theorem samePorts_revokeKeys (s : State) : s.SamePorts s.revokeKeys := samePorts_ite (samePorts_postB _ s) (.refl s)

theorem samePorts_changeAccess (a : Access) (o : Option SlotIx) (s : State) : s.SamePorts (s.changeAccess a o) :=
  (samePorts_of_frame (changesOnly_append (onAcc_frame _ s) (interruptEntry_frame _)) (by decide)).trans
    (samePorts_postAccessChanged _)

theorem samePorts_closeOpen (s : State) : s.SamePorts s.closeOpen := samePorts_revokeKeys _

theorem samePorts_setMap (m : LockMap) (s : State) : s.SamePorts (s.setMap m) := by
  unfold State.setMap
  extract_lets t u
  have ht : s.SamePorts t := samePorts_of_liu rfl
  have hu : s.SamePorts u := samePorts_ite ht (ht.trans (samePorts_postAccessChanged t))
  exact hu.trans (samePorts_of_frame (tellGate_frame _ u) (by decide))

theorem samePorts_applyMap (s : State) : s.SamePorts s.applyMap.1 := by
  unfold State.applyMap
  dsimp only
  split
  · exact .refl s
  · split
    · exact .refl s
    · exact (samePorts_setMap _ s).trans (samePorts_of_frame (requestWrite_frame _ _ _) (by decide))

theorem samePorts_applyPendingSet (s : State) : s.SamePorts s.applyPendingSet :=
  (samePorts_of_frame (applyPolicy_frame s) (by decide)).trans <| (samePorts_applyMap _).trans <|
    (samePorts_of_frame (applyVolumes_frame _) (by decide)).trans
      (samePorts_of_frame (changesOnly_append (onPlu_frame _ _) (settle_frame _)) (by decide))

theorem samePorts_enterLocked (s : State) : s.SamePorts s.enterLocked :=
  (samePorts_applyPendingSet s).trans (samePorts_changeAccess _ _ _)

theorem samePorts_completeLock (s : State) : s.SamePorts s.completeLock :=
  (samePorts_closeOpen s).trans (samePorts_enterLocked _)

theorem samePorts_endConfig (s : State) : s.SamePorts s.endConfig := samePorts_enterLocked s.leaveConfig

theorem samePorts_enterLocking (c : LockCause) (s : State) : s.SamePorts (s.enterLocking c) := by
  unfold State.enterLocking
  extract_lets n t
  have ht : s.SamePorts t := samePorts_of_liu rfl
  exact (ht.trans (samePorts_postB _ t)).trans (samePorts_changeAccess _ _ _)

theorem samePorts_openUnlocked (i : SlotIx) (s : State) : s.SamePorts (s.openUnlocked i) := by
  unfold State.openUnlocked
  extract_lets t
  have ht : s.SamePorts t := samePorts_ite (samePorts_of_liu rfl) (samePorts_of_liu rfl)
  exact ht.trans (samePorts_changeAccess _ _ t)

theorem samePorts_openConfig (i : SlotIx) (s : State) : s.SamePorts (s.openConfig i) :=
  samePorts_changeAccess _ _ (s.onAcc _)

theorem samePorts_enterHalted (s : State) : s.SamePorts s.enterHalted := by
  unfold State.enterHalted
  extract_lets t u
  have hu : s.SamePorts u := State.SamePorts.trans ⟨rfl, rfl⟩ (samePorts_revokeKeys _)
  exact samePorts_ite (.refl s) (hu.trans (samePorts_changeAccess _ _ u))

theorem samePorts_quitForWipe (s : State) : s.SamePorts s.quitForWipe := by
  unfold State.quitForWipe
  split
  · exact samePorts_closeOpen s
  · exact samePorts_closeOpen s
  all_goals exact ⟨rfl, rfl⟩

theorem samePorts_orderly (c : LockCause) (s : State) : s.SamePorts (s.orderly c) := by
  unfold State.orderly
  split
  · exact samePorts_ite (samePorts_enterLocking c s) (samePorts_completeLock s)
  · exact samePorts_endConfig s
  all_goals exact .refl s

theorem samePorts_forced (s : State) : s.SamePorts s.forced := by
  unfold State.forced
  split
  · exact samePorts_completeLock s
  · exact samePorts_completeLock s
  · exact samePorts_endConfig s
  all_goals exact .refl s

/-! ## Answers to another link -/

/-- An answer on one link leaves the other's slot. -/
theorem State.answer_slot_of_ne {l m : Link} (h : m ≠ l) (mk : Byte → Result) (s : State) :
    ((s.answer l mk).liu.port m).slot = (s.liu.port m).slot := by
  cases l <;> cases m <;> first | rfl | exact absurd rfl h

/-- A slot that runs no command keeps its result through every answer. -/
theorem State.answer_slot_of_done {l m : Link} {r : Result} (mk : Byte → Result) {s : State}
    (h : (s.liu.port m).slot = .done r) : ((s.answer l mk).liu.port m).slot = .done r := by
  by_cases hm : m = l
  · subst hm
    simp [State.answer, h, CmdSlot.answer]
  · rw [State.answer_slot_of_ne hm, h]

end Sys2Proof.Machine
end

