-- ==== Sys2Proof/Proofs/Flight.lean ====
section
/-! The writes of an evaluation (R45 to R49): what the state asks the store for, and the end of the flight. -/

namespace Sys2Proof.Machine

/-! ## The writes a state asks for -/

theorem State.writing_iff (c : Contents) (p : Purpose) (s : State) :
    s.writing c p ↔ { contents := c, purpose := p } ∈ s.rsc.entries := by
  simp only [State.writing, Rsc.entries, List.mem_append, Option.mem_toList, Option.map_eq_some_iff]
  exact or_comm

/-- A request is written on, whichever write is taken at the end of the row. -/
theorem writing_of_request (c : Contents) (p : Purpose) (r : Rsc) {t : State}
    (ht : t.rsc = (r.request { contents := c, purpose := p }).kick) : t.writing c p := by
  rw [State.writing_iff, ht, Rsc.kick_entries]
  exact Rsc.mem_request_self _ r

theorem passed_entries {e : WriteEntry} {s : State} : (s.passed e).rsc.entries = s.rsc.queue := rfl

theorem spoilt_entries {left : Residue} {e : WriteEntry} {s : State} : (s.spoilt left e).rsc.entries = s.rsc.queue := rfl

/-- While the current write carries on the flight, none that waits does. -/
theorem State.WaitOk.queue_noFlight {s : State} (h : s.WaitOk) {w : CurrentWrite} (hw : s.rsc.current = some w)
    (hp : w.entry.purpose.ofFlight = true) : ∀ e ∈ s.rsc.queue, e.purpose.ofFlight = false := by
  have hs := h.waits.single
  rw [Rsc.entries_of_current hw, List.filter_cons, if_pos hp, List.length_cons] at hs
  have hnil : s.rsc.queue.filter (fun e => e.purpose.ofFlight) = [] := List.length_eq_zero_iff.1 (by omega)
  intro e he
  simpa using List.filter_eq_nil_iff.1 hnil e he

/-- No uses write is asked for where none of the flight is. -/
theorem uses_not_mem {r : Rsc} (h : ∀ e ∈ r.entries, e.purpose.ofFlight = false) (j : SlotIx) :
    Purpose.uses j ∉ r.kick.purposes := by
  rw [Rsc.purposes_eq, Rsc.kick_entries]
  intro hm
  obtain ⟨e, he, hu⟩ := List.mem_map.1 hm
  have hf := h e he
  rw [hu] at hf
  cases hf

/-! ## The gate -/

theorem State.gateOpen_congr {s t : State} (hv : t.ssv = s.ssv) (hm : t.plu.map = s.plu.map)
    (hc : t.acc.clockFault = s.acc.clockFault) (ho : t.acc.caseOpen = s.acc.caseOpen) : t.gateOpen = s.gateOpen := by
  simp only [State.gateOpen, State.cellCritAwake, State.clockBars, State.caseBars, hv, hm, hc, ho]

/-- With the gate open no condition acts again. -/
theorem State.recheck_of_open {s : State} (h : s.gateOpen = true) : s.recheck = s := by
  simp only [State.gateOpen, Bool.and_eq_true, Bool.not_eq_true'] at h
  obtain ⟨⟨hcrit, hclock⟩, hcase⟩ := h
  have hbars {b : Bool} {a : LockAction} (hb : (b && a != .none) = false) : (b && rechecked a) = false := by
    cases b <;> cases a <;> first | rfl | cases hb
  simp [State.recheck, hcrit, hbars hclock, hbars hcase]

/-! ## The end of the flight (R62) -/

/-- Nothing follows the answer where nothing is open. -/
theorem State.endOfFlight_of_shut {s : State} (hh : s.acc.heldWipe = false) (hu : s.acc.access ≠ .unlocked)
    (hc : s.acc.access ≠ .config) : s.endOfFlight = s := by
  simp [State.endOfFlight, hh, hu, hc]

/-- Nothing follows the answer while the gate is open. -/
theorem State.endOfFlight_of_open {s : State} (hh : s.acc.heldWipe = false) (hg : s.gateOpen = true) :
    s.endOfFlight = s := by
  simp [State.endOfFlight, hh, State.recheck_of_open hg]

section
variable (a : AttemptAnswer) (s : State)

/-- What an answered attempt leaves of the KEU (R33). -/
theorem State.answerAttempt_keu : (s.answerAttempt a).keu = (s.onKeu fun k => k.landed.emptied).touchEntryTimer.keu := by
  cases a <;> rfl

@[simp] theorem State.answerAttempt_flight : (s.answerAttempt a).keu.flight = none := by
  rw [State.answerAttempt_keu]
  rfl

@[simp] theorem State.answerAttempt_digits : (s.answerAttempt a).keu.digits = [] := by
  rw [State.answerAttempt_keu]
  rfl

@[simp] theorem State.answerAttempt_acc : (s.answerAttempt a).acc = s.acc := answerAttempt_frame a s .acc (by decide)
@[simp] theorem State.answerAttempt_atl : (s.answerAttempt a).atl = s.atl := answerAttempt_frame a s .atl (by decide)
@[simp] theorem State.answerAttempt_wpe : (s.answerAttempt a).wpe = s.wpe := answerAttempt_frame a s .wpe (by decide)

@[simp] theorem State.answerAttempt_gateOpen : (s.answerAttempt a).gateOpen = s.gateOpen :=
  have h := answerAttempt_frame a s
  State.gateOpen_congr (h .ssv (by decide)) (congrArg Plu.map (h .plu (by decide)))
    (congrArg Acc.clockFault (h .acc (by decide))) (congrArg Acc.caseOpen (h .acc (by decide)))

end

/-- A refusal of the attempt is the key's. -/
theorem State.answerAttempt_refused {cls : CmdClass} {code : Byte} {s : State} (r : Reason)
    (h : s.liu.p.slot = .running cls code) : (s.answerAttempt (.refusal r)).liu.p.slot = .done (.refused code r 0) :=
  State.answer_slot (l := .p) (s := (s.onKeu fun k => k.landed.emptied).touchEntryTimer) _ h

/-- A granted attempt is answered with the summary of the emptied buffer. -/
theorem State.answerAttempt_granted {cls : CmdClass} {code : Byte} {s : State} (h : s.liu.p.slot = .running cls code) :
    (s.answerAttempt .granted).liu.p.slot = .done (.ok code (.key .granted none (s.answerAttempt .granted).summary)) :=
  State.answer_slot (l := .p) (s := (s.onKeu fun k => k.landed.emptied).touchEntryTimer) _ h

/-! ## Entry into HALTED (R80) -/

theorem State.enterHalted_atl {s : State} (h : s.acc.access ≠ .halted) :
    s.enterHalted.atl = { s.atl with penalty := none, phase := false } := by
  unfold State.enterHalted
  rw [if_neg h, changeAccess_frame _ _ _ .atl (by simp), revokeKeys_frame _ .atl (by simp)]
  rfl

/-- A Limiter write of an evaluation that fails halts the part before the key is refused. -/
theorem evaluationHalted_eq {s : State} (h : s.acc.access ≠ .halted) :
    s.evaluationHalted = s.enterHalted.answerAttempt (.refusal .storeFault) := by
  have ha := State.enterHalted_acc h
  refine State.endOfFlight_of_shut ?_ ?_ ?_ <;> simp [ha]

/-- What the failed write of an evaluation leaves. -/
theorem evaluationHalted_facts {cls : CmdClass} {code : Byte} {s : State} (hl : s.acc.access = .locked)
    (hrun : s.liu.p.slot = .running cls code) :
    s.evaluationHalted.acc.access = .halted ∧ s.evaluationHalted.acc.openSlot = none ∧
      s.evaluationHalted.liu.p.slot = .done (.refused code .storeFault 0) ∧
      s.evaluationHalted.atl.limiter = s.atl.limiter ∧ s.evaluationHalted.atl.penalty = none ∧
      s.evaluationHalted.keu.flight = none ∧ s.evaluationHalted.keu.digits = [] ∧
      s.evaluationHalted.wpe.journal = none ∧
      State.changesOnly [.acc, .atl, .wpe, .keu, .liu] s s.evaluationHalted := by
  have hn : s.acc.access ≠ .halted := by
    rw [hl]
    decide
  rw [evaluationHalted_eq hn]
  refine ⟨?_, ?_, ?_, ?_, ?_, ?_, ?_, ?_, ?_⟩
  · simp [State.enterHalted_acc hn]
  · simp [State.enterHalted_acc hn]
  · exact State.answerAttempt_refused _ (by rw [(samePorts_enterHalted s).1, hrun])
  · simp [State.enterHalted_atl hn]
  · simp [State.enterHalted_atl hn]
  · simp
  · simp
  · rw [State.answerAttempt_wpe, State.enterHalted_wpe hn]
    rfl
  · exact changesOnly_trans (enterHalted_frame s) (changesOnly_mono (answerAttempt_frame _ _) (by decide))

/-- Settles O42: the pre-count is taken and the match begun, or the part is halted unjudged. -/
theorem preCountComesFirst : Obligations.PreCountComesFirst := by
  intro r n left cls code s _ _ hw _ hrun hlocked
  constructor
  · rw [exec_passed hw]
    have hframe : State.changesOnly [.store, .rsc, .atl, .keu] s
        ((s.passed { contents := .limiter r, purpose := .preCount }).preCountDone r) :=
      changesOnly_mono (changesOnly_append (changesOnly_append (passed_frame _ s) (onAtl_frame _ _)) (onKeu_frame _ _))
        (by decide)
    obtain ⟨t, ht, rfl, hkeeps⟩ := finish_frame hframe (by decide)
    exact ⟨_, ht, rfl, Location.read_complete r s.store.limiter, rfl, hkeeps⟩
  · intro hn
    rw [exec_failed left hw hn]
    obtain ⟨haccess, hopen, hslot, hlimiter, hpenalty, hflight, hdigits, hjournal, hframe⟩ :=
      evaluationHalted_facts (s := s.spoilt left { contents := .limiter r, purpose := .preCount }) hlocked hrun
    refine ⟨_, rfl, haccess, hopen, hslot, hlimiter, hpenalty, hflight, hdigits, ?_, ?_,
      hjournal⟩
    · exact hframe .ctb (by decide)
    · exact hframe .kru (by decide)

end Sys2Proof.Machine
end

