-- ==== Sys2Proof/Proofs/Grant.lean ====
section
/-! The refund, the uses increment and the spend (R11, R12, R47, R48), the grant that follows them, and the failure that
counts (R49). -/

namespace Sys2Proof.Machine

/-! ## What a grant opens (R61) -/

/-- The drive opened through a slot: UNLOCKED for an UNLOCK intent, CONFIG otherwise. -/
def State.opened (i : SlotIx) (s : State) : State :=
  if s.keu.intent = .unlock then s.openUnlocked i else s.openConfig i

/-- A grant in LOCKED opens the drive, and then the key is answered. -/
theorem grant_of_locked (i : SlotIx) {s : State} (h : s.acc.access = .locked) :
    s.grant i = (s.opened i).endAttempt .granted := by
  simp only [State.grant, if_pos h]
  rfl

theorem openUnlocked_frame (i : SlotIx) (s : State) : State.changesOnly [.acc, .keu, .liu] s (s.openUnlocked i) := by
  unfold State.openUnlocked
  refine changesOnly_trans (t := if s.liu.bridge = .attached then _ else _) ?_ (changeAccess_frame _ _ _)
  exact changesOnly_ite (fun _ => changesOnly_mono (onAcc_frame _ s) (by decide))
    fun _ => changesOnly_mono (onAcc_frame _ s) (by decide)

theorem openConfig_frame (i : SlotIx) (s : State) : State.changesOnly [.acc, .keu, .liu] s (s.openConfig i) :=
  changesOnly_trans (changesOnly_mono (onAcc_frame _ s) (by decide)) (changeAccess_frame _ _ _)

theorem opened_frame (i : SlotIx) (s : State) : State.changesOnly [.acc, .keu, .liu] s (s.opened i) :=
  changesOnly_ite (fun _ => openUnlocked_frame i s) fun _ => openConfig_frame i s

theorem samePorts_opened (i : SlotIx) (s : State) : s.SamePorts (s.opened i) :=
  samePorts_ite (samePorts_openUnlocked i s) (samePorts_openConfig i s)

/-- The access items of the opened drive. -/
theorem State.opened_acc (i : SlotIx) (s : State) : (s.opened i).acc =
    if s.keu.intent = .unlock then
      (if s.liu.bridge = .attached then
         { s.acc with access := .unlocked, openSlot := some i, idleTimer := s.plu.policy.idleTimer }
       else { s.acc with access := .unlocked, openSlot := some i, attachTimer := s.plu.policy.attachTimer })
    else { s.acc with access := .config, openSlot := some i, configTimer := some 480 } := by
  unfold State.opened
  by_cases hu : s.keu.intent = .unlock
  · rw [if_pos hu, if_pos hu, State.openUnlocked_acc]
  · rw [if_neg hu, if_neg hu, State.openConfig_acc]

section
variable (i : SlotIx) (s : State)

theorem State.opened_access : (s.opened i).acc.access = if s.keu.intent = .unlock then .unlocked else .config := by
  rw [State.opened_acc]
  split_ifs <;> rfl

theorem State.opened_openSlot : (s.opened i).acc.openSlot = some i := by
  rw [State.opened_acc]
  split_ifs <;> rfl

theorem State.opened_heldWipe : (s.opened i).acc.heldWipe = s.acc.heldWipe := by
  rw [State.opened_acc]
  split_ifs <;> rfl

theorem State.opened_clockFault : (s.opened i).acc.clockFault = s.acc.clockFault := by
  rw [State.opened_acc]
  split_ifs <;> rfl

theorem State.opened_caseOpen : (s.opened i).acc.caseOpen = s.acc.caseOpen := by
  rw [State.opened_acc]
  split_ifs <;> rfl

theorem State.opened_gateOpen : (s.opened i).gateOpen = s.gateOpen :=
  State.gateOpen_congr (opened_frame i s .ssv (by decide)) (congrArg Plu.map (opened_frame i s .plu (by decide)))
    (s.opened_clockFault i) (s.opened_caseOpen i)

end

/-- With the gate open and no wipe held, a grant opens the drive and answers the key, and nothing more happens. -/
theorem grant_of_gate (i : SlotIx) {s : State} (hl : s.acc.access = .locked) (hh : s.acc.heldWipe = false)
    (hg : s.gateOpen = true) : s.grant i = (s.opened i).answerAttempt .granted := by
  rw [grant_of_locked i hl, State.endAttempt]
  refine State.endOfFlight_of_open ?_ ?_
  · rw [State.answerAttempt_acc, State.opened_heldWipe, hh]
  · rw [State.answerAttempt_gateOpen, State.opened_gateOpen, hg]

theorem grant_frame_of_gate (i : SlotIx) {s : State} (hl : s.acc.access = .locked) (hh : s.acc.heldWipe = false)
    (hg : s.gateOpen = true) : State.changesOnly [.acc, .keu, .liu] s (s.grant i) := by
  rw [grant_of_gate i hl hh hg]
  exact changesOnly_trans (opened_frame i s) (changesOnly_mono (answerAttempt_frame _ _) (by decide))

/-- The granted key's answer. -/
theorem opened_granted {cls : CmdClass} {code : Byte} (i : SlotIx) {s : State} (hrun : s.liu.p.slot = .running cls code) :
    ((s.opened i).answerAttempt .granted).liu.p.slot =
      .done (.ok code (.key .granted none ((s.opened i).answerAttempt .granted).summary)) :=
  State.answerAttempt_granted (by rw [(samePorts_opened i s).1, hrun])

/-! ## The refund and the uses increment (R11, R47) -/

theorem saturated_iff {r : SlotRecord} {u : Nat} (h : r.uses = some u) : r.saturated = true ↔ u = 65535 := by
  simp [SlotRecord.saturated, h, Config.max16]

theorem bump_eq {r : SlotRecord} {u : Nat} (h : r.uses = some u) : r.bump = { r with uses := some (u + 1) } := by
  simp [SlotRecord.bump, h]

theorem refundDone_refund {i : SlotIx} (r : Limiter) {s : State} (hf : s.keu.flight = some (.refund i)) :
    s.refundDone r = (s.setLimiter r).requestUses i := by
  simp only [State.refundDone, hf]

theorem refundDone_recovery (r : Limiter) {s : State} (hf : s.keu.flight = some .recoveryRefund) :
    s.refundDone r = (s.setLimiter r).grant 9 := by
  simp only [State.refundDone, hf]

/-- The uses increment of a count that has not saturated is requested. -/
theorem requestUses_of_lt {i : SlotIx} {u : Nat} {s : State} (hu : (s.slotRec i).uses = some u) (hne : u ≠ 65535) :
    s.requestUses i =
      (s.setFlight (.uses i)).requestWrite (.slot i { s.slotRec i with uses := some (u + 1) }) (.uses i) := by
  rw [State.requestUses, if_neg (mt (saturated_iff hu).mp hne), State.writeSlot, bump_eq hu]

/-- At 65,535 the grant stands at once. -/
theorem requestUses_of_max {i : SlotIx} {s : State} (hu : (s.slotRec i).uses = some 65535) : s.requestUses i = s.grant i := by
  rw [State.requestUses, if_pos ((saturated_iff hu).mpr rfl)]

/-! ## A wipe that starts at the end of an entry (R76) -/

theorem quitForWipe_frame (s : State) : State.changesOnly [.acc, .liu] s s.quitForWipe := by
  unfold State.quitForWipe
  split
  · exact closeOpen_frame s
  · exact closeOpen_frame s
  · exact changesOnly_mono (onAcc_frame _ s) (by decide)
  all_goals exact changesOnly_refl _ s

/-- A wipe's start leaves the slots, the volumes, the timebase and the supply alone. -/
theorem startWipe_frame (c : WipeCause) (s : State) :
    State.changesOnly [.acc, .liu, .atl, .plu, .rsc, .wpe, .keu] s (s.startWipe c) := by
  refine changesOnly_ite (fun _ => changesOnly_refl _ s) fun _ => ?_
  refine changesOnly_mono (changesOnly_append (quitForWipe_frame s) <| changesOnly_append (stopPenalty_frame _) <|
    changesOnly_append (discardPendingSet_frame _) <| changesOnly_append (onWpe_frame _ _) <|
    changesOnly_append (requestWrite_frame _ _ _) <| changesOnly_append (changeAccess_frame _ _ _) <|
    onWpe_frame _ _) (by decide)

theorem startWipe_limiter (c : WipeCause) (s : State) : (s.startWipe c).atl.limiter = s.atl.limiter := by
  unfold State.startWipe
  split_ifs
  · rfl
  · have hatl : ∀ u : State, (((u.discardPendingSet).armWipe c).changeAccess .wiping none).atl = u.atl := fun u =>
      (changesOnly_append (discardPendingSet_frame u) <| changesOnly_append (onWpe_frame _ _) <|
        changesOnly_append (requestWrite_frame _ _ _) (changeAccess_frame .wiping none _)) .atl (by decide)
    dsimp only [State.onWpe_atl]
    rw [hatl]
    show s.quitForWipe.atl.limiter = s.atl.limiter
    rw [quitForWipe_frame s .atl (by decide)]

/-- The refusals of discarded stagings leave the slot of a link that staged none. -/
theorem foldl_refuseTo_slot {l : Link} (r : Reason) (gs : List Staging) (h : ∀ g ∈ gs, g.requester ≠ some l) (s : State) :
    ((gs.foldl (fun w g => w.refuseTo g.requester r) s).liu.port l).slot = (s.liu.port l).slot := by
  induction gs generalizing s with
  | nil => rfl
  | cons g rest ih =>
    rw [List.foldl_cons, ih fun d hd => h d (List.mem_cons_of_mem g hd)]
    have hg := h g List.mem_cons_self
    cases hr : g.requester with
    | none => rfl
    | some m => exact State.answer_slot_of_ne (fun hm => hg (by rw [hr, hm])) _ s

/-- They leave the result of a slot that runs no command. -/
theorem foldl_refuseTo_done {l : Link} {res : Result} (r : Reason) (gs : List Staging) {s : State}
    (h : (s.liu.port l).slot = .done res) :
    ((gs.foldl (fun w g => w.refuseTo g.requester r) s).liu.port l).slot = .done res := by
  induction gs generalizing s with
  | nil => exact h
  | cons g rest ih =>
    rw [List.foldl_cons]
    refine ih ?_
    cases hr : g.requester with
    | none => exact h
    | some m => exact State.answer_slot_of_done _ h

/-- The discarded stagings are answered, and the ports are otherwise left alone. -/
theorem discardPendingSet_port (l : Link) (s : State) : ∃ t : State, t.liu = s.liu ∧
    s.discardPendingSet.liu.port l =
      (s.plu.inflight.foldl (fun w g => w.refuseTo g.requester .wiping) t).liu.port l := by
  unfold State.discardPendingSet
  extract_lets gs t u
  refine ⟨t, rfl, ?_⟩
  split_ifs <;> rfl

theorem State.SamePorts.port {s t : State} (h : s.SamePorts t) (l : Link) : t.liu.port l = s.liu.port l := by
  cases l
  · exact h.1
  · exact h.2

/-- A slot keeps what it holds through a wipe's start, if it keeps it through the refusals of the discarded stagings. -/
theorem startWipe_slot {l : Link} {k : CmdSlot} (c : WipeCause) {s : State} (hs : (s.liu.port l).slot = k)
    (hk : ∀ u : State, (u.liu.port l).slot = k →
      ((s.plu.inflight.foldl (fun w g => w.refuseTo g.requester .wiping) u).liu.port l).slot = k) :
    ((s.startWipe c).liu.port l).slot = k := by
  unfold State.startWipe
  split_ifs
  · exact hs
  · let u := s.quitForWipe.stopPenalty
    have hu : (u.liu.port l).slot = k := by rw [← hs, ← (samePorts_quitForWipe s).port l]; rfl
    have hplu : u.plu = s.plu := quitForWipe_frame s .plu (by decide)
    obtain ⟨t, ht, hport⟩ := discardPendingSet_port l u
    have hd : (u.discardPendingSet.liu.port l).slot = k := by
      rw [hport, hplu]
      exact hk t (by rw [ht, hu])
    show ((State.changeAccess .wiping none (u.discardPendingSet.armWipe c)).liu.port l).slot = k
    rw [(samePorts_changeAccess .wiping none _).port l]
    exact hd

/-- A wipe's start leaves the slot of a link that staged nothing. -/
theorem startWipe_slot_of_free {l : Link} (c : WipeCause) {s : State}
    (h : ∀ g ∈ s.plu.inflight, g.requester ≠ some l) : ((s.startWipe c).liu.port l).slot = (s.liu.port l).slot :=
  startWipe_slot c rfl fun u hu => (foldl_refuseTo_slot .wiping _ h u).trans hu

/-- It leaves the result of a slot that runs no command. -/
theorem startWipe_slot_of_done {l : Link} {r : Result} (c : WipeCause) {s : State} (h : (s.liu.port l).slot = .done r) :
    ((s.startWipe c).liu.port l).slot = .done r :=
  startWipe_slot c h fun _ hu => foldl_refuseTo_done .wiping _ hu

/-- While an ENTER is in flight on the P-link nothing that was staged waits for it. -/
theorem State.WaitOk.staged_free {s : State} (h : s.WaitOk) (hf : s.keu.flight.isSome = true) :
    ∀ g ∈ s.plu.inflight, g.requester ≠ some .p := by
  intro g hg hr
  have ho := h.once
  simp only [State.waiters, hf, if_true, List.cons_append, List.nodup_cons] at ho
  exact ho.1 (List.mem_append_left _ (List.mem_filterMap.2 ⟨g, hg, hr⟩))

/-! ## The spend and its failure (R12, R48, R49) -/

/-- The penalty of a failed entry in LOCKED: its timer runs, and the state is PENALTY. -/
def State.penalized (n : Nat) (s : State) : State := (s.startPenalty n).reportPenalty.postPenaltyChanged

theorem State.penalized_acc (n : Nat) {s : State} (h : s.acc.access = .locked) :
    (s.penalized n).acc = { s.acc with access := .penalty, openSlot := none } := by
  unfold State.penalized State.postPenaltyChanged State.reportPenalty
  rw [postP_frame _ _ .acc (by decide), if_pos (show (s.startPenalty n).acc.access = .locked from h),
    State.changeAccess_acc]
  rfl

theorem State.penalized_atl (n : Nat) {s : State} (h : s.acc.access = .locked) :
    (s.penalized n).atl = { s.atl with penalty := some n, phase := false } := by
  unfold State.penalized State.postPenaltyChanged State.reportPenalty
  rw [postP_frame _ _ .atl (by decide), if_pos (show (s.startPenalty n).acc.access = .locked from h),
    changeAccess_frame _ _ _ .atl (by decide)]
  rfl

theorem penalized_frame (n : Nat) (s : State) : State.changesOnly [.atl, .acc, .keu, .liu] s (s.penalized n) :=
  changesOnly_mono (changesOnly_append (onAtl_frame _ s) <| changesOnly_append
    (changesOnly_ite (fun _ => changeAccess_frame _ _ _)
      fun _ => changesOnly_refl [.acc, .keu, .liu] (s.startPenalty n)) (postP_frame _ _)) (by decide)

theorem samePorts_penalized (n : Nat) (s : State) : s.SamePorts (s.penalized n) :=
  ((samePorts_of_frame (onAtl_frame _ s) (by decide)).trans
    (samePorts_ite (samePorts_changeAccess _ _ _) (.refl (s.startPenalty n)))).trans (samePorts_postP _ _)

/-- What a wipe at the end of an entry leaves of the access items. -/
theorem startWipe_acc_of_locked (c : WipeCause) {s : State} (hl : s.acc.access = .locked) :
    (s.startWipe c).acc = { s.acc with access := .wiping, openSlot := none } := by
  have hquit : s.quitForWipe = s := by simp [State.quitForWipe, hl]
  rw [State.startWipe_acc (by rw [hl]; decide) (by rw [hl]; decide), hquit]

section
variable {s : State} (hl : s.acc.access = .locked) (hh : s.acc.heldWipe = false)
include hl hh

/-- A failure that the failed spend adds to, at the threshold. -/
theorem failAttemptOfEntry_wipe (hw : s.atl.limiter.fails = s.plu.policy.wipeThreshold) :
    s.failAttemptOfEntry true = (s.startWipe .threshold).answerAttempt (.refusal .storeFault) := by
  have hacc := startWipe_acc_of_locked .threshold hl
  rw [State.failAttemptOfEntry, if_pos hw]
  exact State.endOfFlight_of_shut (by simp [hacc, hh]) (by simp [hacc]) (by simp [hacc])

/-- Below it, with no penalty. -/
theorem failAttemptOfEntry_free (hw : s.atl.limiter.fails ≠ s.plu.policy.wipeThreshold)
    (hn : s.plu.policy.penaltyTicks s.atl.limiter.fails = 0) :
    s.failAttemptOfEntry true = s.answerAttempt (.refusal .storeFault) := by
  rw [State.failAttemptOfEntry, if_neg hw, if_pos hn]
  exact State.endOfFlight_of_shut (by simp [hh]) (by simp [hl]) (by simp [hl])

/-- Below it, with a penalty. -/
theorem failAttemptOfEntry_penalty (hw : s.atl.limiter.fails ≠ s.plu.policy.wipeThreshold)
    (hn : s.plu.policy.penaltyTicks s.atl.limiter.fails ≠ 0) :
    s.failAttemptOfEntry true =
      (s.penalized (s.plu.policy.penaltyTicks s.atl.limiter.fails)).answerAttempt (.refusal .storeFault) := by
  have hacc := State.penalized_acc (s.plu.policy.penaltyTicks s.atl.limiter.fails) hl
  rw [State.failAttemptOfEntry, if_neg hw, if_neg hn]
  exact State.endOfFlight_of_shut (s := (s.penalized _).answerAttempt _) (by simp [hacc, hh]) (by simp [hacc])
    (by simp [hacc])

/-- What the failure of an entry leaves after a failed spend: the refusal, and the threshold wipe, the penalty, or
neither. -/
theorem failAttemptOfEntry_facts {cls : CmdClass} {code : Byte} (hrun : s.liu.p.slot = .running cls code)
    (hfree : ∀ g ∈ s.plu.inflight, g.requester ≠ some .p) :
    (s.failAttemptOfEntry true).ctb = s.ctb ∧
      (s.failAttemptOfEntry true).liu.p.slot = .done (.refused code .storeFault 0) ∧
      (s.failAttemptOfEntry true).atl.limiter = s.atl.limiter ∧
      (let p := s.plu.policy.penaltyTicks s.atl.limiter.fails
       if s.atl.limiter.fails = s.plu.policy.wipeThreshold then (s.failAttemptOfEntry true).acc.access = .wiping
       else if p = 0 then (s.failAttemptOfEntry true).acc = s.acc ∧ (s.failAttemptOfEntry true).atl = s.atl
       else (s.failAttemptOfEntry true).acc.access = .penalty ∧ (s.failAttemptOfEntry true).atl.penalty = some p) := by
  have hctb (u : State) : (u.answerAttempt (.refusal .storeFault)).ctb = u.ctb :=
    answerAttempt_frame _ u .ctb (by decide)
  by_cases hw : s.atl.limiter.fails = s.plu.policy.wipeThreshold
  · simp only [if_pos hw, failAttemptOfEntry_wipe hl hh hw]
    refine ⟨?_, ?_, ?_, ?_⟩
    · rw [hctb, startWipe_frame _ s .ctb (by decide)]
    · exact State.answerAttempt_refused _ ((startWipe_slot_of_free (l := .p) .threshold hfree).trans hrun)
    · rw [State.answerAttempt_atl, startWipe_limiter]
    · rw [State.answerAttempt_acc, startWipe_acc_of_locked _ hl]
  · by_cases hn : s.plu.policy.penaltyTicks s.atl.limiter.fails = 0
    · simp only [if_neg hw, if_pos hn, failAttemptOfEntry_free hl hh hw hn]
      exact ⟨hctb s, State.answerAttempt_refused _ hrun, by simp, by simp⟩
    · simp only [if_neg hw, if_neg hn, failAttemptOfEntry_penalty hl hh hw hn]
      refine ⟨?_, ?_, ?_, ?_⟩
      · rw [hctb, penalized_frame _ s .ctb (by decide)]
      · exact State.answerAttempt_refused _ (by rw [(samePorts_penalized _ s).1, hrun])
      · simp [State.penalized_atl _ hl]
      · simp [State.penalized_atl _ hl, State.penalized_acc _ hl]

end

/-! ## The ends of the writes, from the state their owner meets -/

section
variable {m : State} {i : SlotIx} {cls : CmdClass} {code : Byte}

/-- The completed refund asks for the uses increment. -/
theorem refundDone_asks {u : Nat} (r : Limiter) (hf : m.keu.flight = some (.refund i))
    (hu : (m.slotRec i).uses = some u) (hne : u ≠ 65535) :
    ∃ t, finish (m.refundDone r) = .next t ∧ t.atl = { m.atl with limiter := r } ∧
      t.keu = { m.keu with flight := some (.uses i) } ∧
      t.writing (.slot i { m.slotRec i with uses := some (u + 1) }) (.uses i) ∧
      State.changesOnly [.rsc, .atl, .keu] m t := by
  have hu' : ((m.setLimiter r).slotRec i).uses = some u := hu
  rw [refundDone_refund r hf, requestUses_of_lt hu' hne]
  refine ⟨_, rfl, rfl, rfl, writing_of_request _ _ m.rsc rfl, ?_⟩
  exact changesOnly_mono (changesOnly_append (onAtl_frame _ m) <| changesOnly_append (onKeu_frame _ _) <|
    changesOnly_append (requestWrite_frame _ _ _) (onRsc_frame _ _)) (by decide)

/-- A grant in LOCKED with the gate open and no wipe held, after its Limiter write. -/
theorem grant_after_refund (r : Limiter) (hrun : m.liu.p.slot = .running cls code) (hl : m.acc.access = .locked)
    (hh : m.acc.heldWipe = false) (hg : m.gateOpen = true) (hq : ∀ d ∈ m.rsc.entries, d.purpose.ofFlight = false) :
    ∃ t, finish ((m.setLimiter r).grant i) = .next t ∧ t.atl = { m.atl with limiter := r } ∧ t.ctb = m.ctb ∧
      t.acc = (m.opened i).acc ∧ t.liu.p.slot = .done (.ok code (.key .granted none t.summary)) ∧
      ∀ j : SlotIx, Purpose.uses j ∉ t.rsc.purposes := by
  have hframe := grant_frame_of_gate i (s := m.setLimiter r) hl hh hg
  refine ⟨_, rfl, hframe .atl (by decide), hframe .ctb (by decide), ?_, ?_, fun j => ?_⟩
  · rw [grant_of_gate i (s := m.setLimiter r) hl hh hg, State.opened_acc i m]
    exact (State.answerAttempt_acc _ _).trans (State.opened_acc i (m.setLimiter r))
  · rw [grant_of_gate i (s := m.setLimiter r) hl hh hg]
    exact opened_granted i hrun
  · refine uses_not_mem ?_ j
    rw [hframe .rsc (by decide)]
    exact hq

end

/-- Settles O45: the refund, the uses increment and the spend, each to the end of its write. -/
theorem refundComesBeforeTheGrant : Obligations.RefundComesBeforeTheGrant := by
  intro i n u left cls code s hwait _ hrun hlocked hheld _
  refine ⟨fun hw => ?_, fun hw hf => ?_⟩
  · let e : WriteEntry := { contents := .limiter { fails := 0, served := true }, purpose := .refund }
    have hm := passed_frame e s
    have hqueue : ∀ d ∈ s.rsc.queue, d.purpose.ofFlight = false := hwait.queue_noFlight hw rfl
    have hgrant (j : SlotIx) (hg : s.gateOpen = true) := grant_after_refund (m := s.passed e) (i := j)
      { fails := 0, served := true } hrun hlocked hheld hg hqueue
    refine ⟨fun hf hu => ⟨fun hne => ?_, fun he hg => ?_⟩, fun hf hg => ?_, fun hn => ?_⟩
    · obtain ⟨t, ht, hatl, hkeu, hwrites, hkeeps⟩ :=
        refundDone_asks (m := s.passed e) { fails := 0, served := true } hf hu hne
      rw [exec_passed hw]
      refine ⟨t, ht, hatl, hkeu, hwrites, ?_⟩
      exact changesOnly_mono (changesOnly_append hm hkeeps) (by decide)
    · subst he
      obtain ⟨t, ht, hatl, hctb, hacc, hslot, hnone⟩ := hgrant i hg
      have hu' : (((s.passed e).setLimiter { fails := 0, served := true }).slotRec i).uses = some 65535 := hu
      rw [exec_passed hw]
      refine ⟨t, ?_, hatl, hctb, ?_, ?_, hslot, hnone⟩
      · rw [← ht, ← requestUses_of_max hu', ← refundDone_refund (s := s.passed e) _ hf]
        rfl
      · rw [hacc]
        exact State.opened_access i (s.passed e)
      · rw [hacc, State.opened_openSlot]
    · obtain ⟨t, ht, hatl, hctb, hacc, hslot, -⟩ := hgrant 9 hg
      rw [exec_passed hw]
      refine ⟨t, ?_, hatl, hctb, fun hi => ?_, hslot⟩
      · rw [← ht, ← refundDone_recovery (s := s.passed e) _ hf]
        rfl
      · rw [hacc, State.opened_acc]
        exact if_neg hi
    · obtain ⟨haccess, -, hslot, hlimiter, -, -, -, -, hframe⟩ :=
        evaluationHalted_facts (s := s.spoilt left e) hlocked hrun
      rw [exec_failed left hw hn]
      refine ⟨_, rfl, haccess, hslot, hlimiter, hframe .ctb (by decide), uses_not_mem ?_⟩
      rw [show ((s.spoilt left e).writeFailed e).rsc = (s.spoilt left e).rsc from hframe .rsc (by decide)]
      exact hqueue
  · let e : WriteEntry := { contents := .slot 9 .spentRecord, purpose := .spend }
    constructor
    · rw [exec_passed hw]
      refine ⟨_, rfl, rfl, rfl, writing_of_request _ _ (s.passed e).rsc rfl, ?_⟩
      exact changesOnly_mono (changesOnly_append (passed_frame e s) <| changesOnly_append (setCell_frame _ _ _) <|
        changesOnly_append (onKeu_frame _ _) <| changesOnly_append (requestWrite_frame _ _ _) (onRsc_frame _ _))
        (by decide)
    · intro hn
      have hfree : ∀ g ∈ s.plu.inflight, g.requester ≠ some .p := hwait.staged_free (by rw [hf]; rfl)
      obtain ⟨hctb, hslot, hlimiter, houtcome⟩ :=
        failAttemptOfEntry_facts (s := (s.spoilt left e).slotFailed 9 .spentRecord) hlocked hheld hrun hfree
      rw [exec_failed left hw hn]
      exact ⟨_, rfl, hctb, hslot, hlimiter, houtcome⟩

end Sys2Proof.Machine
end

