-- ==== Sys2Proof/Proofs/Enrolment.lean ====
section
/-! The verifier computations and the enrolment write (R7, R14, R37 to R39). -/

namespace Sys2Proof.Machine

/-! ## The end of a dialogue in flight -/

section
variable (s : State)

@[simp] theorem State.landEnrolment_digits : s.landEnrolment.keu.digits = [] := by
  unfold State.landEnrolment State.endDialogue State.autoDialogue
  split_ifs <;> rfl

/-- Outside BLANK no dialogue follows the one that ends. -/
theorem State.landEnrolment_dialogue (h : s.acc.access ≠ .blank) : s.landEnrolment.keu.dialogue = none := by
  have ha : ((s.onKeu Keu.landed).onKeu fun k =>
      { Keu.emptied { k with dialogue := none } with entryTimer := none }).acc.access ≠ .blank := h
  simp only [State.landEnrolment, State.endDialogue, State.autoDialogue, beq_eq_false_iff_ne.mpr ha, Bool.and_false,
    Bool.false_and, Bool.false_eq_true, if_false]
  rfl

end

section
variable {cls : CmdClass} {code : Byte} {s : State} (hrun : s.liu.p.slot = .running cls code)
include hrun

theorem State.landEnrolment_slot : (s.landEnrolment.liu.port .p).slot = .running cls code := by
  rw [landEnrolment_frame s .liu (by decide)]
  exact hrun

/-- An answered enrolment step: its outcome, and the dialogue's end. -/
theorem answerEnrolment_facts (o : KeyOutcome) :
    (s.answerEnrolment o).liu.p.slot = .done (.ok code (.key o none (s.answerEnrolment o).summary)) ∧
      (s.answerEnrolment o).keu.flight = none ∧ (s.answerEnrolment o).keu.digits = [] ∧
      (s.acc.access ≠ .blank → (s.answerEnrolment o).keu.dialogue = none) ∧
      State.changesOnly [.keu, .liu] s (s.answerEnrolment o) :=
  ⟨State.answer_slot _ (State.landEnrolment_slot hrun), s.landEnrolment_flight, s.landEnrolment_digits,
    s.landEnrolment_dialogue, answerEnrolment_frame o s⟩

/-- A refused enrolment step: its reason, and the dialogue's end. -/
theorem refuseEnrolment_facts (r : Reason) :
    (s.refuseEnrolment r).liu.p.slot = .done (.refused code r 0) ∧
      (s.refuseEnrolment r).keu.flight = none ∧ (s.refuseEnrolment r).keu.digits = [] ∧
      (s.acc.access ≠ .blank → (s.refuseEnrolment r).keu.dialogue = none) ∧
      State.changesOnly [.keu, .liu] s (s.refuseEnrolment r) :=
  ⟨State.answer_slot _ (State.landEnrolment_slot hrun), s.landEnrolment_flight, s.landEnrolment_digits,
    s.landEnrolment_dialogue, refuseEnrolment_frame r s⟩

/-! ## The first entry (R37) -/

/-- The first entry is taken: its candidate, the step CONFIRM, and the time for the second. -/
theorem takeFirst_facts {d : Dialogue} (hd : s.keu.dialogue = some d) :
    s.takeFirst.liu.p.slot = .done (.ok code (.key .firstTaken none s.takeFirst.summary)) ∧
      s.takeFirst.keu = { s.keu with
        digits := [], overlong := false, intent := .enrolConfirm, bstate := .empty, flight := none, disturbed := false,
        entryTimer := some (s.plu.policy.entryGap * 8),
        dialogue := some { d with step := .confirm, candidate := some ⟨s.keu.digits.length, ⟨s.keu.digits⟩⟩ } } ∧
      State.changesOnly [.keu, .liu] s s.takeFirst := by
  refine ⟨?_, ?_, takeFirst_frame s⟩
  · unfold State.takeFirst
    extract_lets t
    exact State.answer_slot (l := .p) (s := t.touchEntryTimer) _ hrun
  · simp [State.takeFirst, State.answerKey, State.replyOk, State.answer, State.touchEntryTimer, Keu.emptied, Keu.landed,
      Keu.defaultIntent, Keu.entryInHand, Keu.hasCandidate, hd, verifierOf]
    rfl

end

/-! ## The confirming entry (R38) -/

/-- The record of the enrolment write, by the target's role. -/
theorem enrolRecord_eq (d : Dialogue) (c : Candidate) (s : State) : s.enrolRecord d c =
    { state := .active, length := some c.length, verifier := some c.verifier, uses := some 0,
      mode := if d.target = 0 ∨ d.target = 9 then none
              else if d.kind = .change then (s.slotRec d.target).mode else d.mode,
      mask := if d.target = 0 ∨ d.target = 9 then none
              else if d.kind = .change then (s.slotRec d.target).mask else d.mask } := by
  by_cases ht : d.target = 0 ∨ d.target = 9
  · have hu : ¬ isUserSlot d.target = true := by rw [isUserSlot_iff]; tauto
    simp only [State.enrolRecord, if_neg hu, if_pos ht]
  · have hu : isUserSlot d.target = true := by rw [isUserSlot_iff]; tauto
    simp only [State.enrolRecord, if_pos hu, if_neg ht]

/-- With a write current whenever one waits, the end of a row that leaves the RSC alone takes no write. -/
theorem finish_of_served {l : List Block} {s u : State} (hs : s.StoreOk) (h : State.changesOnly l s u)
    (hl : Block.rsc ∉ l) : finish u = .next u := by
  have hr : u.rsc = s.rsc := h .rsc hl
  rw [finish_eq, hr, Rsc.kick_of_served hs.served, ← hr]

theorem verifierOf_eq_iff (v : Verifier) (digits : List Digit) : v = verifierOf digits ↔ v.preimage = digits := by
  obtain ⟨p⟩ := v
  simp [verifierOf]

section
variable {d : Dialogue} {c : Candidate} {s : State} (hd : s.keu.dialogue = some d) (hc : d.candidate = some c)
include hd hc

theorem confirmEntry_mismatch (h : c.verifier.preimage ≠ s.keu.digits) : s.confirmEntry = s.answerEnrolment .mismatch := by
  simp only [State.confirmEntry, hd, hc, if_neg (mt (verifierOf_eq_iff _ _).mp h)]

theorem confirmEntry_match (h : c.verifier.preimage = s.keu.digits) : s.confirmEntry = s.enrolWrite d c := by
  simp only [State.confirmEntry, hd, hc, if_pos ((verifierOf_eq_iff _ _).mpr h)]

end

/-- The write that an eligible target and a new verifier lead to (R14). -/
theorem enrolWrite_requests (d : Dialogue) (c : Candidate) {s : State} (he : s.eligible d.kind d.target = true)
    (hu : s.isDuplicate d.target c.verifier = false) :
    s.enrolWrite d c =
      (s.setFlight .enrolWrite).requestWrite (.slot d.target (s.enrolRecord d c)) (.enrol d.target) := by
  simp [State.enrolWrite, he, hu, State.writeSlot]

/-! ## The end of the enrolment write (R9, R14) -/

/-- An automatic dialogue takes the drive out of BLANK; every other leaves the access state. -/
theorem enrolled_eq {d : Dialogue} {s : State} (hd : s.keu.dialogue = some d) :
    s.enrolled = if d.kind = .automatic ∧ s.acc.access = .blank then s.enterLocked.answerEnrolment .enrolled
      else s.answerEnrolment .enrolled := by
  have hauto : s.keu.inAutomatic = (d.kind == .automatic) := by simp [Keu.inAutomatic, hd]
  by_cases h : d.kind = .automatic ∧ s.acc.access = .blank
  · simp [State.enrolled, hauto, h]
  · rw [if_neg h, State.enrolled, hauto, if_neg (by simpa using h)]

/-- What the completed enrolment write leaves, from the state its owner meets. -/
theorem enrolled_facts {d : Dialogue} {cls : CmdClass} {code : Byte} {s : State} (hd : s.keu.dialogue = some d)
    (hrun : s.liu.p.slot = .running cls code) :
    s.enrolled.keu.flight = none ∧ s.enrolled.keu.digits = [] ∧ s.enrolled.ctb = s.ctb ∧ s.enrolled.store = s.store ∧
      s.enrolled.liu.p.slot = .done (.ok code (.key .enrolled none s.enrolled.summary)) ∧
      (if d.kind = .automatic ∧ s.acc.access = .blank then
         s.enrolled.acc = { s.acc with access := .locked, openSlot := none } ∧ s.enrolled.keu.dialogue = none
       else s.enrolled.acc = s.acc ∧ (s.acc.access ≠ .blank → s.enrolled.keu.dialogue = none) ∧
         State.changesOnly [.keu, .liu] s s.enrolled) := by
  rw [enrolled_eq hd]
  split_ifs with h
  · have hlocked : s.enterLocked.acc.access ≠ .blank := by simp
    have hrun' : s.enterLocked.liu.p.slot = .running cls code := by rw [(samePorts_enterLocked s).1, hrun]
    obtain ⟨hslot, hflight, hdigits, hdialogue, hframe⟩ := answerEnrolment_facts hrun' .enrolled
    have hall := changesOnly_append (enterLocked_frame s) hframe
    refine ⟨hflight, hdigits, hall .ctb (by decide), hall .store (by decide), hslot, ?_, hdialogue hlocked⟩
    rw [hframe .acc (by decide), State.enterLocked_acc]
  · obtain ⟨hslot, hflight, hdigits, hdialogue, hframe⟩ := answerEnrolment_facts hrun .enrolled
    exact ⟨hflight, hdigits, hframe .ctb (by decide), hframe .store (by decide), hslot, hframe .acc (by decide), hdialogue,
      hframe⟩

/-- Settles O46: each verifier computation by what it finds, and both ends of the enrolment write. -/
theorem verifierDoneTakesTheEntry : Obligations.VerifierDoneTakesTheEntry := by
  intro d r n left cls code s _ hstore hrun hd
  have hmismatch := answerEnrolment_facts hrun .mismatch
  refine ⟨fun hf => ?_, fun c hc hf => ?_, fun hw hf => ⟨?_, fun hn => ?_⟩⟩
  · change ∃ t, execEnrolVerifierDone s = .next t ∧ _
    simp only [execEnrolVerifierDone, hf]
    by_cases hx : s.keu.disturbed = true
    · obtain ⟨hslot, -, hdigits, -, hframe⟩ := hmismatch
      simp only [if_pos hx]
      exact ⟨_, finish_of_served hstore hframe (by decide), hslot, hdigits, hframe⟩
    · obtain ⟨hslot, hkeu, hframe⟩ := takeFirst_facts hrun hd
      simp only [if_neg hx]
      exact ⟨_, finish_of_served hstore hframe (by decide), hslot, hkeu, hframe⟩
  · change ∃ t, execEnrolVerifierDone s = .next t ∧ _
    simp only [execEnrolVerifierDone, hf]
    by_cases hx : s.keu.disturbed = true ∨ c.verifier.preimage ≠ s.keu.digits
    · have hans : (if s.keu.disturbed = true then s.answerEnrolment .mismatch else s.confirmEntry) =
          s.answerEnrolment .mismatch := by
        split_ifs with hdist
        · rfl
        · exact confirmEntry_mismatch hd hc (hx.resolve_left hdist)
      obtain ⟨hslot, hflight, -, hdialogue, hframe⟩ := hmismatch
      simp only [hans, if_pos hx]
      exact ⟨_, finish_of_served hstore hframe (by decide), hslot, hflight, hdialogue, hframe⟩
    obtain ⟨hdist, hsame⟩ := not_or.mp hx
    simp only [if_neg hx, if_neg hdist, confirmEntry_match hd hc (not_not.mp hsame)]
    by_cases he : s.eligible d.kind d.target = true
    case neg =>
      have hans : s.enrolWrite d c = s.refuseEnrolment .slotState := by simp [State.enrolWrite, he]
      obtain ⟨hslot, hflight, -, hdialogue, hframe⟩ := refuseEnrolment_facts hrun .slotState
      simp only [hans, if_pos (Bool.eq_false_iff.mpr he)]
      exact ⟨_, finish_of_served hstore hframe (by decide), hslot, hflight, hdialogue, hframe⟩
    by_cases hu : s.isDuplicate d.target c.verifier = true
    · have hans : s.enrolWrite d c = s.answerEnrolment .duplicate := by simp [State.enrolWrite, he, hu]
      obtain ⟨hslot, hflight, -, hdialogue, hframe⟩ := answerEnrolment_facts hrun .duplicate
      simp only [hans, he, hu, Bool.true_eq_false, if_false, if_true]
      exact ⟨_, finish_of_served hstore hframe (by decide), hslot, hflight, hdialogue, hframe⟩
    · simp only [he, hu, Bool.true_eq_false, if_false, enrolWrite_requests d c he (Bool.eq_false_iff.mpr hu), enrolRecord_eq]
      refine ⟨_, rfl, rfl, ?_, writing_of_request _ _ s.rsc rfl⟩
      exact changesOnly_mono (changesOnly_append (onKeu_frame _ s) <|
        changesOnly_append (requestWrite_frame _ _ _) (onRsc_frame _ _)) (by decide)
  · let m := (s.passed { contents := .slot d.target r, purpose := .enrol d.target }).slotDone d.target r
    have hm : State.changesOnly [.store, .rsc, .ctb] s m :=
      changesOnly_mono (changesOnly_append (passed_frame _ s) (setCell_frame _ _ _)) (by decide)
    obtain ⟨hflight, hdigits, hctb, hst, hslot, hrest⟩ := enrolled_facts (s := m) hd hrun
    rw [exec_passed hw]
    refine ⟨_, rfl, hctb, ?_, hflight, hdigits, hslot, ?_⟩
    · show (m.enrolled.store.slots.get d.target).read = .valid r
      rw [hst]
      exact Store.read_slot_complete d.target r s.store
    · by_cases h : d.kind = .automatic ∧ s.acc.access = .blank
      · rw [if_pos (show d.kind = .automatic ∧ m.acc.access = .blank from h)] at hrest
        rw [if_pos h]
        exact hrest
      · rw [if_neg (show ¬ (d.kind = .automatic ∧ m.acc.access = .blank) from h)] at hrest
        rw [if_neg h]
        obtain ⟨hacc, hdialogue, hframe⟩ := hrest
        refine ⟨hacc, hdialogue, ?_⟩
        exact changesOnly_mono (changesOnly_append hm <| changesOnly_append hframe (onRsc_frame _ _)) (by decide)
  · let m := (s.spoilt left { contents := .slot d.target r, purpose := .enrol d.target }).slotFailed d.target r
    have hm : State.changesOnly [.store, .rsc, .ctb] s m :=
      changesOnly_mono (changesOnly_append (spoilt_frame left _ s) (setCell_frame _ _ _)) (by decide)
    obtain ⟨hslot, hflight, hdigits, hdialogue, hframe⟩ := refuseEnrolment_facts (s := m) hrun .storeFault
    rw [exec_failed left hw hn]
    refine ⟨_, rfl, hframe .ctb (by decide), hslot, hflight, hdigits, hdialogue, ?_⟩
    exact changesOnly_mono (changesOnly_append hm <| changesOnly_append hframe (onRsc_frame _ _)) (by decide)

end Sys2Proof.Machine
end

