-- ==== Sys2Proof/Proofs/KeysStep.lean ====
section
/-! The start of a wipe and its KEYS step (R101, R106, R107): what one destroy does, and which comes next. -/

namespace Sys2Proof.Machine

/-! ## The order of the destroys (R107) -/

theorem destroyList_eq (keep : Bool) : destroyList keep = keysOrder keep := by cases keep <;> rfl

theorem keysOrder_nodup (keep : Bool) : (keysOrder keep).Nodup := by cases keep <;> decide

theorem keysOrder_first (keep : Bool) : (keysOrder keep)[0]? = some (.volume 0) := rfl

/-- Two destroys that follow one another differ. -/
theorem keysOrder_next_ne {keep : Bool} {k : Nat} {d e : Destroy} (hd : (keysOrder keep)[k]? = some d)
    (he : (keysOrder keep)[k + 1]? = some e) : e ≠ d := by
  rintro rfl
  obtain ⟨hk, hdk⟩ := List.getElem?_eq_some_iff.mp hd
  obtain ⟨hk', hek⟩ := List.getElem?_eq_some_iff.mp he
  have h := (keysOrder_nodup keep).getElem_inj_iff.mp (hdk.trans hek.symm)
  omega

/-- The last destroy of a pass is that of a slot. -/
theorem keysOrder_last {keep : Bool} {k : Nat} {d : Destroy} (hd : (keysOrder keep)[k]? = some d)
    (he : (keysOrder keep)[k + 1]? = none) : ∃ i, d = .slot i := by
  obtain ⟨hk, rfl⟩ := List.getElem?_eq_some_iff.mp hd
  have hlen := List.getElem?_eq_none_iff.mp he
  cases keep
  · obtain rfl : k = 13 := by simp [keysOrder] at hk hlen; omega
    exact ⟨0, rfl⟩
  · obtain rfl : k = 12 := by simp [keysOrder] at hk hlen; omega
    exact ⟨1, rfl⟩

/-! ## One destroy (R19, R97) -/

theorem State.setVolume_volume_same (i : VolIx) (v : VolumeRecord) (s : State) : (s.setVolume i v).volume i = v := by
  simp [State.volume, State.setVolume, Vector.get_set_eq]

theorem State.setVolume_volume_ne {i j : VolIx} (h : i ≠ j) (v : VolumeRecord) (s : State) :
    (s.setVolume i v).volume j = s.volume j := by
  simp [State.volume, State.setVolume, Vector.get_set_eq, h]

theorem State.setCell_cell_same (i : SlotIx) (c : SlotCell) (s : State) : (s.setCell i c).cell i = c := by
  simp [State.cell, State.setCell, Vector.get_set_eq]

theorem State.setCell_cell_ne {i j : SlotIx} (h : i ≠ j) (c : SlotCell) (s : State) :
    (s.setCell i c).cell j = s.cell j := by
  simp [State.cell, State.setCell, Vector.get_set_eq, h]

/-- What a destroy makes of a volume record. -/
theorem VolumeRecord.destroyed_eq (v : VolumeRecord) : v.destroyed =
    { v with key := none, keyState := .destroyed, state := if v.state = .unused then .unused else .erasing } := by
  obtain ⟨state, _, _, _, _, _, _, _⟩ := v
  cases state <;> rfl

/-- A destroy acts on its volume or slot at once, asks for its write, and leaves everything else. -/
structure State.Destroyed (d : Destroy) (s t : State) : Prop where
  acts : s.destroys d t
  volumes : ∀ u : VolIx, d ≠ .volume u → t.volume u = s.volume u
  cells : ∀ i : SlotIx, d ≠ .slot i → t.cell i = s.cell i
  frame : State.changesOnly [.kru, .ctb, .rsc] s t

theorem destroyVolume_destroyed (i : VolIx) (s : State) :
    State.Destroyed (.volume i) s ((s.destroyVolume i).onRsc Rsc.kick) := by
  have hframe : State.changesOnly [.kru, .rsc] s ((s.destroyVolume i).onRsc Rsc.kick) :=
    changesOnly_mono (changesOnly_append (destroyVolume_frame i s) (onRsc_frame _ _)) (by decide)
  have hvolume : ((s.destroyVolume i).onRsc Rsc.kick).volume i = (s.volume i).destroyed :=
    State.setVolume_volume_same i _ s
  refine ⟨⟨hvolume.trans (VolumeRecord.destroyed_eq _), ?_⟩, fun u hu => ?_, fun j _ => ?_, ?_⟩
  · rw [hvolume]
    exact writing_of_request _ _ _ rfl
  · exact State.setVolume_volume_ne (by simpa using hu) _ s
  · exact congrArg (fun c => c.slots.get j) (hframe .ctb (by decide))
  · exact changesOnly_mono hframe (by decide)

/-- The destroy of a slot whose record has no waiting write. -/
theorem destroySlot_destroyed {i : SlotIx} {s : State} (hq : waitingPurpose (.slot i) s.rsc.queue = none) :
    State.Destroyed (.slot i) s ((s.destroySlot i).onRsc Rsc.kick) := by
  have heq : s.destroySlot i = (s.setCell i { s.cell i with record := .empty }).requestWrite (.slot i .empty)
      (.slotDestroy i (s.slotRec i).verifier) := by
    simp only [State.destroySlot, State.answerSuperseded, hq]
    rfl
  have hframe : State.changesOnly [.ctb, .rsc] s ((s.destroySlot i).onRsc Rsc.kick) := by
    rw [heq]
    exact changesOnly_mono (changesOnly_append (setCell_frame i _ s) <|
      changesOnly_append (requestWrite_frame _ _ _) (onRsc_frame _ _)) (by decide)
  refine ⟨⟨?_, ?_⟩, fun u _ => ?_, fun j hj => ?_, ?_⟩
  · rw [heq]
    exact State.setCell_cell_same i _ s
  · rw [heq]
    exact writing_of_request _ _ s.rsc rfl
  · exact congrArg (fun k => k.volumes.get u) (hframe .kru (by decide))
  · rw [heq]
    exact State.setCell_cell_ne (by simpa using hj) _ s
  · exact changesOnly_mono hframe (by decide)

theorem destroy_destroyed (d : Destroy) {s : State} (hq : s.rsc.queue = []) :
    State.Destroyed d s ((s.destroy d).onRsc Rsc.kick) := by
  cases d with
  | volume i => exact destroyVolume_destroyed i s
  | slot i => exact destroySlot_destroyed (by rw [hq]; rfl)

/-- The destroys of a state that agrees on what is destroyed. -/
theorem State.destroys_congr {d : Destroy} {s m t : State} (hv : ∀ v, d = .volume v → m.volume v = s.volume v)
    (hc : ∀ i, d = .slot i → m.cell i = s.cell i) (h : m.destroys d t) : s.destroys d t := by
  cases d with
  | volume v =>
    have hm := hv v rfl
    simp only [State.destroys, hm] at h
    exact h
  | slot i =>
    have hm := hc i rfl
    simp only [State.destroys, State.slotRec, hm] at h
    exact h

/-! ## The WPE between its writes -/

/-- The WPE may act: the part is wiping with the core domain powered, the run condition is ACTIVE, and no write of the
wipe is waiting or running. -/
structure State.MayAct (s : State) : Prop where
  wiping : s.acc.access = .wiping
  core : s.corePowered = true
  run : s.wpe.run = .active
  free : s.wipeBusy = false

theorem State.MayAct.proceed_iff {s : State} (h : s.MayAct) :
    ¬ (s.acc.access ≠ .wiping ∨ !s.corePowered ∨ s.wipeBusy ∨ s.wpe.run = .paused ∨ s.wpe.run = .stalled) := by
  simp [h.wiping, h.core, h.run, h.free]

theorem State.corePowered_congr {s t : State} (hp : t.pins = s.pins) (hv : t.ssv = s.ssv) :
    t.corePowered = s.corePowered := by
  rw [State.corePowered, hp, hv]
  rfl

theorem State.MayAct.congr {s t : State} (h : s.MayAct) (ha : t.acc = s.acc) (hp : t.pins = s.pins)
    (hv : t.ssv = s.ssv) (hr : t.wpe.run = s.wpe.run) (hq : t.rsc = s.rsc) : t.MayAct where
  wiping := by rw [ha, h.wiping]
  core := (State.corePowered_congr hp hv).trans h.core
  run := hr.trans h.run
  free := by
    have hf := h.free
    rwa [State.wipeBusy, ← hq] at hf

/-- What follows in KEYS from a position: the destroy of the order that stands there, or the end of the pass (R107). -/
def State.keysNext (w : WipeRecord) (k p : Nat) (f : Bool) (s : State) : State :=
  match (keysOrder w.keepAdmin)[k]? with
  | some d => s.destroy d
  | none => s.passEnded w p f

theorem State.MayAct.proceed_keys {s : State} (h : s.MayAct) {w : WipeRecord} {k p : Nat} {f : Bool}
    (hj : s.wpe.journal = some w) (hp : s.wpe.position = .keys k p f) :
    s.proceed = s.keysNext w k p f := by
  rw [State.proceed, if_neg h.proceed_iff]
  simp only [hj, hp, destroyList_eq]
  rfl

/-- The WPE at a position. -/
def State.atPosition (q : Position) (s : State) : State := s.onWpe fun w => { w with position := q }

section
variable {m : State} {w : WipeRecord} {k p : Nat} {f : Bool} (hm : m.MayAct) (hj : m.wpe.journal = some w)
  (hp : m.wpe.position = .keys k p f)
include hm hj hp

theorem destroyAnswered_eq (ok : Bool) :
    m.destroyAnswered ok = (m.atPosition (.keys (k + 1) p (f || !ok))).keysNext w (k + 1) p (f || !ok) := by
  have hu : (m.atPosition (.keys (k + 1) p (f || !ok))).MayAct := ⟨hm.wiping, hm.core, hm.run, hm.free⟩
  have heq : m.destroyAnswered ok = (m.atPosition (.keys (k + 1) p (f || !ok))).proceed := by
    simp only [State.destroyAnswered, State.atPosition, State.onWpe, hp]
  rw [heq, hu.proceed_keys hj rfl]

/-- The next destroy of the order acts. -/
theorem destroyAnswered_next (hq : m.rsc.queue = []) {d : Destroy} (ok : Bool)
    (hd : (keysOrder w.keepAdmin)[k + 1]? = some d) :
    ∃ t, finish (m.destroyAnswered ok) = .next t ∧ t.wpe = { m.wpe with position := .keys (k + 1) p (f || !ok) } ∧
      State.Destroyed d (m.atPosition (.keys (k + 1) p (f || !ok))) t := by
  have hdestroyed := destroy_destroyed d (s := m.atPosition (.keys (k + 1) p (f || !ok))) hq
  rw [destroyAnswered_eq hm hj hp, State.keysNext, hd]
  exact ⟨_, rfl, hdestroyed.frame .wpe (by decide), hdestroyed⟩

/-- After the last destroy of a pass without a failure the boundary write follows. -/
theorem destroyAnswered_boundary (ok : Bool) (hd : (keysOrder w.keepAdmin)[k + 1]? = none) (hg : (f || !ok) = false) :
    ∃ t, finish (m.destroyAnswered ok) = .next t ∧ t.wpe = { m.wpe with position := .keys (k + 1) p false } ∧
      t.writing (.journal (some { w with step := .limiter })) (.journal .boundary) ∧
      State.changesOnly [.wpe, .rsc] m t := by
  rw [destroyAnswered_eq hm hj hp, State.keysNext, hd, hg]
  refine ⟨_, rfl, rfl, writing_of_request _ _ m.rsc rfl, ?_⟩
  exact changesOnly_mono (changesOnly_append (onWpe_frame _ m) <|
    changesOnly_append (requestWrite_frame _ _ _) (onRsc_frame _ _)) (by decide)

/-- After one with a failure a new pass begins. -/
theorem destroyAnswered_again (hq : m.rsc.queue = []) (ok : Bool) (hd : (keysOrder w.keepAdmin)[k + 1]? = none)
    (hg : (f || !ok) = true) (hlt : p < 3) :
    ∃ t, finish (m.destroyAnswered ok) = .next t ∧ t.wpe.position = .keys 0 (p + 1) false ∧
      State.Destroyed (.volume 0) (m.atPosition (.keys 0 (p + 1) false)) t := by
  have hdestroyed := destroy_destroyed (.volume 0) (s := m.atPosition (.keys 0 (p + 1) false)) hq
  have heq : m.destroyAnswered ok = (m.atPosition (.keys 0 (p + 1) false)).destroy (.volume 0) := by
    rw [destroyAnswered_eq hm hj hp, State.keysNext, hd, hg]
    simp only [State.passEnded, Bool.not_true, Bool.false_eq_true, if_false, if_pos hlt]
    rfl
  rw [heq]
  exact ⟨_, rfl, congrArg Wpe.position (hdestroyed.frame .wpe (by decide)), hdestroyed⟩

/-- After the third pass with a failure the wipe stalls. -/
theorem destroyAnswered_stalls (hlevel : m.ssv.level ≠ .crit) (ok : Bool) (hd : (keysOrder w.keepAdmin)[k + 1]? = none)
    (hg : (f || !ok) = true) (hge : ¬ p < 3) :
    ∃ t, finish (m.destroyAnswered ok) = .next t ∧ t.wpe = { m.wpe with position := .stalled, run := .stalled } ∧
      t.rsc = m.rsc.kick ∧ State.changesOnly [.wpe, .liu, .rsc] m t := by
  let u := m.atPosition .stalled
  have heq : m.destroyAnswered ok = u.refreshRun := by
    rw [destroyAnswered_eq hm hj hp, State.keysNext, hd, hg]
    simp only [State.passEnded, Bool.not_true, Bool.false_eq_true, if_false, if_neg hge]
    rfl
  have hrun : u.runCondition = .stalled := by
    have hl : u.ssv.level ≠ .crit := hlevel
    have hs : u.wpe.position = .stalled := rfl
    simp [State.runCondition, State.pauseHolds, hl, hs]
  have hne : u.acc.access = .wiping ∧ u.runCondition ≠ u.wpe.run := by
    refine ⟨hm.wiping, ?_⟩
    rw [hrun, show u.wpe.run = .active from hm.run]
    decide
  have hframe : State.changesOnly [.wpe, .liu] m u.refreshRun :=
    changesOnly_trans (changesOnly_mono (onWpe_frame _ m) (by decide)) (refreshRun_frame u)
  rw [heq]
  refine ⟨_, rfl, ?_, congrArg Rsc.kick (hframe .rsc (by decide)), ?_⟩
  · show u.refreshRun.wpe = _
    rw [State.refreshRun, if_pos hne, postWipeState_frame _ .wpe (by decide), hrun]
    rfl
  · exact changesOnly_mono (changesOnly_append hframe (onRsc_frame _ _)) (by decide)

end

/-! ## The end of a destroy's write (R19, R84) -/

/-- The state in which the WPE is told of the end of a destroy's write: the array, the RSC, and of the rest at most what
was destroyed. -/
structure State.Met (d : Destroy) (s m : State) : Prop where
  rsc : m.rsc = { current := none, queue := s.rsc.queue }
  volumes : ∀ u : VolIx, d ≠ .volume u → m.volume u = s.volume u
  cells : ∀ i : SlotIx, d ≠ .slot i → m.cell i = s.cell i
  slots : ∀ i, d = .slot i → m.kru = s.kru
  frame : State.changesOnly [.store, .rsc, .kru, .ctb] s m

/-- A failed volume write that no later one supersedes leaves the volume UNUSED (R84). -/
theorem volumeFailed_of_free {s : State} (i : VolIx) (hq : s.rsc.queue = []) :
    s.volumeFailed i = s.setVolume i (.unused (s.volume i).kgen) := by
  simp [State.volumeFailed, hq, waitingPurpose]

/-- How a destroy's write ends, and what a failed one leaves. -/
theorem destroyWrite_ends {e : WriteEntry} {d : Destroy} {n : Nat} {s : State} (r : AttemptEnd)
    (hw : s.rsc.current = some { entry := e, attempt := n }) (hq : r ≠ .passed → s.rsc.queue = [])
    (hr : r = .passed ∨ n ≠ 1) (hd : d.writes e) :
    ∃ m, exec (.storeWriteEnd r) s = finish (m.destroyAnswered (r == .passed)) ∧ s.Met d m ∧
      (r ≠ .passed → ∀ v, d = .volume v → m.volume v = VolumeRecord.unused (s.volume v).kgen) ∧
      (r ≠ .passed → ∀ i, d = .slot i → ∀ old, e.purpose = .slotDestroy i old →
        m.cell i = { record := .empty, fault := true, shadow := old }) := by
  cases r with
  | passed =>
    rw [exec_passed hw]
    cases d with
    | volume v =>
      obtain ⟨rec, rfl⟩ := hd
      exact ⟨_, rfl, ⟨rfl, fun _ _ => rfl, fun _ _ => rfl, fun _ h => (nomatch h),
        changesOnly_mono (passed_frame _ s) (by decide)⟩, fun h => absurd rfl h, fun h => absurd rfl h⟩
    | slot i =>
      obtain ⟨old, rfl⟩ := hd
      refine ⟨_, rfl, ⟨rfl, fun _ _ => rfl, fun j hj => ?_, fun _ _ => rfl, ?_⟩, fun h => absurd rfl h,
        fun h => absurd rfl h⟩
      · exact State.setCell_cell_ne (by simpa using hj) _ (s.passed _)
      · exact changesOnly_mono (changesOnly_append (passed_frame _ s) (setCell_frame _ _ _)) (by decide)
  | failed left =>
    rw [exec_failed left hw (hr.resolve_left (by simp))]
    cases d with
    | volume v =>
      obtain ⟨rec, rfl⟩ := hd
      have heq : ((s.spoilt left _).volumeFailed v) = (s.spoilt left _).setVolume v (.unused (s.volume v).kgen) :=
        volumeFailed_of_free (s := s.spoilt left { contents := .volume v rec, purpose := .volumeDestroy v }) v
          (hq fun h => (nomatch h))
      refine ⟨_, congrArg (fun m => finish (State.destroyAnswered false m)) heq,
        ⟨rfl, fun u hu => ?_, fun _ _ => rfl, fun _ h => (nomatch h), ?_⟩, fun _ u hu => ?_, fun _ i hi => (nomatch hi)⟩
      · exact State.setVolume_volume_ne (by simpa using hu) _ (s.spoilt left _)
      · exact changesOnly_mono (changesOnly_append (spoilt_frame left _ s) (setVolume_frame _ _ _)) (by decide)
      · cases hu
        exact State.setVolume_volume_same v _ (s.spoilt left _)
    | slot i =>
      obtain ⟨old, rfl⟩ := hd
      refine ⟨_, rfl, ⟨rfl, fun _ _ => rfl, fun j hj => ?_, fun _ _ => rfl, ?_⟩, fun _ v hv => (nomatch hv),
        fun _ j hj old' ho => ?_⟩
      · exact State.setCell_cell_ne (by simpa using hj) _ (s.spoilt left _)
      · exact changesOnly_mono (changesOnly_append (spoilt_frame left _ s) (setCell_frame _ _ _)) (by decide)
      · cases hj
        cases ho
        exact State.setCell_cell_same i _ (s.spoilt left _)

/-! ## The write that marks a wipe active (R101, R118) -/

/-- The WPE takes a record at the beginning of KEYS. -/
def State.atKeys (w : WipeRecord) (s : State) : State :=
  s.onWpe fun e => { e with journal := some w, starting := none, position := .keys 0 1 false }

theorem atKeys_runCondition {w : WipeRecord} {s : State} (hw : w.step = .keys) (hl : s.ssv.level ≠ .crit) :
    (s.atKeys w).runCondition = .active := by
  have hpause : (s.atKeys w).pauseHolds = false := by
    have hl' : (s.atKeys w).ssv.level ≠ .crit := hl
    simp [State.pauseHolds, hl']
  have hmedia : (s.atKeys w).mediaWaits = false := by
    have hview : (s.atKeys w).wpe.view = some w := rfl
    simp [State.mediaWaits, hview, hw]
  have hpos : (s.atKeys w).wpe.position = .keys 0 1 false := rfl
  simp [State.runCondition, hpause, hmedia, hpos]

/-- The completed write posts WIPE_STATE and destroys volume 0. -/
theorem journalDone_start {w : WipeRecord} {s : State} (hw : w.step = .keys) (hl : s.ssv.level ≠ .crit)
    (hwiping : s.acc.access = .wiping) (hcore : s.corePowered = true) (hrun : s.wpe.run = .active)
    (hfree : s.wipeBusy = false) :
    s.journalDone .start (some w) = ((s.atKeys w).postP (.wipeState
      { cause := w.cause, depth := w.depth, step := .keys, run := .active, progress := 0 })).destroy (.volume 0) := by
  have hrefresh : (s.atKeys w).refreshRun = s.atKeys w := by
    have hc := atKeys_runCondition hw hl
    have hr : (s.atKeys w).wpe.run = .active := hrun
    rw [State.refreshRun, if_neg (by simp [hc, hr])]
  have hpost : (s.atKeys w).postWipeState = (s.atKeys w).postP (.wipeState
      { cause := w.cause, depth := w.depth, step := .keys, run := .active, progress := 0 }) := by
    have hreport : (s.atKeys w).wipeReport =
        some { cause := w.cause, depth := w.depth, step := .keys, run := .active, progress := 0 } := by
      have hview : (s.atKeys w).wpe.view = some w := rfl
      have hr : (s.atKeys w).wpe.run = .active := hrun
      simp [State.wipeReport, hview, hr, hw, WipeRecord.progress]
    simp only [State.postWipeState, hreport]
  have heq : s.journalDone .start (some w) = (s.atKeys w).refreshRun.postWipeState.proceed := by
    simp only [State.journalDone, ne_eq, hwiping, not_true_eq_false, if_false, hw]
    rfl
  rw [heq, hrefresh, hpost]
  have hframe := postP_frame (.wipeState
    { cause := w.cause, depth := w.depth, step := .keys, run := .active, progress := 0 }) (s.atKeys w)
  have hwpe := hframe .wpe (by decide)
  have hact := State.MayAct.congr (s := s.atKeys w) ⟨hwiping, hcore, hrun, hfree⟩ (hframe .acc (by decide)) (hframe .pins (by decide))
    (hframe .ssv (by decide)) (congrArg Wpe.run hwpe) (hframe .rsc (by decide))
  rw [hact.proceed_keys (congrArg Wpe.journal hwpe) (congrArg Wpe.position hwpe), State.keysNext, keysOrder_first]

theorem Store.read_journal_complete (j : Journal) (st : Store) :
    (st.onLocation Location.complete (.journal j)).journal.read = .valid j := Location.read_complete j st.journal

section
variable {w : WipeRecord} {n : Nat} {s : State}
  (hw : s.rsc.current = some { entry := { contents := .journal (some w), purpose := .journal .start }, attempt := n })
  (hq : s.rsc.queue = []) (hwiping : s.acc.access = .wiping)
include hw hq hwiping

/-- The wipe is marked active, and KEYS begins. -/
theorem startWrite_passed (hcore : s.corePowered = true) (hlevel : s.ssv.level ≠ .crit) (hrun : s.wpe.run = .active)
    (hstep : w.step = .keys) :
    ∃ t, exec (.storeWriteEnd .passed) s = .next t ∧
      t.store.journal.read = .valid (some w) ∧ t.wpe.journal = some w ∧ t.wpe.position = .keys 0 1 false ∧
      t.liu.pq.wipeState = some { cause := w.cause, depth := w.depth, step := .keys, run := .active, progress := 0 } ∧
      s.destroys (.volume 0) t ∧ (∀ u : VolIx, u ≠ 0 → t.volume u = s.volume u) ∧ t.ctb = s.ctb ∧ t.atl = s.atl := by
  let m := s.passed { contents := .journal (some w), purpose := .journal .start }
  let v := (m.atKeys w).postP (.wipeState
    { cause := w.cause, depth := w.depth, step := .keys, run := .active, progress := 0 })
  have hfree : m.wipeBusy = false := by
    have hm : m.rsc = { current := none, queue := [] } := by rw [← hq]; rfl
    rw [State.wipeBusy, hm]
    rfl
  have hdone : m.journalDone .start (some w) = v.destroyVolume 0 :=
    journalDone_start hstep hlevel hwiping hcore hrun hfree
  have hv : State.changesOnly [.wpe, .liu] m v :=
    changesOnly_mono (changesOnly_append (onWpe_frame _ m) (postP_frame _ _)) (by decide)
  have hpost : v.liu.pq.wipeState =
      some { cause := w.cause, depth := w.depth, step := .keys, run := .active, progress := 0 } := by
    have hc : (m.atKeys w).corePowered = true := hcore
    simp only [v, State.postP, if_pos hc]
    rfl
  have hwpe : v.wpe = (m.atKeys w).wpe := postP_frame _ _ .wpe (by decide)
  have hd := destroyVolume_destroyed 0 v
  have hlast : State.changesOnly [.kru, .rsc] v ((v.destroyVolume 0).onRsc Rsc.kick) :=
    changesOnly_mono (changesOnly_append (destroyVolume_frame 0 v) (onRsc_frame _ _)) (by decide)
  have hvolumes (u : VolIx) : v.volume u = s.volume u := congrArg (fun k => k.volumes.get u) (hv .kru (by decide))
  rw [exec_passed hw]
  refine ⟨_, congrArg finish hdone, ?_, ?_, ?_, ?_, ?_, fun u hu => ?_, ?_, ?_⟩
  · rw [show _ = v.store from hlast .store (by decide), show _ = m.store from hv .store (by decide)]
    exact Store.read_journal_complete (some w) s.store
  · exact congrArg Wpe.journal ((hlast .wpe (by decide)).trans hwpe)
  · exact congrArg Wpe.position ((hlast .wpe (by decide)).trans hwpe)
  · rw [show _ = v.liu from hlast .liu (by decide), hpost]
  · exact State.destroys_congr (fun u _ => hvolumes u) (fun _ h => (nomatch h)) hd.acts
  · exact (hd.volumes u (by simpa using Ne.symm hu)).trans (hvolumes u)
  · exact (hlast .ctb (by decide)).trans (hv .ctb (by decide))
  · exact (hlast .atl (by decide)).trans (hv .atl (by decide))

/-- Or the part is halted with nothing destroyed. -/
theorem startWrite_failed (left : Residue) (hn : n ≠ 1) :
    ∃ t, exec (.storeWriteEnd (.failed left)) s = .next t ∧ t.acc.access = .halted ∧ t.kru = s.kru ∧ t.ctb = s.ctb ∧
      t.atl.limiter = s.atl.limiter ∧ t.rsc = { current := none, queue := [] } := by
  let m := s.spoilt left { contents := .journal (some w), purpose := .journal .start }
  have hne : m.acc.access ≠ .halted := by
    rw [show m.acc.access = .wiping from hwiping]
    decide
  have hframe := enterHalted_frame m
  rw [exec_failed left hw hn]
  refine ⟨_, rfl, ?_, hframe .kru (by decide), hframe .ctb (by decide), ?_, ?_⟩
  · show m.enterHalted.acc.access = .halted
    rw [State.enterHalted_acc hne]
  · show m.enterHalted.atl.limiter = s.atl.limiter
    rw [State.enterHalted_atl hne]
    rfl
  · have hm : m.rsc = { current := none, queue := [] } := by rw [← hq]; rfl
    exact congrArg Rsc.kick ((hframe .rsc (by decide)).trans hm)

end

/-- What the end of a destroy leaves of the volumes and slots, where another destroy follows. -/
theorem State.Met.destroys {d d' : Destroy} {s m t : State} {q : Position} (hm : s.Met d m) (hne : d' ≠ d)
    (ht : State.Destroyed d' (m.atPosition q) t) :
    s.destroys d' t ∧ (∀ u : VolIx, d' ≠ .volume u → d ≠ .volume u → t.volume u = s.volume u) ∧
      (∀ i : SlotIx, d' ≠ .slot i → d ≠ .slot i → t.cell i = s.cell i) ∧
      (∀ u : VolIx, d = .volume u → t.volume u = m.volume u) ∧ (∀ i : SlotIx, d = .slot i → t.cell i = m.cell i) ∧
      t.acc = s.acc ∧ t.atl = s.atl := by
  refine ⟨?_, fun u hu hd => ?_, fun i hi hd => ?_, fun u hu => ?_, fun i hi => ?_, ?_, ?_⟩
  · refine State.destroys_congr (m := m.atPosition q) (fun v hv => ?_) (fun i hi => ?_) ht.acts
    · exact hm.volumes v fun h => hne (hv.trans h.symm)
    · exact hm.cells i fun h => hne (hi.trans h.symm)
  · exact (ht.volumes u hu).trans (hm.volumes u hd)
  · exact (ht.cells i hi).trans (hm.cells i hd)
  · exact ht.volumes u fun h => hne (h.trans hu.symm)
  · exact ht.cells i fun h => hne (h.trans hi.symm)
  · exact (ht.frame .acc (by decide)).trans (hm.frame .acc (by decide))
  · exact (ht.frame .atl (by decide)).trans (hm.frame .atl (by decide))

/-- What a destroy whose write failed leaves of its volume or slot (R19, R84). -/
def Destroy.failedLeaves (d : Destroy) (r : AttemptEnd) (e : WriteEntry) (s t : State) : Prop :=
  match d with
  | .volume v => r ≠ .passed → t.volume v = VolumeRecord.unused (s.volume v).kgen
  | .slot i => r ≠ .passed → t.slotRec i = SlotRecord.empty ∧ (t.cell i).fault = true ∧
      ∀ old, e.purpose = .slotDestroy i old → (t.cell i).shadow = old

/-- What a failed destroy leaves stands in a state that keeps what was destroyed. -/
theorem failedDestroy_stands {d : Destroy} {e : WriteEntry} {r : AttemptEnd} {s m t : State}
    (hvolume : r ≠ .passed → ∀ v, d = .volume v → m.volume v = VolumeRecord.unused (s.volume v).kgen)
    (hslot : r ≠ .passed → ∀ i, d = .slot i → ∀ old, e.purpose = .slotDestroy i old →
      m.cell i = { record := .empty, fault := true, shadow := old })
    (hwrites : d.writes e) (hv : ∀ u : VolIx, d = .volume u → t.volume u = m.volume u)
    (hc : ∀ i : SlotIx, d = .slot i → t.cell i = m.cell i) :
    d.failedLeaves r e s t := by
  cases d with
  | volume v => exact fun hr => (hv v rfl).trans (hvolume hr v rfl)
  | slot i =>
    intro hr
    obtain ⟨old, he⟩ := hwrites
    have hcell : t.cell i = { record := .empty, fault := true, shadow := old } :=
      (hc i rfl).trans (hslot hr i rfl old (by rw [he]))
    refine ⟨by rw [State.slotRec, hcell], by rw [hcell], fun old' ho => ?_⟩
    rw [hcell, ← (Purpose.slotDestroy.inj ((congrArg WriteEntry.purpose he).symm.trans ho)).2]

/-- Settles O59: the write that starts a wipe, and the end of each destroy's. -/
theorem wipeDestroysInOrder : Obligations.WipeDestroysInOrder := by
  intro w k p n f e d r s hw hq hwiping hcore hlevel hrun hr
  refine ⟨fun he hstep => ?_, fun hj hp hd hwrites => ?_⟩
  · subst he
    by_cases hpassed : r = .passed
    · subst hpassed
      simpa only [if_true] using startWrite_passed hw hq hwiping hcore hlevel hrun hstep
    · cases r with
      | passed => exact absurd rfl hpassed
      | failed left =>
        simpa only [reduceCtorEq, if_false] using startWrite_failed hw hq hwiping left (hr.resolve_left hpassed)
  · obtain ⟨m, hexec, hm, hvolume, hslot⟩ := destroyWrite_ends r hw (fun _ => hq) hr hwrites
    have hrsc0 : m.rsc = { current := none, queue := [] } := by rw [hm.rsc, hq]
    have hmq : m.rsc.queue = [] := by rw [hrsc0]
    have hwpe : m.wpe = s.wpe := hm.frame .wpe (by decide)
    have hact : m.MayAct :=
      { wiping := by rw [hm.frame .acc (by decide), hwiping]
        core := (State.corePowered_congr (hm.frame .pins (by decide)) (hm.frame .ssv (by decide))).trans hcore
        run := by rw [hwpe, hrun]
        free := by rw [State.wipeBusy, hrsc0]; rfl }
    have hmj : m.wpe.journal = some w := by rw [hwpe, hj]
    have hmp : m.wpe.position = .keys k p f := by rw [hwpe, hp]
    have hstands {t : State} := failedDestroy_stands (t := t) hvolume hslot hwrites
    rw [hexec]
    cases hnext : (keysOrder w.keepAdmin)[k + 1]? with
    | some d' =>
      obtain ⟨t, ht, htw, hdestroyed⟩ := destroyAnswered_next hact hmj hmp hmq (r == .passed) hnext
      obtain ⟨hacts, hvols, hcells, hv, hc, hacc, hatl⟩ := hm.destroys (keysOrder_next_ne hd hnext) hdestroyed
      exact ⟨t, ht, hacc, hatl, hstands hv hc, by rw [htw, hwpe]; rfl, hacts, hvols, hcells⟩
    | none =>
      obtain ⟨i, rfl⟩ := keysOrder_last hd hnext
      have hkru : m.kru = s.kru := hm.slots i rfl
      by_cases hg : (f || r != .passed) = false
      · obtain ⟨t, ht, htw, hwriting, hframe⟩ := destroyAnswered_boundary hact hmj hmp (r == .passed) hnext hg
        refine ⟨t, ht, ?_, ?_, hstands (fun u hu => (nomatch hu)) fun j _ => ?_, ?_⟩
        · exact (hframe .acc (by decide)).trans (hm.frame .acc (by decide))
        · exact (hframe .atl (by decide)).trans (hm.frame .atl (by decide))
        · exact congrArg (fun c => c.slots.get j) (hframe .ctb (by decide))
        · simp only [if_pos hg]
          exact ⟨(hframe .kru (by decide)).trans hkru, congrArg Wpe.position htw, hwriting⟩
      · have hg' : (f || !(r == .passed)) = true := Bool.not_eq_false _ ▸ hg
        simp only [if_neg hg]
        by_cases hlt : p < 3
        · obtain ⟨t, ht, htp, hdestroyed⟩ := destroyAnswered_again hact hmj hmp hmq (r == .passed) hnext hg' hlt
          obtain ⟨hacts, -, -, hv, hc, hacc, hatl⟩ := hm.destroys (d' := .volume 0) (fun h => (nomatch h)) hdestroyed
          exact ⟨t, ht, hacc, hatl, hstands hv hc, by simpa only [if_pos hlt] using ⟨htp, hacts⟩⟩
        · obtain ⟨t, ht, htw, hrsc, hframe⟩ :=
            destroyAnswered_stalls hact hmj hmp (by rwa [hm.frame .ssv (by decide)]) (r == .passed) hnext hg' hlt
          refine ⟨t, ht, ?_, ?_, hstands (fun u hu => (nomatch hu)) fun j _ => ?_, ?_⟩
          · exact (hframe .acc (by decide)).trans (hm.frame .acc (by decide))
          · exact (hframe .atl (by decide)).trans (hm.frame .atl (by decide))
          · exact congrArg (fun c => c.slots.get j) (hframe .ctb (by decide))
          · rw [if_neg hlt, htw, hwpe, hrsc, hrsc0]
            exact ⟨(hframe .kru (by decide)).trans hkru, rfl, rfl⟩

end Sys2Proof.Machine
end

