-- ==== Sys2Proof/Proofs/Queue.lean ====
section
/-! The write queue through a row (R136 to R138): whatever the owner of an ended write goes on to request joins behind
the entries that wait, or replaces one of them in its place, so that the oldest waiting entry is the next to be taken. -/

namespace Sys2Proof.Machine

/-! ## A request's place (R136) -/

/-- A request behind entries of other records is appended. -/
theorem enqueueEntry_append {e : WriteEntry} {q : List WriteEntry} (h : ∀ v ∈ q, v.id ≠ e.id) :
    enqueueEntry e q = q ++ [e] := by
  induction q with
  | nil => rfl
  | cons v rest ih =>
    rw [enqueueEntry, if_neg (h v List.mem_cons_self), ih fun u hu => h u (List.mem_cons_of_mem v hu), List.cons_append]

/-- A request of a record that waits takes its entry's place. -/
theorem enqueueEntry_replace {e w : WriteEntry} {before : List WriteEntry} (behind : List WriteEntry)
    (h : ∀ v ∈ before, v.id ≠ e.id) (hw : w.id = e.id) :
    enqueueEntry e (before ++ w :: behind) = before ++ e :: behind := by
  induction before with
  | nil => rw [List.nil_append, enqueueEntry, if_pos hw, List.nil_append]
  | cons v rest ih =>
    rw [List.cons_append, enqueueEntry, if_neg (h v List.mem_cons_self),
      ih fun u hu => h u (List.mem_cons_of_mem v hu), List.cons_append]

/-! ## The queue grows at its end -/

/-- With writes waiting and none current, none becomes current, and the records that wait stay in their order. -/
def Rsc.Extends (r q : Rsc) : Prop :=
  r.current = none → r.queue ≠ [] → q.current = none ∧ r.queue.map WriteEntry.id <+: q.queue.map WriteEntry.id

def State.Extends (s t : State) : Prop := s.rsc.Extends t.rsc

theorem extends_of_rsc {s t : State} (h : t.rsc = s.rsc) : s.Extends t := by
  intro hc _
  rw [h]
  exact ⟨hc, List.prefix_refl _⟩

theorem extends_refl (s : State) : s.Extends s := extends_of_rsc rfl

theorem State.Extends.trans {s t u : State} (h : s.Extends t) (k : t.Extends u) : s.Extends u := by
  intro hc hq
  obtain ⟨htc, hst⟩ := h hc hq
  have htq : t.rsc.queue ≠ [] := by
    intro hnil
    rw [hnil, List.map_nil, List.prefix_nil, List.map_eq_nil_iff] at hst
    exact hq hst
  obtain ⟨huc, htu⟩ := k htc htq
  exact ⟨huc, hst.trans htu⟩

theorem extends_of_frame {l : List Block} {s t : State} (h : State.changesOnly l s t) (hl : Block.rsc ∉ l) : s.Extends t :=
  extends_of_rsc (h .rsc hl)

theorem extends_ite {s t u : State} {c : Prop} [Decidable c] (ht : s.Extends t) (hu : s.Extends u) :
    s.Extends (if c then t else u) := by
  split
  · exact ht
  · exact hu

theorem extends_requestWrite (c : Contents) (p : Purpose) (s : State) : s.Extends (s.requestWrite c p) := by
  intro hc hq
  rcases s.rsc.request_cases { contents := c, purpose := p } with ⟨_, hnil, _⟩ | ⟨_, hr⟩
  · exact absurd hnil hq
  · rw [State.requestWrite_eq]
    dsimp only
    rw [hr]
    refine ⟨hc, ?_⟩
    rw [enqueueEntry_ids]
    split
    · exact List.prefix_refl _
    · exact List.prefix_append _ _

theorem extends_markDiscarded (s : State) : s.Extends (s.onRsc Rsc.markDiscarded) := by
  intro hc _
  have hids : (s.rsc.markDiscarded.queue).map WriteEntry.id = s.rsc.queue.map WriteEntry.id := by
    simp [Rsc.markDiscarded, WriteEntry.id]
  refine ⟨?_, ?_⟩
  · simp [Rsc.markDiscarded, hc]
  · rw [State.onRsc_rsc, hids]

/-! ## The Pending Set (R124, R129 to R131) -/

theorem extends_requestPendingSet (s : State) : s.Extends s.requestPendingSet := extends_requestWrite _ _ s

theorem extends_settle (s : State) : s.Extends s.settle := by
  unfold State.settle
  split
  · exact extends_refl s
  · exact extends_ite (extends_refl s) (extends_ite (extends_of_frame (onPlu_frame _ s) (by decide))
      (State.Extends.trans (extends_of_frame (onPlu_frame _ s) (by decide)) (extends_requestPendingSet _)))

theorem extends_partEnded (f : Application → Application) (s : State) : s.Extends (s.partEnded f) :=
  State.Extends.trans (extends_of_frame (onPlu_frame _ s) (by decide)) (extends_settle _)

theorem extends_applyPolicy (s : State) : s.Extends s.applyPolicy.1 := by
  unfold State.applyPolicy
  dsimp only
  split
  · exact extends_refl s
  · split
    · exact extends_refl s
    · exact State.Extends.trans (extends_of_frame (onPlu_frame _ s) (by decide)) (extends_requestWrite _ _ _)

theorem extends_applyMap (s : State) : s.Extends s.applyMap.1 := by
  unfold State.applyMap
  dsimp only
  split
  · exact extends_refl s
  · split
    · exact extends_refl s
    · exact State.Extends.trans (extends_of_frame (setMap_frame _ s) (by decide)) (extends_requestWrite _ _ _)

theorem extends_writeVolume (i : VolIx) (v : VolumeRecord) (p : Purpose) (s : State) : s.Extends (s.writeVolume i v p) :=
  State.Extends.trans (extends_of_frame (setVolume_frame i v s) (by decide)) (extends_requestWrite _ _ _)

theorem extends_applyDef (i : VolIx) (d : VolumeDef) (s : State) : s.Extends (s.applyDef i d).1 := by
  unfold State.applyDef
  dsimp only
  split
  · split
    · split
      · exact extends_refl s
      · exact extends_writeVolume _ _ _ s
    · exact State.Extends.trans (extends_of_frame (onKru_frame _ s) (by decide)) (extends_writeVolume _ _ _ _)
  · split
    · exact extends_refl s
    · exact extends_writeVolume _ _ _ s

theorem extends_applyVolume (i : VolIx) (s : State) : s.Extends (s.applyVolume i).1 := by
  unfold State.applyVolume
  split
  · exact extends_refl s
  · exact extends_applyDef _ _ s

theorem extends_applyVolumes (s : State) : s.Extends s.applyVolumes.1 := by
  rw [State.applyVolumes_fst]
  exact (extends_applyVolume 0 s).trans <| (extends_applyVolume 1 _).trans <| (extends_applyVolume 2 _).trans
    (extends_applyVolume 3 _)

theorem extends_applyPendingSet (s : State) : s.Extends s.applyPendingSet :=
  (extends_applyPolicy s).trans <| (extends_applyMap _).trans <| (extends_applyVolumes _).trans <|
    State.Extends.trans (extends_of_frame (onPlu_frame _ _) (by decide)) (extends_settle _)

theorem extends_discardPendingSet (s : State) : s.Extends s.discardPendingSet := by
  unfold State.discardPendingSet
  extract_lets gs t u
  have ht : s.Extends t := State.Extends.trans (extends_of_frame (onPlu_frame _ s) (by decide)) (extends_markDiscarded _)
  have hu : t.Extends u := extends_of_frame (l := [.liu])
    (foldl_frame (f := fun w g => w.refuseTo g.requester .wiping) (fun w g => refuseTo_frame _ _ w) gs t) (by decide)
  exact extends_ite ((ht.trans hu).trans (extends_requestWrite _ _ _)) (ht.trans hu)

/-! ## Access states and causes -/

theorem extends_enterLocked (s : State) : s.Extends s.enterLocked :=
  (extends_applyPendingSet s).trans (extends_of_frame (changeAccess_frame _ _ _) (by decide))

theorem extends_completeLock (s : State) : s.Extends s.completeLock :=
  (extends_of_frame (closeOpen_frame s) (by decide)).trans (extends_enterLocked _)

theorem extends_endConfig (s : State) : s.Extends s.endConfig :=
  (extends_of_frame (onAcc_frame _ s) (by decide)).trans (extends_enterLocked _)

theorem enterLocking_frame (c : LockCause) (s : State) : State.changesOnly [.acc, .keu, .liu] s (s.enterLocking c) :=
  changesOnly_mono (changesOnly_append (onAcc_frame _ s) <| changesOnly_append (postB_frame _ _)
    (changeAccess_frame _ _ _)) (by decide)

theorem extends_orderly (c : LockCause) (s : State) : s.Extends (s.orderly c) := by
  unfold State.orderly
  split
  · exact extends_ite (extends_of_frame (enterLocking_frame c s) (by decide)) (extends_completeLock s)
  · exact extends_endConfig s
  all_goals exact extends_refl s

theorem extends_forced (s : State) : s.Extends s.forced := by
  unfold State.forced
  split
  · exact extends_completeLock s
  · exact extends_completeLock s
  · exact extends_endConfig s
  all_goals exact extends_refl s

theorem extends_startWipe (c : WipeCause) (s : State) : s.Extends (s.startWipe c) := by
  have hquit : s.Extends s.quitForWipe.stopPenalty :=
    (extends_of_frame (quitForWipe_frame s) (by decide)).trans (extends_of_frame (stopPenalty_frame _) (by decide))
  have harm (u : State) : u.Extends (u.armWipe c) :=
    State.Extends.trans (extends_of_frame (onWpe_frame _ u) (by decide)) (extends_requestWrite _ _ _)
  have hend (u : State) (f : Wpe → Wpe) : u.Extends ((u.changeAccess .wiping none).onWpe f) :=
    (extends_of_frame (changeAccess_frame _ _ u) (by decide)).trans (extends_of_frame (onWpe_frame _ _) (by decide))
  exact extends_ite (extends_refl s)
    (((hquit.trans (extends_discardPendingSet _)).trans (harm _)).trans (hend _ _))

theorem extends_raise (c : LockCause) (a : CauseAction) (s : State) : s.Extends (s.raise c a) := by
  unfold State.raise
  split
  · exact extends_refl s
  · exact extends_orderly c s
  · exact extends_forced s
  · exact extends_forced s
  · exact extends_ite (extends_of_frame (onAcc_frame _ s) (by decide)) (extends_startWipe _ s)

/-! ## Evaluations -/

theorem extends_recheck (s : State) : s.Extends s.recheck := by
  unfold State.recheck
  extract_lets a b
  have ha : s.Extends a := extends_ite (extends_raise _ _ s) (extends_refl s)
  have hb : s.Extends b := extends_ite (ha.trans (extends_raise _ _ a)) ha
  exact extends_ite (hb.trans (extends_raise _ _ b)) hb

theorem extends_endOfFlight (s : State) : s.Extends s.endOfFlight :=
  extends_ite (State.Extends.trans (extends_of_frame (onAcc_frame _ s) (by decide)) (extends_startWipe _ _))
    (extends_ite (extends_recheck s) (extends_refl s))

theorem extends_endAttempt (a : AttemptAnswer) (s : State) : s.Extends (s.endAttempt a) :=
  (extends_of_frame (answerAttempt_frame a s) (by decide)).trans (extends_endOfFlight _)

theorem extends_grant (i : SlotIx) (s : State) : s.Extends (s.grant i) := by
  unfold State.grant
  exact State.Extends.trans (extends_ite (extends_ite (extends_of_frame (openUnlocked_frame i s) (by decide))
    (extends_of_frame (openConfig_frame i s) (by decide))) (extends_refl s)) (extends_endAttempt _ _)

theorem extends_requestUses (i : SlotIx) (s : State) : s.Extends (s.requestUses i) :=
  extends_ite (extends_grant i s)
    (State.Extends.trans (extends_of_frame (onKeu_frame _ s) (by decide)) (extends_requestWrite _ _ _))

theorem extends_setLimiter (r : Limiter) (s : State) : s.Extends (s.setLimiter r) :=
  extends_of_frame (onAtl_frame _ s) (by decide)

theorem extends_refundDone (r : Limiter) (s : State) : s.Extends (s.refundDone r) := by
  unfold State.refundDone
  split
  · exact (extends_setLimiter r s).trans (extends_requestUses _ _)
  · exact (extends_setLimiter r s).trans (extends_grant _ _)
  · exact extends_setLimiter r s

theorem extends_spendDone (s : State) : s.Extends s.spendDone :=
  State.Extends.trans (extends_of_frame (onKeu_frame _ s) (by decide)) (extends_requestWrite _ _ _)

theorem extends_servedDone (r : Limiter) (s : State) : s.Extends (s.servedDone r) := by
  unfold State.servedDone
  extract_lets t u
  have ht : s.Extends t := extends_setLimiter r s
  exact extends_ite ((ht.trans (extends_enterLocked t)).trans (extends_of_frame (postP_frame _ u) (by decide))) ht

theorem extends_failAttemptOfEntry (b : Bool) (s : State) : s.Extends (s.failAttemptOfEntry b) := by
  unfold State.failAttemptOfEntry
  extract_lets f left n
  exact extends_ite ((extends_startWipe _ s).trans (extends_endAttempt _ _))
    (extends_ite (extends_endAttempt _ s)
      ((extends_of_frame (penalized_frame n s) (by decide)).trans (extends_endAttempt _ _)))

theorem extends_enrolled (s : State) : s.Extends s.enrolled :=
  (extends_ite (extends_enterLocked s) (extends_refl s)).trans
    (extends_of_frame (answerEnrolment_frame _ _) (by decide))

/-! ## The wipe's steps -/

theorem extends_destroySlot (i : SlotIx) (s : State) : s.Extends (s.destroySlot i) :=
  State.Extends.trans (extends_of_frame (changesOnly_append (answerSuperseded_frame i s) (setCell_frame _ _ _)) (by decide))
    (extends_requestWrite _ _ _)

theorem extends_destroy (d : Destroy) (s : State) : s.Extends (s.destroy d) := by
  cases d with
  | volume i => exact extends_writeVolume _ _ _ s
  | slot i => exact extends_destroySlot i s

theorem extends_passEnded (w : WipeRecord) (pass : Nat) (faulted : Bool) (s : State) :
    s.Extends (s.passEnded w pass faulted) :=
  extends_ite (extends_requestWrite _ _ s) (extends_ite
    (State.Extends.trans (extends_of_frame (onWpe_frame _ s) (by decide)) (extends_destroy _ _))
    (State.Extends.trans (extends_of_frame (onWpe_frame _ s) (by decide))
      (extends_of_frame (refreshRun_frame _) (by decide))))

theorem extends_rekeyVolume (i : VolIx) (first count target : Nat) (b : Bool) (s : State) :
    s.Extends (s.rekeyVolume i first count target b) :=
  State.Extends.trans (extends_of_frame (onKru_frame _ s) (by decide)) (extends_writeVolume _ _ _ _)

theorem extends_rekeyNext (w : WipeRecord) (k : Nat) (s : State) : s.Extends (s.rekeyNext w k) := by
  unfold State.rekeyNext State.rekeyOne
  split
  · split <;>
      exact State.Extends.trans (extends_of_frame (onWpe_frame _ s) (by decide)) (extends_rekeyVolume _ _ _ _ _ _)
  · exact extends_requestWrite _ _ s

theorem extends_formOrder (w : WipeRecord) (s : State) : s.Extends (s.formOrder w) := by
  unfold State.formOrder
  split
  · exact extends_requestWrite _ _ s
  · split
    · exact extends_ite (State.Extends.trans (extends_of_frame (onWpe_frame _ s) (by decide))
        (extends_of_frame (postB_frame _ _) (by decide))) (extends_requestWrite _ _ s)
    · exact extends_refl s

theorem extends_proceed (s : State) : s.Extends s.proceed := by
  refine extends_ite (extends_refl s) ?_
  split
  · exact extends_refl s
  · split
    case h_4 =>
      split
      · exact extends_destroy _ s
      · exact extends_passEnded _ _ _ s
    case h_5 =>
      exact State.Extends.trans (extends_of_frame (stopPenalty_frame s) (by decide)) (extends_requestWrite _ _ _)
    case h_6 => exact extends_requestWrite _ _ s
    case h_7 => exact extends_formOrder _ s
    case h_8 => exact extends_rekeyNext _ _ s
    all_goals exact extends_refl s

/-- The WPE is told of an answer, and goes on. -/
theorem extends_onWpe_proceed (f : Wpe → Wpe) (s : State) : s.Extends (s.onWpe f).proceed :=
  State.Extends.trans (extends_of_frame (onWpe_frame f s) (by decide)) (extends_proceed _)

theorem extends_closeWipe (w : WipeRecord) (s : State) : s.Extends (s.closeWipe w) := by
  unfold State.closeWipe
  extract_lets t
  have ht : s.Extends t := extends_of_frame (changesOnly_append (onWpe_frame _ s) (postP_frame _ _)) (by decide)
  exact extends_ite (ht.trans (extends_enterLocked t)) (ht.trans (extends_of_frame (changeAccess_frame _ _ t) (by decide)))

theorem extends_journalDone (which : JournalWrite) (j : Journal) (s : State) : s.Extends (s.journalDone which j) := by
  unfold State.journalDone
  extract_lets t
  have ht : s.Extends t := extends_of_frame (onWpe_frame _ s) (by decide)
  have hgo (u : State) (hu : t.Extends u) : s.Extends u.refreshRun.postWipeState.proceed :=
    (ht.trans hu).trans <| (extends_of_frame (changesOnly_append (refreshRun_frame u) (postWipeState_frame _))
      (by decide)).trans (extends_proceed _)
  refine extends_ite (extends_refl s) ?_
  split
  · split
    · exact ht.trans (extends_closeWipe _ t)
    · exact ht
  · split
    · exact hgo _ (extends_of_frame (onWpe_frame _ t) (by decide))
    · exact hgo _ (extends_of_frame (onWpe_frame _ t) (by decide))

/-! ## The ends of writes (R139, R140) -/

theorem extends_writeDone (e : WriteEntry) (s : State) : s.Extends (s.writeDone e) := by
  unfold State.writeDone
  split
  · unfold State.limiterWritten
    split
    · exact extends_of_frame (changesOnly_append (onAtl_frame _ s) (onKeu_frame _ _)) (by decide)
    · exact extends_refundDone _ s
    · exact extends_servedDone _ s
    · exact (extends_setLimiter _ s).trans (extends_onWpe_proceed _ _)
    · exact extends_setLimiter _ s
  · have hcell (i : SlotIx) (r : SlotRecord) : s.Extends (s.slotDone i r) :=
      extends_of_frame (setCell_frame _ _ s) (by decide)
    unfold State.slotWritten
    extract_lets t
    split
    · exact (hcell _ _).trans (extends_grant _ _)
    · exact (hcell _ _).trans (extends_spendDone _)
    · exact (hcell _ _).trans (extends_enrolled _)
    · exact (hcell _ _).trans (extends_of_frame (replyOkTo_frame _ _ _) (by decide))
    · exact (hcell _ _).trans (extends_onWpe_proceed _ _)
    · exact hcell _ _
  · unfold State.volumeWritten
    split
    · exact extends_partEnded _ s
    · exact extends_onWpe_proceed _ s
    · exact extends_onWpe_proceed _ s
    · exact extends_refl s
  · exact State.Extends.trans (extends_of_frame (onPlu_frame _ s) (by decide)) (extends_partEnded _ _)
  · exact State.Extends.trans (extends_of_frame (onPlu_frame _ s) (by decide)) (extends_partEnded _ _)
  · split
    · exact extends_journalDone _ _ s
    · exact extends_refl s
  · split
    · exact extends_of_frame (psetDone_frame _ _ _ s) (by decide)
    · exact extends_refl s
  · split
    · exact extends_of_frame (changesOnly_append (onPlu_frame _ s) (replyOkTo_frame _ _ _)) (by decide)
    · exact extends_refl s

theorem extends_psetFailed (carried : List Nat) (s : State) : s.Extends (s.psetFailed carried) := by
  unfold State.psetFailed
  extract_lets t u
  have hu : s.Extends u := extends_of_frame (changesOnly_append (onPlu_frame _ s)
    (answerStagings_frame (fun _ t => refuseTo_frame _ _ t) _ _)) (by decide)
  exact extends_ite (hu.trans (extends_requestPendingSet u)) hu

theorem extends_evaluationHalted (s : State) : s.Extends s.evaluationHalted :=
  (extends_of_frame (enterHalted_frame s) (by decide)).trans (extends_endAttempt _ _)

theorem extends_writeFailed (e : WriteEntry) (s : State) : s.Extends (s.writeFailed e) := by
  unfold State.writeFailed
  split
  · unfold State.limiterFailed
    split
    · exact extends_evaluationHalted s
    · exact extends_evaluationHalted s
    · exact extends_of_frame (enterHalted_frame s) (by decide)
  · have hcell (i : SlotIx) (r : SlotRecord) : s.Extends (s.slotFailed i r) :=
      extends_of_frame (setCell_frame _ _ s) (by decide)
    unfold State.slotWriteFailed
    split
    · exact (hcell _ _).trans (extends_grant _ _)
    · exact (hcell _ _).trans (extends_failAttemptOfEntry _ _)
    · exact (hcell _ _).trans (extends_of_frame (refuseEnrolment_frame _ _) (by decide))
    · exact (hcell _ _).trans (extends_of_frame (refuseTo_frame _ _ _) (by decide))
    · exact State.Extends.trans (extends_of_frame (setCell_frame _ _ s) (by decide)) (extends_onWpe_proceed _ _)
    · exact hcell _ _
  · have hvolume (i : VolIx) : s.Extends (s.volumeFailed i) := extends_of_frame (volumeFailed_frame i s) (by decide)
    unfold State.volumeWriteFailed
    extract_lets t
    split
    · exact (hvolume _).trans (extends_partEnded _ _)
    · exact (hvolume _).trans (extends_onWpe_proceed _ _)
    · exact (hvolume _).trans (extends_onWpe_proceed _ _)
    · exact hvolume _
  · exact State.Extends.trans (extends_of_frame (onPlu_frame _ s) (by decide)) (extends_partEnded _ _)
  · exact State.Extends.trans (extends_of_frame (changesOnly_append (setMap_frame _ s) (onPlu_frame _ _)) (by decide))
      (extends_partEnded _ _)
  · exact extends_of_frame (enterHalted_frame s) (by decide)
  · split
    · exact extends_psetFailed _ s
    · exact extends_refl s
  · split
    · exact extends_of_frame (changesOnly_append (onPlu_frame _ s) (refuseTo_frame _ _ _)) (by decide)
    · exact extends_refl s

/-- At the end of any write the oldest waiting entry becomes current, and the rest keep their order (R137). -/
theorem oldestTaken {w : CurrentWrite} {r : AttemptEnd} {e : WriteEntry} {rest : List WriteEntry} {s : State}
    (hw : s.rsc.current = some w) (hr : r = .passed ∨ w.attempt ≠ 1) (hq : s.rsc.queue = e :: rest) :
    ∃ t, exec (.storeWriteEnd r) s = .next t ∧
      (t.rsc.current.map fun c => (c.entry.id, c.attempt)) = some (e.id, 1) ∧
      rest.map WriteEntry.id <+: t.rsc.queue.map WriteEntry.id := by
  have htaken {m u : State} (hm : m.rsc = { current := none, queue := e :: rest }) (hu : m.Extends u) :
      ∃ t, finish u = .next t ∧ (t.rsc.current.map fun c => (c.entry.id, c.attempt)) = some (e.id, 1) ∧
        rest.map WriteEntry.id <+: t.rsc.queue.map WriteEntry.id := by
    obtain ⟨hc, hprefix⟩ := hu (by rw [hm]) (by rw [hm]; exact List.cons_ne_nil e rest)
    rw [hm] at hprefix
    rcases u.rsc.kick_cases with ⟨hsome, -⟩ | ⟨-, hnil, -⟩ | ⟨d, after, -, hqueue, hkick⟩
    · rw [hc] at hsome
      cases hsome
    · rw [hnil] at hprefix
      exact absurd (List.prefix_nil.mp hprefix) (List.cons_ne_nil _ _)
    · rw [hqueue, List.map_cons, List.map_cons, List.cons_prefix_cons] at hprefix
      refine ⟨_, rfl, ?_, ?_⟩
      · simp [hkick, hprefix.1]
      · simpa [hkick] using hprefix.2
  cases r with
  | passed =>
    rw [exec_passed hw]
    exact htaken (by rw [← hq]; rfl) (extends_writeDone w.entry (s.passed w.entry))
  | failed left =>
    rw [exec_failed left hw (hr.resolve_left fun h => (nomatch h))]
    exact htaken (by rw [← hq]; rfl) (extends_writeFailed w.entry (s.spoilt left w.entry))

end Sys2Proof.Machine
end

