-- ==== Sys2Proof/Proofs/PendingSetWrite.lean ====
section
/-! The end of a Pending Set write, with the stagings it carried (R124), and the slot command that a wipe's destroy
supersedes (R8). -/

namespace Sys2Proof.Machine

/-! ## The answers to the stagings -/

/-- The answer of a staging's requester, if it still waits. -/
def State.answerTo (o : Option Link) (mk : Byte → Result) (s : State) : State :=
  match o with
  | some l => s.answer l mk
  | none => s

theorem replyOkTo_eq (o : Option Link) (f : Fields) (s : State) : s.replyOkTo o f = s.answerTo o fun code => .ok code f := by
  cases o <;> rfl

theorem refuseTo_eq (o : Option Link) (r : Reason) (s : State) :
    s.refuseTo o r = s.answerTo o fun code => .refused code r 0 := by
  cases o <;> rfl

/-- The answers to a list of stagings, each to its requester. -/
def State.answerAll (res : Staging → Byte → Result) (gs : List Staging) (s : State) : State :=
  gs.foldl (fun t g => t.answerTo g.requester (res g)) s

theorem answerAll_done {l : Link} {r : Result} (res : Staging → Byte → Result) (gs : List Staging) {s : State}
    (h : (s.liu.port l).slot = .done r) : ((s.answerAll res gs).liu.port l).slot = .done r := by
  induction gs generalizing s with
  | nil => exact h
  | cons g rest ih =>
    refine ih (s := s.answerTo g.requester (res g)) ?_
    cases hg : g.requester with
    | none => exact h
    | some m => exact State.answer_slot_of_done _ h

/-- No two stagings have one requester, so each of them is answered its own result. -/
theorem answerAll_slot {l : Link} {cls : CmdClass} {code : Byte} (res : Staging → Byte → Result) {g : Staging}
    {gs : List Staging} {s : State} (hn : (gs.filterMap Staging.requester).Nodup) (hg : g ∈ gs)
    (hl : g.requester = some l) (hrun : (s.liu.port l).slot = .running cls code) :
    ((s.answerAll res gs).liu.port l).slot = .done (res g code) := by
  induction gs generalizing s with
  | nil => cases hg
  | cons h rest ih =>
    rcases List.mem_cons.mp hg with rfl | hmem
    · refine answerAll_done res rest (s := s.answerTo g.requester (res g)) ?_
      rw [hl]
      exact State.answer_slot _ hrun
    · have hrest : (rest.filterMap Staging.requester).Nodup :=
        hn.sublist ((List.sublist_cons_self h rest).filterMap _)
      refine ih (s := s.answerTo h.requester (res h)) hrest hmem ?_
      cases hr : h.requester with
      | none => exact hrun
      | some m =>
        have hne : l ≠ m := by
          rintro rfl
          rw [List.filterMap_cons_some hr, List.nodup_cons] at hn
          exact hn.1 (List.mem_filterMap.2 ⟨g, hmem, hl⟩)
        exact (State.answer_slot_of_ne hne _ s).trans hrun

/-- The stagings in flight have requesters of their own. -/
theorem State.WaitOk.requesters {s : State} (h : s.WaitOk) : (s.plu.inflight.filterMap Staging.requester).Nodup := by
  have ho := h.once
  rw [State.waiters, List.append_assoc] at ho
  exact (List.nodup_append.mp (List.nodup_append.mp ho).2.1).1

theorem CmdSlot.mem_runningCode {c : CmdSlot} {code : Byte} (h : code ∈ c.runningCode) : ∃ cls, c = .running cls code := by
  cases c with
  | running cls k => cases h; exact ⟨cls, rfl⟩
  | idle => cases h
  | done r => cases h

/-- The end of a Pending Set write: the stagings it carried leave flight, each with its answer. -/
theorem answerStagings_facts {mk : Staging → State → State} (res : Staging → Byte → Result)
    (hmk : ∀ g u, mk g u = u.answerTo g.requester (res g)) (ids : List Nat) {s : State}
    (hn : (s.plu.inflight.filterMap Staging.requester).Nodup) :
    (s.answerStagings mk ids).plu = { s.plu with inflight := s.plu.inflight.filter fun g => !ids.contains g.id } ∧
      (∀ g ∈ s.plu.inflight, g.id ∈ ids → ∀ l ∈ g.requester, ∀ code ∈ (s.liu.port l).slot.runningCode,
        ((s.answerStagings mk ids).liu.port l).slot = .done (res g code)) := by
  have heq : s.answerStagings mk ids = (s.onPlu fun p =>
      { p with inflight := p.inflight.filter fun g => !ids.contains g.id }).answerAll res
        (s.plu.inflight.filter fun g => ids.contains g.id) := by
    simp only [State.answerStagings, hmk]
    rfl
  have hplu (gs : List Staging) (u : State) : (u.answerAll res gs).plu = u.plu :=
    foldl_frame (l := [.liu]) (fun t g => by
      cases hg : g.requester with
      | none => exact changesOnly_refl _ _
      | some m => exact answer_frame m _ t) gs u .plu (by decide)
  refine ⟨by rw [heq, hplu]; rfl, fun g hg hid l hl code hcode => ?_⟩
  obtain ⟨cls, hrun⟩ := CmdSlot.mem_runningCode hcode
  rw [heq]
  exact answerAll_slot res (hn.sublist (List.filter_sublist.filterMap _))
    (List.mem_filter.2 ⟨hg, by simpa using hid⟩) hl hrun

/-! ## Both ends of the write (R124) -/

section
variable {a : PendingSet} {ids : List Nat} {disc : Bool} {n : Nat} {s : State} (hwait : s.WaitOk)
  (hw : s.rsc.current = some { entry := { contents := .pset a, purpose := .pset ids disc }, attempt := n })
include hwait hw

theorem psetWrite_passed :
    ∃ t, exec (.storeWriteEnd .passed) s = .next t ∧ t.store.pset.read = .valid a ∧
      t.plu.committed = (if disc = true then s.plu.committed else a) ∧ t.plu.psetFault = false ∧
      t.plu.inflight = s.plu.inflight.filter (fun g => !ids.contains g.id) ∧
      t.plu.policy = s.plu.policy ∧ t.plu.map = s.plu.map ∧
      t.rsc = Rsc.kick { current := none, queue := s.rsc.queue } ∧
      (∀ g ∈ s.plu.inflight, g.id ∈ ids → ∀ l ∈ g.requester, ∀ code ∈ (s.liu.port l).slot.runningCode,
        (t.liu.port l).slot = .done (.ok code g.result)) ∧
      State.changesOnly [.store, .rsc, .plu, .liu] s t := by
  let m := s.passed { contents := .pset a, purpose := .pset ids disc }
  have hframe : State.changesOnly [.plu, .liu] m (m.psetDone a ids disc) := psetDone_frame a ids disc m
  obtain ⟨hplu, hanswers⟩ := answerStagings_facts (fun g code => .ok code g.result) (fun g u => replyOkTo_eq _ _ u) ids
    (s := m.onPlu fun p => { p with committed := if disc then p.committed else a
                                    psetFault := false
                                    removing := if m.psetWaits then p.removing else .empty }) hwait.requesters
  rw [exec_passed hw]
  refine ⟨_, rfl, ?_, ?_, ?_, ?_, ?_, ?_, ?_, hanswers, ?_⟩
  · show (m.psetDone a ids disc).store.pset.read = .valid a
    rw [hframe .store (by decide)]
    exact Location.read_complete a s.store.pset
  · exact (congrArg Plu.committed hplu).trans rfl
  · exact (congrArg Plu.psetFault hplu).trans rfl
  · exact (congrArg Plu.inflight hplu).trans rfl
  · exact (congrArg Plu.policy hplu).trans rfl
  · exact (congrArg Plu.map hplu).trans rfl
  · exact congrArg Rsc.kick (hframe .rsc (by decide))
  · exact changesOnly_mono (changesOnly_append (passed_frame _ s) <| changesOnly_append hframe (onRsc_frame _ _))
      (by decide)

theorem psetWrite_failed (left : Residue) (hn : n ≠ 1) :
    ∃ t, exec (.storeWriteEnd (.failed left)) s = .next t ∧
      t.plu.committed = s.plu.committed ∧ t.plu.psetFault = true ∧
      t.plu.policy = s.plu.policy ∧ t.plu.map = s.plu.map ∧
      t.plu.inflight = s.plu.inflight.filter (fun g => !ids.contains g.id) ∧
      (∀ g ∈ s.plu.inflight, g.id ∈ ids → ∀ l ∈ g.requester, ∀ code ∈ (s.liu.port l).slot.runningCode,
        (t.liu.port l).slot = .done (.refused code .storeFault 0)) ∧
      State.changesOnly [.store, .rsc, .plu, .liu] s t := by
  let m := s.spoilt left { contents := .pset a, purpose := .pset ids disc }
  let u := m.onPlu fun p => { p with psetFault := true, removing := if m.psetWaits then p.removing else .empty }
  obtain ⟨hplu, hanswers⟩ := answerStagings_facts (s := u) (fun _ code => .refused code .storeFault 0)
    (fun g u => refuseTo_eq _ _ u) ids hwait.requesters
  have hlast : State.changesOnly [.rsc]
      (u.answerStagings (fun g v => v.refuseTo g.requester .storeFault) ids) (m.psetFailed ids) :=
    changesOnly_ite (fun _ => requestPendingSet_frame _) fun _ => changesOnly_refl _ _
  have hplu' := (hlast .plu (by decide)).trans hplu
  rw [exec_failed left hw hn]
  refine ⟨_, rfl, ?_, ?_, ?_, ?_, ?_, fun g hg hid l hl code hcode => ?_, ?_⟩
  · exact (congrArg Plu.committed hplu').trans rfl
  · exact (congrArg Plu.psetFault hplu').trans rfl
  · exact (congrArg Plu.policy hplu').trans rfl
  · exact (congrArg Plu.map hplu').trans rfl
  · exact (congrArg Plu.inflight hplu').trans rfl
  · rw [← hanswers g hg hid l hl code hcode]
    exact congrArg (fun v => (v.port l).slot) (hlast .liu (by decide))
  · exact changesOnly_mono (changesOnly_append (spoilt_frame left _ s) <|
      changesOnly_append (psetFailed_frame ids m) (onRsc_frame _ _)) (by decide)

end

theorem Rsc.kick_of_none (q : List WriteEntry) : Rsc.kick { current := none, queue := q } = (match q with
    | [] => { current := none, queue := [] }
    | e :: rest => { current := some { entry := e, attempt := 1 }, queue := rest }) := by
  cases q <;> rfl

/-! ## A slot command superseded by a destroy (R8) -/

theorem waitingPurpose_of_mem {w : WriteEntry} {before : List WriteEntry} (behind : List WriteEntry)
    (h : ∀ v ∈ before, v.id ≠ w.id) : waitingPurpose w.id (before ++ w :: behind) = some w.purpose := by
  induction before with
  | nil => rw [List.nil_append, waitingPurpose, if_pos rfl]
  | cons v rest ih =>
    rw [List.cons_append, waitingPurpose, if_neg (h v List.mem_cons_self)]
    exact ih fun u hu => h u (List.mem_cons_of_mem v hu)

/-- The destroy of a slot whose administration command waits refuses the command, and takes the entry's place. -/
theorem destroySlot_supersedes {i : SlotIx} {r : SlotRecord} {l : Link} {cls : CmdClass} {code : Byte}
    {before behind : List WriteEntry} {s : State} (hc : s.rsc.current = none)
    (hq : s.rsc.queue = before ++ { contents := .slot i r, purpose := .admin (some l) } :: behind)
    (hb : ∀ v ∈ before, v.id ≠ .slot i) (hrun : (s.liu.port l).slot = .running cls code) :
    ∃ t, finish (s.destroySlot i) = .next t ∧ (t.liu.port l).slot = .done (.refused code .wiping 0) ∧
      t.rsc.entries = before ++ { contents := .slot i .empty, purpose := .slotDestroy i (s.slotRec i).verifier } :: behind := by
  have hwaits : waitingPurpose (.slot i) s.rsc.queue = some (.admin (some l)) := by
    rw [hq]
    exact waitingPurpose_of_mem (w := { contents := .slot i r, purpose := .admin (some l) }) behind hb
  have heq : s.destroySlot i = ((s.refuse l .wiping).setCell i { s.cell i with record := .empty }).requestWrite
      (.slot i .empty) (.slotDestroy i (s.slotRec i).verifier) := by
    simp only [State.destroySlot, State.answerSuperseded, hwaits]
    rfl
  rw [heq]
  refine ⟨_, rfl, State.answer_slot _ hrun, ?_⟩
  show (Rsc.kick (s.rsc.request _)).entries = _
  have hne : ¬ (s.rsc.current = none ∧ s.rsc.queue = []) := by
    rintro ⟨-, hnil⟩
    rw [hq] at hnil
    simp at hnil
  have hrequest : s.rsc.request { contents := .slot i .empty, purpose := .slotDestroy i (s.slotRec i).verifier } =
      { current := none, queue := before ++
          { contents := .slot i .empty, purpose := .slotDestroy i (s.slotRec i).verifier } :: behind } := by
    rw [Rsc.request, if_neg hne, hc, hq]
    congr 1
    exact enqueueEntry_replace behind hb rfl
  rw [Rsc.kick_entries, hrequest]
  rfl

/-- Settles O57: the ends of the write, the queue's order, and the slot command that a destroy supersedes. -/
theorem pendingSetWriteEnds : Obligations.PendingSetWriteEnds := by
  intro a ids disc n left s
  refine ⟨fun hwait hw => ⟨?_, fun hn => psetWrite_failed hwait hw left hn⟩, ?_, ?_, ?_⟩
  · obtain ⟨t, ht, hread, hcommitted, hfault, hinflight, hpolicy, hmap, hrsc, hrest⟩ := psetWrite_passed hwait hw
    exact ⟨t, ht, hread, hcommitted, hfault, hinflight, hpolicy, hmap, hrsc.trans (Rsc.kick_of_none _), hrest⟩
  · intro w r e rest hw hr hq
    exact oldestTaken hw hr hq
  · intro e w before behind hb
    exact ⟨enqueueEntry_append hb, fun hw => enqueueEntry_replace behind hb hw⟩
  · intro j k p f e d i r l cls code before behind hwiping hcore hrun hj hp hd hnext hw hwrites hq hbefore hfree hslot
    obtain ⟨m, hexec, hm, -, -⟩ := destroyWrite_ends .passed hw (fun h => absurd rfl h) (.inl rfl) hwrites
    have hwpe : m.wpe = s.wpe := hm.frame .wpe (by decide)
    have hact : m.MayAct :=
      { wiping := by rw [hm.frame .acc (by decide), hwiping]
        core := (State.corePowered_congr (hm.frame .pins (by decide)) (hm.frame .ssv (by decide))).trans hcore
        run := by rw [hwpe, hrun]
        free := by
          rw [State.wipeBusy, hm.rsc, hq, Rsc.purposes_eq, List.any_map, List.any_eq_false]
          intro v hv
          rcases List.mem_append.mp hv with hv | hv
          · cases hv
          · rcases List.mem_append.mp hv with hv | hv
            · simp [hfree v (List.mem_append_left _ hv)]
            · rcases List.mem_cons.mp hv with rfl | hv
              · exact Bool.false_ne_true
              · simp [hfree v (List.mem_append_right _ hv)] }
    have hcell : m.cell i = s.cell i := hm.cells i fun h => keysOrder_next_ne hd hnext h.symm
    obtain ⟨t, ht, hdone, hentries⟩ := destroySlot_supersedes
      (s := m.atPosition (.keys (k + 1) p (f || !true))) (by show m.rsc.current = none; rw [hm.rsc])
      (by show m.rsc.queue = _; rw [hm.rsc]; exact hq) hbefore
      (by show (m.liu.port l).slot = _; rw [hm.frame .liu (by decide)]; exact hslot)
    refine ⟨t, ?_, hdone, ?_⟩
    · rw [hexec, ← ht, show (AttemptEnd.passed == .passed) = true from rfl,
        destroyAnswered_eq hact (by rw [hwpe, hj]) (by rw [hwpe, hp]), State.keysNext, hnext]
      rfl
    · show t.rsc.entries = _
      rw [hentries, show (m.atPosition (.keys (k + 1) p (f || !true))).slotRec i = s.slotRec i from
        congrArg SlotCell.record hcell]

end Sys2Proof.Machine
end

