-- ==== Sys2Proof/Proofs/AppliedParts.lean ====
section
/-! The parts of an application of the committed Pending Set (R95, R129): the policy, the map and the volumes it leaves,
and the write each part asks for. -/

namespace Sys2Proof.Machine

/-! ## Several requests (R136) -/

/-- Requests placed one after another. -/
def Rsc.requests (r : Rsc) (l : List WriteEntry) : Rsc := l.foldl (fun q e => q.request e) r

theorem Rsc.requests_append (r : Rsc) (l m : List WriteEntry) : r.requests (l ++ m) = (r.requests l).requests m :=
  List.foldl_append

/-- A request leaves the writes of other records. -/
theorem Rsc.mem_request_of_ne {d e : WriteEntry} {r : Rsc} (h : d.id ≠ e.id) (hd : d ∈ r.entries) :
    d ∈ (r.request e).entries := by
  rcases r.request_cases e with ⟨hc, hq, -⟩ | ⟨-, hr⟩
  · simp [Rsc.entries, hc, hq] at hd
  · rw [hr]
    simp only [Rsc.entries, List.mem_append] at hd ⊢
    exact hd.imp id (mem_enqueueEntry_of_ne h r.queue).mpr

theorem Rsc.mem_of_requests {d : WriteEntry} {r : Rsc} {l : List WriteEntry} (h : d ∈ (r.requests l).entries) :
    d ∈ l ∨ d ∈ r.entries := by
  induction l generalizing r with
  | nil => exact .inr h
  | cons e rest ih =>
    rcases ih (r := r.request e) h with hm | hm
    · exact .inl (List.mem_cons_of_mem e hm)
    · rcases Rsc.mem_request hm with rfl | hm
      · exact .inl List.mem_cons_self
      · exact .inr hm

theorem Rsc.mem_requests_of_mem {d : WriteEntry} {r : Rsc} {l : List WriteEntry} (hd : d ∈ r.entries)
    (hl : ∀ e ∈ l, d.id ≠ e.id) : d ∈ (r.requests l).entries := by
  induction l generalizing r with
  | nil => exact hd
  | cons e rest ih =>
    exact ih (r := r.request e) (Rsc.mem_request_of_ne (hl e List.mem_cons_self) hd)
      fun v hv => hl v (List.mem_cons_of_mem e hv)

/-- Requests of different records are all placed. -/
theorem Rsc.mem_requests {d : WriteEntry} {r : Rsc} {l : List WriteEntry} (hn : (l.map WriteEntry.id).Nodup) (hd : d ∈ l) :
    d ∈ (r.requests l).entries := by
  induction l generalizing r with
  | nil => cases hd
  | cons e rest ih =>
    rw [List.map_cons, List.nodup_cons] at hn
    rcases List.mem_cons.mp hd with rfl | hm
    · refine Rsc.mem_requests_of_mem (r := r.request d) (Rsc.mem_request_self d r) fun v hv he => hn.1 ?_
      rw [he]
      exact List.mem_map_of_mem hv
    · exact ih (r := r.request e) hn.2 hm

/-! ## The policy (R129 step 1) -/

theorem Policy.value_put_self (p q : Policy) (f : PolicyField) (n : Nat) : (p.put f n).value f = (q.put f n).value f := by
  cases f <;> rfl

theorem Policy.value_put_of_ne (p : Policy) {f g : PolicyField} (n : Nat) (h : g ≠ f) : (p.put f n).value g = p.value g := by
  cases f <;> cases g <;> first | rfl | exact absurd rfl h

/-- A field's value once staged values are laid over a policy. -/
def Policy.laid (p : Policy) (v : StagedPolicy) (g : PolicyField) : Nat :=
  match v.get g.number with
  | some n => (p.put g n).value g
  | none => p.value g

/-- One staged field laid over a policy. -/
def Policy.lay (v : StagedPolicy) (q : Policy) (f : PolicyField) : Policy :=
  match v.at f with
  | some n => q.put f n
  | none => q

theorem Policy.lay_value (v : StagedPolicy) (q : Policy) (f g : PolicyField) :
    (Policy.lay v q f).value g = if f = g then q.laid v g else q.value g := by
  unfold Policy.lay Policy.laid
  by_cases h : f = g
  · subst h
    rw [if_pos rfl]
    cases hv : v.at f <;> rw [show v.get f.number = _ from hv]
  · rw [if_neg h]
    cases v.at f with
    | none => rfl
    | some n => exact Policy.value_put_of_ne q n (Ne.symm h)

theorem Policy.lay_laid (v : StagedPolicy) (q : Policy) (f g : PolicyField) : (Policy.lay v q f).laid v g = q.laid v g := by
  cases hg : v.get g.number with
  | some n =>
    simp only [Policy.laid, hg]
    exact Policy.value_put_self _ _ g n
  | none =>
    have hv := Policy.lay_value v q f g
    simp only [Policy.laid, hg, ite_self] at hv ⊢
    exact hv

theorem Policy.overlay_value (p : Policy) (v : StagedPolicy) (g : PolicyField) : (p.overlay v).value g = p.laid v g := by
  have hfold (l : List PolicyField) (q : Policy) :
      (l.foldl (Policy.lay v) q).value g = if g ∈ l then q.laid v g else q.value g := by
    induction l generalizing q with
    | nil => simp
    | cons f rest ih =>
      rw [List.foldl_cons, ih, Policy.lay_laid, Policy.lay_value]
      by_cases hr : g ∈ rest
      · simp [hr]
      · by_cases hf : f = g
        · simp [hf]
        · simp [hr, hf, Ne.symm hf]
  rw [show p.overlay v = PolicyField.all.foldl (Policy.lay v) p from rfl, hfold, if_pos (PolicyField.mem_all g)]

theorem Policy.raiseThreshold_value (p : Policy) {g : PolicyField} (h : g ≠ .wipeThreshold) :
    p.raiseThreshold.value g = p.value g := by
  unfold Policy.raiseThreshold
  split
  · cases g <;> first | rfl | exact absurd rfl h
  · rfl

theorem Policy.raiseThreshold_threshold (p : Policy) : p.raiseThreshold.wipeThreshold =
    if p.wipeThreshold ≤ p.freeAttempts then p.freeAttempts + 1 else p.wipeThreshold := by
  unfold Policy.raiseThreshold
  split_ifs <;> rfl

theorem PolicyField.exists_number (i : Fin 16) : ∃ f : PolicyField, f.number = i := by
  have h : ∀ i : Fin 16, ∃ f ∈ PolicyField.all, f.number = i := by decide
  obtain ⟨f, -, hf⟩ := h i
  exact ⟨f, hf⟩

theorem StagedPolicy.isEmpty_iff (v : StagedPolicy) :
    StagedPolicy.isEmpty v = true ↔ ∀ f : PolicyField, v.get f.number = none := by
  rw [StagedPolicy.isEmpty, Vector.all_eq_true]
  constructor
  · intro h f
    simpa [Vector.get_eq_getElem] using h f.number f.number.isLt
  · intro h i hi
    obtain ⟨f, hf⟩ := PolicyField.exists_number ⟨i, hi⟩
    have hn := h f
    rw [hf] at hn
    simpa [Vector.get_eq_getElem] using hn

/-- The policy after an application. -/
def State.newPolicy (s : State) : Policy :=
  if StagedPolicy.isEmpty s.takenPolicy = true then s.plu.policy
  else (s.plu.policy.overlay s.takenPolicy).raiseThreshold

/-- The write the policy part asks for, if any. -/
def State.policyAsk (s : State) : List WriteEntry :=
  if s.newPolicy = s.plu.policy then [] else [{ contents := .policy s.newPolicy, purpose := .policyApply }]

theorem applyPolicy_facts (s : State) :
    s.applyPolicy.1.plu = { s.plu with policy := s.newPolicy } ∧ s.applyPolicy.1.rsc = s.rsc.requests s.policyAsk ∧
      s.applyPolicy.2 = (if StagedPolicy.isEmpty s.takenPolicy = true then .absent
        else if s.newPolicy = s.plu.policy then .done else .waiting) := by
  unfold State.applyPolicy State.policyAsk
  extract_lets v q
  have hq : StagedPolicy.isEmpty v ≠ true → s.newPolicy = q := fun h => if_neg h
  by_cases he : StagedPolicy.isEmpty v = true
  · have hn : s.newPolicy = s.plu.policy := if_pos he
    rw [if_pos he, if_pos hn, hn, if_pos he]
    exact ⟨rfl, rfl, rfl⟩
  · rw [if_neg he, hq he, if_neg he]
    by_cases hs : q = s.plu.policy
    · rw [if_pos hs, if_pos hs, if_pos hs, hs]
      exact ⟨rfl, rfl, rfl⟩
    · rw [if_neg hs, if_neg hs, if_neg hs]
      exact ⟨rfl, rfl, rfl⟩

/-- A part of the policy that is not taken leaves its field. -/
theorem Policy.laid_of_none {p : Policy} {v : StagedPolicy} {g : PolicyField} (h : v.get g.number = none) :
    p.laid v g = p.value g := by
  rw [Policy.laid, h]

theorem State.newPolicy_laid (s : State) {g : PolicyField} (hg : g ≠ .wipeThreshold) :
    s.newPolicy.value g = s.plu.policy.laid s.takenPolicy g := by
  unfold State.newPolicy
  split_ifs with he
  · rw [Policy.laid_of_none ((StagedPolicy.isEmpty_iff _).mp he g)]
  · rw [Policy.raiseThreshold_value _ hg, Policy.overlay_value]

/-- Each field but WIPE_THRESHOLD takes its staged value, the held ones only while F is 0 (R43, R129). -/
theorem State.newPolicy_value (s : State) {g : PolicyField} (hg : g ≠ .wipeThreshold) :
    s.newPolicy.value g = (match s.plu.committed.policy.get g.number with
      | some n => if s.atl.limiter.fails ≠ 0 ∧ g.held = true then s.plu.policy.value g else (s.plu.policy.put g n).value g
      | none => s.plu.policy.value g) := by
  rw [State.newPolicy_laid s hg, Policy.laid, State.takenPolicy_get]
  cases s.plu.committed.policy.get g.number with
  | none => simp only [ite_self]
  | some n =>
    by_cases hh : s.atl.limiter.fails ≠ 0 ∧ g.held = true
    · simp only [if_pos hh]
    · simp only [if_neg hh]

/-- The staged WIPE_THRESHOLD, raised where it would not exceed FREE_ATTEMPTS. -/
theorem State.newPolicy_raised (s : State) (h : s.plu.policy.freeAttempts < s.plu.policy.wipeThreshold) :
    s.newPolicy.wipeThreshold =
      if s.plu.policy.laid s.takenPolicy .wipeThreshold ≤ s.newPolicy.freeAttempts then s.newPolicy.freeAttempts + 1
      else s.plu.policy.laid s.takenPolicy .wipeThreshold := by
  have hfree : s.newPolicy.freeAttempts = s.plu.policy.laid s.takenPolicy .freeAttempts :=
    State.newPolicy_laid s (g := .freeAttempts) (by decide)
  rw [hfree]
  by_cases he : StagedPolicy.isEmpty s.takenPolicy = true
  · have hnone (g : PolicyField) := (StagedPolicy.isEmpty_iff _).mp he g
    rw [show s.newPolicy = s.plu.policy from if_pos he, Policy.laid_of_none (hnone _), Policy.laid_of_none (hnone _),
      show s.plu.policy.value .wipeThreshold = s.plu.policy.wipeThreshold from rfl]
    exact (if_neg (Nat.not_le.mpr h)).symm
  · rw [show s.newPolicy = (s.plu.policy.overlay s.takenPolicy).raiseThreshold from if_neg he,
      Policy.raiseThreshold_threshold, ← Policy.overlay_value, ← Policy.overlay_value]
    rfl

/-- WIPE_THRESHOLD takes its staged value while F is 0, and stays above FREE_ATTEMPTS. -/
theorem State.newPolicy_threshold (s : State) (h : s.plu.policy.freeAttempts < s.plu.policy.wipeThreshold) :
    s.newPolicy.wipeThreshold =
      (let w := (s.plu.committed.policy.get 3).getD s.plu.policy.wipeThreshold
       if s.atl.limiter.fails ≠ 0 then s.plu.policy.wipeThreshold
       else if w ≤ s.newPolicy.freeAttempts then s.newPolicy.freeAttempts + 1 else w) ∧
      s.newPolicy.freeAttempts < s.newPolicy.wipeThreshold := by
  have hraised := s.newPolicy_raised h
  refine ⟨?_, by rw [hraised]; split_ifs <;> omega⟩
  rw [hraised]
  by_cases h0 : s.atl.limiter.fails ≠ 0
  · have hnone {g : PolicyField} (hg : g.held = true) : s.takenPolicy.get g.number = none := by
      rw [State.takenPolicy_get, if_pos ⟨h0, hg⟩]
    have hfree : s.newPolicy.freeAttempts = s.plu.policy.freeAttempts :=
      (State.newPolicy_laid s (g := .freeAttempts) (by decide)).trans (Policy.laid_of_none (hnone rfl))
    rw [if_pos h0, hfree, Policy.laid_of_none (hnone rfl)]
    exact if_neg (Nat.not_le.mpr h)
  · have hw : s.plu.policy.laid s.takenPolicy .wipeThreshold =
        (s.plu.committed.policy.get 3).getD s.plu.policy.wipeThreshold := by
      rw [Policy.laid, State.takenPolicy_get, if_neg fun hh => h0 hh.1,
        show PolicyField.wipeThreshold.number = 3 from rfl]
      cases s.plu.committed.policy.get 3 <;> rfl
    rw [if_neg h0, hw]

/-! ## The map (R129 step 2) -/

/-- The map after an application. -/
def State.newMap (s : State) : LockMap := s.plu.map.overlay s.plu.committed.map

/-- The write the map part asks for, if any. -/
def State.mapAsk (s : State) : List WriteEntry :=
  if s.newMap = s.plu.map then [] else [{ contents := .map s.newMap, purpose := .mapApply }]

theorem State.setMap_plu (m : LockMap) (s : State) : (s.setMap m).plu = { s.plu with map := m } := by
  unfold State.setMap
  extract_lets t u
  have hu : u.plu = t.plu := changesOnly_ite (l := [.liu]) (fun _ => changesOnly_refl _ t)
    (fun _ => postAccessChanged_frame t) .plu (by decide)
  rw [tellGate_frame _ u .plu (by decide), hu]
  rfl

theorem applyMap_facts (s : State) :
    s.applyMap.1.plu = { s.plu with map := s.newMap } ∧ s.applyMap.1.rsc = s.rsc.requests s.mapAsk ∧
      s.applyMap.2 = (if s.plu.committed.map = .empty then .absent
        else if s.newMap = s.plu.map then .done else .waiting) := by
  unfold State.applyMap State.mapAsk
  extract_lets v m
  have hm : s.newMap = m := rfl
  by_cases he : v = .empty
  · have hn : s.newMap = s.plu.map := by
      rw [State.newMap, show s.plu.committed.map = .empty from he]
      rfl
    rw [if_pos he, if_pos hn, hn, if_pos he]
    exact ⟨rfl, rfl, rfl⟩
  · rw [if_neg he, hm, if_neg he]
    by_cases hs : m = s.plu.map
    · rw [if_pos hs, if_pos hs, if_pos hs, hs]
      exact ⟨rfl, rfl, rfl⟩
    · rw [if_neg hs, if_neg hs, if_neg hs]
      refine ⟨State.setMap_plu m s, ?_, rfl⟩
      show (s.setMap m).rsc.request _ = _
      rw [setMap_frame m s .rsc (by decide)]
      rfl

/-! ## The volumes (R95, R129 step 3) -/

/-- A volume once a staged definition is applied, `n` keys having been drawn. -/
def VolumeRecord.applied (r : VolumeRecord) (o : Option VolumeDef) (n : Nat) : VolumeRecord :=
  match o with
  | none => r
  | some .unused => if r.state = .unused then r else VolumeRecord.unused r.kgen
  | some (.range first count ro) =>
    if r.keeps (.range first count ro) then { r with readOnly := some ro }
    else { state := .present, first := some first, count := some count, key := some (Config.freshKey n),
           keyState := .live, kgen := nextKgen r.kgen, readOnly := some ro, incomplete := some false }

/-- The keys an application draws for a volume: one where its range changes. -/
def VolumeRecord.draws (r : VolumeRecord) (o : Option VolumeDef) : Nat := if o.any fun d => !r.keeps d then 1 else 0

/-- How the part of a volume stands: `o` staged, `r` before and `q` after. -/
def VolumeRecord.status (o : Option VolumeDef) (r q : VolumeRecord) : PartStatus :=
  if o = none then .absent else if q = r then .done else .waiting

/-- The write the part of a volume asks for, if any. -/
def VolumeRecord.ask (i : VolIx) (r q : VolumeRecord) : List WriteEntry :=
  if q = r then [] else [{ contents := .volume i q, purpose := .volumeApply i }]

theorem nextKgen_ne (n : Nat) : nextKgen n ≠ n := by
  unfold nextKgen
  split_ifs with h
  · rw [h]
    decide
  · omega

/-- A volume that an application changes: it takes the record, and its write is asked for. -/
def State.volumeApplied (i : VolIx) (q : VolumeRecord) (n : Nat) (s : State) : State :=
  { s with kru := { volumes := s.kru.volumes.set i q, keyDraws := n }
           rsc := s.rsc.requests (VolumeRecord.ask i (s.volume i) q) }

theorem State.volumeApplied_same (i : VolIx) (s : State) :
    s.volumeApplied i (s.volume i) s.kru.keyDraws = s := by
  have hv : s.kru.volumes.set i (s.volume i) = s.kru.volumes := by
    apply Vector.ext
    intro j hj
    simp only [State.volume, Vector.get_eq_getElem, Vector.getElem_set]
    split_ifs with h
    · simp only [h]
    · rfl
  rw [State.volumeApplied, hv, VolumeRecord.ask, if_pos rfl]
  rfl

/-- A change with no new key is the volume's write alone. -/
theorem State.volumeApplied_of_ne {i : VolIx} {q : VolumeRecord} {s : State} (h : q ≠ s.volume i) (n : Nat) :
    s.volumeApplied i q n = (s.onKru fun k => { k with keyDraws := n }).writeVolume i q (.volumeApply i) := by
  rw [State.volumeApplied, VolumeRecord.ask, if_neg h]
  rfl

theorem State.applyDef_eq (i : VolIx) (d : VolumeDef) (s : State) :
    s.applyDef i d =
      (s.volumeApplied i ((s.volume i).applied (some d) s.kru.keyDraws)
        (s.kru.keyDraws + (s.volume i).draws (some d)),
       decide ((s.volume i).applied (some d) s.kru.keyDraws ≠ s.volume i)) := by
  cases d with
  | unused =>
    have hn : (s.volume i).draws (some .unused) = 0 := rfl
    simp only [State.applyDef, VolumeRecord.applied, hn, Nat.add_zero]
    by_cases hu : (s.volume i).state = .unused
    · simp [hu, State.volumeApplied_same]
    · have hne : VolumeRecord.unused (s.volume i).kgen ≠ s.volume i := fun h => hu (by rw [← h]; rfl)
      simp only [if_neg hu, State.volumeApplied_of_ne hne, ne_eq, hne, not_false_eq_true, decide_true]
      rfl
  | range first count ro =>
    by_cases hk : (s.volume i).state = .present ∧ (s.volume i).first = some first ∧ (s.volume i).count = some count
    · have hkeeps : (s.volume i).keeps (.range first count ro) = true := decide_eq_true hk
      have hn : (s.volume i).draws (some (.range first count ro)) = 0 := by simp [VolumeRecord.draws, hkeeps]
      simp only [State.applyDef, VolumeRecord.applied, hn, hkeeps, if_true, if_pos hk, Nat.add_zero]
      by_cases hr : (s.volume i).readOnly = some ro
      · have hsame : { s.volume i with readOnly := some ro } = s.volume i := by rw [← hr]
        simp only [if_pos hr, hsame, State.volumeApplied_same, ne_eq, not_true_eq_false, decide_false]
      · have hne : { s.volume i with readOnly := some ro } ≠ s.volume i := fun h => hr (by rw [← h])
        simp only [if_neg hr, State.volumeApplied_of_ne hne, ne_eq, hne, not_false_eq_true, decide_true]
        rfl
    · have hkeeps : (s.volume i).keeps (.range first count ro) = false := decide_eq_false hk
      have hn : (s.volume i).draws (some (.range first count ro)) = 1 := by simp [VolumeRecord.draws, hkeeps]
      have hne : (s.volume i).applied (some (.range first count ro)) s.kru.keyDraws ≠ s.volume i := fun h =>
        nextKgen_ne (s.volume i).kgen (by simpa [VolumeRecord.applied, hkeeps] using congrArg VolumeRecord.kgen h)
      rw [State.volumeApplied_of_ne hne, hn, decide_eq_true hne]
      simp only [State.applyDef, VolumeRecord.applied, hkeeps, if_neg hk]
      rfl

theorem State.applyVolume_eq (i : VolIx) (s : State) :
    let o := s.plu.committed.volumes.get i
    let q := (s.volume i).applied o s.kru.keyDraws
    s.applyVolume i =
      (s.volumeApplied i q (s.kru.keyDraws + (s.volume i).draws o), VolumeRecord.status o (s.volume i) q) := by
  unfold State.applyVolume
  cases s.plu.committed.volumes.get i with
  | none => exact Prod.ext (State.volumeApplied_same i s).symm rfl
  | some d =>
    simp only [State.applyDef_eq, VolumeRecord.status, reduceCtorEq, if_false, decide_eq_true_eq, ite_not]

/-- The write the part of a volume asks for in an application. -/
def State.volumeAsk (s : State) (i : VolIx) : List WriteEntry := VolumeRecord.ask i (s.volume i) (s.appliedVolume i)

/-- Keys drawn once the volumes below `k` are applied. -/
def State.drawnTo (k : Nat) (s : State) : Nat :=
  (([0, 1, 2, 3] : List VolIx).map fun u =>
    if u.val < k then (s.volume u).draws (s.plu.committed.volumes.get u) else 0).sum

/-- The application has come as far as the volumes below `k`. -/
structure State.AppliedTo (k : Nat) (s t : State) : Prop where
  plu : t.plu = s.plu
  volumes : ∀ v : VolIx, t.volume v = if v.val < k then s.appliedVolume v else s.volume v
  draws : t.kru.keyDraws = s.kru.keyDraws + s.drawnTo k
  rsc : t.rsc = s.rsc.requests ((([0, 1, 2, 3] : List VolIx).filter fun u => u.val < k).flatMap s.volumeAsk)

theorem State.drawnBefore_eq (v : VolIx) (s : State) : s.drawnBefore v = s.drawnTo v.val := by
  have hcount (u : VolIx) (l : List VolIx) (p : VolIx → Bool) :
      ((u :: l).filter p).length = (if p u = true then 1 else 0) + (l.filter p).length := by
    rw [List.filter_cons]
    split_ifs <;> simp [Nat.add_comm]
  have hdraws (u : VolIx) : (if (u < v && (s.plu.committed.volumes.get u).any fun d => !(s.volume u).keeps d) = true
      then 1 else 0) = if u.val < v.val then (s.volume u).draws (s.plu.committed.volumes.get u) else 0 := by
    by_cases h : u < v
    · simp [h, VolumeRecord.draws, Fin.lt_def.mp h]
    · simp [h, mt Fin.lt_def.mpr h]
  simp only [State.drawnBefore, State.drawnTo, hcount, hdraws, List.filter_nil, List.length_nil, List.map_cons,
    List.map_nil, List.sum_cons, List.sum_nil]

theorem State.appliedVolume_eq (v : VolIx) (s : State) :
    s.appliedVolume v =
      (s.volume v).applied (s.plu.committed.volumes.get v) (s.kru.keyDraws + s.drawnTo v.val) := by
  rw [← State.drawnBefore_eq]
  unfold State.appliedVolume VolumeRecord.applied
  cases s.plu.committed.volumes.get v with
  | none => rfl
  | some d => cases d <;> rfl

theorem State.AppliedTo.zero (s : State) : State.AppliedTo 0 s s :=
  ⟨rfl, fun _ => rfl, rfl, rfl⟩

theorem State.drawnTo_succ (i : VolIx) (s : State) :
    s.drawnTo (i.val + 1) = s.drawnTo i.val + (s.volume i).draws (s.plu.committed.volumes.get i) := by
  fin_cases i <;> simp [State.drawnTo, Nat.add_assoc]

theorem filter_lt_succ (i : VolIx) : (([0, 1, 2, 3] : List VolIx).filter fun u => u.val < i.val + 1) =
    (([0, 1, 2, 3] : List VolIx).filter fun u => u.val < i.val) ++ [i] := by
  revert i
  decide

theorem State.volumeApplied_volume (i v : VolIx) (q : VolumeRecord) (n : Nat) (s : State) :
    (s.volumeApplied i q n).volume v = if i = v then q else s.volume v := Vector.get_set_eq ..

theorem State.AppliedTo.step {i : VolIx} {s t : State} (h : State.AppliedTo i.val s t) :
    State.AppliedTo (i.val + 1) s (t.applyVolume i).1 ∧ (t.applyVolume i).2 =
      VolumeRecord.status (s.plu.committed.volumes.get i) (s.volume i) (s.appliedVolume i) := by
  have hvolume : t.volume i = s.volume i := (h.volumes i).trans (if_neg (Nat.lt_irrefl _))
  have hq : (t.volume i).applied (t.plu.committed.volumes.get i) t.kru.keyDraws = s.appliedVolume i := by
    rw [State.appliedVolume_eq, hvolume, h.plu, h.draws]
  have heq := State.applyVolume_eq i t
  simp only [hq] at heq
  rw [heq]
  refine ⟨⟨h.plu, fun v => ?_, ?_, ?_⟩, ?_⟩
  · rw [State.volumeApplied_volume, h.volumes v]
    by_cases hv : i = v
    · rw [if_pos hv, ← hv, if_pos (Nat.lt_succ_self _)]
    · have hlt : v.val < i.val + 1 ↔ v.val < i.val := by
        have := Fin.val_ne_of_ne hv
        omega
      simp only [if_neg hv, hlt]
  · show t.kru.keyDraws + (t.volume i).draws (t.plu.committed.volumes.get i) = _
    rw [hvolume, h.plu, h.draws, State.drawnTo_succ, Nat.add_assoc]
  · show t.rsc.requests (VolumeRecord.ask i (t.volume i) _) = _
    rw [h.rsc, hvolume, ← Rsc.requests_append, filter_lt_succ, List.flatMap_append, List.flatMap_singleton]
    rfl
  · rw [hvolume, h.plu]

theorem applyVolumes_facts (s : State) :
    State.AppliedTo 4 s s.applyVolumes.1 ∧ ∀ v : VolIx, s.applyVolumes.2.get v =
      VolumeRecord.status (s.plu.committed.volumes.get v) (s.volume v) (s.appliedVolume v) := by
  obtain ⟨h1, p0⟩ := (State.AppliedTo.zero s).step (i := 0)
  obtain ⟨h2, p1⟩ := h1.step (i := 1)
  obtain ⟨h3, p2⟩ := h2.step (i := 2)
  obtain ⟨h4, p3⟩ := h3.step (i := 3)
  refine ⟨h4, fun v => ?_⟩
  fin_cases v
  · exact p0
  · exact p1
  · exact p2
  · exact p3

end Sys2Proof.Machine
end

