-- ==== Sys2Proof/Proofs/Applied.lean ====
section
/-! The application of the committed Pending Set at an entry into LOCKED: its parts together, the writes it asks for,
and how it settles (R129, R130). -/

namespace Sys2Proof.Machine

/-! ## Settling (R130) -/

/-- The Pending Set write that removes the done parts of an application, if any. -/
def State.settleAsk (a : Application) (s : State) : List WriteEntry :=
  if a.waits = true ∨ a.doneParts = .empty then []
  else [{ contents := .pset (s.plu.inflight.foldl (fun b g => b.overlay g.parts)
            (s.plu.committed.less (s.plu.removing.overlay a.doneParts)))
          purpose := .pset (s.plu.inflight.map Staging.id) false }]

theorem settle_facts {a : Application} {s : State} (h : s.plu.applying = some a) :
    s.settle.plu = (if a.waits = true then s.plu
      else { s.plu with applying := none, removing := s.plu.removing.overlay a.doneParts }) ∧
    s.settle.rsc = s.rsc.requests (s.settleAsk a) := by
  unfold State.settle State.settleAsk
  rw [h]
  by_cases hw : a.waits = true
  · simp only [hw, true_or, if_true, true_and]
    rfl
  · by_cases hd : a.doneParts = .empty
    · simp only [if_neg hw, hd, or_true, if_true]
      exact ⟨rfl, rfl⟩
    · simp only [hd, hw, or_self, if_false, Bool.false_eq_true]
      exact ⟨rfl, rfl⟩

theorem Application.waits_iff (a : Application) : a.waits = true ↔
    a.policy = .waiting ∨ a.map = .waiting ∨ ∃ v : VolIx, a.volumes.get v = .waiting := by
  simp only [Application.waits, Bool.or_eq_true, beq_iff_eq, or_assoc, Vector.any_eq_true]
  refine or_congr Iff.rfl <| or_congr Iff.rfl ?_
  constructor
  · rintro ⟨i, hi, h⟩
    exact ⟨⟨i, hi⟩, h⟩
  · rintro ⟨v, h⟩
    exact ⟨v.val, v.isLt, h⟩

/-! ## The application whole (R129) -/

/-- The parts an application takes, and how each stands at first. -/
def State.application (s : State) : Application :=
  { taken := { s.plu.committed with policy := s.takenPolicy }, policy := s.applyPolicy.2, map := s.applyPolicy.1.applyMap.2
    volumes := s.applyPolicy.1.applyMap.1.applyVolumes.2 }

/-- The writes an application asks for, before it settles. -/
def State.partAsks (s : State) : List WriteEntry :=
  s.policyAsk ++ s.mapAsk ++ ([0, 1, 2, 3] : List VolIx).flatMap s.volumeAsk

/-- The state once the parts are applied, before the application settles. -/
def State.partsApplied (s : State) : State :=
  s.applyPolicy.1.applyMap.1.applyVolumes.1.onPlu fun p => { p with applying := some s.application }

theorem applyPendingSet_eq (s : State) : s.applyPendingSet = s.partsApplied.settle := rfl

theorem State.appliedVolume_congr {s u : State} (hk : u.kru = s.kru) (hc : u.plu.committed = s.plu.committed) (v : VolIx) :
    u.appliedVolume v = s.appliedVolume v := by
  simp only [State.appliedVolume_eq, State.drawnTo, State.volume, hk, hc]

theorem partsApplied_facts (s : State) :
    s.partsApplied.plu = { s.plu with policy := s.newPolicy, map := s.newMap, applying := some s.application } ∧
    (∀ v : VolIx, s.partsApplied.volume v = s.appliedVolume v) ∧
    s.partsApplied.rsc = s.rsc.requests s.partAsks ∧
    s.application.policy = (if StagedPolicy.isEmpty s.takenPolicy = true then .absent
      else if s.newPolicy = s.plu.policy then .done else .waiting) ∧
    s.application.map = (if s.plu.committed.map = .empty then .absent
      else if s.newMap = s.plu.map then .done else .waiting) ∧
    ∀ v : VolIx, s.application.volumes.get v =
      VolumeRecord.status (s.plu.committed.volumes.get v) (s.volume v) (s.appliedVolume v) := by
  have hf1 := applyPolicy_facts s
  have hk1 : s.applyPolicy.1.kru = s.kru := applyPolicy_frame s .kru (by decide)
  unfold State.partsApplied State.application
  generalize s.applyPolicy = r1 at *
  obtain ⟨hplu1, hrsc1, hst1⟩ := hf1
  have hf2 := applyMap_facts r1.1
  have hk2 : r1.1.applyMap.1.kru = r1.1.kru := applyMap_frame r1.1 .kru (by decide)
  generalize r1.1.applyMap = r2 at *
  obtain ⟨hplu2, hrsc2, hst2⟩ := hf2
  have hf3 := applyVolumes_facts r2.1
  generalize r2.1.applyVolumes = r3 at *
  obtain ⟨h3, hst3⟩ := hf3
  have hmap : r1.1.newMap = s.newMap := by simp only [State.newMap, hplu1]
  have hmapAsk : r1.1.mapAsk = s.mapAsk := by simp only [State.mapAsk, hmap, hplu1]
  rw [hplu1, hmap] at hplu2
  have hcommitted : r2.1.plu.committed = s.plu.committed := by rw [hplu2]
  have hvol (v : VolIx) : r2.1.volume v = s.volume v := by simp only [State.volume, hk2, hk1]
  have happ (v : VolIx) : r2.1.appliedVolume v = s.appliedVolume v :=
    State.appliedVolume_congr (hk2.trans hk1) hcommitted v
  have hvolAsk : r2.1.volumeAsk = s.volumeAsk := funext fun v => by simp only [State.volumeAsk, hvol, happ]
  refine ⟨?_, fun v => ?_, ?_, hst1, ?_, fun v => ?_⟩
  · simp only [State.onPlu, h3.plu, hplu2]
  · exact (h3.volumes v).trans ((if_pos v.isLt).trans (happ v))
  · show r3.1.rsc = _
    rw [h3.rsc, hrsc2, hrsc1, hmapAsk, hvolAsk, State.partAsks, Rsc.requests_append, Rsc.requests_append]
    rfl
  · simp only [hst2, hmap, hplu1]
  · rw [hst3 v, hvol, happ, hcommitted]

/-- Every write an application asks for. -/
def State.allAsks (s : State) : List WriteEntry := s.partAsks ++ s.partsApplied.settleAsk s.application

theorem allAsks_nodup (s : State) : (s.allAsks.map WriteEntry.id).Nodup := by
  have hpolicy : (s.policyAsk.map WriteEntry.id).Sublist [.policy] := by
    unfold State.policyAsk
    split_ifs <;> simp [WriteEntry.id, Contents.id]
  have hmap : (s.mapAsk.map WriteEntry.id).Sublist [.map] := by
    unfold State.mapAsk
    split_ifs <;> simp [WriteEntry.id, Contents.id]
  have hvolume (v : VolIx) : ((s.volumeAsk v).map WriteEntry.id).Sublist [.volume v] := by
    unfold State.volumeAsk VolumeRecord.ask
    split_ifs <;> simp [WriteEntry.id, Contents.id]
  have hset : ((s.partsApplied.settleAsk s.application).map WriteEntry.id).Sublist [.pset] := by
    unfold State.settleAsk
    split_ifs <;> simp [WriteEntry.id, Contents.id]
  have hall : (s.allAsks.map WriteEntry.id).Sublist
      ([.policy] ++ [.map] ++ ([.volume 0] ++ ([.volume 1] ++ ([.volume 2] ++ ([.volume 3] ++ [])))) ++ [.pset]) := by
    simp only [State.allAsks, State.partAsks, List.flatMap_cons, List.flatMap_nil, List.map_append]
    exact ((hpolicy.append hmap).append <| (hvolume 0).append <| (hvolume 1).append <| (hvolume 2).append <|
      (hvolume 3).append (List.Sublist.refl _)).append hset
  exact hall.nodup (by decide)

theorem applyPendingSet_rsc (s : State) : s.applyPendingSet.rsc = s.rsc.requests s.allAsks := by
  obtain ⟨hplu, -, hrsc, -⟩ := partsApplied_facts s
  rw [applyPendingSet_eq, (settle_facts (by rw [hplu])).2, hrsc, State.allAsks, Rsc.requests_append]

/-- What an application asks for is written on. -/
theorem applyPendingSet_writing {c : Contents} {p : Purpose} {s : State}
    (h : { contents := c, purpose := p } ∈ s.allAsks) : s.applyPendingSet.writing c p := by
  rw [State.writing_iff, applyPendingSet_rsc]
  exact Rsc.mem_requests (allAsks_nodup s) h

theorem applyPendingSet_writing_old {c : Contents} {p : Purpose} {s : State} (h : s.applyPendingSet.writing c p)
    (hno : { contents := c, purpose := p } ∉ s.allAsks) : s.writing c p := by
  rw [State.writing_iff, applyPendingSet_rsc] at h
  exact (State.writing_iff c p s).mpr ((Rsc.mem_of_requests h).resolve_left hno)

theorem mem_settleAsk {a : Application} {e : WriteEntry} {s : State} (h : e ∈ s.settleAsk a) : e.id = .pset := by
  unfold State.settleAsk at h
  split_ifs at h
  · cases h
  · rw [List.mem_singleton.mp h]
    rfl

theorem mem_allAsks {e : WriteEntry} {s : State} (h : e ∈ s.allAsks) :
    e ∈ s.policyAsk ∨ e ∈ s.mapAsk ∨ (∃ v, e ∈ s.volumeAsk v) ∨ e.id = .pset := by
  simp only [State.allAsks, State.partAsks, List.mem_append, List.mem_flatMap] at h
  rcases h with ((h | h) | ⟨v, -, h⟩) | h
  · exact .inl h
  · exact .inr (.inl h)
  · exact .inr (.inr (.inl ⟨v, h⟩))
  · exact .inr (.inr (.inr (mem_settleAsk h)))

theorem applyPendingSet_volume (v : VolIx) (s : State) : s.applyPendingSet.volume v = s.appliedVolume v := by
  obtain ⟨-, hvolume, -⟩ := partsApplied_facts s
  have hkru : s.applyPendingSet.kru = s.partsApplied.kru := settle_frame s.partsApplied .kru (by decide)
  rw [State.volume, hkru]
  exact hvolume v

/-- What an application leaves of the settings. -/
theorem applyPendingSet_plu (s : State) : s.applyPendingSet.plu =
    if s.application.waits = true then
      { s.plu with policy := s.newPolicy, map := s.newMap, applying := some s.application }
    else { s.plu with policy := s.newPolicy, map := s.newMap, applying := none,
                      removing := s.plu.removing.overlay s.application.doneParts } := by
  obtain ⟨hplu, -⟩ := partsApplied_facts s
  rw [applyPendingSet_eq, (settle_facts (by rw [hplu])).1, hplu]

theorem applyPendingSet_policy (s : State) : s.applyPendingSet.plu.policy = s.newPolicy := by
  rw [applyPendingSet_plu]
  split_ifs <;> rfl

theorem applyPendingSet_map (s : State) : s.applyPendingSet.plu.map = s.newMap := by
  rw [applyPendingSet_plu]
  split_ifs <;> rfl

/-- A part is written, or no new write of its kind is asked for. -/
theorem policyAsk_writing (s : State) :
    if s.newPolicy = s.plu.policy then
      ∀ q, s.applyPendingSet.writing (.policy q) .policyApply → s.writing (.policy q) .policyApply
    else s.applyPendingSet.writing (.policy s.newPolicy) .policyApply := by
  split_ifs with h
  · refine fun q hq => applyPendingSet_writing_old hq fun hm => ?_
    rcases mem_allAsks hm with hm | hm | ⟨v, hm⟩ | hm
    · rw [State.policyAsk, if_pos h] at hm
      cases hm
    · unfold State.mapAsk at hm
      split_ifs at hm <;> simp at hm
    · unfold State.volumeAsk VolumeRecord.ask at hm
      split_ifs at hm <;> simp at hm
    · cases hm
  · exact applyPendingSet_writing (by simp [State.allAsks, State.partAsks, State.policyAsk, h])

theorem mapAsk_writing (s : State) :
    if s.newMap = s.plu.map then ∀ m, s.applyPendingSet.writing (.map m) .mapApply → s.writing (.map m) .mapApply
    else s.applyPendingSet.writing (.map s.newMap) .mapApply := by
  split_ifs with h
  · refine fun q hq => applyPendingSet_writing_old hq fun hm => ?_
    rcases mem_allAsks hm with hm | hm | ⟨v, hm⟩ | hm
    · unfold State.policyAsk at hm
      split_ifs at hm <;> simp at hm
    · rw [State.mapAsk, if_pos h] at hm
      cases hm
    · unfold State.volumeAsk VolumeRecord.ask at hm
      split_ifs at hm <;> simp at hm
    · cases hm
  · exact applyPendingSet_writing (by simp [State.allAsks, State.partAsks, State.mapAsk, h])

theorem volumeAsk_writing (v : VolIx) (s : State) :
    if s.appliedVolume v = s.volume v then
      ∀ r, s.applyPendingSet.writing (.volume v r) (.volumeApply v) → s.writing (.volume v r) (.volumeApply v)
    else s.applyPendingSet.writing (.volume v (s.appliedVolume v)) (.volumeApply v) := by
  split_ifs with h
  · refine fun q hq => applyPendingSet_writing_old hq fun hm => ?_
    rcases mem_allAsks hm with hm | hm | ⟨u, hm⟩ | hm
    · unfold State.policyAsk at hm
      split_ifs at hm <;> simp at hm
    · unfold State.mapAsk at hm
      split_ifs at hm <;> simp at hm
    · unfold State.volumeAsk VolumeRecord.ask at hm
      split_ifs at hm with hu
      · cases hm
      · obtain ⟨⟨rfl, -⟩, -⟩ := by simpa using hm
        exact hu h
    · cases hm
  · refine applyPendingSet_writing ?_
    have hm : { contents := .volume v (s.appliedVolume v), purpose := .volumeApply v } ∈ s.volumeAsk v := by
      simp [State.volumeAsk, VolumeRecord.ask, h]
    simp only [State.allAsks, State.partAsks, List.mem_append, List.mem_flatMap]
    exact .inl (.inr ⟨v, mem_allVolumes v, hm⟩)

theorem takesParts_application (s : State) : s.takesParts s.atl.limiter.fails s.application s.applyPendingSet := by
  obtain ⟨-, -, -, hpolicy, hmap, hvolumes⟩ := partsApplied_facts s
  have htaken (p : PolicyField) : s.application.taken.policy.get p.number =
      if s.atl.limiter.fails ≠ 0 ∧ p.held = true then none else s.plu.committed.policy.get p.number :=
    State.takenPolicy_get s p
  have hempty : (∀ p ∈ PolicyField.all, s.application.taken.policy.get p.number = none) ↔
      StagedPolicy.isEmpty s.takenPolicy = true :=
    Iff.trans ⟨fun h f => h f (PolicyField.mem_all f), fun h f _ => h f⟩ (StagedPolicy.isEmpty_iff _).symm
  refine ⟨fun p _ => htaken p, rfl, rfl, ?_, ?_, fun v => ?_⟩
  · rw [hpolicy, applyPendingSet_policy]
    exact (if_congr hempty rfl rfl).symm
  · rw [hmap, applyPendingSet_map]
  · rw [hvolumes, applyPendingSet_volume, VolumeRecord.status]

theorem concludes_application (s : State) : s.concludes s.application s.applyPendingSet := by
  obtain ⟨hplu, -⟩ := partsApplied_facts s
  refine ⟨by rw [applyPendingSet_plu]; split_ifs <;> rfl, ?_⟩
  by_cases hw : s.application.waits = true
  · rw [if_pos ((Application.waits_iff _).mp hw), applyPendingSet_plu, if_pos hw]
    exact ⟨rfl, rfl⟩
  · rw [if_neg (mt (Application.waits_iff _).mpr hw)]
    have hset := applyPendingSet_plu s
    rw [if_neg hw] at hset
    rw [hset]
    refine ⟨rfl, rfl, fun hd => applyPendingSet_writing ?_⟩
    simp only [State.allAsks, List.mem_append]
    refine .inr ?_
    rw [State.settleAsk, if_neg (by simp [hw, hd]), hplu]
    exact List.mem_singleton_self _

theorem applyPendingSet_applies (s : State) : s.appliesSet s.applyPendingSet := by
  have hatl : s.applyPendingSet.atl = s.atl := applyPendingSet_frame s .atl (by decide)
  unfold State.appliesSet
  simp only [applyPendingSet_policy, applyPendingSet_map, applyPendingSet_volume, hatl]
  exact ⟨fun p _ hp => s.newPolicy_value hp, s.newPolicy_threshold, rfl, fun _ => trivial, policyAsk_writing s,
    mapAsk_writing s, fun v => volumeAsk_writing v s, _, takesParts_application s, concludes_application s⟩

/-- The application of a set, seen from a state that holds the same settings and volumes and at least the writes, to one
that has the same of all it speaks of. -/
theorem State.appliesSet.of_agree {s u t w : State} (h : u.appliesSet t) (hplu : u.plu = s.plu) (hkru : u.kru = s.kru)
    (hold : ∀ c p, u.writing c p → s.writing c p) (hplu' : w.plu = t.plu) (hkru' : w.kru = t.kru)
    (hatl' : w.atl = t.atl) (hnew : ∀ c p, w.writing c p ↔ t.writing c p) : s.appliesSet w := by
  have happ (v : VolIx) : u.appliedVolume v = s.appliedVolume v := State.appliedVolume_congr hkru (by rw [hplu]) v
  have hvol (v : VolIx) : u.volume v = s.volume v := by simp only [State.volume, hkru]
  have hvol' (v : VolIx) : w.volume v = t.volume v := by simp only [State.volume, hkru']
  have himp {α : Type} {c : α → Contents} {p : Purpose} (h : ∀ a, t.writing (c a) p → u.writing (c a) p) (a : α)
      (ha : t.writing (c a) p) : s.writing (c a) p := hold _ _ (h a ha)
  obtain ⟨hvalues, hthreshold, hmap, hvolumes, hpolicyW, hmapW, hvolumeW, a, htakes, hconcludes⟩ := h
  unfold State.takesParts State.concludes at *
  unfold State.appliesSet State.takesParts State.concludes
  simp only [hplu', hatl', hvol', hnew, ← hplu, ← hvol, ← happ]
  refine ⟨hvalues, hthreshold, hmap, hvolumes, ?_, ?_, fun v => ?_, a, htakes, hconcludes⟩
  · split_ifs at hpolicyW ⊢
    · exact himp hpolicyW
    · exact hpolicyW
  · split_ifs at hmapW ⊢
    · exact himp hmapW
    · exact hmapW
  · have hw := hvolumeW v
    split_ifs at hw ⊢
    · exact himp hw
    · exact hw

/-- An entry into LOCKED applies the Pending Set (R73, R129). -/
theorem enterLocked_applies {s u w : State} (hplu : u.plu = s.plu) (hkru : u.kru = s.kru)
    (hold : ∀ c p, u.writing c p → s.writing c p) (hw : w = u.enterLocked.onRsc Rsc.kick) : s.appliesSet w := by
  have hchange : State.changesOnly [.acc, .keu, .liu] u.applyPendingSet u.enterLocked := by
    rw [State.enterLocked]
    exact changeAccess_frame _ _ _
  subst hw
  generalize u.enterLocked = t at *
  refine (applyPendingSet_applies u).of_agree hplu hkru hold (hchange .plu (by decide)) (hchange .kru (by decide))
    (hchange .atl (by decide)) fun c p => ?_
  rw [State.writing_iff, State.writing_iff, ← hchange .rsc (by decide)]
  exact iff_of_eq (congrArg _ (Rsc.kick_entries _))

end Sys2Proof.Machine
end

