-- ==== Sys2Proof/Proofs/Recheck.lean ====
section
/-! The re-check after a grant (R62, log entry 24): how the drive stands once the conditions have acted again on the
state just opened. -/

namespace Sys2Proof.Machine

/-! ## No entry in hand -/

/-- No digits are held and no flight stands. -/
def State.Quiet (s : State) : Prop := s.keu.digits = [] ∧ s.keu.flight = none

theorem State.Quiet.of_frame {l : List Block} {s t : State} (h : s.Quiet) (hf : State.changesOnly l s t)
    (hl : Block.keu ∉ l) : t.Quiet := by
  have hk : t.keu = s.keu := hf .keu hl
  rwa [State.Quiet, hk]

theorem State.Quiet.interruptEntry {s : State} (h : s.Quiet) : s.interruptEntry.Quiet := by
  unfold State.interruptEntry State.endDialogue State.autoDialogue
  obtain ⟨hdigits, hflight⟩ := h
  split_ifs
  · exact ⟨hdigits, hflight⟩
  · exact ⟨rfl, hflight⟩
  · exact ⟨rfl, hflight⟩

theorem State.Quiet.changeAccess {s : State} (a : Access) (o : Option SlotIx) (h : s.Quiet) : (s.changeAccess a o).Quiet :=
  have hs : (s.onAcc fun c => { c with access := a, openSlot := o }).Quiet := h
  hs.interruptEntry.of_frame (postAccessChanged_frame _) (by decide)

theorem State.Quiet.tellGate {s : State} (o : Bool) (h : s.Quiet) : (s.tellGate o).Quiet := by
  unfold State.tellGate
  split_ifs
  · exact h
  · exact h.interruptEntry
  · exact h
  · exact h

theorem State.Quiet.setMap {s : State} (m : LockMap) (h : s.Quiet) : (s.setMap m).Quiet := by
  unfold State.setMap
  extract_lets t u
  have hu : State.changesOnly [.liu] t u := changesOnly_ite (fun _ => changesOnly_refl _ t) fun _ => postAccessChanged_frame t
  have ht : t.Quiet := h
  exact (ht.of_frame hu (by decide)).tellGate _

theorem State.Quiet.applyMap {s : State} (h : s.Quiet) : s.applyMap.1.Quiet := by
  unfold State.applyMap
  extract_lets v m
  split_ifs
  · exact h
  · exact h
  · exact (h.setMap m).of_frame (requestWrite_frame _ _ _) (by decide)

theorem State.Quiet.enterLocked {s : State} (h : s.Quiet) : s.enterLocked.Quiet := by
  have hmap := (h.of_frame (applyPolicy_frame s) (by decide)).applyMap
  exact ((hmap.of_frame (applyVolumes_frame _) (by decide)).of_frame
    (changesOnly_append (onPlu_frame _ _) (settle_frame _)) (by decide)).changeAccess _ _

theorem State.Quiet.enterLocking {s : State} (c : LockCause) (h : s.Quiet) : (s.enterLocking c).Quiet := by
  unfold State.enterLocking
  extract_lets n t
  have ht : t.Quiet := h
  exact (ht.of_frame (postB_frame _ t) (by decide)).changeAccess _ _

theorem armWipe_frame (c : WipeCause) (s : State) : State.changesOnly [.wpe, .rsc] s (s.armWipe c) :=
  changesOnly_append (onWpe_frame _ s) (requestWrite_frame _ _ _)

theorem State.Quiet.startWipe {s : State} (c : WipeCause) (h : s.Quiet) : (s.startWipe c).Quiet := by
  unfold State.startWipe
  split_ifs
  · exact h
  · have hd : (s.quitForWipe.stopPenalty.discardPendingSet.armWipe c).Quiet :=
      h.of_frame (changesOnly_append (quitForWipe_frame s) <| changesOnly_append (stopPenalty_frame _) <|
        changesOnly_append (discardPendingSet_frame _) (armWipe_frame c _)) (by decide)
    exact hd.changeAccess _ _

/-! ## What a lock leaves alone -/

/-- What a lock or its offer leaves alone, seen from the state it began in. -/
structure State.Follows (g t : State) : Prop where
  quiet : g.Quiet → t.Quiet
  frame : State.changesOnly lockBlocks g t
  ports : g.SamePorts t
  heldWipe : t.acc.heldWipe = g.acc.heldWipe

theorem follows_refl (g : State) : g.Follows g := ⟨id, changesOnly_refl _ g, .refl g, rfl⟩

theorem State.Follows.trans {g t u : State} (h : g.Follows t) (k : t.Follows u) : g.Follows u :=
  ⟨k.quiet ∘ h.quiet, changesOnly_trans h.frame k.frame, h.ports.trans k.ports, k.heldWipe.trans h.heldWipe⟩

theorem follows_completeLock (s : State) : s.Follows s.completeLock :=
  ⟨fun h => (h.of_frame (closeOpen_frame s) (by decide)).enterLocked,
    changesOnly_trans (changesOnly_mono (closeOpen_frame s) (by decide)) (enterLocked_frame _), samePorts_completeLock s,
    by rw [State.completeLock_acc]; rfl⟩

theorem follows_endConfig (s : State) : s.Follows s.endConfig :=
  ⟨fun h => (show s.leaveConfig.Quiet from h).enterLocked,
    changesOnly_trans (changesOnly_mono (onAcc_frame _ s) (by decide)) (enterLocked_frame _), samePorts_endConfig s,
    by rw [State.endConfig_acc]⟩

theorem follows_enterLocking (c : LockCause) (s : State) : s.Follows (s.enterLocking c) :=
  ⟨fun h => h.enterLocking c, changesOnly_mono (enterLocking_frame c s) (by decide), samePorts_enterLocking c s,
    by rw [State.enterLocking_acc]⟩

theorem follows_orderly (c : LockCause) (s : State) : s.Follows (s.orderly c) := by
  unfold State.orderly
  split
  · split_ifs
    · exact follows_enterLocking c s
    · exact follows_completeLock s
  · exact follows_endConfig s
  all_goals exact follows_refl s

theorem follows_forced (s : State) : s.Follows s.forced := by
  unfold State.forced
  split
  · exact follows_completeLock s
  · exact follows_completeLock s
  · exact follows_endConfig s
  all_goals exact follows_refl s

/-- The actions that the re-check raises again. -/
theorem follows_recheckOne (active : Bool) (a : LockAction) (c : LockCause) (s : State) :
    s.Follows (if active && rechecked a then s.raise c (causeAction a) else s) := by
  cases active with
  | false => exact follows_refl s
  | true =>
    cases a with
    | none => exact follows_refl s
    | orderly => exact follows_orderly c s
    | forced => exact follows_forced s
    | wipe => exact follows_refl s

/-! ## How the drive stands -/

/-- How the drive stands once conditions have acted on a state just opened. -/
inductive Standing where
  | asOpened
  | offered (c : LockCause)
  | locked
  deriving DecidableEq

/-- An ORDERLY action: the drive just opened is offered to the bridge where it can be, and locked otherwise. -/
def Standing.orderly (offers : Bool) (c : LockCause) : Standing → Standing
  | .asOpened => if offers then .offered c else .locked
  | .offered d => .offered d
  | .locked => .locked

/-- What a condition makes of a standing, by whether it acts FORCED or ORDERLY. -/
def Standing.meets (offers forced orderly : Bool) (c : LockCause) (x : Standing) : Standing :=
  if forced then .locked else if orderly then x.orderly offers c else x

/-- A state stands so, seen from the state just opened. -/
def State.StandsAs (g : State) (x : Standing) (t : State) : Prop :=
  match x with
  | .asOpened => t = g
  | .offered c => t.acc.access = .locking ∧ t.acc.openSlot = g.acc.openSlot ∧ t.acc.lockCause = some c ∧
      State.changesOnly [.acc, .keu, .liu] g t
  | .locked => ∃ u, State.changesOnly [.acc, .keu, .liu] g u ∧ t = u.enterLocked

/-- The bridge is offered an ORDERLY lock. -/
def State.offers (g : State) : Bool := g.acc.access == .unlocked && g.liu.bridge == .attached

section
variable {g t : State} {x : Standing} (ho : g.acc.access = .unlocked ∨ g.acc.access = .config)

theorem stands_completeLock (h : State.changesOnly [.acc, .keu, .liu] g t) : g.StandsAs .locked t.completeLock :=
  ⟨t.closeOpen, changesOnly_trans h (changesOnly_mono (closeOpen_frame t) (by decide)), rfl⟩

theorem stands_endConfig : g.StandsAs .locked g.endConfig :=
  ⟨g.leaveConfig, changesOnly_mono (onAcc_frame _ g) (by decide), rfl⟩

/-- A LOCKED drive is not acted on. -/
theorem orderly_enterLocked (c : LockCause) (u : State) : u.enterLocked.orderly c = u.enterLocked := by
  simp [State.orderly]

theorem forced_enterLocked (u : State) : u.enterLocked.forced = u.enterLocked := by
  simp [State.forced]

include ho

theorem State.StandsAs.orderly (c : LockCause) (h : g.StandsAs x t) : g.StandsAs (x.orderly g.offers c) (t.orderly c) := by
  cases x with
  | asOpened =>
    obtain rfl : t = g := h
    rcases ho with ho | ho
    · by_cases hb : t.liu.bridge = .attached
      · simp only [Standing.orderly, State.offers, State.orderly, ho, hb, beq_self_eq_true, Bool.and_self, if_true]
        exact ⟨by simp, by simp, by simp, enterLocking_frame c t⟩
      · simp only [Standing.orderly, State.offers, State.orderly, ho, beq_self_eq_true, Bool.true_and, beq_iff_eq, hb,
          if_false]
        exact stands_completeLock (changesOnly_refl _ t)
    · simp only [Standing.orderly, State.offers, State.orderly, ho]
      exact stands_endConfig
  | offered d =>
    have hs : t.orderly c = t := by simp [State.orderly, h.1]
    rw [hs]
    exact h
  | locked =>
    obtain ⟨u, hu, rfl⟩ := h
    rw [orderly_enterLocked]
    exact ⟨u, hu, rfl⟩

theorem State.StandsAs.forced (h : g.StandsAs x t) : g.StandsAs .locked t.forced := by
  cases x with
  | asOpened =>
    obtain rfl : t = g := h
    rcases ho with ho | ho
    · simp only [State.forced, ho]
      exact stands_completeLock (changesOnly_refl _ t)
    · simp only [State.forced, ho]
      exact stands_endConfig
  | offered d =>
    obtain ⟨haccess, -, -, hframe⟩ := h
    simp only [State.forced, haccess]
    exact stands_completeLock hframe
  | locked =>
    obtain ⟨u, hu, rfl⟩ := h
    rw [forced_enterLocked]
    exact ⟨u, hu, rfl⟩

/-- One condition of the re-check. -/
theorem State.StandsAs.recheckOne (active : Bool) (a : LockAction) (c : LockCause) (h : g.StandsAs x t) :
    g.StandsAs (x.meets g.offers (active && a == .forced) (active && a == .orderly) c)
      (if active && rechecked a then t.raise c (causeAction a) else t) := by
  cases active with
  | false => exact h
  | true =>
    cases a with
    | none => exact h
    | orderly => exact h.orderly ho c
    | forced => exact h.forced ho
    | wipe => exact h

end

/-- CLOCK_FAULT, CASE_OPEN and the cell in turn (log entry 24). -/
def State.verdict (g : State) : Standing :=
  ((Standing.asOpened.meets g.offers (g.acc.clockFault && g.plu.map.clockFault == .forced)
      (g.acc.clockFault && g.plu.map.clockFault == .orderly) .clockFault).meets g.offers
    (g.acc.caseOpen && g.plu.map.caseOpen == .forced) (g.acc.caseOpen && g.plu.map.caseOpen == .orderly) .caseOpen).meets
    g.offers g.cellCritAwake false .cellCrit

theorem recheck_stands {g : State} (ho : g.acc.access = .unlocked ∨ g.acc.access = .config) :
    g.StandsAs g.verdict g.recheck ∧ g.Follows g.recheck := by
  unfold State.recheck State.verdict
  extract_lets a b
  generalize hx : Standing.asOpened.meets _ _ _ _ = x
  generalize hy : x.meets _ _ _ _ = y
  have ha : g.StandsAs x a := by
    rw [← hx]
    exact State.StandsAs.recheckOne ho (x := .asOpened) g.acc.clockFault g.plu.map.clockFault .clockFault rfl
  have hb : g.StandsAs y b := by
    rw [← hy]
    exact ha.recheckOne ho g.acc.caseOpen g.plu.map.caseOpen .caseOpen
  have hfollows : g.Follows b :=
    (follows_recheckOne g.acc.clockFault g.plu.map.clockFault .clockFault g).trans
      (follows_recheckOne g.acc.caseOpen g.plu.map.caseOpen .caseOpen a)
  cases g.cellCritAwake with
  | false => exact ⟨hb, hfollows⟩
  | true => exact ⟨hb.forced ho, hfollows.trans (follows_forced b)⟩

/-- What the conditions come to together: a FORCED one locks, else an ORDERLY one is offered or locks. -/
theorem Standing.meets_all : ∀ offers clockForced clockOrderly caseForced caseOrderly crit : Bool,
    (((Standing.asOpened.meets offers clockForced clockOrderly .clockFault).meets offers caseForced caseOrderly
        .caseOpen).meets offers crit false .cellCrit) =
      if (clockForced || caseForced || crit) || ((clockOrderly || caseOrderly) && !offers) then .locked
      else if clockOrderly || caseOrderly then .offered (if clockOrderly then .clockFault else .caseOpen)
      else .asOpened := by
  decide

end Sys2Proof.Machine
end

