-- ==== Sys2Proof/Proofs/GrantEnds.lean ====
section
/-! The end of the uses write (R47): the grant, and what acts at the end of its flight (R61, R62). -/

namespace Sys2Proof.Machine

/-! ## What a change of access state and an answer leave of the LIU -/

theorem State.postAccessChanged_bridge (s : State) : s.postAccessChanged.liu.bridge = s.liu.bridge := by
  rw [State.postAccessChanged, State.postB_eq_onLiu, State.postP_eq_onLiu]
  rfl

theorem State.changeAccess_bridge (a : Access) (o : Option SlotIx) (s : State) :
    (s.changeAccess a o).liu.bridge = s.liu.bridge := by
  have hliu : ((s.onAcc fun c => { c with access := a, openSlot := o }).interruptEntry).liu = s.liu :=
    interruptEntry_frame _ .liu (by decide)
  rw [State.changeAccess, State.postAccessChanged_bridge, hliu]

/-- The report of a change of access state to the P-link (R60). -/
theorem State.changeAccess_report (a : Access) (o : Option SlotIx) {s : State} (h : s.corePowered = true) :
    (s.changeAccess a o).liu.pq.accessChanged =
      some { access := a, openSlot := o, clockFault := s.acc.clockFault, caseOpen := s.acc.caseOpen } := by
  let u := (s.onAcc fun c => { c with access := a, openSlot := o }).interruptEntry
  have hframe : State.changesOnly [.acc, .keu] s u :=
    changesOnly_append (onAcc_frame _ s) (interruptEntry_frame _)
  have hacc : u.acc = { s.acc with access := a, openSlot := o } := interruptEntry_acc _
  have hcore : u.corePowered = true :=
    (State.corePowered_congr (hframe .pins (by decide)) (hframe .ssv (by decide))).trans h
  have hreport : (s.changeAccess a o).liu.pq.accessChanged = some u.accessReport := by
    show u.postAccessChanged.liu.pq.accessChanged = _
    rw [State.postAccessChanged, State.postB_eq_onLiu, State.postP_eq_onLiu, hcore]
    rfl
  rw [hreport, State.accessReport, hacc]

theorem State.opened_bridge (i : SlotIx) (s : State) : (s.opened i).liu.bridge = s.liu.bridge := by
  unfold State.opened State.openUnlocked State.openConfig
  split_ifs <;> exact State.changeAccess_bridge _ _ _

theorem State.opened_report (i : SlotIx) {s : State} (h : s.corePowered = true) :
    (s.opened i).liu.pq.accessChanged =
      some { access := if s.keu.intent = .unlock then .unlocked else .config, openSlot := some i,
             clockFault := s.acc.clockFault, caseOpen := s.acc.caseOpen } := by
  unfold State.opened State.openUnlocked State.openConfig
  have hreport {f : Acc → Acc} (a : Access) (hc : (f s.acc).clockFault = s.acc.clockFault)
      (ho : (f s.acc).caseOpen = s.acc.caseOpen) : ((s.onAcc f).changeAccess a (some i)).liu.pq.accessChanged =
        some { access := a, openSlot := some i, clockFault := s.acc.clockFault, caseOpen := s.acc.caseOpen } := by
    rw [State.changeAccess_report a (some i) (s := s.onAcc f) h, ← hc, ← ho]
    rfl
  split_ifs
  · exact hreport _ rfl rfl
  · exact hreport _ rfl rfl
  · exact hreport _ rfl rfl

/-- An answered attempt changes only the P-link's port of the LIU. -/
theorem State.answerAttempt_liu (a : AttemptAnswer) (s : State) :
    (s.answerAttempt a).liu = { s.liu with p := (s.answerAttempt a).liu.p } := by
  cases a <;> rfl

/-! ## The start of a wipe -/

theorem State.quitForWipe_heldWipe (s : State) : s.quitForWipe.acc.heldWipe = s.acc.heldWipe := by
  unfold State.quitForWipe
  split
  · rw [State.closeOpen_acc]
  · rw [State.closeOpen_acc]
  all_goals rfl

/-- A wipe that starts asks for the write that marks it active (R101). -/
theorem startWipe_writing {c : WipeCause} {s t : State} (hw : s.acc.access ≠ .wiping) (hh : s.acc.access ≠ .halted)
    (ht : t = (s.startWipe c).onRsc Rsc.kick) : ∃ w, t.writing (.journal (some w)) (.journal .start) ∧ w.cause = c := by
  let u := s.quitForWipe.stopPenalty.discardPendingSet
  refine ⟨u.wipeRecord c, writing_of_request _ _ u.rsc ?_, rfl⟩
  have hrsc : (s.startWipe c).rsc = (u.armWipe c).rsc := by
    rw [State.startWipe, if_neg (by simp [hw, hh])]
    exact changeAccess_frame .wiping none (u.armWipe c) .rsc (by decide)
  rw [ht]
  show (s.startWipe c).rsc.kick = _
  rw [hrsc]
  rfl

/-! ## The state just opened and answered -/

/-- The state a grant opens, with the key answered, before anything acts on it. -/
def State.grantedAs (i : SlotIx) (m : State) : State := (m.opened i).answerAttempt .granted

section
variable (i : SlotIx) (m : State)

theorem grantedAs_frame : State.changesOnly [.acc, .keu, .liu] m (m.grantedAs i) :=
  changesOnly_trans (opened_frame i m) (changesOnly_mono (answerAttempt_frame _ _) (by decide))

theorem State.grantedAs_acc : (m.grantedAs i).acc = (m.opened i).acc := State.answerAttempt_acc _ _

theorem State.grantedAs_quiet : (m.grantedAs i).Quiet := ⟨State.answerAttempt_digits _ _, State.answerAttempt_flight _ _⟩

theorem State.grantedAs_access : (m.grantedAs i).acc.access = if m.keu.intent = .unlock then .unlocked else .config := by
  rw [State.grantedAs_acc, State.opened_access]

theorem State.grantedAs_open : (m.grantedAs i).acc.access = .unlocked ∨ (m.grantedAs i).acc.access = .config := by
  rw [State.grantedAs_access]
  split_ifs
  · exact .inl rfl
  · exact .inr rfl

theorem State.grantedAs_openSlot : (m.grantedAs i).acc.openSlot = some i := by
  rw [State.grantedAs_acc, State.opened_openSlot]

theorem State.grantedAs_heldWipe : (m.grantedAs i).acc.heldWipe = m.acc.heldWipe := by
  rw [State.grantedAs_acc, State.opened_heldWipe]

theorem State.grantedAs_bridge : (m.grantedAs i).liu.bridge = m.liu.bridge := by
  rw [State.grantedAs, State.answerAttempt_liu]
  exact State.opened_bridge i m

theorem State.grantedAs_offers :
    (m.grantedAs i).offers = true ↔ m.keu.intent = .unlock ∧ m.liu.bridge = .attached := by
  simp only [State.offers, Bool.and_eq_true, beq_iff_eq, State.grantedAs_access, State.grantedAs_bridge]
  refine and_congr_left fun _ => ?_
  split_ifs with h <;> simp [h]

end

/-- A grant opens the drive and answers the key, and then the flight ends. -/
theorem grant_eq_endOfFlight (i : SlotIx) {m : State} (h : m.acc.access = .locked) :
    m.grant i = (m.grantedAs i).endOfFlight := grant_of_locked i h

/-! ## The end of the flight, from the state just opened -/

theorem State.endOfFlight_of_held {g : State} (hh : g.acc.heldWipe = true) :
    g.endOfFlight = (g.onAcc fun c => { c with heldWipe := false }).startWipe .caseOpen := if_pos hh

section
variable {g : State} (ho : g.acc.access = .unlocked ∨ g.acc.access = .config)
include ho

theorem State.endOfFlight_of_opened (hh : g.acc.heldWipe = false) : g.endOfFlight = g.recheck := by
  rw [State.endOfFlight, if_neg (by simp [hh]), if_pos ho]

/-- What the end of the flight leaves, whatever acts. -/
theorem endOfFlight_keeps {r : Result} (hq : g.Quiet) (hr : g.liu.p.slot = .done r) :
    g.endOfFlight.Quiet ∧ g.endOfFlight.atl.limiter = g.atl.limiter ∧ g.endOfFlight.acc.heldWipe = false ∧
      g.endOfFlight.ctb = g.ctb ∧ g.endOfFlight.liu.p.slot = .done r := by
  cases hh : g.acc.heldWipe with
  | true =>
    let u := g.onAcc fun c => { c with heldWipe := false }
    have hu : u.Quiet := hq
    have hw : u.acc.access ≠ .wiping := by rcases ho with h | h <;> simp [u, h]
    have hhalt : u.acc.access ≠ .halted := by rcases ho with h | h <;> simp [u, h]
    rw [State.endOfFlight_of_held hh]
    refine ⟨hu.startWipe _, startWipe_limiter _ u, ?_, startWipe_frame _ u .ctb (by decide),
      startWipe_slot_of_done (l := .p) _ (s := u) hr⟩
    rw [State.startWipe_acc hw hhalt]
    exact State.quitForWipe_heldWipe u
  | false =>
    rw [State.endOfFlight_of_opened ho hh]
    obtain ⟨-, hfollows⟩ := recheck_stands ho
    exact ⟨hfollows.quiet hq, congrArg Atl.limiter (hfollows.frame .atl (by decide)), hfollows.heldWipe.trans hh,
      hfollows.frame .ctb (by decide), by rw [hfollows.ports.1, hr]⟩

end

/-! ## The conditions that act (R62) -/

/-- A condition locks the drive at once. -/
def State.forces (s : State) : Prop :=
  (s.acc.clockFault = true ∧ s.plu.map.clockFault = .forced) ∨
    (s.acc.caseOpen = true ∧ s.plu.map.caseOpen = .forced) ∨ (s.ssv.mode = .cellAwake ∧ s.ssv.level = .crit)

/-- A condition locks the drive in order. -/
def State.orders (s : State) : Prop :=
  (s.acc.clockFault = true ∧ s.plu.map.clockFault = .orderly) ∨ (s.acc.caseOpen = true ∧ s.plu.map.caseOpen = .orderly)

section
variable {g : State}

theorem verdict_locked (h : g.forces ∨ (g.orders ∧ g.offers = false)) : g.verdict = .locked := by
  rw [State.verdict, Standing.meets_all, if_pos]
  simpa [State.forces, State.orders, State.cellCritAwake, or_assoc] using h

theorem verdict_offered (hf : ¬ g.forces) (ho : g.orders) (hb : g.offers = true) :
    g.verdict = .offered (if g.acc.clockFault = true ∧ g.plu.map.clockFault = .orderly then .clockFault else .caseOpen) := by
  rw [State.verdict, Standing.meets_all, if_neg, if_pos]
  · simp
  · simpa [State.orders] using ho
  · simpa [State.forces, State.orders, State.cellCritAwake, or_assoc, hb] using hf

theorem verdict_opened (hf : ¬ g.forces) (ho : ¬ g.orders) : g.verdict = .asOpened := by
  rw [State.verdict, Standing.meets_all, if_neg, if_neg]
  · simpa [State.orders] using ho
  · simp only [State.forces, State.orders] at hf ho
    simp [State.cellCritAwake]
    tauto

end

/-! ## The end of the uses write, from the state its owner meets -/

/-- The state `m` that the ATL meets at the end of the uses write of slot `i`, whose cell is `c`. -/
structure State.UsesEnded (i : SlotIx) (c : SlotCell) (s m : State) : Prop where
  frame : State.changesOnly [.store, .rsc, .ctb] s m
  cell : m.cell i = c
  writing : ∀ e ∈ m.rsc.entries, e ∈ s.rsc.entries
  locked : m.acc.access = .locked

theorem usesEnded_passed {i : SlotIx} {r : SlotRecord} {s : State} (e : WriteEntry) (hl : s.acc.access = .locked) :
    State.UsesEnded i { record := r, fault := false, shadow := none } s ((s.passed e).slotDone i r) :=
  ⟨changesOnly_mono (changesOnly_append (passed_frame e s) (setCell_frame _ _ _)) (by decide),
    State.setCell_cell_same i _ _, fun _ he => List.mem_append_right _ he, hl⟩

theorem usesEnded_spoilt {i : SlotIx} {r : SlotRecord} {s : State} (left : Residue) (e : WriteEntry)
    (hl : s.acc.access = .locked) :
    State.UsesEnded i { record := s.slotRec i, fault := true, shadow := r.verifier } s
      ((s.spoilt left e).slotFailed i r) :=
  ⟨changesOnly_mono (changesOnly_append (spoilt_frame left e s) (setCell_frame _ _ _)) (by decide),
    State.setCell_cell_same i _ _, fun _ he => List.mem_append_right _ he, hl⟩

section
variable {i : SlotIx} {c : SlotCell} {s m t : State} (hm : State.UsesEnded i c s m)
include hm

/-- With none held, the drive stands as the conditions leave it. -/
theorem State.UsesEnded.stands (hh : s.acc.heldWipe = false) :
    (m.grantedAs i).StandsAs (m.grantedAs i).verdict (m.grant i) := by
  have hheld : (m.grantedAs i).acc.heldWipe = false := by
    rw [State.grantedAs_heldWipe, hm.frame .acc (by decide), hh]
  rw [grant_eq_endOfFlight i hm.locked, State.endOfFlight_of_opened (m.grantedAs_open i) hheld]
  exact (recheck_stands (m.grantedAs_open i)).1

/-- The conditions stand on the state just opened as they stood before. -/
theorem State.UsesEnded.conditions : (m.grantedAs i).acc.clockFault = s.acc.clockFault ∧
    (m.grantedAs i).acc.caseOpen = s.acc.caseOpen ∧ (m.grantedAs i).plu = s.plu ∧ (m.grantedAs i).ssv = s.ssv := by
  have hframe := changesOnly_append hm.frame (grantedAs_frame i m)
  have hacc : m.acc = s.acc := hm.frame .acc (by decide)
  refine ⟨?_, ?_, hframe .plu (by decide), hframe .ssv (by decide)⟩
  · rw [State.grantedAs_acc, State.opened_clockFault, hacc]
  · rw [State.grantedAs_acc, State.opened_caseOpen, hacc]

theorem State.UsesEnded.forces_iff : (m.grantedAs i).forces ↔ s.forces := by
  obtain ⟨hclock, hcase, hplu, hssv⟩ := hm.conditions
  simp only [State.forces, hclock, hcase, hplu, hssv]

theorem State.UsesEnded.orders_iff : (m.grantedAs i).orders ↔ s.orders := by
  obtain ⟨hclock, hcase, hplu, -⟩ := hm.conditions
  simp only [State.orders, hclock, hcase, hplu]

theorem State.UsesEnded.offers_iff : (m.grantedAs i).offers = true ↔ s.keu.intent = .unlock ∧ s.liu.bridge = .attached := by
  rw [State.grantedAs_offers, hm.frame .keu (by decide), hm.frame .liu (by decide)]

variable (ht : t = (m.grant i).onRsc Rsc.kick)
include ht

/-- Whatever acts, the key is answered, the flight is over and the slot keeps what its write left. -/
theorem State.UsesEnded.keeps {cls : CmdClass} {code : Byte} (hrun : s.liu.p.slot = .running cls code) :
    t.keu.digits = [] ∧ t.keu.flight = none ∧ t.atl.limiter = s.atl.limiter ∧ t.acc.heldWipe = false ∧ t.cell i = c ∧
      t.liu.p.slot = .done (.ok code (.key .granted none (m.grantedAs i).summary)) := by
  have hrun' : m.liu.p.slot = .running cls code := by rw [hm.frame .liu (by decide), hrun]
  obtain ⟨⟨hdigits, hflight⟩, hlimiter, hheld, hctb, hslot⟩ :=
    endOfFlight_keeps (m.grantedAs_open i) (m.grantedAs_quiet i) (opened_granted i hrun')
  subst ht
  rw [grant_eq_endOfFlight i hm.locked]
  refine ⟨hdigits, hflight, hlimiter.trans ?_, hheld, ?_, hslot⟩
  · rw [grantedAs_frame i m .atl (by decide), hm.frame .atl (by decide)]
  · rw [← hm.cell]
    exact congrArg (fun d => d.slots.get i) (hctb.trans (grantedAs_frame i m .ctb (by decide)))

/-- A held wipe starts. -/
theorem State.UsesEnded.wipes (hh : s.acc.heldWipe = true) : t.acc.access = .wiping ∧ t.acc.openSlot = none ∧
    ∃ w, t.writing (.journal (some w)) (.journal .start) ∧ w.cause = .caseOpen := by
  let u := (m.grantedAs i).onAcc fun a => { a with heldWipe := false }
  have hheld : (m.grantedAs i).acc.heldWipe = true := by
    rw [State.grantedAs_heldWipe, hm.frame .acc (by decide), hh]
  have hw : u.acc.access ≠ .wiping := by rcases m.grantedAs_open i with h | h <;> simp [u, h]
  have hhalt : u.acc.access ≠ .halted := by rcases m.grantedAs_open i with h | h <;> simp [u, h]
  rw [grant_eq_endOfFlight i hm.locked, State.endOfFlight_of_held hheld] at ht
  have hacc : t.acc = { u.quitForWipe.acc with access := .wiping, openSlot := none } := by
    rw [ht]
    exact State.startWipe_acc hw hhalt
  exact ⟨by rw [hacc], by rw [hacc], startWipe_writing hw hhalt ht⟩

/-- A verdict of LOCKED: the drive is locked, and its Pending Set applied. -/
theorem State.UsesEnded.locks (hh : s.acc.heldWipe = false) (hv : (m.grantedAs i).verdict = .locked) :
    t.acc.access = .locked ∧ t.acc.openSlot = none ∧ s.appliesSet t := by
  have hstands := hm.stands hh
  rw [hv] at hstands
  obtain ⟨u, hu, hlocked⟩ := hstands
  have hframe : State.changesOnly [.acc, .keu, .liu] m u := changesOnly_trans (grantedAs_frame i m) hu
  rw [hlocked] at ht
  have hacc : t.acc = { u.acc with access := .locked, openSlot := none } := by
    rw [ht]
    exact State.enterLocked_acc u
  refine ⟨by rw [hacc], by rw [hacc], enterLocked_applies (u := u) ?_ ?_ (fun c p hw => ?_) ht⟩
  · rw [hframe .plu (by decide), hm.frame .plu (by decide)]
  · rw [hframe .kru (by decide), hm.frame .kru (by decide)]
  · rw [State.writing_iff, hframe .rsc (by decide)] at hw
    exact (State.writing_iff c p s).mpr (hm.writing _ hw)

/-- A verdict of the offered lock: the drive is LOCKING. -/
theorem State.UsesEnded.offers {d : LockCause} (hh : s.acc.heldWipe = false)
    (hv : (m.grantedAs i).verdict = .offered d) :
    t.acc.access = .locking ∧ t.acc.openSlot = some i ∧ t.acc.lockCause = some d := by
  have hstands := hm.stands hh
  rw [hv] at hstands
  obtain ⟨haccess, hopen, hcause, -⟩ := hstands
  subst ht
  exact ⟨haccess, hopen.trans (m.grantedAs_openSlot i), hcause⟩

/-- A verdict that nothing acts: the drive stands open. -/
theorem State.UsesEnded.opens (hh : s.acc.heldWipe = false) (hv : (m.grantedAs i).verdict = .asOpened) :
    t.acc.access = (if s.keu.intent = .unlock then .unlocked else .config) ∧ t.acc.openSlot = some i := by
  have hstands := hm.stands hh
  rw [hv] at hstands
  have hg : m.grant i = m.grantedAs i := hstands
  subst ht
  rw [hg, ← hm.frame .keu (by decide)]
  exact ⟨m.grantedAs_access i, m.grantedAs_openSlot i⟩

/-- With the gate open and no wipe held, nothing but the grant and its report. -/
theorem State.UsesEnded.gated {cls : CmdClass} {code : Byte} (hrun : s.liu.p.slot = .running cls code)
    (hcore : s.corePowered = true) (hh : s.acc.heldWipe = false) (hg : s.gateOpen = true) :
    t.liu.p.slot = .done (.ok code (.key .granted none t.summary)) ∧ t.atl = s.atl ∧ t.plu = s.plu ∧ t.kru = s.kru ∧
      t.wpe = s.wpe ∧ t.acc = (s.opened i).acc ∧
      t.liu.pq.accessChanged = some { access := t.acc.access, openSlot := some i, clockFault := s.acc.clockFault,
                                      caseOpen := s.acc.caseOpen } := by
  obtain ⟨hclock, hcase, hplu, hssv⟩ := hm.conditions
  have hacc : m.acc = s.acc := hm.frame .acc (by decide)
  have hliu : m.liu = s.liu := hm.frame .liu (by decide)
  have hkeu : m.keu = s.keu := hm.frame .keu (by decide)
  have hmplu : m.plu = s.plu := hm.frame .plu (by decide)
  have hmssv : m.ssv = s.ssv := hm.frame .ssv (by decide)
  have hgrant : m.grant i = m.grantedAs i :=
    grant_of_gate i hm.locked (by rw [hacc, hh])
      ((State.gateOpen_congr hmssv (by rw [hmplu]) (by rw [hacc]) (by rw [hacc])).trans hg)
  have hframe := changesOnly_append hm.frame (grantedAs_frame i m)
  have hopened : (m.grantedAs i).acc = (s.opened i).acc := by
    rw [State.grantedAs_acc, State.opened_acc, State.opened_acc, hkeu, hliu, hacc, hmplu]
  have hcore' : m.corePowered = true := (State.corePowered_congr (hm.frame .pins (by decide)) hmssv).trans hcore
  rw [hgrant] at ht
  subst ht
  refine ⟨opened_granted i (by rw [hliu, hrun]), hframe .atl (by decide), hplu, hframe .kru (by decide),
    hframe .wpe (by decide), hopened, ?_⟩
  show (m.grantedAs i).liu.pq.accessChanged = some { access := (m.grantedAs i).acc.access, .. }
  rw [State.grantedAs_access, State.grantedAs, State.answerAttempt_liu, ← hacc]
  exact State.opened_report i hcore'

end

/-- The uses write has ended: the ATL grants from the state it meets. -/
theorem exec_usesEnd {i : SlotIx} {r : SlotRecord} {n : Nat} {e : AttemptEnd} {s : State}
    (hw : s.rsc.current = some { entry := { contents := .slot i r, purpose := .uses i }, attempt := n })
    (hl : s.acc.access = .locked) (he : e = .passed ∨ n ≠ 1) :
    ∃ m, State.UsesEnded i (if e = .passed then { record := r, fault := false, shadow := none }
      else { record := s.slotRec i, fault := true, shadow := r.verifier }) s m ∧
      exec (.storeWriteEnd e) s = .next ((m.grant i).onRsc Rsc.kick) := by
  cases e with
  | passed => exact ⟨_, usesEnded_passed _ hl, exec_passed hw⟩
  | failed left =>
    have hn : n ≠ 1 := he.resolve_left (by simp)
    exact ⟨_, usesEnded_spoilt left _ hl, exec_failed left hw hn⟩

/-- Settles O44: the grant, and then the held wipe, nothing with the gate open, or the conditions again. -/
theorem successOpensTheDrive : Obligations.SuccessOpensTheDrive := by
  intro i r n e cls code s _ hw _ hrun hlocked hcore he
  obtain ⟨m, hm, hexec⟩ := exec_usesEnd hw hlocked he
  obtain ⟨hdigits, hflight, hlimiter, hheld, hcell, hslot⟩ := hm.keeps rfl hrun
  refine ⟨_, hexec, hdigits, hflight, hlimiter, hheld, hcell, ⟨_, hslot⟩, ?_⟩
  by_cases hh : s.acc.heldWipe = true
  · rw [if_pos hh]
    exact hm.wipes rfl hh
  rw [if_neg hh]
  replace hh : s.acc.heldWipe = false := by simpa using hh
  by_cases hg : s.gateOpen = true
  · rw [if_pos hg]
    obtain ⟨hanswer, hatl, hplu, hkru, hwpe, hacc, hreport⟩ := hm.gated rfl hrun hcore hh hg
    exact ⟨hanswer, hatl, hplu, hkru, hwpe, hacc.trans (State.opened_acc i s), hreport⟩
  rw [if_neg hg]
  intro forced orderly
  have hforced : (m.grantedAs i).forces ↔ forced := hm.forces_iff
  have horderly : (m.grantedAs i).orders ↔ orderly := hm.orders_iff
  have hshut (h : ¬ (s.keu.intent = .unlock ∧ s.liu.bridge = .attached)) : (m.grantedAs i).offers = false :=
    Bool.eq_false_iff.mpr (mt hm.offers_iff.mp h)
  by_cases hu : s.keu.intent = .unlock
  · rw [if_pos hu]
    by_cases hlock : forced ∨ (orderly ∧ s.liu.bridge ≠ .attached)
    · rw [if_pos hlock]
      refine hm.locks rfl hh (verdict_locked (hlock.imp hforced.mpr fun ⟨ho, hb⟩ => ⟨horderly.mpr ho, hshut ?_⟩))
      exact fun h => hb h.2
    rw [if_neg hlock]
    have hnone : ¬ (m.grantedAs i).forces := mt hforced.mp fun h => hlock (.inl h)
    by_cases hoffer : orderly
    · rw [if_pos hoffer]
      have hb : s.liu.bridge = .attached := by
        by_contra hb
        exact hlock (.inr ⟨hoffer, hb⟩)
      have hv := verdict_offered hnone (horderly.mpr hoffer) (hm.offers_iff.mpr ⟨hu, hb⟩)
      obtain ⟨hclock, -, hplu, -⟩ := hm.conditions
      rw [hclock, hplu] at hv
      exact hm.offers rfl hh hv
    · rw [if_neg hoffer]
      have hopens := hm.opens rfl hh (verdict_opened hnone (mt horderly.mp hoffer))
      rwa [if_pos hu] at hopens
  · rw [if_neg hu]
    split_ifs with hlock
    · exact hm.locks rfl hh (verdict_locked (hlock.imp hforced.mpr fun ho =>
        ⟨horderly.mpr ho, hshut fun h => hu h.1⟩))
    · have hopens := hm.opens rfl hh (verdict_opened (mt hforced.mp fun h => hlock (.inl h))
        (mt horderly.mp fun h => hlock (.inr h)))
      rwa [if_neg hu] at hopens

end Sys2Proof.Machine
end

