-- ==== Sys2Proof/Proofs/EntryKeys.lean ====
section
/-! The entry keys of the panel (R24 to R32): the gate they meet, and what the ones that pass it make of the buffer. -/

namespace Sys2Proof.Machine

/-! ## The taken frame, as the gate sees it -/

section
variable (x : Exchange) (code : Byte) (s : State)

@[simp] theorem State.frameTaken_mode : (s.frameTaken x code).ssv.mode = s.ssv.mode := by
  unfold State.frameTaken
  split <;> dsimp only
  split <;> rfl

@[simp] theorem State.frameTaken_level : (s.frameTaken x code).ssv.level = s.ssv.level := by
  unfold State.frameTaken
  split <;> dsimp only
  split <;> rfl

@[simp] theorem State.frameTaken_pins : (s.frameTaken x code).pins = s.pins := by unfold State.frameTaken; split <;> rfl

variable (c : CmdSlot)

@[simp] theorem State.taken_mode : (s.taken x code c).ssv.mode = s.ssv.mode := s.frameTaken_mode x code
@[simp] theorem State.taken_level : (s.taken x code c).ssv.level = s.ssv.level := s.frameTaken_level x code

@[simp] theorem State.taken_cellCritAwake : (s.taken x code c).cellCritAwake = s.cellCritAwake := by
  simp [State.cellCritAwake]

@[simp] theorem State.taken_entryRefusal : (s.taken x code c).entryRefusal = s.entryRefusal := by
  simp [State.entryRefusal]

@[simp] theorem State.taken_penaltySeconds : (s.taken x code c).penaltySeconds = s.penaltySeconds := by
  simp [State.penaltySeconds]

@[simp] theorem State.taken_entryAllowed : (s.taken x code c).entryAllowed = s.entryAllowed := by
  simp [State.entryAllowed]

@[simp] theorem State.taken_intentAllowed : (s.taken x code c).intentAllowed = s.intentAllowed := by
  simp [State.intentAllowed]

@[simp] theorem State.taken_changeAllowed : (s.taken x code c).changeAllowed = s.changeAllowed := by
  simp [State.changeAllowed]

end

/-- KEY is a command of the panel's link alone. -/
theorem link_of_accepts_key {x : Exchange} {s : State} (h : s.accepts x 0x20) : x.link = .p := by
  obtain ⟨-, hcode, -⟩ := h
  cases hx : x.link with
  | p => rfl
  | b => rw [hx] at hcode; exact absurd hcode (by decide)

/-! ## The gate (R24, R25) -/

theorem entryRefusal_eq_none_iff (s : State) : s.entryRefusal = none ↔ s.gatePasses := by
  unfold State.entryRefusal State.gatePasses State.gateOpen
  by_cases hw : s.acc.access = .wiping
  · simp [hw]
  by_cases hp : s.acc.access = .penalty
  · simp [hp]
  rw [if_neg hw, if_neg hp]
  split_ifs with hc hb
  · simp [hc]
  · simpa [hw, hp, hc, or_iff_not_imp_left] using hb
  · simpa [hw, hp, hc] using hb

theorem entryAllowed_iff (s : State) : s.entryAllowed = true ↔ s.entryOpen := by
  unfold State.entryAllowed State.entryOpen
  cases s.acc.access <;> simp

theorem intentAllowed_iff (s : State) : s.intentAllowed = true ↔ s.acc.access = .locked := by simp [State.intentAllowed]

theorem changeAllowed_iff (s : State) :
    s.changeAllowed = true ↔ s.acc.access = .unlocked ∧ s.keu.dialogue = none := by
  simp [State.changeAllowed]

/-- The reason with which an entry key that fails a check of R24 is refused: that of the first that fails. -/
def State.gateReason (s : State) : Reason :=
  if s.acc.access = .wiping then .wiping
  else if s.acc.access = .penalty then .penalty
  else if s.ssv.mode = .cellAwake ∧ s.ssv.level = .crit then .lowCell
  else if s.clockBars = true ∨ s.caseBars = true then .condition
  else .notNow

theorem cellCritAwake_iff (s : State) : s.cellCritAwake = true ↔ s.ssv.mode = .cellAwake ∧ s.ssv.level = .crit := by
  simp [State.cellCritAwake]

/-- It is the refusal of checks 1 to 4, and NOT_NOW where they pass. -/
theorem gateReason_eq (s : State) : s.gateReason = s.entryRefusal.getD .notNow := by
  simp only [State.gateReason, State.entryRefusal, cellCritAwake_iff, Bool.or_eq_true]
  split_ifs <;> rfl

/-- Where checks 1 to 4 refuse, they give that reason. -/
theorem entryRefusal_of_not_passes {s : State} (h : ¬ s.gatePasses) : s.entryRefusal = some s.gateReason := by
  have hreason := gateReason_eq s
  cases hr : s.entryRefusal with
  | none => exact absurd ((entryRefusal_eq_none_iff s).mp hr) h
  | some r => rw [hreason, hr]; rfl

/-- Where they pass, it is check 5 that fails. -/
theorem gateReason_of_passes {s : State} (h : s.gatePasses) : s.gateReason = .notNow := by
  rw [gateReason_eq, (entryRefusal_eq_none_iff s).mpr h]
  rfl

/-- PENALTY is the reason in that state alone. -/
theorem gateReason_eq_penalty_iff (s : State) : s.gateReason = .penalty ↔ s.acc.access = .penalty := by
  unfold State.gateReason
  split_ifs with hw <;> simp [*]

/-- A refused entry key carries the remaining seconds with PENALTY, and none with another reason. -/
theorem refuseEntry_taken {x : Exchange} (hl : x.link = .p) (s : State) :
    (s.taken x 0x20 (.running .short 0x20)).refuseEntry s.gateReason =
      s.taken x 0x20 (.done (.refused 0x20 s.gateReason
        (if s.acc.access = .penalty then (s.atl.penalty.getD 0 + 7) / 8 else 0))) := by
  by_cases hp : s.acc.access = .penalty
  · have hr := (gateReason_eq_penalty_iff s).mpr hp
    rw [State.refuseEntry, if_pos hr, State.refusePenalty, ← hl, State.taken_answer, State.taken_penaltySeconds, if_pos hp,
      hr]
    rfl
  · rw [State.refuseEntry, if_neg (mt (gateReason_eq_penalty_iff s).mp hp), ← hl, State.taken_refuse, if_neg hp]

/-- An entry key that passes the five checks does its work. -/
theorem entryKey_passes {x : Exchange} {s : State} {allowed : State → Bool} (work : State → State) (hg : s.gatePasses)
    (ha : allowed (s.taken x 0x20 (.running .short 0x20)) = true) :
    (s.taken x 0x20 (.running .short 0x20)).entryKey allowed work = work (s.taken x 0x20 (.running .short 0x20)) := by
  simp only [State.entryKey, State.taken_entryRefusal, (entryRefusal_eq_none_iff s).mpr hg, ha, if_true]

/-- An entry key that fails one is refused with the reason of the first, and nothing else changes. -/
theorem entryKey_refused {α : Type} {x : Exchange} {s : State} {allowed : State → Bool} (a : α)
    (work : α → State → State) (h : s.accepts x 0x20)
    (ha : ¬ (s.gatePasses ∧ allowed (s.taken x 0x20 (.running .short 0x20)) = true)) :
    ∃ t, finish (s.take x 0x20 (.ok a) fun b t => t.entryKey allowed (work b)) = .next t ∧
      s.answersOnly x 0x20 (.refused 0x20 s.gateReason
        (if s.acc.access = .penalty then (s.atl.penalty.getD 0 + 7) / 8 else 0)) t := by
  have hl := link_of_accepts_key h
  simp only [take_accepted h, State.entryKey, State.taken_entryRefusal]
  by_cases hg : s.gatePasses
  · have hallowed : allowed (s.taken x 0x20 (.running .short 0x20)) = false := by simpa [hg] using ha
    have hp : s.acc.access ≠ .penalty := hg.2.1
    simp only [(entryRefusal_eq_none_iff s).mpr hg, hallowed, Bool.false_eq_true, if_false, gateReason_of_passes hg,
      if_neg hp]
    exact refuse_taken hl 0x20 .notNow s
  · simp only [entryRefusal_of_not_passes hg, refuseEntry_taken hl]
    exact State.answersOnly_taken x 0x20 s _

/-- Settles O28: each entry key goes through the five checks, with its own of the access state and the dialogue. -/
theorem entryKeysMeetTheGate : Obligations.EntryKeysMeetTheGate := by
  intro c x d s hmem haccepts hno
  simp only [List.mem_cons, List.not_mem_nil, or_false] at hmem
  rcases hmem with rfl | rfl | rfl | rfl | rfl
  · refine entryKey_refused (allowed := State.entryAllowed) d (fun d u => (u.onKeu fun k => k.digit d).keyTaken) haccepts ?_
    simpa [entryAllowed_iff] using hno
  · refine entryKey_refused (allowed := State.entryAllowed) () (fun _ => State.enter) haccepts ?_
    simpa [entryAllowed_iff] using hno
  · refine entryKey_refused (allowed := State.intentAllowed) ()
      (fun _ u => (u.onKeu fun k => k.setIntent .admin).keyTaken) haccepts ?_
    simpa [intentAllowed_iff] using hno
  · refine entryKey_refused (allowed := State.intentAllowed) ()
      (fun _ u => (u.onKeu fun k => k.setIntent .recover).keyTaken) haccepts ?_
    simpa [intentAllowed_iff] using hno
  · refine entryKey_refused (allowed := State.changeAllowed) () (fun _ => State.beginChange) haccepts ?_
    simpa [changeAllowed_iff] using hno

/-! ## The buffer keys (R26 to R28) -/

/-- A key carried out: its work on the KEU, the entry timer by R30, and the answer with the summary. -/
theorem keyTaken_taken {x : Exchange} (hl : x.link = .p) (f : Keu → Keu) (s : State) :
    ∃ t, finish ((s.taken x 0x20 (.running .short 0x20)).onKeu f).keyTaken = .next t ∧
      State.keyAnswered x 0x20 .none (State.timed { s.frameTaken x 0x20 with keu := f s.keu }) t := by
  rw [← State.taken_keu x 0x20 s (.running .short 0x20)]
  exact keyAnswered_taken hl 0x20 .none _ s

/-- An entry key that passes and edits the buffer. -/
theorem entryKey_edits {α : Type} {x : Exchange} {s : State} {allowed : State → Bool} (a : α) (f : α → Keu → Keu)
    (h : s.accepts x 0x20) (hg : s.gatePasses) (ha : allowed (s.taken x 0x20 (.running .short 0x20)) = true) :
    ∃ t, finish (s.take x 0x20 (.ok a) fun b t => t.entryKey allowed fun u => (u.onKeu (f b)).keyTaken) = .next t ∧
      State.keyAnswered x 0x20 .none (State.timed { s.frameTaken x 0x20 with keu := f a s.keu }) t := by
  rw [take_accepted h, entryKey_passes _ hg ha]
  exact keyTaken_taken (link_of_accepts_key h) (f a) s

/-- A digit is held while fewer than 15 are and the mark is clear (R26). -/
theorem Keu.digit_eq (d : Digit) (k : Keu) : k.digit d = { k with
    digits := if k.overlong = false ∧ k.digits.length < 15 then k.digits ++ [d] else k.digits
    overlong := if k.digits.length < 15 then k.overlong else true
    bstate := .collecting } := by
  by_cases hlen : k.digits.length < 15
  · cases ho : k.overlong <;> simp [Keu.digit, Config.maxDigits, hlen, ho]
  · simp [Keu.digit, Config.maxDigits, hlen]

/-- A buffer that is not EVALUATING loses its newest digit (R27). -/
theorem Keu.back_eq {k : Keu} (h : k.bstate ≠ .evaluating) : k.back = { k with
    digits := k.digits.dropLast
    bstate := if k.digits.dropLast = [] ∧ k.overlong = false ∧ k.intent = k.defaultIntent then .empty
              else .collecting } := by
  have hintent : Keu.defaultIntent { k with digits := k.digits.dropLast } = k.defaultIntent := rfl
  simp only [Keu.back, if_neg h, Keu.settleState, hintent, Bool.and_eq_true, Bool.not_eq_true', List.isEmpty_iff,
    beq_iff_eq, and_assoc]

/-- A buffer that is not EVALUATING is emptied (R27). -/
theorem Keu.clear_eq {k : Keu} (h : k.bstate ≠ .evaluating) : k.clear = k.cleared := if_neg h

/-- Settles O29: what each of the five keys makes of the buffer. -/
theorem bufferKeysEditTheBuffer : Obligations.BufferKeysEditTheBuffer := by
  intro x d s haccepts
  have hl := link_of_accepts_key haccepts
  refine ⟨fun ⟨hg, ho⟩ => ?_, fun hb => ⟨?_, ?_⟩, fun ⟨hg, hlocked⟩ => ⟨?_, ?_⟩⟩
  · rw [← Keu.digit_eq d s.keu]
    exact entryKey_edits d Keu.digit haccepts hg (by rwa [State.taken_entryAllowed, entryAllowed_iff])
  · rw [← Keu.back_eq hb]
    change ∃ t, finish (s.take x 0x20 (.ok ()) _) = .next t ∧ _
    rw [take_accepted haccepts]
    exact keyTaken_taken hl Keu.back s
  · rw [← Keu.clear_eq hb]
    change ∃ t, finish (s.take x 0x20 (.ok ()) _) = .next t ∧ _
    rw [take_accepted haccepts]
    exact keyTaken_taken hl Keu.clear s
  · exact entryKey_edits () (fun _ => Keu.setIntent .admin) haccepts hg
      (by rwa [State.taken_intentAllowed, intentAllowed_iff])
  · exact entryKey_edits () (fun _ => Keu.setIntent .recover) haccepts hg
      (by rwa [State.taken_intentAllowed, intentAllowed_iff])

/-! ## ENTER and the form of its digits (R32) -/

/-- An ENTER that passes the gate. -/
theorem exec_enter {x : Exchange} {s : State} (h : s.accepts x 0x20) (hg : s.gatePasses) (ho : s.entryOpen) :
    exec (.keyEnter x (.ok ())) s = finish (s.taken x 0x20 (.running .short 0x20)).enter := by
  change finish (s.take x 0x20 (.ok ()) _) = _
  rw [take_accepted h, entryKey_passes _ hg (by rwa [State.taken_entryAllowed, entryAllowed_iff])]

/-- An ENTER that ends at once empties the buffer and answers its outcome. -/
theorem enterEnds_taken {x : Exchange} (hl : x.link = .p) (o : KeyOutcome) (s : State) :
    ∃ t, finish ((s.taken x 0x20 (.running .short 0x20)).enterEnds o) = .next t ∧
      State.keyAnswered x 0x20 o (State.timed { s.frameTaken x 0x20 with keu := s.keu.cleared }) t := by
  rw [← State.taken_keu x 0x20 s (.running .short 0x20)]
  exact keyAnswered_taken hl 0x20 o _ s

/-- The outcome of the first form check that fails. -/
theorem formOutcome_of_fails {k : Keu} (h : k.digits = [] ∨ k.overlong = true ∨ k.digits.length < 6) :
    k.formOutcome = some (if k.digits = [] then .empty else if k.overlong = true then .overlong else .tooShort) := by
  unfold Keu.formOutcome
  by_cases hd : k.digits = []
  · rw [if_pos hd, if_pos hd]
  by_cases ho : k.overlong = true
  · rw [if_neg hd, if_pos ho, if_neg hd, if_pos ho]
  · have hlen : k.digits.length < Config.minDigits := (h.resolve_left hd).resolve_left ho
    rw [if_neg hd, if_neg ho, if_pos hlen, if_neg hd, if_neg ho]

/-- Settles O30: the first form check that fails ends the ENTER. -/
theorem enterChecksItsForm : Obligations.EnterChecksItsForm := by
  intro x s haccepts hg ho hform
  rw [exec_enter haccepts hg ho]
  simp only [State.enter, State.taken_keu, formOutcome_of_fails hform]
  exact enterEnds_taken (link_of_accepts_key haccepts) _ s

end Sys2Proof.Machine
end

