-- ==== Sys2Proof/Proofs/EnterEntry.lean ====
section
/-! An ENTER whose form passes (R33, R37, R38, R44, R45): the pre-count of an attempt or the wipe at the threshold, and
the verifier computation of a dialogue. -/

namespace Sys2Proof.Machine

/-! ## An ENTER that is handed on (R33) -/

/-- The command of a taken frame is classed LONG. -/
theorem State.taken_runLong (x : Exchange) (code : Byte) (s : State) :
    (s.taken x code (.running .short code)).runLong x.link = s.taken x code (.running .long code) := by
  unfold State.runLong State.taken
  simp only [State.onLiu, Liu.onPort_onPort]
  rfl

theorem handOn_taken {x : Exchange} (hl : x.link = .p) (f : Flight) (s : State) :
    (s.taken x 0x20 (.running .short 0x20)).handOn f =
      (s.taken x 0x20 (.running .long 0x20)).onKeu (Keu.handedOn f) := by
  rw [← State.taken_runLong, hl]
  rfl

/-- An ENTER handed on is held LONG, and the buffer is EVALUATING. -/
theorem handOn_leaves {x : Exchange} (hl : x.link = .p) (f : Flight) (s : State) :
    ∃ t, finish ((s.taken x 0x20 (.running .short 0x20)).handOn f) = .next t ∧
      State.leaves x (.running .long 0x20) { s.frameTaken x 0x20 with keu := s.keu.handedOn f } t := by
  rw [handOn_taken hl, ← State.taken_keu x 0x20 s (.running .long 0x20)]
  exact ⟨_, rfl, rfl⟩

/-- No form check of R32 fails. -/
theorem formOutcome_of_passes {k : Keu} (ho : k.overlong = false) (hlen : 6 ≤ k.digits.length) : k.formOutcome = none := by
  have hd : k.digits ≠ [] := fun h => by simp [h] at hlen
  have hmin : ¬ k.digits.length < Config.minDigits := Nat.not_lt.mpr hlen
  simp only [Keu.formOutcome, if_neg hd, ho, Bool.false_eq_true, if_false, if_neg hmin]

/-! ## The entries of a dialogue (R37, R38) -/

theorem enterDialogue_taken {x : Exchange} (hl : x.link = .p) (d : Dialogue) (s : State) :
    ∃ t, finish ((s.taken x 0x20 (.running .short 0x20)).enterDialogue d) = .next t ∧
      (if d.step = .first ∧ s.keu.digits.length < s.plu.policy.pinMin then
         State.keyAnswered x 0x20 .tooShort (State.timed { s.frameTaken x 0x20 with keu := s.keu.cleared }) t
       else State.leaves x (.running .long 0x20)
         { s.frameTaken x 0x20 with
           keu := s.keu.handedOn (if d.step = .first then .verifyFirst else .verifyConfirm) } t) := by
  rw [State.enterDialogue]
  cases hstep : d.step with
  | first =>
    simp only [true_and, if_true, State.taken_keu, State.taken_plu]
    split_ifs
    · exact enterEnds_taken hl .tooShort s
    · exact handOn_leaves hl .verifyFirst s
  | confirm => simpa using handOn_leaves hl .verifyConfirm s

/-! ## An attempt (R33, R44, R45) -/

theorem lowCellRefuses_iff (s : State) : s.lowCellRefuses = true ↔
    (s.keu.intent = .admin ∨ s.keu.intent = .recover) ∧ s.ssv.mode = .cellAwake ∧ s.ssv.level = .low := by
  simp [State.lowCellRefuses, and_assoc]

@[simp] theorem State.taken_lowCellRefuses (x : Exchange) (code : Byte) (c : CmdSlot) (s : State) :
    (s.taken x code c).lowCellRefuses = s.lowCellRefuses := by
  simp [State.lowCellRefuses]

/-- An attempt refused for the cell: the buffer is emptied. -/
theorem lowCell_taken {x : Exchange} (hl : x.link = .p) (s : State) :
    ∃ t, finish ((s.taken x 0x20 (.running .short 0x20)).emptyBuffer.touchEntryTimer.refuse .p .lowCell) = .next t ∧
      State.leaves x (.done (.refused 0x20 .lowCell 0))
        (State.timed { s.frameTaken x 0x20 with keu := s.keu.cleared }) t := by
  let f : State → State := fun u => State.timed { u with keu := s.keu.cleared }
  have hf : (s.taken x 0x20 (.running .short 0x20)).emptyBuffer.touchEntryTimer =
      f (s.taken x 0x20 (.running .short 0x20)) := by
    simp only [f, ← State.taken_keu x 0x20 s (.running .short 0x20)]
    rfl
  have hanswer : (f (s.taken x 0x20 (.running .short 0x20))).refuse .p .lowCell =
      f (s.taken x 0x20 (.done (.refused 0x20 .lowCell 0))) := by
    rw [← hl, ← State.taken_refuse x 0x20 s .short .lowCell]
    rfl
  rw [hf, hanswer]
  exact ⟨_, rfl, rfl⟩

/-- Below the threshold the pre-count is requested. -/
theorem evaluate_counts {x : Exchange} (hl : x.link = .p) {s : State}
    (h : s.atl.limiter.fails < s.plu.policy.wipeThreshold) :
    ∃ t, finish (s.taken x 0x20 (.running .short 0x20)).evaluate = .next t ∧
      State.leaves x (.running .long 0x20)
        (State.withWrite (.limiter { fails := s.atl.limiter.fails + 1, served := false }) .preCount
          { s.frameTaken x 0x20 with keu := s.keu.handedOn .preCount }) t := by
  have hlt : (s.taken x 0x20 (.running .short 0x20)).atl.limiter.fails <
      (s.taken x 0x20 (.running .short 0x20)).plu.policy.wipeThreshold := by
    rwa [State.taken_atl, State.taken_plu]
  rw [State.evaluate, if_pos hlt, handOn_taken hl, State.taken_atl]
  refine ⟨_, rfl, ?_⟩
  simp only [State.leaves, State.withWrite, ← Rsc.kick_request, ← State.taken_keu x 0x20 s (.running .long 0x20)]
  rfl

/-- With the part wiping, nothing follows a refused attempt but that a held wipe is dropped. -/
theorem endOfFlight_of_wiping {s : State} (h : s.acc.access = .wiping) : s.endOfFlight.acc.access = .wiping ∧
    s.endOfFlight.atl = s.atl ∧ s.endOfFlight.ctb = s.ctb ∧ s.endOfFlight.keu = s.keu ∧ s.endOfFlight.liu = s.liu := by
  cases hh : s.acc.heldWipe with
  | true =>
    have hnone : ((s.onAcc fun c => { c with heldWipe := false }).startWipe .caseOpen) =
        s.onAcc fun c => { c with heldWipe := false } := if_pos (.inl h)
    rw [State.endOfFlight_of_held hh, hnone]
    exact ⟨h, rfl, rfl, rfl, rfl⟩
  | false =>
    rw [State.endOfFlight_of_shut hh (by simp [h]) (by simp [h])]
    exact ⟨h, rfl, rfl, rfl, rfl⟩

/-- At the threshold nothing is judged: the wipe starts and the entry is refused. -/
theorem evaluate_wipes {x : Exchange} (hl : x.link = .p) {s : State} (hw : s.acc.access ≠ .wiping)
    (hh : s.acc.access ≠ .halted) (hfree : ∀ g ∈ s.plu.inflight, g.requester ≠ some .p)
    (h : ¬ s.atl.limiter.fails < s.plu.policy.wipeThreshold) :
    ∃ t, finish (s.taken x 0x20 (.running .short 0x20)).evaluate = .next t ∧
      (t.liu.port x.link).slot = .done (.refused 0x20 .wiping 0) ∧ t.acc.access = .wiping ∧
      t.atl.limiter = s.atl.limiter ∧ t.ctb = s.ctb ∧ t.keu.digits = [] ∧ t.keu.flight = none := by
  have hlt : ¬ (s.taken x 0x20 (.running .short 0x20)).atl.limiter.fails <
      (s.taken x 0x20 (.running .short 0x20)).plu.policy.wipeThreshold := by
    rwa [State.taken_atl, State.taken_plu]
  let m := (s.taken x 0x20 (.running .long 0x20)).onKeu (Keu.handedOn .preCount)
  let u := (m.startWipe .threshold).answerAttempt (.refusal .wiping)
  have haccess : m.acc.access = s.acc.access := s.taken_access x 0x20 (.running .long 0x20)
  have hplu : m.plu = s.plu := s.taken_plu x 0x20 (.running .long 0x20)
  have hrun : (m.liu.port .p).slot = .running .long 0x20 := by
    simp [m, State.taken, ← hl, LinkPort.exchanged]
  have hstarted : (m.startWipe .threshold).liu.p.slot = .running .long 0x20 := by
    rw [← hrun]
    exact startWipe_slot_of_free (l := .p) .threshold (by rwa [hplu])
  have hwiping : u.acc.access = .wiping := by
    rw [State.answerAttempt_acc, State.startWipe_acc (by rwa [haccess]) (by rwa [haccess])]
  obtain ⟨hend, hatl, hctb, hkeu, hliu⟩ := endOfFlight_of_wiping hwiping
  rw [State.evaluate, if_neg hlt, handOn_taken hl]
  change ∃ t, finish u.endOfFlight = .next t ∧ _
  refine ⟨_, rfl, ?_, hend, ?_, ?_, ?_, ?_⟩
  · show (u.endOfFlight.liu.port x.link).slot = _
    rw [hliu, hl]
    exact State.answerAttempt_refused .wiping hstarted
  · show u.endOfFlight.atl.limiter = _
    rw [hatl, State.answerAttempt_atl, startWipe_limiter]
    exact congrArg Atl.limiter (s.taken_atl x 0x20 (.running .long 0x20))
  · show u.endOfFlight.ctb = _
    rw [hctb, answerAttempt_frame _ _ .ctb (by decide), startWipe_frame _ _ .ctb (by decide)]
    exact s.taken_ctb x 0x20 (.running .long 0x20)
  · show u.endOfFlight.keu.digits = _
    rw [hkeu, State.answerAttempt_digits]
  · show u.endOfFlight.keu.flight = _
    rw [hkeu, State.answerAttempt_flight]

/-- A link whose slot runs no command waits for no staging. -/
theorem State.WaitOk.not_staged {s : State} {l : Link} (h : s.WaitOk) (hidle : (s.liu.port l).slot.isRunning = false) :
    ∀ g ∈ s.plu.inflight, g.requester ≠ some l := by
  intro g hg hr
  have hwaits : l ∈ s.waiters :=
    List.mem_append_left _ (List.mem_append_right _ (List.mem_filterMap.2 ⟨g, hg, hr⟩))
  rw [h.running l hwaits] at hidle
  cases hidle

/-- Settles O31: an attempt by its cell, its count and the threshold, and a dialogue by its step and the length. -/
theorem enterHandsTheEntryOn : Obligations.EnterHandsTheEntryOn := by
  intro x s hwait haccepts hg ho hoverlong hlen
  have hl := link_of_accepts_key haccepts
  have hform := formOutcome_of_passes hoverlong hlen
  rw [exec_enter haccepts hg ho]
  simp only [State.enter, State.taken_keu, hform]
  refine ⟨fun hnone => ?_, fun d hd => ?_⟩
  · simp only [hnone, State.enterAttempt, State.taken_lowCellRefuses, ← lowCellRefuses_iff]
    obtain ⟨⟨-, hidle⟩, -, hhalted⟩ := haccepts
    split_ifs with hlow hcount
    · exact lowCell_taken hl s
    · exact evaluate_counts hl hcount
    · refine evaluate_wipes hl hg.1 (hhalted.resolve_right (by decide)) (hwait.not_staged ?_) hcount
      rwa [← hl]
  · simp only [hd]
    exact enterDialogue_taken hl d s

end Sys2Proof.Machine
end

