-- ==== Sys2Proof/Proofs/AccessReports.lean ====
section
/-! What a change of access state leaves in the event queues (R60, R68, R72, R75): its report, and every other event as it
was. -/

namespace Sys2Proof.Machine

/-! ## The reports alone -/

/-- Of the LIU at most the reports of the access state differ. -/
def State.ReportsAccess (s t : State) : Prop :=
  ∃ p b, t.liu = { s.liu with pq := { s.liu.pq with accessChanged := p }, bq := { s.liu.bq with accessChanged := b } }

theorem reportsAccess_of_liu {s t : State} (h : t.liu = s.liu) : s.ReportsAccess t := ⟨_, _, h⟩

theorem reportsAccess_refl (s : State) : s.ReportsAccess s := reportsAccess_of_liu rfl

theorem State.ReportsAccess.trans {s t u : State} (h : s.ReportsAccess t) (k : t.ReportsAccess u) : s.ReportsAccess u := by
  obtain ⟨p, b, ht⟩ := h
  obtain ⟨p', b', hu⟩ := k
  exact ⟨p', b', by rw [hu, ht]⟩

theorem reportsAccess_of_frame {l : List Block} {s t : State} (h : State.changesOnly l s t) (hl : Block.liu ∉ l) :
    s.ReportsAccess t := reportsAccess_of_liu (h .liu hl)

theorem reportsAccess_ite {s t u : State} {c : Prop} [Decidable c] (ht : s.ReportsAccess t) (hu : s.ReportsAccess u) :
    s.ReportsAccess (if c then t else u) := by
  split
  · exact ht
  · exact hu

theorem reportsAccess_postAccessChanged (s : State) : s.ReportsAccess s.postAccessChanged :=
  have hp : s.ReportsAccess (s.postP (.accessChanged s.accessReport)) :=
    reportsAccess_ite ⟨_, _, rfl⟩ (reportsAccess_refl s)
  hp.trans (reportsAccess_ite ⟨_, _, rfl⟩ (reportsAccess_refl _))

theorem reportsAccess_changeAccess (a : Access) (o : Option SlotIx) (s : State) : s.ReportsAccess (s.changeAccess a o) :=
  (reportsAccess_of_frame (changesOnly_append (onAcc_frame _ s) (interruptEntry_frame _)) (by decide)).trans
    (reportsAccess_postAccessChanged _)

theorem reportsAccess_setMap (m : LockMap) (s : State) : s.ReportsAccess (s.setMap m) := by
  unfold State.setMap
  extract_lets t u
  have ht : s.ReportsAccess t := reportsAccess_of_liu rfl
  have hu : s.ReportsAccess u := reportsAccess_ite ht (ht.trans (reportsAccess_postAccessChanged t))
  exact hu.trans (reportsAccess_of_frame (tellGate_frame _ u) (by decide))

theorem reportsAccess_applyMap (s : State) : s.ReportsAccess s.applyMap.1 := by
  unfold State.applyMap
  extract_lets v m
  split_ifs
  · exact reportsAccess_refl s
  · exact reportsAccess_refl s
  · exact (reportsAccess_setMap m s).trans (reportsAccess_of_frame (requestWrite_frame _ _ _) (by decide))

theorem reportsAccess_enterLocked (s : State) : s.ReportsAccess s.enterLocked :=
  (reportsAccess_of_frame (applyPolicy_frame s) (by decide)).trans <| (reportsAccess_applyMap _).trans <|
    (reportsAccess_of_frame (applyVolumes_frame _) (by decide)).trans <|
    (reportsAccess_of_frame (changesOnly_append (onPlu_frame _ _) (settle_frame _)) (by decide)).trans
      (reportsAccess_changeAccess _ _ _)

section
variable {s t : State} (h : s.ReportsAccess t)
include h

theorem State.ReportsAccess.wipeState : t.liu.pq.wipeState = s.liu.pq.wipeState := by
  obtain ⟨p, b, hliu⟩ := h
  rw [hliu]

theorem State.ReportsAccess.keysRevoked : t.liu.bq.keysRevoked = s.liu.bq.keysRevoked := by
  obtain ⟨p, b, hliu⟩ := h
  rw [hliu]

theorem State.ReportsAccess.lockPending : t.liu.bq.lockPending = s.liu.bq.lockPending := by
  obtain ⟨p, b, hliu⟩ := h
  rw [hliu]

theorem State.ReportsAccess.bridge : t.liu.bridge = s.liu.bridge := by
  obtain ⟨p, b, hliu⟩ := h
  rw [hliu]

end

/-! ## Entry into LOCKED (R73) -/

/-- The report of an entry into LOCKED. -/
theorem State.enterLocked_report {s : State} (h : s.corePowered = true) :
    s.enterLocked.liu.pq.accessChanged = some s.lockedReport := by
  have hframe := applyPendingSet_frame s
  have hcore : s.applyPendingSet.corePowered = true :=
    (State.corePowered_congr (hframe .pins (by decide)) (hframe .ssv (by decide))).trans h
  rw [State.enterLocked, State.changeAccess_report _ _ hcore, State.applyPendingSet_acc]
  rfl

/-! ## A lock completion (R72) -/

theorem State.revokeKeys_keysRevoked {s : State} (h : s.corePowered = true) (hb : s.liu.bridge = .attached) :
    s.revokeKeys.liu.bq.keysRevoked = true := by
  rw [State.revokeKeys, if_pos hb, State.postB_eq_onLiu, h, hb]
  rfl

theorem State.revokeKeys_lockPending (s : State) : s.revokeKeys.liu.bq.lockPending = s.liu.bq.lockPending := by
  rw [State.revokeKeys, State.postB_eq]
  split_ifs <;> rfl

theorem State.closeOpen_keysRevoked {s : State} (h : s.corePowered = true) (hb : s.liu.bridge = .attached) :
    s.closeOpen.liu.bq.keysRevoked = true := State.revokeKeys_keysRevoked h hb

theorem State.closeOpen_lockPending (s : State) : s.closeOpen.liu.bq.lockPending = none := State.revokeKeys_lockPending _

/-- A lock completion from `u`, which differs from `s` in the items of an open state at most, and whatever then leaves the
access items and the event queues. -/
theorem completeLock_locksDown {s u t : State} (hcore : u.corePowered = true) (hshut : u.acc.shut = s.acc.shut)
    (hbridge : u.liu.bridge = s.liu.bridge) (hacc : t.acc = u.completeLock.acc)
    (hpq : t.liu.pq = u.completeLock.liu.pq) (hbq : t.liu.bq = u.completeLock.liu.bq) : s.locksDown t := by
  have hreports : u.closeOpen.ReportsAccess u.completeLock := reportsAccess_enterLocked u.closeOpen
  have hcore' : u.closeOpen.corePowered = true :=
    (State.corePowered_congr (closeOpen_frame u .pins (by decide)) (closeOpen_frame u .ssv (by decide))).trans hcore
  refine ⟨?_, ?_, fun hb => ?_, ?_⟩
  · rw [hacc, State.completeLock_acc, hshut]
    rfl
  · rw [hbq]
    exact hreports.lockPending.trans u.closeOpen_lockPending
  · rw [hbq]
    exact hreports.keysRevoked.trans (State.closeOpen_keysRevoked hcore (hbridge.trans hb))
  · rw [hpq, State.completeLock, State.enterLocked_report hcore', State.lockedReport, State.closeOpen_acc]
    have hclock : u.acc.clockFault = s.acc.clockFault := (congrArg Acc.clockFault hshut :)
    have hcase : u.acc.caseOpen = s.acc.caseOpen := (congrArg Acc.caseOpen hshut :)
    rw [hclock, hcase]

/-! ## The end of CONFIG (R75) -/

/-- The ACC with CONFIG ended into LOCKED. -/
def Acc.configEnded (c : Acc) : Acc := { c with access := .locked, openSlot := none, configTimer := none }

theorem endConfig_configEnds {s u t : State} (hcore : u.corePowered = true)
    (hended : u.acc.configEnded = s.acc.configEnded) (hacc : t.acc = u.endConfig.acc)
    (hpq : t.liu.pq = u.endConfig.liu.pq) : s.configEnds t := by
  have hcore' : u.leaveConfig.corePowered = true := hcore
  refine ⟨?_, ?_⟩
  · rw [hacc, State.endConfig_acc]
    exact hended
  · rw [hpq, State.endConfig, State.enterLocked_report hcore']
    have hclock : u.acc.clockFault = s.acc.clockFault := (congrArg Acc.clockFault hended :)
    have hcase : u.acc.caseOpen = s.acc.caseOpen := (congrArg Acc.caseOpen hended :)
    rw [← hclock, ← hcase]
    rfl

/-! ## The offer of a lock (R68) -/

/-- The ACC with a lock offered to the bridge. -/
def Acc.offering (c : LockCause) (p : Policy) (a : Acc) : Acc :=
  { a with access := .locking, idleTimer := none, lockCause := some c, deferrals := some p.deferLimit,
           deferTimer := some (p.deferWindow * 8) }

theorem enterLocking_offersLock {c : LockCause} {s u t : State} (hcore : u.corePowered = true)
    (hb : u.liu.bridge = .attached) (hplu : u.plu = s.plu) (hkru : u.kru = s.kru)
    (hoffering : u.acc.offering c s.plu.policy = s.acc.offering c s.plu.policy)
    (ht : State.changesOnly [.keu, .liu, .rsc] (u.enterLocking c) t)
    (hbq : t.liu.bq = (u.enterLocking c).liu.bq) : s.offersLock c t := by
  have hframe := changesOnly_append (enterLocking_frame c u) ht
  refine ⟨?_, ?_, ?_, ?_⟩
  · rw [ht .acc (by decide), State.enterLocking_acc, hplu]
    exact hoffering
  · rw [hbq]
    unfold State.enterLocking
    extract_lets n v
    have hcore' : v.corePowered = true := hcore
    have hb' : v.liu.bridge = .attached := hb
    rw [(reportsAccess_changeAccess _ _ _).lockPending, State.offerLock, State.postB_eq_onLiu, hcore', hb']
    exact congrArg (fun p => some (c, p.policy.deferLimit)) hplu
  · rw [hframe .kru (by decide), hkru]
  · rw [hframe .plu (by decide), hplu]

end Sys2Proof.Machine
end

