-- ==== Sys2Proof/Proofs/PanelLock.lean ====
section
/-! The panel's LOCK, CHANGE and EXIT (R29, R36, R65, R75): what each makes of the access state and of the dialogue, and
its answer. -/

namespace Sys2Proof.Machine

/-! ## The taken frame, as the ACC and the event queues see it -/

section
variable (x : Exchange) (code : Byte) (c : CmdSlot) (s : State)

/-- Of the access items a taken frame restarts the config timer alone. -/
theorem State.taken_acc : (s.taken x code c).acc = { s.acc with configTimer := (s.taken x code c).acc.configTimer } := by
  show (s.frameTaken x code).acc = { s.acc with configTimer := (s.frameTaken x code).acc.configTimer }
  unfold State.frameTaken
  split <;> dsimp only
  split <;> rfl

@[simp] theorem State.taken_pq : (s.taken x code c).liu.pq = s.liu.pq := by
  rw [State.taken, State.onLiu_liu, Liu.onPort_pq]
  unfold State.frameTaken
  split <;> dsimp only
  split <;> rfl

@[simp] theorem State.taken_bq : (s.taken x code c).liu.bq = s.liu.bq := by
  rw [State.taken, State.onLiu_liu, Liu.onPort_bq]
  unfold State.frameTaken
  split <;> dsimp only
  split <;> rfl

@[simp] theorem State.taken_corePowered : (s.taken x code c).corePowered = s.corePowered := by
  have hpins : (s.taken x code c).pins = s.pins := s.frameTaken_pins x code
  simp [State.corePowered, hpins]

theorem State.taken_slot : ((s.taken x code c).liu.port x.link).slot = c := by simp [State.taken, LinkPort.exchanged]

end

/-- Outside CONFIG a taken frame changes its link and the sleep timer alone. -/
theorem taken_frame (x : Exchange) (code : Byte) (c : CmdSlot) {s : State} (h : s.acc.access ≠ .config) :
    State.changesOnly [.liu, .ssv] s (s.taken x code c) := by
  have hacc : (s.restartWatch x.link).acc = s.acc := restartWatch_frame _ s .acc (by decide)
  have htimers : s.frameTaken x code = s.restartWatch x.link := by
    rw [State.frameTaken_eq, State.restartConfig, if_neg (by rw [hacc]; exact fun hc => h hc.2.1)]
  rw [State.taken, htimers]
  exact changesOnly_mono (changesOnly_append (restartWatch_frame _ s) (onLiu_frame _ _)) (by decide)

/-- The panel's link is served with the core domain powered alone. -/
theorem corePowered_of_accepts_key {x : Exchange} {s : State} (h : s.accepts x 0x20) : s.corePowered = true := by
  have hserved := ((State.serves_iff x s).mp h.1.1).1
  rwa [link_of_accepts_key h] at hserved

/-- A key that has been carried out is answered OK with the summary as it then stands. -/
theorem keyTaken_answers {cls : CmdClass} {code : Byte} {s t : State} (hrun : s.liu.p.slot = .running cls code)
    (ht : t = s.keyTaken.onRsc Rsc.kick) : t.liu.p.slot = .done (.ok code (.key .none none t.summary)) := by
  subst ht
  exact State.answer_slot (l := .p) (s := s.touchEntryTimer) _ hrun

theorem keyTaken_frame (s : State) : State.changesOnly [.keu, .liu] s s.keyTaken :=
  changesOnly_append (onKeu_frame _ s) (answer_frame _ _ _)

/-- The answer leaves the event queues. -/
theorem keyTaken_keeps {s t : State} (ht : t = s.keyTaken.onRsc Rsc.kick) :
    t.acc = s.acc ∧ t.liu.pq = s.liu.pq ∧ t.liu.bq = s.liu.bq ∧ State.changesOnly [.keu, .liu, .rsc] s t := by
  subst ht
  exact ⟨rfl, rfl, rfl, changesOnly_append (keyTaken_frame s) (onRsc_frame _ _)⟩

/-! ## LOCK (R29, R65, R66, R68) -/

theorem lockEmpties_frame (s : State) : State.changesOnly [.keu] s s.lockEmpties :=
  changesOnly_ite (fun _ => onKeu_frame _ s) fun _ => changesOnly_refl _ s

/-- LOCK empties no buffer of an open drive. -/
theorem lockEmpties_of_open {s : State} (h : s.acc.access = .unlocked ∨ s.acc.access = .config) : s.lockEmpties = s := by
  rcases h with h | h <;> simp [State.lockEmpties, h]

/-- An ORDERLY cause that meets no open drive does nothing. -/
theorem orderly_of_shut (c : LockCause) {s : State} (hu : s.acc.access ≠ .unlocked) (hc : s.acc.access ≠ .config) :
    s.orderly c = s := by
  unfold State.orderly
  split
  · exact absurd ‹_› hu
  · exact absurd ‹_› hc
  all_goals rfl

/-- The LOCK key, once taken: the buffer, the orderly lock, and the answer. -/
theorem exec_lockKey {x : Exchange} {s : State} (h : s.accepts x 0x20) :
    exec (.keyLock x (.ok ())) s = .next ((((s.taken x 0x20 (.running .short 0x20)).lockEmpties.orderly
      .panelLock).keyTaken).onRsc Rsc.kick) := by
  change finish (s.take x 0x20 (.ok ()) _) = _
  rw [take_accepted h]
  rfl

section
variable {x : Exchange} {s t : State} (h : s.accepts x 0x20)
  (ht : t = (((s.taken x 0x20 (.running .short 0x20)).lockEmpties.orderly .panelLock).keyTaken).onRsc Rsc.kick)
include h ht

/-- Whatever the LOCK key does, it is answered. -/
theorem lockKey_answers : (t.liu.port x.link).slot = .done (.ok 0x20 (.key .none none t.summary)) := by
  have hl := link_of_accepts_key h
  have hports := (samePorts_of_frame (lockEmpties_frame (s.taken x 0x20 (.running .short 0x20))) (by decide)).trans
    (samePorts_orderly .panelLock _)
  have hrun := s.taken_slot x 0x20 (.running .short 0x20)
  rw [hl] at hrun ⊢
  exact keyTaken_answers (cls := .short) (by rw [hports.1]; exact hrun) ht

/-- In UNLOCKED the lock is offered to an attached bridge. -/
theorem lockKey_offers (hu : s.acc.access = .unlocked) (hb : s.liu.bridge = .attached) : s.offersLock .panelLock t := by
  let u := s.taken x 0x20 (.running .short 0x20)
  have hacc : u.acc = s.acc := taken_frame x 0x20 _ (by simp [hu]) .acc (by decide)
  have hub : u.liu.bridge = .attached := (s.taken_bridge x 0x20 _).trans hb
  have horderly : u.lockEmpties.orderly .panelLock = u.enterLocking .panelLock := by
    have hua : u.acc.access = .unlocked := by rw [hacc, hu]
    rw [lockEmpties_of_open (.inl hua), State.orderly, hua]
    exact if_pos hub
  rw [horderly] at ht
  obtain ⟨-, -, hbq, hframe⟩ := keyTaken_keeps ht
  exact enterLocking_offersLock (u := u) ((s.taken_corePowered x 0x20 _).trans (corePowered_of_accepts_key h)) hub
    (s.taken_plu x 0x20 _) (s.taken_kru x 0x20 _) (by rw [hacc]) hframe hbq

/-- With no bridge attached it completes at once. -/
theorem lockKey_locks (hu : s.acc.access = .unlocked) (hb : s.liu.bridge ≠ .attached) : s.locksDown t := by
  let u := s.taken x 0x20 (.running .short 0x20)
  have hacc : u.acc = s.acc := taken_frame x 0x20 _ (by simp [hu]) .acc (by decide)
  have hub : u.liu.bridge = s.liu.bridge := s.taken_bridge x 0x20 _
  have horderly : u.lockEmpties.orderly .panelLock = u.completeLock := by
    have hua : u.acc.access = .unlocked := by rw [hacc, hu]
    rw [lockEmpties_of_open (.inl hua), State.orderly, hua]
    exact if_neg (by rwa [hub])
  rw [horderly] at ht
  obtain ⟨hlocked, hpq, hbq, -⟩ := keyTaken_keeps ht
  exact completeLock_locksDown (u := u) ((s.taken_corePowered x 0x20 _).trans (corePowered_of_accepts_key h)) (by rw [hacc]) hub
    hlocked hpq hbq

/-- In CONFIG it ends CONFIG. -/
theorem lockKey_ends (hc : s.acc.access = .config) : s.configEnds t := by
  let u := s.taken x 0x20 (.running .short 0x20)
  have horderly : u.lockEmpties.orderly .panelLock = u.endConfig := by
    have hua : u.acc.access = .config := (s.taken_access x 0x20 _).trans hc
    rw [lockEmpties_of_open (.inr hua), State.orderly, hua]
  rw [horderly] at ht
  obtain ⟨hended, hpq, -, -⟩ := keyTaken_keeps ht
  exact endConfig_configEnds (u := u) ((s.taken_corePowered x 0x20 _).trans (corePowered_of_accepts_key h))
    (by rw [State.taken_acc]; rfl) hended hpq

omit h in
/-- In every other state it leaves the access items, and empties the buffer in LOCKED and BLANK. -/
theorem lockKey_empties (hstore : s.StoreOk) (hu : s.acc.access ≠ .unlocked) (hc : s.acc.access ≠ .config) :
    State.changesOnly [.liu, .ssv, .keu] s t ∧ t.liu.pq = s.liu.pq ∧ t.liu.bq = s.liu.bq ∧
      ((s.acc.access = .locked ∨ s.acc.access = .blank) ∧ s.keu.bstate ≠ .evaluating →
        t.keu.digits = [] ∧ t.keu.overlong = false ∧ t.keu.intent = s.keu.defaultIntent ∧
        t.keu.dialogue = s.keu.dialogue) := by
  let u := s.taken x 0x20 (.running .short 0x20)
  have hframe := changesOnly_append (taken_frame x 0x20 (.running .short 0x20) hc) (lockEmpties_frame u)
  have haccess : u.lockEmpties.acc.access = s.acc.access := congrArg Acc.access (hframe .acc (by decide))
  have horderly : u.lockEmpties.orderly .panelLock = u.lockEmpties :=
    orderly_of_shut .panelLock (by rwa [haccess]) (by rwa [haccess])
  have hall : State.changesOnly [.liu, .ssv, .keu] s u.lockEmpties.keyTaken :=
    changesOnly_mono (changesOnly_append hframe (keyTaken_frame _)) (by decide)
  have hkick : u.lockEmpties.keyTaken.onRsc Rsc.kick = u.lockEmpties.keyTaken :=
    Host.Outcome.next.inj (finish_of_served hstore hall (by decide))
  have hliu : u.lockEmpties.liu = u.liu := lockEmpties_frame u .liu (by decide)
  rw [horderly] at ht
  obtain ⟨-, hpq, hbq, -⟩ := keyTaken_keeps ht
  refine ⟨?_, ?_, ?_, fun ⟨ha, hb⟩ => ?_⟩
  · rw [ht, hkick]
    exact hall
  · rw [hpq, hliu]
    exact s.taken_pq x 0x20 _
  · rw [hbq, hliu]
    exact s.taken_bq x 0x20 _
  · have hkeu : u.lockEmpties.keu = s.keu.cleared := by
      rw [State.lockEmpties, if_pos (by rwa [State.taken_access]), State.onKeu_keu, State.taken_keu, Keu.clear_eq hb]
    subst ht
    exact ⟨congrArg Keu.digits hkeu, congrArg Keu.overlong hkeu, congrArg Keu.intent hkeu, (congrArg Keu.dialogue hkeu :)⟩

end

/-- Settles O32: the answer, and the four cases of the access state and the bridge. -/
theorem lockKeyLocksInOrder : Obligations.LockKeyLocksInOrder := by
  intro x s hstore haccepts
  refine ⟨_, exec_lockKey haccepts, lockKey_answers haccepts rfl, ?_⟩
  split_ifs with hoffer hu hc
  · exact lockKey_offers haccepts rfl hoffer.1 hoffer.2
  · exact lockKey_locks haccepts rfl hu fun hb => hoffer ⟨hu, hb⟩
  · exact lockKey_ends haccepts rfl hc
  · exact lockKey_empties rfl hstore hu hc

/-! ## CHANGE (R36) -/

theorem change_eligible_iff (i : SlotIx) (s : State) :
    s.eligible .change i = true ↔ (s.slotRec i).state = .active ∧ (s.cell i).fault = false := by
  simp [State.eligible, State.slotRec]

/-- A CHANGE that passes the gate begins its dialogue on an eligible slot, and is refused otherwise. -/
theorem beginChange_taken {x : Exchange} (hl : x.link = .p) {i : SlotIx} {s : State} (ho : s.acc.openSlot = some i) :
    ∃ t, finish (s.taken x 0x20 (.running .short 0x20)).beginChange = .next t ∧
      (if (s.slotRec i).state = .active ∧ (s.cell i).fault = false then
         State.keyAnswered x 0x20 .none (State.timed { s.frameTaken x 0x20 with keu := { s.keu with
           digits := [], overlong := false, intent := .enrolFirst, bstate := .empty,
           dialogue := some { kind := .change, target := i, mode := none, mask := none, step := .first,
                              candidate := none } } }) t
       else s.answersOnly x 0x20 (.refused 0x20 .slotState 0) t) := by
  simp only [State.beginChange, State.taken_openSlot, ho, State.taken_eligible, change_eligible_iff]
  split_ifs
  · exact keyTaken_taken hl (fun k => Keu.emptied { k with dialogue := some ⟨.change, i, none, none, .first, none⟩ }) s
  · exact refuse_taken hl 0x20 .slotState s

/-! ## EXIT (R29, R75) -/

/-- The KEU once its dialogue has ended. -/
def Keu.dialogueEnded (k : Keu) : Keu := { Keu.emptied { k with dialogue := none } with entryTimer := none }

/-- Outside BLANK no dialogue follows the one that ends. -/
theorem endDialogue_of_ne_blank {s : State} (h : s.acc.access ≠ .blank) : s.endDialogue = s.onKeu Keu.dialogueEnded := by
  have ha : ((s.onKeu Keu.dialogueEnded).acc.access == .blank) = false := beq_eq_false_iff_ne.mpr h
  show (s.onKeu Keu.dialogueEnded).autoDialogue = _
  rw [State.autoDialogue, ha, Bool.and_false, Bool.false_and, if_neg Bool.false_ne_true]

/-- EXIT in CONFIG ends it. -/
theorem exitKey_ends {x : Exchange} {s : State} (h : s.accepts x 0x20) (hc : s.acc.access = .config) :
    ∃ t, finish (s.taken x 0x20 (.running .short 0x20)).exitKey = .next t ∧ s.configEnds t ∧
      (t.liu.port x.link).slot = .done (.ok 0x20 (.key .none none t.summary)) ∧ t.ctb = s.ctb := by
  let u := s.taken x 0x20 (.running .short 0x20)
  have hl := link_of_accepts_key h
  have hrun : u.endConfig.liu.p.slot = .running .short 0x20 := by
    rw [(samePorts_endConfig u).1]
    have hslot := s.taken_slot x 0x20 (.running .short 0x20)
    rwa [hl] at hslot
  have hctb : u.endConfig.ctb = u.ctb := enterLocked_frame u.leaveConfig .ctb (by decide)
  rw [State.exitKey, if_pos (by rwa [State.taken_access])]
  obtain ⟨hended, hpq, -, hframe⟩ := keyTaken_keeps (s := u.endConfig) rfl
  refine ⟨_, rfl, ?_, ?_, ?_⟩
  · exact endConfig_configEnds (u := u) ((s.taken_corePowered x 0x20 _).trans (corePowered_of_accepts_key h))
      (by rw [State.taken_acc]; rfl) hended hpq
  · rw [hl]
    exact keyTaken_answers hrun rfl
  · rw [hframe .ctb (by decide), hctb]
    exact s.taken_ctb x 0x20 _

/-- EXIT in UNLOCKED ends a CHANGE dialogue. -/
theorem exitKey_leaves {x : Exchange} (hl : x.link = .p) {s : State} (hu : s.acc.access = .unlocked)
    (hc : s.keu.inChange = true) :
    ∃ t, finish (s.taken x 0x20 (.running .short 0x20)).exitKey = .next t ∧
      State.keyAnswered x 0x20 .none { s.frameTaken x 0x20 with keu := { s.keu with
        digits := [], overlong := false, intent := .unlock, bstate := .empty, dialogue := none, entryTimer := none } } t := by
  have hua : (s.taken x 0x20 (.running .short 0x20)).acc.access = .unlocked := by rwa [State.taken_access]
  rw [State.exitKey, if_neg (by simp [hu]), if_pos ⟨hua, by rwa [State.taken_keu]⟩,
    endDialogue_of_ne_blank (by simp [hu])]
  exact keyTaken_taken hl Keu.dialogueEnded s

/-- Settles O33: CHANGE by the open slot, and EXIT by the access state and the dialogue. -/
theorem changeAndExitBeginAndEndADialogue : Obligations.ChangeAndExitBeginAndEndADialogue := by
  intro x s haccepts
  have hl := link_of_accepts_key haccepts
  refine ⟨fun i hg hu hd ho => ?_, ?_⟩
  · change ∃ t, finish (s.take x 0x20 (.ok ()) _) = .next t ∧ _
    rw [take_accepted haccepts, entryKey_passes _ hg (by rw [State.taken_changeAllowed, changeAllowed_iff]; exact ⟨hu, hd⟩)]
    exact beginChange_taken hl ho
  · change ∃ t, finish (s.take x 0x20 (.ok ()) _) = .next t ∧ _
    rw [take_accepted haccepts]
    split_ifs with hc hx
    · exact exitKey_ends haccepts hc
    · exact exitKey_leaves hl hx.1 hx.2
    · rw [State.exitKey, if_neg (by rwa [State.taken_access]), if_neg (by rwa [State.taken_access, State.taken_keu])]
      exact refuse_taken hl 0x20 .notNow s

end Sys2Proof.Machine
end

