-- ==== Sys2Proof/Proofs/Expiries.lean ====
section
/-! The expiries of the idle, attach, defer, config, entry and sleep timers (R31, R63, R64, R70, R75, R157), each from the
state in which its timer has stopped. -/

namespace Sys2Proof.Machine

/-- Where a dialogue ends in BLANK, the automatic one for slot 0 begins. -/
theorem endDialogue_of_blank {s : State} (h : s.acc.access = .blank) (hcore : s.corePowered = true) :
    s.endDialogue = s.onKeu fun k => { k.dialogueEnded with
      intent := .enrolFirst
      dialogue := some { kind := .automatic, target := 0, mode := none, mask := none, step := .first,
                         candidate := none } } := by
  have ha : ((s.onKeu Keu.dialogueEnded).acc.access == .blank) = true := by rw [State.onKeu_acc, h]; rfl
  have hc : (s.onKeu Keu.dialogueEnded).corePowered = true := hcore
  show (s.onKeu Keu.dialogueEnded).autoDialogue = _
  rw [State.autoDialogue, ha, hc]
  rfl

theorem endDialogue_keu {s : State} (hcore : s.corePowered = true) : s.endDialogue.keu = { s.keu with
    digits := [], overlong := false, bstate := .empty, entryTimer := none
    intent := if s.acc.access = .blank then .enrolFirst else .unlock
    dialogue := if s.acc.access = .blank then
                  some { kind := .automatic, target := 0, mode := none, mask := none, step := .first, candidate := none }
                else none } := by
  by_cases h : s.acc.access = .blank
  · rw [endDialogue_of_blank h hcore, if_pos h, if_pos h]
    rfl
  · rw [endDialogue_of_ne_blank h, if_neg h, if_neg h]
    rfl

/-- A lock that completes where a timer of an open state has stopped. -/
theorem kicked_locksDown {s u : State} (hcore : u.corePowered = true) (hshut : u.acc.shut = s.acc.shut)
    (hbridge : u.liu.bridge = s.liu.bridge) : s.locksDown (u.completeLock.onRsc Rsc.kick) :=
  completeLock_locksDown hcore hshut hbridge (State.onRsc_acc _ _) (congrArg Liu.pq (State.onRsc_liu _ _))
    (congrArg Liu.bq (State.onRsc_liu _ _))

section
variable {s : State} (hcore : s.corePowered = true)
include hcore

/-- The idle timer's expiry is an orderly lock (R63). -/
theorem idleExpiry_locks (hd : s.acc.idleTimer = some 0) (hu : s.acc.access = .unlocked) :
    ∃ t, exec .idleExpiry s = .next t ∧
      if s.liu.bridge = .attached then s.offersLock .idleExpiry t else s.locksDown t := by
  let u := s.onAcc fun c => { c with idleTimer := none }
  have hua : u.acc.access = .unlocked := hu
  have hexec : exec .idleExpiry s = finish (if s.liu.bridge = .attached then u.enterLocking .idleExpiry
      else u.completeLock) := by
    have horderly : u.orderly .idleExpiry = if s.liu.bridge = .attached then u.enterLocking .idleExpiry
        else u.completeLock := by
      rw [State.orderly, hua]
      rfl
    rw [← horderly]
    change execIdleExpiry s = _
    simp only [execIdleExpiry, hd]
    rfl
  rw [hexec]
  refine ⟨_, rfl, ?_⟩
  split_ifs with hb
  · exact enterLocking_offersLock (u := u) hcore hb rfl rfl rfl (changesOnly_mono (onRsc_frame Rsc.kick _) (by decide))
      (congrArg Liu.bq (State.onRsc_liu _ _))
  · exact kicked_locksDown (u := u) hcore rfl rfl

/-- The attach timer's expiry is a forced one (R64). -/
theorem attachExpiry_locks (hd : s.acc.attachTimer = some 0) (hu : s.acc.access = .unlocked) :
    ∃ t, exec .attachExpiry s = .next t ∧ s.locksDown t := by
  let u := s.onAcc fun c => { c with attachTimer := none }
  have hua : u.acc.access = .unlocked := hu
  have hexec : exec .attachExpiry s = finish u.completeLock := by
    have hforced : u.forced = u.completeLock := by rw [State.forced, hua]
    rw [← hforced]
    change execAttachExpiry s = _
    simp only [execAttachExpiry, hd]
    rfl
  rw [hexec]
  exact ⟨_, rfl, kicked_locksDown (u := u) hcore rfl rfl⟩

/-- The defer timer's expiry completes the lock (R70). -/
theorem deferExpiry_locks (hd : s.acc.deferTimer = some 0) (hl : s.acc.access = .locking) :
    ∃ t, exec .deferExpiry s = .next t ∧ s.locksDown t := by
  let u := s.onAcc fun c => { c with deferTimer := none }
  have hexec : exec .deferExpiry s = finish u.completeLock := by
    have hcompletes : s.deferExpires = u.completeLock := if_pos hl
    rw [← hcompletes]
    change execDeferExpiry s = _
    simp only [execDeferExpiry, hd]
    rfl
  rw [hexec]
  exact ⟨_, rfl, kicked_locksDown (u := u) hcore rfl rfl⟩

/-- The config timer's expiry ends CONFIG (R75). -/
theorem configTimeout_ends (hd : s.acc.configTimer = some 0) (hc : s.acc.access = .config) :
    ∃ t, exec .configTimeout s = .next t ∧ s.configEnds t := by
  let u := s.onAcc fun c => { c with configTimer := none }
  have hexec : exec .configTimeout s = finish u.endConfig := by
    have htimed : u.configTimedOut = u.endConfig := if_pos hc
    rw [← htimed]
    change execConfigTimeout s = _
    simp only [execConfigTimeout, hd]
    rfl
  rw [hexec]
  exact ⟨u.endConfig.onRsc Rsc.kick, rfl, endConfig_configEnds (u := u) hcore rfl (State.onRsc_acc _ _)
    (congrArg Liu.pq (State.onRsc_liu _ _))⟩

/-- The entry timer's expiry ends the entry and its dialogue, and is posted (R31). -/
theorem entryExpiry_abandons (hstore : s.StoreOk) (hd : s.keu.entryTimer = some 0) :
    ∃ t, exec .entryTimerExpiry s = .next t ∧ t.keu = s.endDialogue.keu ∧
      t.liu = { s.liu with pq := { s.liu.pq with entryAbandoned := true } } ∧ State.changesOnly [.keu, .liu] s t := by
  have hend := endDialogue_frame s
  have hframe : State.changesOnly [.keu, .liu] s (s.endDialogue.postP .entryAbandoned) :=
    changesOnly_append hend (postP_frame _ _)
  have hcore' : s.endDialogue.corePowered = true :=
    (State.corePowered_congr (hend .pins (by decide)) (hend .ssv (by decide))).trans hcore
  have hexec : exec .entryTimerExpiry s = finish (s.endDialogue.postP .entryAbandoned) := by
    change execEntryTimerExpiry s = _
    simp only [execEntryTimerExpiry, hd]
    rfl
  rw [hexec]
  refine ⟨_, finish_of_served hstore hframe (by decide), postP_frame _ _ .keu (by decide), ?_, hframe⟩
  rw [State.postP_eq_onLiu, hcore', State.onLiu_liu, hend .liu (by decide)]
  rfl

end

/-- The sleep timer's expiry sets the sleep-due mark (R157, log entry 18). -/
theorem sleepExpiry_marks {s : State} (hstore : s.StoreOk) (hd : s.ssv.sleepTimer = some 0) :
    exec .sleepTimerExpiry s = .next { s with ssv := { s.ssv with sleepTimer := none, sleepDue := true } } := by
  have hexec : exec .sleepTimerExpiry s = finish (s.onSsv fun v => { v with sleepTimer := none, sleepDue := true }) := by
    change execSleepTimerExpiry s = _
    simp only [execSleepTimerExpiry, hd]
    rfl
  rw [hexec]
  exact finish_of_served hstore (onSsv_frame _ s) (by decide)

/-- Settles O51: each of the six expiries, due at count 0. -/
theorem timersExpire : Obligations.TimersExpire := by
  intro s hstore hcore
  refine ⟨idleExpiry_locks hcore, attachExpiry_locks hcore, deferExpiry_locks hcore, configTimeout_ends hcore, ?_, ?_⟩
  · intro hd
    obtain ⟨t, ht, hkeu, hliu, hframe⟩ := entryExpiry_abandons hcore hstore hd
    exact ⟨t, ht, hliu, hkeu.trans (endDialogue_keu hcore), hframe⟩
  · exact fun hd => ⟨_, sleepExpiry_marks hstore hd, rfl⟩

end Sys2Proof.Machine
end

