-- ==== Sys2Proof/Proofs/WipeEnd.lean ====
section
/-! The end of a wipe: the reset of the Limiter Record, the rekeys in index order, and the close (R77, R98, R108 to
R110). -/

namespace Sys2Proof.Machine

/-! ## The WPE at a recorded step (R106, R118) -/

/-- The WPE takes a record at the beginning of its step; the write of a cursor begins a new order at attempt 1. -/
def State.recorded (which : JournalWrite) (w : WipeRecord) (s : State) : State :=
  s.onWpe fun e => { e with journal := some w, starting := none, position := w.step.begin,
                            attempt := if which = .cursor then 1 else e.attempt }

theorem journalDone_recorded (which : JournalWrite) (w : WipeRecord) {s : State} (h : s.acc.access = .wiping) :
    s.journalDone which (some w) = (s.recorded which w).refreshRun.postWipeState.proceed := by
  simp only [State.journalDone, h, ne_eq, not_true_eq_false, if_false]
  cases which <;> rfl

/-- Outside MEDIA, with the cell above CRIT, a wipe at the beginning of a step is ACTIVE. -/
theorem recorded_runCondition (which : JournalWrite) {w : WipeRecord} {s : State} (hw : w.step ≠ .media)
    (hl : s.ssv.level ≠ .crit) : (s.recorded which w).runCondition = .active := by
  have hpause : (s.recorded which w).pauseHolds = false := by
    have hl' : (s.recorded which w).ssv.level ≠ .crit := hl
    simp [State.pauseHolds, hl']
  have hstalled : (s.recorded which w).wpe.position ≠ .stalled := by
    show w.step.begin ≠ .stalled
    cases w.step <;> simp [WipeStep.begin]
  have hmedia : (s.recorded which w).mediaWaits = false := by
    have hview : (s.recorded which w).wpe.view = some w := rfl
    simp [State.mediaWaits, hview, hw]
  simp [State.runCondition, hpause, hstalled, hmedia]

/-- In WIPING the run condition is brought up to date. -/
theorem refreshRun_wpe {s : State} (h : s.acc.access = .wiping) :
    s.refreshRun.wpe = { s.wpe with run := s.runCondition } := by
  unfold State.refreshRun
  split_ifs with hc
  · rw [postWipeState_frame _ .wpe (by decide)]
    rfl
  · have hr : s.runCondition = s.wpe.run := not_not.mp fun hr => hc ⟨h, hr⟩
    rw [hr]

theorem resetAnswered_of_limiter {b : Bool} {m : State} (h : m.wpe.position = .limiter b) :
    m.resetAnswered = (m.atPosition (.limiter true)).proceed := by
  simp only [State.resetAnswered, State.atPosition, State.onWpe, h]

theorem rekeyAnswered_of_rekey {k : Nat} {m : State} (h : m.wpe.position = .rekey k) :
    m.rekeyAnswered = (m.atPosition (.rekey (k + 1))).proceed := by
  simp only [State.rekeyAnswered, State.atPosition, State.onWpe, h]

/-- With no write left, an active wipe may act. -/
theorem State.mayAct_of_idle {s m : State} (hwiping : s.acc.access = .wiping) (hcore : s.corePowered = true)
    (hframe : State.changesOnly [.store, .rsc, .atl, .kru, .wpe, .liu] s m) (hrun : m.wpe.run = .active)
    (hidle : m.rsc = { current := none, queue := [] }) : m.MayAct where
  wiping := by rw [hframe .acc (by decide), hwiping]
  core := (State.corePowered_congr (hframe .pins (by decide)) (hframe .ssv (by decide))).trans hcore
  run := hrun
  free := by rw [State.wipeBusy, hidle]; rfl

/-- The write that records a step has completed: the WPE stands at its beginning and may act. -/
theorem journalWrite_begins {which : JournalWrite} {w : WipeRecord} {n : Nat} {s : State}
    (hw : s.rsc.current = some { entry := { contents := .journal (some w), purpose := .journal which }, attempt := n })
    (hq : s.rsc.queue = []) (hwiping : s.acc.access = .wiping) (hcore : s.corePowered = true)
    (hlevel : s.ssv.level ≠ .crit) (hstep : w.step ≠ .media) :
    ∃ v, exec (.storeWriteEnd .passed) s = finish v.proceed ∧ v.MayAct ∧ v.wpe.journal = some w ∧
      v.wpe.position = w.step.begin ∧ State.changesOnly [.store, .rsc, .wpe, .liu] s v := by
  let m := s.passed { contents := .journal (some w), purpose := .journal which }
  let u := m.recorded which w
  have hu : State.changesOnly [.store, .rsc, .wpe] s u := changesOnly_append (passed_frame _ s) (onWpe_frame _ m)
  have hv : State.changesOnly [.wpe, .liu] u u.refreshRun.postWipeState :=
    changesOnly_mono (changesOnly_append (refreshRun_frame u) (postWipeState_frame _)) (by decide)
  have hwpe : u.refreshRun.postWipeState.wpe = { u.wpe with run := .active } := by
    rw [postWipeState_frame _ .wpe (by decide), refreshRun_wpe (s := u) hwiping]
    exact congrArg (fun r => { u.wpe with run := r }) (recorded_runCondition which (s := m) hstep hlevel)
  have hall : State.changesOnly [.store, .rsc, .wpe, .liu] s u.refreshRun.postWipeState :=
    changesOnly_mono (changesOnly_append hu hv) (by decide)
  have hdone : m.journalDone which (some w) = u.refreshRun.postWipeState.proceed := journalDone_recorded which w hwiping
  refine ⟨u.refreshRun.postWipeState, ?_, ?_, ?_, ?_, hall⟩
  · rw [exec_passed hw]
    exact congrArg finish hdone
  · have hidle : u.rsc = { current := none, queue := [] } := by rw [← hq]; rfl
    exact State.mayAct_of_idle hwiping hcore (changesOnly_mono hall (by decide)) (congrArg Wpe.run hwpe)
      ((hv .rsc (by decide)).trans hidle)
  · rw [hwpe]
    rfl
  · rw [hwpe]
    rfl

section
variable {s : State} (h : s.MayAct) {w : WipeRecord} (hj : s.wpe.journal = some w)
include h hj

/-- In LIMITER the penalty stops and the reset is requested (R108). -/
theorem State.MayAct.proceed_limiter (hp : s.wpe.position = .limiter false) :
    s.proceed = s.stopPenalty.requestWrite (.limiter { fails := 0, served := true }) .reset := by
  rw [State.proceed, if_neg h.proceed_iff]
  simp only [hj, hp]

/-- After the reset the next step is recorded (R106). -/
theorem State.MayAct.proceed_reset (hp : s.wpe.position = .limiter true) :
    s.proceed = s.boundaryWrite w w.afterLimiter := by
  rw [State.proceed, if_neg h.proceed_iff]
  simp only [hj, hp]

/-- In REKEY the next volume in index order is taken (R109). -/
theorem State.MayAct.proceed_rekey {k : Nat} (hp : s.wpe.position = .rekey k) : s.proceed = s.rekeyNext w k := by
  rw [State.proceed, if_neg h.proceed_iff]
  simp only [hj, hp]

end

/-! ## One rekey (R98) -/

/-- The record of a rekeyed volume. -/
def State.rekeyedRecord (i : VolIx) (first count target : Nat) (incomplete : Bool) (s : State) : VolumeRecord :=
  { state := .present, first := some first, count := some count, key := some (Config.freshKey s.kru.keyDraws),
    keyState := .live, kgen := target,
    readOnly := some (if (s.volume i).state = .unused then false else (s.volume i).readOnly.getD false)
    incomplete := some incomplete }

/-- A rekey acts on its volume at once with a fresh key, asks for its write, and leaves the other volumes. -/
theorem rekeyVolume_facts (i : VolIx) (first count target : Nat) (b : Bool) {s t : State}
    (ht : t = (s.rekeyVolume i first count target b).onRsc Rsc.kick) :
    t.volume i = s.rekeyedRecord i first count target b ∧ t.writing (.volume i (t.volume i)) (.volumeRekey i) ∧
      (∀ u : VolIx, u ≠ i → t.volume u = s.volume u) ∧ t.wpe = s.wpe := by
  let d := s.drawKey.2
  have hvolume : t.volume i = s.rekeyedRecord i first count target b := by
    subst ht
    exact State.setVolume_volume_same i _ d
  refine ⟨hvolume, ?_, fun u hu => ?_, ?_⟩
  · rw [hvolume]
    subst ht
    exact writing_of_request _ _ s.rsc rfl
  · subst ht
    exact State.setVolume_volume_ne (Ne.symm hu) _ d
  · subst ht
    rfl

/-! ## The rekeys in order (R109) -/

theorem WipeRecord.cursorFor_eq (w : WipeRecord) (i : VolIx) :
    w.cursorFor i = w.cursors.find? fun c => c.volume = i := by
  simp only [WipeRecord.cursorFor, beq_eq_decide]

theorem needsRekey_iff (w : WipeRecord) (s : State) (i : VolIx) : s.needsRekey w i = true ↔
    (w.cursors.find? fun c => c.volume = i).isSome = true ∨ (s.volume i).state = .erasing := by
  simp only [State.needsRekey, WipeRecord.cursorFor_eq, Bool.or_eq_true, beq_iff_eq]

/-- The next volume to rekey, as the WPE looks for it. -/
theorem rekey_find (w : WipeRecord) (k : Nat) (s : State) :
    (([0, 1, 2, 3] : List VolIx).find? fun i =>
      k ≤ i.val ∧ ((w.cursors.find? fun c => c.volume = i).isSome = true ∨ (s.volume i).state = .erasing)) =
      allVolumes.find? fun i => decide (k ≤ i.val) && s.needsRekey w i := by
  refine congrArg (fun p => List.find? p _) (funext fun i => ?_)
  rw [Bool.eq_iff_iff]
  simp only [decide_eq_true_eq, Bool.and_eq_true, needsRekey_iff]

/-- The rekey that is due, or the write that closes the wipe. -/
theorem rekeyNext_rekeys (w : WipeRecord) (k : Nat) {s t : State} (ht : t = (s.rekeyNext w k).onRsc Rsc.kick) :
    s.rekeysFrom k w t := by
  unfold State.rekeysFrom
  rw [rekey_find]
  unfold State.rekeyNext at ht
  cases hfind : allVolumes.find? fun i => decide (k ≤ i.val) && s.needsRekey w i with
  | none =>
    simp only [hfind] at ht
    subst ht
    exact ⟨rfl, writing_of_request _ _ s.rsc rfl⟩
  | some i =>
    dsimp only
    have hfound := List.find?_some hfind
    have hneeds : s.needsRekey w i = true := (Bool.and_eq_true_iff.mp hfound).2
    simp only [hfind, State.rekeyOne, WipeRecord.cursorFor_eq] at ht
    cases hcursor : w.cursors.find? fun c => c.volume = i with
    | some c =>
      simp only [hcursor] at ht
      obtain ⟨hvolume, hwriting, hothers, hwpe⟩ := rekeyVolume_facts _ _ _ _ _ ht
      exact ⟨congrArg Wpe.position hwpe, hwriting, hothers, hvolume⟩
    | none =>
      simp only [hcursor] at ht
      obtain ⟨hvolume, hwriting, hothers, hwpe⟩ := rekeyVolume_facts _ _ _ _ _ ht
      have herasing : (s.volume i).state = .erasing := by
        have hor := (needsRekey_iff w s i).mp hneeds
        rw [hcursor] at hor
        exact hor.resolve_left (by simp)
      refine ⟨congrArg Wpe.position hwpe, hwriting, hothers, hvolume.trans ?_⟩
      have hused : ¬ (s.volume i).state = .unused := by rw [herasing]; decide
      exact congrArg (fun b => { s.volume i with
        state := .present, first := some ((s.volume i).first.getD 0), count := some ((s.volume i).count.getD 0),
        key := some (Config.freshKey s.kru.keyDraws), keyState := .live, kgen := nextKgen (s.volume i).kgen,
        readOnly := some b, incomplete := some false }) (if_neg hused)

/-- What is due depends on the volumes and the keys drawn alone. -/
theorem rekeysFrom_congr {k : Nat} {w : WipeRecord} {s u t : State} (hu : u.kru = s.kru) (h : u.rekeysFrom k w t) :
    s.rekeysFrom k w t := by
  cases s
  cases u
  cases hu
  exact h

theorem rekeyNext_journal (w : WipeRecord) (k : Nat) (s : State) :
    (s.rekeyNext w k).wpe.journal = s.wpe.journal := by
  unfold State.rekeyNext State.rekeyOne
  split
  · split <;> rfl
  · rfl

/-! ## The write that records a step (R108, R109) -/

section
variable {w : WipeRecord} {n : Nat} {s : State}
  (hq : s.rsc.queue = []) (hwiping : s.acc.access = .wiping) (hcore : s.corePowered = true)
include hq hwiping hcore

section
variable {which : JournalWrite}
  (hw : s.rsc.current = some { entry := { contents := .journal (some w), purpose := .journal which }, attempt := n })
  (hlevel : s.ssv.level ≠ .crit)
include hw hlevel

/-- LIMITER begins: the penalty stops and the reset is requested (R108). -/
theorem limiterRecorded_requests (hstep : w.step = .limiter) :
    ∃ t, exec (.storeWriteEnd .passed) s = .next t ∧ t.wpe.journal = some w ∧
      t.atl = { s.atl with penalty := none, phase := false } ∧
      t.writing (.limiter { fails := 0, served := true }) .reset ∧ t.kru = s.kru ∧ t.ctb = s.ctb := by
  obtain ⟨v, hexec, hact, hj, hp, hframe⟩ :=
    journalWrite_begins hw hq hwiping hcore hlevel (by rw [hstep]; decide)
  rw [hstep] at hp
  rw [hact.proceed_limiter hj hp] at hexec
  refine ⟨_, hexec, hj, ?_, writing_of_request _ _ v.rsc rfl, hframe .kru (by decide), hframe .ctb (by decide)⟩
  exact congrArg (fun a => { a with penalty := none, phase := false }) (hframe .atl (by decide))

/-- REKEY begins with the first volume in index order (R109). -/
theorem rekeyRecorded_rekeys (hstep : w.step = .rekey) :
    ∃ t, exec (.storeWriteEnd .passed) s = .next t ∧ t.wpe.journal = some w ∧ s.rekeysFrom 0 w t ∧
      t.ctb = s.ctb ∧ t.atl = s.atl := by
  obtain ⟨v, hexec, hact, hj, hp, hframe⟩ :=
    journalWrite_begins hw hq hwiping hcore hlevel (by rw [hstep]; decide)
  rw [hstep] at hp
  rw [hact.proceed_rekey hj hp] at hexec
  have hnext := rekeyNext_frame w 0 v
  refine ⟨_, hexec, (rekeyNext_journal w 0 v).trans hj, ?_, ?_, ?_⟩
  · exact rekeysFrom_congr (hframe .kru (by decide)) (rekeyNext_rekeys w 0 rfl)
  · exact (hnext .ctb (by decide)).trans (hframe .ctb (by decide))
  · exact (hnext .atl (by decide)).trans (hframe .atl (by decide))

end

/-! ## The end of the reset (R108) -/

section
variable (hw : s.rsc.current =
  some { entry := { contents := .limiter { fails := 0, served := true }, purpose := .reset }, attempt := n })
include hw

/-- The reset is done, and the next step is recorded. -/
theorem resetWrite_passed (hj : s.wpe.journal = some w) (hp : s.wpe.position = .limiter false)
    (hrun : s.wpe.run = .active) :
    ∃ t, exec (.storeWriteEnd .passed) s = .next t ∧
      t.atl = { s.atl with limiter := { fails := 0, served := true } } ∧
      t.writing (.journal (some { w with step := w.afterLimiter })) (.journal .boundary) := by
  let m := ((s.passed { contents := .limiter { fails := 0, served := true }, purpose := .reset }).setLimiter
    { fails := 0, served := true }).atPosition (.limiter true)
  have hframe : State.changesOnly [.store, .rsc, .atl, .wpe] s m :=
    changesOnly_mono (changesOnly_append (passed_frame _ s) (changesOnly_append (onAtl_frame _ _) (onWpe_frame _ _)))
      (by decide)
  have hidle : m.rsc = { current := none, queue := [] } := by rw [← hq]; rfl
  have hact : m.MayAct := State.mayAct_of_idle hwiping hcore (changesOnly_mono hframe (by decide)) hrun hidle
  have hanswered : ((s.passed { contents := .limiter { fails := 0, served := true }, purpose := .reset }).setLimiter
      { fails := 0, served := true }).resetAnswered = m.boundaryWrite w w.afterLimiter := by
    rw [← hact.proceed_reset hj rfl]
    exact resetAnswered_of_limiter hp
  rw [exec_passed hw]
  exact ⟨_, congrArg finish hanswered, rfl, writing_of_request _ _ m.rsc rfl⟩

omit hq hcore in
/-- The reset has failed after its retry: the part is halted. -/
theorem resetWrite_failed (left : Residue) (hn : n ≠ 1) :
    ∃ t, exec (.storeWriteEnd (.failed left)) s = .next t ∧ t.acc.access = .halted ∧
      t.atl.limiter = s.atl.limiter := by
  let m := s.spoilt left { contents := .limiter { fails := 0, served := true }, purpose := .reset }
  have hopen : m.acc.access ≠ .halted := by
    show s.acc.access ≠ .halted
    rw [hwiping]
    decide
  rw [exec_failed left hw hn]
  exact ⟨m.enterHalted.onRsc Rsc.kick, rfl, congrArg Acc.access (State.enterHalted_acc hopen),
    (congrArg Atl.limiter (State.enterHalted_atl hopen) :)⟩

end

/-! ## The end of a rekey (R109) -/

omit hq in
/-- A rekey was answered: the next volume in index order is taken. -/
theorem rekeyAnswered_rekeys {k : Nat} {m : State} (hframe : State.changesOnly [.store, .rsc, .kru] s m)
    (hidle : m.rsc = { current := none, queue := [] }) (hj : s.wpe.journal = some w) (hp : s.wpe.position = .rekey k)
    (hrun : s.wpe.run = .active) :
    ∃ t, finish m.rekeyAnswered = .next t ∧ m.rekeysFrom (k + 1) w t := by
  have hwpe : m.wpe = s.wpe := hframe .wpe (by decide)
  let u := m.atPosition (.rekey (k + 1))
  have hact : u.MayAct :=
    State.mayAct_of_idle hwiping hcore (changesOnly_mono (changesOnly_append hframe (onWpe_frame _ m)) (by decide))
      ((congrArg Wpe.run hwpe).trans hrun) hidle
  have hanswered : m.rekeyAnswered = u.rekeyNext w (k + 1) := by
    rw [← hact.proceed_rekey ((congrArg Wpe.journal hwpe).trans hj) rfl]
    exact rekeyAnswered_of_rekey ((congrArg Wpe.position hwpe).trans hp)
  rw [hanswered]
  exact ⟨_, rfl, rekeysFrom_congr (u := u) rfl (rekeyNext_rekeys w (k + 1) rfl)⟩

theorem rekeyWrite_ends {k : Nat} {i : VolIx} {v : VolumeRecord} (r : AttemptEnd)
    (hw : s.rsc.current =
      some { entry := { contents := .volume i v, purpose := .volumeRekey i }, attempt := n })
    (hj : s.wpe.journal = some w) (hp : s.wpe.position = .rekey k) (hrun : s.wpe.run = .active)
    (hr : r = .passed ∨ n ≠ 1) :
    ∃ t, exec (.storeWriteEnd r) s = .next t ∧
      (let u : State := if r = .passed then s
         else { s with kru := { s.kru with volumes := s.kru.volumes.set i (.unused (s.volume i).kgen) } }
       u.rekeysFrom (k + 1) w t) := by
  cases r with
  | passed =>
    let m := s.passed { contents := .volume i v, purpose := .volumeRekey i }
    have hidle : m.rsc = { current := none, queue := [] } := by rw [← hq]; rfl
    obtain ⟨t, ht, hrekeys⟩ := rekeyAnswered_rekeys hwiping hcore
      (changesOnly_mono (passed_frame { contents := .volume i v, purpose := .volumeRekey i } s) (by decide))
      hidle hj hp hrun
    rw [exec_passed hw]
    exact ⟨t, ht, rekeysFrom_congr (u := m) rfl hrekeys⟩
  | failed left =>
    have hn : n ≠ 1 := hr.resolve_left (by simp)
    let e : WriteEntry := { contents := .volume i v, purpose := .volumeRekey i }
    let m := (s.spoilt left e).setVolume i (.unused (s.volume i).kgen)
    have hidle : m.rsc = { current := none, queue := [] } := by rw [← hq]; rfl
    have hframe : State.changesOnly [.store, .rsc, .kru] s m :=
      changesOnly_mono (changesOnly_append (spoilt_frame left e s) (onKru_frame _ _)) (by decide)
    obtain ⟨t, ht, hrekeys⟩ := rekeyAnswered_rekeys hwiping hcore hframe hidle hj hp hrun
    have hfailed : (s.spoilt left e).volumeFailed i = m := volumeFailed_of_free i hq
    rw [exec_failed left hw hn]
    refine ⟨t, (congrArg (fun x => finish x.rekeyAnswered) hfailed).trans ht, ?_⟩
    exact rekeysFrom_congr (u := m) rfl hrekeys

end
/-! ## The close (R110) -/

/-- The report that a wipe closes. -/
def WipeRecord.closeReport (w : WipeRecord) : WipeReport :=
  { cause := w.cause, depth := w.depth, step := .close, run := .active, progress := 100 }

/-- The wipe's items are gone and its close is posted. -/
def State.closed (w : WipeRecord) (s : State) : State := (s.onWpe fun _ => Wpe.init).postP (.wipeState w.closeReport)

theorem closed_frame (w : WipeRecord) (s : State) : State.changesOnly [.wpe, .liu] s (s.closed w) :=
  changesOnly_append (onWpe_frame _ s) (postP_frame _ _)

theorem closed_wpe (w : WipeRecord) (s : State) : (s.closed w).wpe = .init := postP_frame _ _ .wpe (by decide)

theorem closed_wipeState (w : WipeRecord) {s : State} (h : s.corePowered = true) :
    (s.closed w).liu.pq.wipeState = some w.closeReport := by
  have hcore : (s.onWpe fun _ => Wpe.init).corePowered = true := h
  rw [State.closed, State.postP, if_pos hcore]
  rfl

theorem journalDone_close (which : JournalWrite) {w : WipeRecord} {s : State} (h : s.acc.access = .wiping)
    (hj : s.wpe.journal = some w) : s.journalDone which none = s.closeWipe w := by
  simp only [State.journalDone, h, ne_eq, not_true_eq_false, if_false, hj]
  rfl

/-- A wipe closes into LOCKED with slot 0 ACTIVE, and into BLANK otherwise. -/
theorem closeWipe_eq (w : WipeRecord) (s : State) : s.closeWipe w =
    if (s.slotRec 0).state = .active then (s.closed w).enterLocked else (s.closed w).changeAccess .blank none := by
  have hctb : (s.closed w).ctb = s.ctb := closed_frame w s .ctb (by decide)
  have hslot : (s.closed w).slotRec 0 = s.slotRec 0 := congrArg (fun c : Ctb => (c.slots.get 0).record) hctb
  rw [← hslot]
  rfl

theorem closed_closeWipe_frame (w : WipeRecord) (s : State) :
    State.changesOnly lockBlocks (s.closed w) (s.closeWipe w) := by
  rw [closeWipe_eq]
  split
  · exact enterLocked_frame _
  · exact changesOnly_mono (changeAccess_frame _ _ _) (by decide)

theorem closeWipe_acc_of_slot (w : WipeRecord) (s : State) : (s.closeWipe w).acc =
    { s.acc with access := if (s.slotRec 0).state = .active then .locked else .blank, openSlot := none } := by
  have hacc : (s.closed w).acc = s.acc := closed_frame w s .acc (by decide)
  rw [closeWipe_eq]
  split
  · rw [State.enterLocked_acc, hacc]
  · rw [State.changeAccess_acc, hacc]

theorem closeWipe_reports (w : WipeRecord) (s : State) : (s.closed w).ReportsAccess (s.closeWipe w) := by
  rw [closeWipe_eq]
  split
  · exact reportsAccess_enterLocked _
  · exact reportsAccess_changeAccess _ _ _

/-- On entry into BLANK the automatic dialogue for slot 0 begins (R35). -/
theorem closeWipe_dialogue (w : WipeRecord) {s : State} (hcore : s.corePowered = true)
    (hslot : (s.slotRec 0).state ≠ .active) (hidle : s.keu.bstate ≠ .evaluating) :
    (s.closeWipe w).keu.dialogue = some { kind := .automatic, target := 0, mode := none, mask := none, step := .first,
                                          candidate := none } := by
  let b := (s.closed w).onAcc fun c => { c with access := .blank, openSlot := none }
  have hframe : State.changesOnly [.wpe, .liu, .acc] s b := changesOnly_append (closed_frame w s) (onAcc_frame _ _)
  have hcore' : b.corePowered = true :=
    (State.corePowered_congr (hframe .pins (by decide)) (hframe .ssv (by decide))).trans hcore
  have hends : b.interruptEntry = b.endDialogue := by
    rw [State.interruptEntry, if_neg]
    rw [hframe .keu (by decide)]
    exact hidle
  rw [closeWipe_eq, if_neg hslot]
  show b.interruptEntry.postAccessChanged.keu.dialogue = _
  rw [postAccessChanged_frame _ .keu (by decide), hends, endDialogue_of_blank rfl hcore']
  rfl

/-- The write that closes the wipe has completed. -/
theorem closeWrite_closes {w : WipeRecord} {n : Nat} {s : State} (hwiping : s.acc.access = .wiping)
    (hcore : s.corePowered = true)
    (hw : s.rsc.current = some { entry := { contents := .journal none, purpose := .journal .close }, attempt := n })
    (hj : s.wpe.journal = some w) :
    ∃ t, exec (.storeWriteEnd .passed) s = .next t ∧ t.store.journal.read = .valid none ∧ t.wpe = .init ∧
      t.ctb = s.ctb ∧ t.atl = s.atl ∧ t.liu.pq.wipeState = some w.closeReport ∧
      t.acc = { s.acc with access := if (s.slotRec 0).state = .active then .locked else .blank, openSlot := none } ∧
      ((s.slotRec 0).state ≠ .active → s.keu.bstate ≠ .evaluating →
        t.keu.dialogue = some { kind := .automatic, target := 0, mode := none, mask := none, step := .first,
                                candidate := none }) := by
  let m := s.passed { contents := .journal none, purpose := .journal .close }
  have hdone : m.journalDone .close none = m.closeWipe w := journalDone_close .close hwiping hj
  have hlast := closed_closeWipe_frame w m
  have hall : State.changesOnly (.store :: .wpe :: lockBlocks) s (m.closeWipe w) :=
    changesOnly_mono (changesOnly_append (passed_frame _ s) (changesOnly_append (closed_frame w m) hlast)) (by decide)
  rw [exec_passed hw]
  refine ⟨_, congrArg finish hdone, ?_⟩
  simp only [State.onRsc_store, State.onRsc_wpe, State.onRsc_ctb, State.onRsc_atl, State.onRsc_liu, State.onRsc_acc,
    State.onRsc_keu]
  refine ⟨?_, ?_, hall .ctb (by decide), hall .atl (by decide), ?_, closeWipe_acc_of_slot w m,
    closeWipe_dialogue (s := m) w hcore⟩
  · rw [hlast .store (by decide), closed_frame w m .store (by decide)]
    exact Store.read_journal_complete none s.store
  · rw [hlast .wpe (by decide), closed_wpe]
  · rw [(closeWipe_reports w m).wipeState, closed_wipeState w (s := m) hcore]

/-- Settles O60: each write of the end of a wipe, from the record of LIMITER to the close. -/
theorem wipeCloses : Obligations.WipeCloses := by
  intro w k n i v which r left s hq hwiping hcore hlevel
  refine ⟨fun hw => ⟨?_, ?_⟩, fun hw => ⟨?_, ?_⟩, ?_, ?_⟩
  · exact limiterRecorded_requests hq hwiping hcore hw hlevel
  · exact rekeyRecorded_rekeys hq hwiping hcore hw hlevel
  · exact resetWrite_passed hq hwiping hcore hw
  · exact resetWrite_failed hwiping hw left
  · exact fun hw hj hp _ hrun hr => rekeyWrite_ends hq hwiping hcore r hw hj hp hrun hr
  · exact closeWrite_closes hwiping hcore

end Sys2Proof.Machine
end

