-- ==== Sys2Proof/Proofs/Schedule.lean ====
section
/-! The four fields of the Attempt Limiter through the work of a row (R43, R129): what keeps F keeps them while F is
above 0, an application of the Pending Set among it. -/

namespace Sys2Proof.Machine

/-- The four fields of the Attempt Limiter (R43). -/
def Policy.schedule (p : Policy) : Nat × Nat × Nat × Nat :=
  (p.freeAttempts, p.penaltyBase, p.penaltyCap, p.wipeThreshold)

theorem Policy.schedule_eq_iff (p q : Policy) : p.schedule = q.schedule ↔
    p.freeAttempts = q.freeAttempts ∧ p.penaltyBase = q.penaltyBase ∧ p.penaltyCap = q.penaltyCap ∧
      p.wipeThreshold = q.wipeThreshold := by
  simp [Policy.schedule]

/-- The Limiter Record is kept, and with F above 0 so are the four fields. -/
structure State.HoldsSchedule (s t : State) : Prop where
  limiter : t.atl.limiter = s.atl.limiter
  fields : s.plu.policy.freeAttempts < s.plu.policy.wipeThreshold → s.atl.limiter.fails ≠ 0 →
    t.plu.policy.schedule = s.plu.policy.schedule

theorem State.HoldsSchedule.of_same {s t : State} (ha : t.atl.limiter = s.atl.limiter)
    (hp : t.plu.policy = s.plu.policy) : s.HoldsSchedule t := ⟨ha, fun _ _ => by rw [hp]⟩

theorem State.HoldsSchedule.of_frame {l : List Block} {s t : State} (h : State.changesOnly l s t)
    (ha : Block.atl ∉ l := by decide) (hp : Block.plu ∉ l := by decide) : s.HoldsSchedule t :=
  .of_same (congrArg Atl.limiter (h .atl ha)) (congrArg Plu.policy (h .plu hp))

theorem State.HoldsSchedule.refl (s : State) : s.HoldsSchedule s := .of_same rfl rfl

theorem State.HoldsSchedule.trans {s t u : State} (h : s.HoldsSchedule t) (k : t.HoldsSchedule u) :
    s.HoldsSchedule u := by
  refine ⟨k.limiter.trans h.limiter, fun hw hf => ?_⟩
  have ht := h.fields hw hf
  obtain ⟨hfree, -, -, hthreshold⟩ := (Policy.schedule_eq_iff _ _).mp ht
  exact (k.fields (by rw [hfree, hthreshold]; exact hw) (by rw [h.limiter]; exact hf)).trans ht

/-! ## Applications -/

/-- With F above 0 an application takes no field of the Attempt Limiter (R43, R129). -/
theorem State.newPolicy_schedule {s : State} (hw : s.plu.policy.freeAttempts < s.plu.policy.wipeThreshold)
    (hf : s.atl.limiter.fails ≠ 0) : s.newPolicy.schedule = s.plu.policy.schedule := by
  have hfield (g : PolicyField) (hg : g ≠ .wipeThreshold) (hheld : g.held = true) :
      s.newPolicy.value g = s.plu.policy.value g := by
    rw [State.newPolicy_value s hg]
    split
    · rw [if_pos ⟨hf, hheld⟩]
    · rfl
  have hthreshold : s.newPolicy.wipeThreshold = s.plu.policy.wipeThreshold := by
    have h := (s.newPolicy_threshold hw).1
    simpa only [ne_eq, hf, not_false_eq_true, if_true] using h
  exact (Policy.schedule_eq_iff _ _).mpr ⟨hfield .freeAttempts (by decide) rfl, hfield .penaltyBase (by decide) rfl,
    hfield .penaltyCap (by decide) rfl, hthreshold⟩

theorem holdsSchedule_enterLocked (s : State) : s.HoldsSchedule s.enterLocked := by
  have hpolicy : s.enterLocked.plu.policy = s.newPolicy := by
    rw [State.enterLocked, changeAccess_frame _ _ _ .plu (by decide), applyPendingSet_policy]
  refine ⟨congrArg Atl.limiter (enterLocked_frame s .atl (by decide)), fun hw hf => ?_⟩
  rw [hpolicy, State.newPolicy_schedule hw hf]

/-! ## Wipes -/

theorem discardPendingSet_policy (s : State) : s.discardPendingSet.plu.policy = s.plu.policy := by
  unfold State.discardPendingSet
  extract_lets gs t u
  have hframe : State.changesOnly [.liu] t u := foldl_frame (fun v (g : Staging) => refuseTo_frame g.requester .wiping v) gs t
  have hplu : u.plu = t.plu := hframe .plu (by decide)
  have hu : u.plu.policy = s.plu.policy := (congrArg Plu.policy hplu).trans rfl
  split_ifs
  · exact hu
  · exact hu

theorem holdsSchedule_startWipe (c : WipeCause) (s : State) : s.HoldsSchedule (s.startWipe c) := by
  refine .of_same (startWipe_limiter c s) ?_
  unfold State.startWipe
  split_ifs
  · rfl
  · have hplu : ((s.quitForWipe.stopPenalty.discardPendingSet.armWipe c).changeAccess .wiping none).plu =
        s.quitForWipe.stopPenalty.discardPendingSet.plu :=
      changesOnly_append (armWipe_frame c _) (changeAccess_frame .wiping none _) .plu (by decide)
    dsimp only [State.onWpe_plu]
    rw [hplu, discardPendingSet_policy, stopPenalty_frame _ .plu (by decide), quitForWipe_frame s .plu (by decide)]

theorem proceed_limiter (s : State) : s.proceed.atl.limiter = s.atl.limiter := by
  unfold State.proceed
  split_ifs
  · rfl
  · split
    · rfl
    · split
      · rfl
      · rfl
      · rfl
      · split
        · exact congrArg Atl.limiter (destroy_frame _ s .atl (by decide))
        · exact congrArg Atl.limiter (passEnded_frame _ _ _ s .atl (by decide))
      · rfl
      · rfl
      · exact congrArg Atl.limiter (formOrder_frame _ s .atl (by decide))
      · exact congrArg Atl.limiter (rekeyNext_frame _ _ s .atl (by decide))

theorem holdsSchedule_proceed (s : State) : s.HoldsSchedule s.proceed :=
  .of_same (proceed_limiter s) (congrArg Plu.policy (proceed_frame s .plu (by decide)))

theorem holdsSchedule_enterHalted (s : State) : s.HoldsSchedule s.enterHalted := by
  refine .of_same ?_ (congrArg Plu.policy (enterHalted_frame s .plu (by decide)))
  by_cases h : s.acc.access = .halted
  · rw [State.enterHalted, if_pos h]
  · rw [State.enterHalted_atl h]

end Sys2Proof.Machine
end

