-- ==== Sys2Proof/Proofs/Lawful.lean ====
section
/-! What the work of a row that grants nothing does to the access state: it opens nothing, keeps the schedule while F is
above 0, and where it enters LOCKED from an open state it applies the Pending Set (4.2, R43, R73, R129). -/

namespace Sys2Proof.Machine

/-! ## What an application speaks of -/

/-- A write of the Pending Set or of a part of it being applied (R124, R129). -/
def WriteEntry.ofSet (e : WriteEntry) : Bool :=
  match e.contents, e.purpose with
  | .policy _, .policyApply => true
  | .map _, .mapApply => true
  | .volume _ _, .volumeApply _ => true
  | .pset _, .pset _ _ => true
  | _, _ => false

/-- Whatever an application reads before it is the same, and no write of the set is new. -/
structure State.BeforeSet (s t : State) : Prop where
  policy : t.plu.policy = s.plu.policy
  map : t.plu.map = s.plu.map
  committed : t.plu.committed = s.plu.committed
  removing : t.plu.removing = s.plu.removing
  kru : t.kru = s.kru
  writes : ∀ e ∈ t.rsc.entries, e.ofSet = true → e ∈ s.rsc.entries

theorem State.BeforeSet.of_frame {l : List Block} {s t : State} (h : State.changesOnly l s t)
    (hr : ∀ e ∈ t.rsc.entries, e ∈ s.rsc.entries) (hp : Block.plu ∉ l := by decide) (hk : Block.kru ∉ l := by decide) :
    s.BeforeSet t := by
  have hplu : t.plu = s.plu := h .plu hp
  exact ⟨by rw [hplu], by rw [hplu], by rw [hplu], by rw [hplu], h .kru hk, fun e he _ => hr e he⟩

theorem State.BeforeSet.trans {s t u : State} (h : s.BeforeSet t) (k : t.BeforeSet u) : s.BeforeSet u where
  policy := k.policy.trans h.policy
  map := k.map.trans h.map
  committed := k.committed.trans h.committed
  removing := k.removing.trans h.removing
  kru := k.kru.trans h.kru
  writes e he hs := h.writes e (k.writes e he hs) hs

/-- Settings, stagings, volumes and the writes of the set are the same: all that an application speaks of, but for F. -/
structure State.SameSet (s t : State) : Prop extends State.BeforeSet s t where
  applying : t.plu.applying = s.plu.applying
  ids : t.plu.inflight.map Staging.id = s.plu.inflight.map Staging.id
  parts : t.plu.inflight.map Staging.parts = s.plu.inflight.map Staging.parts
  stillWrites : ∀ e ∈ s.rsc.entries, e.ofSet = true → e ∈ t.rsc.entries

theorem State.SameSet.of_same {s t : State} (hp : t.plu = s.plu) (hk : t.kru = s.kru)
    (hr : ∀ e : WriteEntry, e.ofSet = true → (e ∈ t.rsc.entries ↔ e ∈ s.rsc.entries)) : s.SameSet t where
  policy := by rw [hp]
  map := by rw [hp]
  committed := by rw [hp]
  removing := by rw [hp]
  applying := by rw [hp]
  ids := by rw [hp]
  parts := by rw [hp]
  kru := hk
  writes e he hs := (hr e hs).mp he
  stillWrites e he hs := (hr e hs).mpr he

theorem State.SameSet.of_frame {l : List Block} {s t : State} (h : State.changesOnly l s t)
    (hp : Block.plu ∉ l := by decide) (hk : Block.kru ∉ l := by decide) (hr : Block.rsc ∉ l := by decide) :
    s.SameSet t := .of_same (h .plu hp) (h .kru hk) fun e _ => by rw [show t.rsc = s.rsc from h .rsc hr]

theorem State.SameSet.trans {s t u : State} (h : s.SameSet t) (k : t.SameSet u) : s.SameSet u where
  toBeforeSet := h.toBeforeSet.trans k.toBeforeSet
  applying := k.applying.trans h.applying
  ids := k.ids.trans h.ids
  parts := k.parts.trans h.parts
  stillWrites e he hs := k.stillWrites e (h.stillWrites e he hs) hs

theorem State.BeforeSet.writing {s t : State} (h : s.BeforeSet t) {c : Contents} {p : Purpose}
    (he : WriteEntry.ofSet { contents := c, purpose := p } = true) (ht : t.writing c p) : s.writing c p :=
  (State.writing_iff c p s).mpr (h.writes _ ((State.writing_iff c p t).mp ht) he)

theorem State.SameSet.writing {s t : State} (h : s.SameSet t) {c : Contents} {p : Purpose}
    (he : WriteEntry.ofSet { contents := c, purpose := p } = true) : t.writing c p ↔ s.writing c p :=
  ⟨h.toBeforeSet.writing he,
    fun hs => (State.writing_iff c p t).mpr (h.stillWrites _ ((State.writing_iff c p s).mp hs) he)⟩

theorem State.SameSet.writes_policy {s t : State} (h : s.SameSet t) (q : Policy) :
    t.writing (.policy q) .policyApply ↔ s.writing (.policy q) .policyApply := h.writing rfl

theorem State.SameSet.writes_map {s t : State} (h : s.SameSet t) (m : LockMap) :
    t.writing (.map m) .mapApply ↔ s.writing (.map m) .mapApply := h.writing rfl

theorem State.SameSet.writes_volume {s t : State} (h : s.SameSet t) (v : VolIx) (r : VolumeRecord) :
    t.writing (.volume v r) (.volumeApply v) ↔ s.writing (.volume v r) (.volumeApply v) := h.writing rfl

theorem State.SameSet.writes_pset {s t : State} (h : s.SameSet t) (a : PendingSet) (ids : List Nat) :
    t.writing (.pset a) (.pset ids false) ↔ s.writing (.pset a) (.pset ids false) := h.writing rfl

/-- The stagings laid over a set, by their parts. -/
theorem foldl_overlay_parts (gs : List Staging) (a : PendingSet) :
    gs.foldl (fun b g => b.overlay g.parts) a = (gs.map Staging.parts).foldl PendingSet.overlay a := by
  rw [List.foldl_map]

/-- An application is told of an earlier state by what it reads. -/
theorem State.appliesSet.from_before {s u t : State} (h : u.appliesSet t) (k : s.BeforeSet u) : s.appliesSet t := by
  have happ (v : VolIx) : u.appliedVolume v = s.appliedVolume v := State.appliedVolume_congr k.kru k.committed v
  have hvol (v : VolIx) : u.volume v = s.volume v := by simp only [State.volume, k.kru]
  obtain ⟨hvalues, hthreshold, hmap, hvolumes, hpolicyW, hmapW, hvolumeW, a, htakes, hconcludes⟩ := h
  unfold State.takesParts State.concludes at *
  unfold State.appliesSet State.takesParts State.concludes
  simp only [k.policy, k.map, k.committed, k.removing, happ, hvol] at *
  refine ⟨hvalues, hthreshold, hmap, hvolumes, ?_, ?_, fun v => ?_, a, htakes, hconcludes⟩
  · split_ifs at hpolicyW ⊢
    · exact fun q hq => k.writing rfl (hpolicyW q hq)
    · exact hpolicyW
  · split_ifs at hmapW ⊢
    · exact fun m hm => k.writing rfl (hmapW m hm)
    · exact hmapW
  · have hw := hvolumeW v
    split_ifs at hw ⊢
    · exact fun r hr => k.writing rfl (hw r hr)
    · exact hw

/-- An application is told of a later state by what it speaks of and F. -/
theorem State.appliesSet.to_same {s t w : State} (h : s.appliesSet t) (k : t.SameSet w)
    (hf : w.atl.limiter = t.atl.limiter) : s.appliesSet w := by
  have hvol (v : VolIx) : w.volume v = t.volume v := by simp only [State.volume, k.kru]
  unfold State.appliesSet State.takesParts State.concludes at *
  simp only [foldl_overlay_parts] at *
  simpa only [hf, k.policy, k.map, k.committed, k.applying, k.removing, k.ids, k.parts, hvol,
    k.writes_policy, k.writes_map, k.writes_volume, k.writes_pset] using h

/-- The entry into LOCKED applies the Pending Set (R73). -/
theorem appliesSet_enterLocked (s : State) : s.appliesSet s.enterLocked :=
  have hframe : State.changesOnly [.acc, .keu, .liu] s.applyPendingSet s.enterLocked := changeAccess_frame _ _ _
  (applyPendingSet_applies s).to_same (.of_frame hframe) (congrArg Atl.limiter (hframe .atl (by decide)))

/-! ## Work that grants nothing -/

/-- What work within a row does to the access state, where it grants nothing. -/
structure State.Lawful (s t : State) : Prop where
  schedule : s.HoldsSchedule t
  /-- it opens neither UNLOCKED nor CONFIG -/
  opensNot : t.acc.access = .unlocked ∨ t.acc.access = .config → t.acc.access = s.acc.access
  /-- an open state comes from an open state, its settings as they were -/
  fromOpen : t.acc.access.isOpen = true → s.acc.access.isOpen = true ∧ s.SameSet t
  /-- LOCKED stands on, or is entered from an open state and applies the Pending Set -/
  locked : t.acc.access = .locked →
    (s.acc.access = .locked ∧ s.SameSet t) ∨ (s.acc.access.isOpen = true ∧ s.appliesSet t)

/-- Access state and settings stand. -/
theorem State.Lawful.of_same {s t : State} (ha : t.acc.access = s.acc.access) (hl : t.atl.limiter = s.atl.limiter)
    (hs : s.SameSet t) : s.Lawful t where
  schedule := .of_same hl hs.policy
  opensNot _ := ha
  fromOpen ho := ⟨ha ▸ ho, hs⟩
  locked ht := .inl ⟨ha ▸ ht, hs⟩

theorem State.Lawful.of_frame {l : List Block} {s t : State} (h : State.changesOnly l s t)
    (hl : ∀ b ∈ [Block.atl, .plu, .kru, .rsc], b ∉ l := by decide) (ha : Block.acc ∉ l := by decide) :
    s.Lawful t :=
  .of_same (congrArg Acc.access (h .acc ha)) (congrArg Atl.limiter (h .atl (hl _ (by decide))))
    (.of_frame h (hl _ (by decide)) (hl _ (by decide)) (hl _ (by decide)))

theorem State.Lawful.refl (s : State) : s.Lawful s := .of_frame (l := []) (changesOnly_refl _ s)

/-- The state left is neither open nor LOCKED. -/
theorem State.Lawful.away {s t : State} (hs : s.HoldsSchedule t) (hl : t.acc.access ≠ .locked)
    (ho : t.acc.access.isOpen = false) : s.Lawful t where
  schedule := hs
  opensNot h := by rcases h with h | h <;> rw [h] at ho <;> cases ho
  fromOpen h := absurd h (by simp [ho])
  locked h := absurd h hl

theorem State.Lawful.trans {s t u : State} (h : s.Lawful t) (k : t.Lawful u) : s.Lawful u where
  schedule := h.schedule.trans k.schedule
  opensNot hu := by
    have ht := k.opensNot hu
    exact ht.trans (h.opensNot (ht ▸ hu))
  fromOpen hu := by
    obtain ⟨hopen, hset⟩ := k.fromOpen hu
    obtain ⟨hopen', hset'⟩ := h.fromOpen hopen
    exact ⟨hopen', hset'.trans hset⟩
  locked hu := by
    rcases k.locked hu with ⟨ht, hset⟩ | ⟨hopen, happ⟩
    · rcases h.locked ht with ⟨hs, hset'⟩ | ⟨hs, happ⟩
      · exact .inl ⟨hs, hset'.trans hset⟩
      · exact .inr ⟨hs, happ.to_same hset k.schedule.limiter⟩
    · obtain ⟨hs, hset⟩ := h.fromOpen hopen
      exact .inr ⟨hs, happ.from_before hset.toBeforeSet⟩

theorem State.Lawful.ite {s t u : State} {c : Prop} [Decidable c] (h : c → s.Lawful t) (k : ¬ c → s.Lawful u) :
    s.Lawful (if c then t else u) := by
  split
  · exact h ‹_›
  · exact k ‹_›

/-- Work that leaves the access state, and the settings outside WIPING. -/
theorem State.Lawful.of_wiping {s t : State} (hs : s.HoldsSchedule t) (ha : t.acc.access = s.acc.access)
    (h : s.acc.access ≠ .wiping → t = s) : s.Lawful t := by
  by_cases hw : s.acc.access = .wiping
  · exact .away hs (by simp [ha, hw]) (by simp [ha, hw, Access.isOpen])
  · rw [h hw]
    exact .refl s

/-! ## Access changes -/

theorem lawful_enterLocked {s : State} (h : s.acc.access.isOpen = true) : s.Lawful s.enterLocked where
  schedule := holdsSchedule_enterLocked s
  opensNot ht := by simp at ht
  fromOpen ht := by simp [Access.isOpen] at ht
  locked _ := .inr ⟨h, appliesSet_enterLocked s⟩

theorem lawful_closeOpen (s : State) : s.Lawful s.closeOpen :=
  have h := closeOpen_frame s
  .of_same (by simp) (congrArg Atl.limiter (h .atl (by decide))) (.of_frame h)

/-- A change of the access items other than the access state. -/
theorem lawful_onAcc {f : Acc → Acc} {s : State} (h : (f s.acc).access = s.acc.access) : s.Lawful (s.onAcc f) :=
  .of_same h rfl (.of_frame (onAcc_frame f s))

theorem lawful_completeLock {s : State} (h : s.acc.access = .unlocked ∨ s.acc.access = .locking) :
    s.Lawful s.completeLock :=
  (lawful_closeOpen s).trans (lawful_enterLocked (by rcases h with h | h <;> simp [h, Access.isOpen]))

theorem lawful_endConfig {s : State} (h : s.acc.access = .config) : s.Lawful s.endConfig :=
  (lawful_onAcc rfl).trans (lawful_enterLocked (by simp [h, Access.isOpen]))

theorem lawful_enterLocking {c : LockCause} {s : State} (h : s.acc.access = .unlocked) :
    s.Lawful (s.enterLocking c) where
  schedule := .of_frame (enterLocking_frame c s)
  opensNot ht := by simp at ht
  fromOpen _ := ⟨by simp [h, Access.isOpen], .of_frame (enterLocking_frame c s)⟩
  locked ht := by simp at ht

/-- A state that is neither open nor LOCKED is entered. -/
theorem lawful_changeAccess {a : Access} (o : Option SlotIx) (s : State) (hl : a ≠ .locked) (ho : a.isOpen = false) :
    s.Lawful (s.changeAccess a o) :=
  .away (.of_frame (changeAccess_frame a o s)) (by simpa using hl) (by simpa using ho)

theorem lawful_enterHalted (s : State) : s.Lawful s.enterHalted := by
  have h : s.enterHalted.acc.access = .halted := by
    by_cases hh : s.acc.access = .halted
    · rw [State.enterHalted, if_pos hh, hh]
    · rw [State.enterHalted_acc hh]
  exact .away (holdsSchedule_enterHalted s) (by simp [h]) (by simp [h, Access.isOpen])

/-! ## Wipes and lock causes -/

theorem startWipe_access (c : WipeCause) (s : State) :
    (s.startWipe c).acc.access = if s.acc.access = .halted then .halted else .wiping := by
  by_cases hw : s.acc.access = .wiping
  · simp [State.startWipe, hw]
  · by_cases hh : s.acc.access = .halted
    · simp [State.startWipe, hh]
    · rw [State.startWipe_acc hw hh, if_neg hh]

theorem lawful_startWipe (c : WipeCause) (s : State) : s.Lawful (s.startWipe c) := by
  have h := startWipe_access c s
  refine .away (holdsSchedule_startWipe c s) ?_ ?_
  · rw [h]
    split_ifs <;> decide
  · rw [h]
    split_ifs <;> rfl

theorem lawful_refreshRun (s : State) : s.Lawful s.refreshRun := .of_frame (refreshRun_frame s)

theorem lawful_proceed (s : State) : s.Lawful s.proceed :=
  .of_wiping (holdsSchedule_proceed s) (by simp) State.proceed_of_not_wiping

theorem lawful_wpeTold (s : State) : s.Lawful s.wpeTold := (lawful_refreshRun s).trans (lawful_proceed _)

theorem lawful_orderly (c : LockCause) (s : State) : s.Lawful (s.orderly c) := by
  unfold State.orderly
  split
  case h_1 h => exact .ite (fun _ => lawful_enterLocking h) fun _ => lawful_completeLock (.inl h)
  case h_2 h => exact lawful_endConfig h
  all_goals exact .refl s

theorem lawful_forced (s : State) : s.Lawful s.forced := by
  unfold State.forced
  split
  case h_1 h => exact lawful_completeLock (.inl h)
  case h_2 h => exact lawful_completeLock (.inr h)
  case h_3 h => exact lawful_endConfig h
  all_goals exact .refl s

theorem lawful_raise (c : LockCause) (a : CauseAction) (s : State) : s.Lawful (s.raise c a) := by
  cases a with
  | none => exact .refl s
  | orderly => exact lawful_orderly c s
  | forced => exact lawful_forced s
  | immediate => exact lawful_forced s
  | wipe => exact .ite (fun _ => lawful_onAcc rfl) fun _ => lawful_startWipe _ s

/-! ## The end of the flight (R62) -/

theorem lawful_recheck (s : State) : s.Lawful s.recheck := by
  unfold State.recheck
  extract_lets a b
  have ha : s.Lawful a := .ite (fun _ => lawful_raise _ _ s) fun _ => .refl s
  have hb : s.Lawful b := .ite (fun _ => ha.trans (lawful_raise _ _ a)) fun _ => ha
  exact .ite (fun _ => hb.trans (lawful_raise _ _ b)) fun _ => hb

theorem lawful_endOfFlight (s : State) : s.Lawful s.endOfFlight :=
  .ite (fun _ => (lawful_onAcc rfl).trans (lawful_startWipe _ _)) fun _ =>
    .ite (fun _ => lawful_recheck s) fun _ => .refl s

theorem lawful_endAttempt (a : AttemptAnswer) (s : State) : s.Lawful (s.endAttempt a) :=
  (State.Lawful.of_frame (answerAttempt_frame a s)).trans (lawful_endOfFlight _)

theorem lawful_failAttemptOfEntry (b : Bool) (s : State) : s.Lawful (s.failAttemptOfEntry b) := by
  have hpenalty (n : Nat) : s.Lawful (s.startPenalty n).reportPenalty := by
    have hframe : State.changesOnly [.atl] s (s.startPenalty n) := onAtl_frame _ s
    have hstart : s.Lawful (s.startPenalty n) := .of_same rfl rfl (.of_frame hframe)
    exact hstart.trans (.ite (fun _ => lawful_changeAccess none _ (by decide) rfl) fun _ => .refl _)
  unfold State.failAttemptOfEntry
  extract_lets f left n
  exact .ite (fun _ => (lawful_startWipe _ s).trans (lawful_endAttempt _ _)) fun _ =>
    .ite (fun _ => lawful_endAttempt _ s) fun _ =>
      ((hpenalty n).trans (.of_frame (postP_frame _ _))).trans (lawful_endAttempt _ _)

/-! ## Conditions and the bridge (R67, R86 to R89) -/

theorem lawful_conditionChanged (o : Bool) (s : State) : s.Lawful (s.conditionChanged o) :=
  .of_frame (changesOnly_append (postAccessChanged_frame s) (tellGate_frame o _))

theorem lawful_clockFaultOnset (s : State) : s.Lawful s.clockFaultOnset :=
  ((lawful_onAcc rfl).trans (lawful_conditionChanged _ _)).trans (lawful_raise _ _ _)

theorem lawful_clockFaultEnd (s : State) : s.Lawful s.clockFaultEnd :=
  (lawful_onAcc rfl).trans (lawful_conditionChanged _ _)

theorem lawful_caseOpenOnset (s : State) : s.Lawful s.caseOpenOnset :=
  ((lawful_onAcc rfl).trans (lawful_conditionChanged _ _)).trans (lawful_raise _ _ _)

theorem lawful_caseOpenEnd (s : State) : s.Lawful s.caseOpenEnd :=
  (lawful_onAcc rfl).trans (lawful_conditionChanged _ _)

theorem lawful_bridgeLeft (s : State) : s.Lawful s.bridgeLeft :=
  (State.Lawful.of_frame (onWpe_frame _ s)).trans (lawful_refreshRun _)

theorem lawful_bridgeAttached (s : State) : s.Lawful s.bridgeAttached := (lawful_bridgeLeft s).trans (lawful_proceed _)

/-- The requester of a write of the set is not a link's command (R86). -/
theorem ofSet_dropB {e : WriteEntry} (h : e.ofSet = true) : { e with purpose := e.purpose.dropB } = e := by
  obtain ⟨c, p⟩ := e
  cases p with
  | admin o => cases c <;> cases h
  | options o => cases c <;> cases h
  | _ => rfl

theorem dropB_of_ofSet {e : WriteEntry} (h : WriteEntry.ofSet { e with purpose := e.purpose.dropB } = true) :
    { e with purpose := e.purpose.dropB } = e := by
  obtain ⟨c, p⟩ := e
  cases p with
  | admin o => cases c <;> cases h
  | options o => cases c <;> cases h
  | _ => rfl

/-- A link cleared of its requests: what waits for nobody is written on (R86). -/
theorem sameSet_orphanB (s : State) : s.SameSet s.orphanB := by
  have hentries : s.orphanB.rsc.entries =
      s.rsc.entries.map fun e => { e with purpose := e.purpose.dropB } := by
    simp [State.orphanB, Rsc.entries, Option.toList_map, Function.comp_def]
  refine { policy := rfl, map := rfl, committed := rfl, removing := rfl, kru := rfl, applying := rfl,
           ids := by simp [State.orphanB], parts := by simp [State.orphanB], writes := ?_, stillWrites := ?_ }
  · rw [hentries]
    intro e he hs
    obtain ⟨d, hd, rfl⟩ := List.mem_map.mp he
    rwa [dropB_of_ofSet hs]
  · rw [hentries]
    exact fun e he hs => List.mem_map.mpr ⟨e, he, ofSet_dropB hs⟩

theorem lawful_bridgeUnpowered (s : State) : s.Lawful s.bridgeUnpowered := by
  unfold State.bridgeUnpowered
  extract_lets t
  have ht : s.Lawful t := (State.Lawful.of_frame (onLiu_frame _ s)).trans (.of_same rfl rfl (sameSet_orphanB _))
  exact .ite (fun _ => ht.trans (lawful_bridgeLeft t)) fun _ => ht

end Sys2Proof.Machine
end

