-- ==== Sys2Proof/Proofs/AccessRows.lean ====
section
/-! What a row does to the access state: the rows other than the end of a store write and the changes of supply open
nothing, keep the schedule while F is above 0, and apply the Pending Set where they enter LOCKED (4.2, R43, R73). -/

namespace Sys2Proof.Machine

/-- What a row does to the access state where it grants nothing. -/
structure State.Row (s t : State) : Prop where
  schedule : s.HoldsSchedule t
  opensNot : t.acc.access = .unlocked ∨ t.acc.access = .config → t.acc.access = s.acc.access
  locked : t.acc.access = .locked → s.acc.access = .locked ∨ s.appliesSet t

theorem State.Lawful.row {s t : State} (h : s.Lawful t) : s.Row t :=
  ⟨h.schedule, h.opensNot, fun ht => (h.locked ht).imp And.left And.right⟩

/-- The access state stands and the schedule is held. -/
theorem State.Row.of_still {s t : State} (hs : s.HoldsSchedule t) (ha : t.acc.access = s.acc.access) : s.Row t :=
  ⟨hs, fun _ => ha, fun ht => .inl (ha ▸ ht)⟩

theorem State.Row.of_frame {l : List Block} {s t : State} (h : State.changesOnly l s t)
    (hl : ∀ b ∈ [Block.atl, .plu], b ∉ l := by decide) (ha : Block.acc ∉ l := by decide) : s.Row t :=
  .of_still (.of_frame h (hl _ (by decide)) (hl _ (by decide))) (congrArg Acc.access (h .acc ha))

/-- A row that first does what leaves the access state and what an application reads. -/
theorem State.Row.after {s t u : State} (h : t.Row u) (hs : s.HoldsSchedule t) (ha : t.acc.access = s.acc.access)
    (hb : s.BeforeSet t) : s.Row u :=
  ⟨hs.trans h.schedule, fun hu => (h.opensNot hu).trans ha,
    fun hu => (h.locked hu).imp (fun ht => ha ▸ ht) fun happ => happ.from_before hb⟩

theorem State.Row.ite {s t u : State} {c : Prop} [Decidable c] (h : c → s.Row t) (k : ¬ c → s.Row u) :
    s.Row (if c then t else u) := by
  split
  · exact h ‹_›
  · exact k ‹_›

/-- The take at the end of a row (R137). -/
theorem State.Row.finish {s u t : State} (h : s.Row u) (ht : Machine.finish u = .next t) : s.Row t := by
  cases ht
  have hset : u.SameSet (u.onRsc Rsc.kick) := .of_same rfl rfl fun e _ => by simp
  exact ⟨h.schedule.trans (.of_same rfl rfl), h.opensNot,
    fun hu => (h.locked hu).imp_right fun happ => happ.to_same hset rfl⟩

/-! ## The taking of a command (R165, R166) -/

/-- A taken frame leaves the access state and all that an application reads. -/
theorem row_command {x : Exchange} {code : Byte} {body : State → State} {s : State} (h : ∀ t : State, t.Row (body t)) :
    s.Row (s.command x code body) := by
  unfold State.command
  refine .ite (fun _ => .of_frame (shiftOut_frame x s)) fun _ =>
    .ite (fun _ => .of_frame (changesOnly_append (validFrame_frame x s) (onLiu_frame _ _))) fun _ => ?_
  have hframe : State.changesOnly ([.liu, .ssv] ++ [.liu, .acc]) s ((s.validFrame x).occupy x.link code) :=
    changesOnly_append (validFrame_frame x s) (occupy_frame _ _ _)
  have hacc : ((s.validFrame x).occupy x.link code).acc.access = s.acc.access := by
    have hv : (s.validFrame x).acc = s.acc := validFrame_frame x s .acc (by decide)
    rw [← hv]
    unfold State.occupy State.restartConfig
    split <;> rfl
  exact (h _).after (.of_frame hframe) hacc (State.SameSet.of_frame hframe).toBeforeSet

theorem row_answer (l : Link) (mk : Byte → Result) (s : State) : s.Row (s.answer l mk) := .of_frame (answer_frame l mk s)

theorem State.Lawful.answered {s t : State} (h : s.Lawful t) (l : Link) (mk : Byte → Result) : s.Row (t.answer l mk) :=
  (h.trans (.of_frame (answer_frame l mk t))).row

theorem row_take {α : Type} {x : Exchange} {code : Byte} {q : Payload α} {owner : α → State → State} {s : State}
    (h : ∀ (a : α) (t : State), t.Row (owner a t)) : s.Row (s.take x code q owner) := by
  refine row_command fun t => ?_
  rcases t.checked_cases x.link code q owner with ⟨_, he⟩ | ⟨_, _, _, he⟩ | ⟨_, _, ⟨b, _, he⟩ | ⟨a, _, he⟩⟩ <;> rw [he]
  · exact row_answer _ _ t
  · exact row_answer _ _ t
  · exact row_answer _ _ t
  · exact h a t

theorem row_asAdmin {l : Link} {work : State → State} {s : State} (h : s.Row (work s)) : s.Row (s.asAdmin l work) := by
  unfold State.asAdmin
  split
  · exact row_answer _ _ s
  · exact h

/-! ## Administration (R15 to R18, R93, R100, R124 to R128, R133) -/

/-- A staging leaves the applied policy. -/
theorem row_stage (l : Link) (parts : PendingSet) (kind : StagingKind) (s : State) : s.Row (s.stage l parts kind) :=
  .of_still (.of_same rfl rfl) rfl

theorem row_adminWrite (l : Link) (i : SlotIx) (r : SlotRecord) (s : State) : s.Row (s.adminWrite l i r) :=
  .of_frame (changesOnly_append (requestWrite_frame _ _ s) (runLong_frame l _))

theorem row_moveSlot (l : Link) (b : Byte) (old new : SlotState) (s : State) : s.Row (s.moveSlot l b old new) := by
  unfold State.moveSlot
  split
  · exact .ite (fun _ => row_answer _ _ s) fun _ => .ite (fun _ => row_answer _ _ s) fun _ => row_adminWrite _ _ _ s
  · exact row_answer _ _ s

theorem row_clearSlot (l : Link) (b : Byte) (s : State) : s.Row (s.clearSlot l b) := by
  unfold State.clearSlot
  split
  · exact .ite (fun _ => row_answer _ _ s) fun _ => .ite (fun _ => row_answer _ _ s) fun _ => row_adminWrite _ _ _ s
  · exact row_answer _ _ s

theorem row_setPolicy (l : Link) (values : List (PolicyField × BitVec 16)) (s : State) : s.Row (s.setPolicy l values) :=
  .ite (fun _ => row_answer _ _ s) fun _ => row_stage _ _ _ s

theorem row_setLockMap (l : Link) (entries : List (MapEntry × LockAction)) (s : State) :
    s.Row (s.setLockMap l entries) :=
  .ite (fun _ => row_answer _ _ s) fun _ => .ite (fun _ => row_answer _ _ s) fun _ => row_stage _ _ _ s

theorem row_adminWipe (l : Link) (s : State) : s.Row (s.adminWipe l) := (lawful_startWipe _ s).answered _ _

theorem row_writeOptions (l : Link) (values : List (OptionField × Byte)) (s : State) : s.Row (s.writeOptions l values) :=
  .ite (fun _ => row_answer _ _ s) fun _ => .ite (fun _ => row_answer _ _ s) fun _ =>
    .ite (fun _ => row_answer _ _ s) fun _ => .ite (fun _ => row_answer _ _ s) fun _ =>
      .of_frame (changesOnly_append (requestWrite_frame _ _ s) (runLong_frame l _))

theorem row_defineVolume (a : DefineArgs) (s : State) : s.Row (s.defineVolume a) := by
  unfold State.defineVolume
  split
  · exact row_answer _ _ s
  · split
    · cases a with
      | unused b => exact row_stage _ _ _ s
      | range b f c ro => exact .ite (fun _ => row_answer _ _ s) fun _ => row_stage _ _ _ s
    · exact row_answer _ _ s

/-! ## The panel's keys (chapter 2) -/

/-- A key's work in the entry buffer. -/
theorem row_keyWork (f : Keu → Keu) (s : State) : s.Row (s.onKeu f).keyTaken :=
  .of_frame (changesOnly_append (onKeu_frame f s) (keyTaken_frame _))

theorem row_entryKey {allowed : State → Bool} {work : State → State} {s : State} (h : s.Row (work s)) :
    s.Row (s.entryKey allowed work) := by
  unfold State.entryKey
  split
  · exact .ite (fun _ => row_answer _ _ s) fun _ => row_answer _ _ s
  · exact .ite (fun _ => h) fun _ => row_answer _ _ s

theorem handOn_frame (f : Flight) (s : State) : State.changesOnly [.keu, .liu] s (s.handOn f) :=
  changesOnly_append (onKeu_frame _ s) (runLong_frame _ _)

theorem lawful_handOn (f : Flight) (s : State) : s.Lawful (s.handOn f) := .of_frame (handOn_frame f s)

theorem row_evaluate (s : State) : s.Row s.evaluate :=
  .ite (fun _ => .of_frame (changesOnly_append (handOn_frame _ s) (requestWrite_frame _ _ _))) fun _ =>
    (((lawful_handOn _ s).trans (lawful_startWipe _ _)).trans (lawful_endAttempt _ _)).row

theorem emptied_touched_frame (s : State) : State.changesOnly [.keu] s s.emptyBuffer.touchEntryTimer :=
  changesOnly_trans (onKeu_frame _ s) (onKeu_frame _ _)

theorem row_enterEnds (o : KeyOutcome) (s : State) : s.Row (s.enterEnds o) :=
  .of_frame (changesOnly_append (emptied_touched_frame s) (answer_frame _ _ _))

theorem row_enter (s : State) : s.Row s.enter := by
  unfold State.enter
  split
  · exact row_enterEnds _ s
  · split
    · unfold State.enterDialogue
      split
      · exact .ite (fun _ => row_enterEnds _ s) fun _ => (lawful_handOn _ s).row
      · exact (lawful_handOn _ s).row
    · exact .ite (fun _ => .of_frame (changesOnly_append (emptied_touched_frame s) (answer_frame _ _ _))) fun _ =>
        row_evaluate s

theorem State.Lawful.keyed {s t : State} (h : s.Lawful t) : s.Row t.keyTaken :=
  (h.trans (.of_frame (keyTaken_frame t))).row

theorem row_beginChange (s : State) : s.Row s.beginChange := by
  unfold State.beginChange
  split
  · exact .ite (fun _ => row_keyWork _ s) fun _ => row_answer _ _ s
  · exact row_answer _ _ s

theorem row_exitKey (s : State) : s.Row s.exitKey := by
  unfold State.exitKey
  split_ifs with hc
  · exact (lawful_endConfig hc).keyed
  · exact .of_frame (changesOnly_append (endDialogue_frame s) (keyTaken_frame _))
  · exact row_answer _ _ s

theorem row_enrolBegin (a : EnrolArgs) (s : State) : s.Row (s.enrolBegin a) := by
  have hbegin (i : SlotIx) : s.Row (s.beginEnrol i a) :=
    .of_frame (changesOnly_append (endDialogue_frame s) (changesOnly_append (onKeu_frame _ _) (keyTaken_frame _)))
  unfold State.enrolBegin
  split
  · exact row_answer _ _ s
  · split
    · exact row_answer _ _ s
    · split
      · exact row_answer _ _ s
      · exact hbegin _

/-! ## The bridge's commands (chapters 4 to 6) -/

theorem lawful_onLiu (f : Liu → Liu) (s : State) : s.Lawful (s.onLiu f) := .of_frame (onLiu_frame f s)

theorem lawful_accAttached (s : State) : s.Lawful s.accAttached := by
  unfold State.accAttached
  split
  case h_1 => exact lawful_onAcc rfl
  case h_2 h => exact lawful_completeLock (.inr h)
  all_goals exact .refl s

theorem row_attach (n : Nat) (s : State) : s.Row (s.attach n) :=
  .ite (fun _ => row_answer _ _ s) fun _ =>
    (((lawful_onLiu _ s).trans (lawful_accAttached _)).trans (lawful_bridgeAttached _)).answered _ _

theorem row_detach (s : State) : s.Row s.detach := by
  unfold State.detach
  split
  · exact (((lawful_onLiu _ s).trans (lawful_bridgeLeft _)).trans (lawful_raise _ _ _)).answered _ _
  · exact (lawful_onLiu _ s).answered _ _
  · exact row_answer _ _ s
  · exact row_answer _ _ s

theorem row_activity (s : State) : s.Row s.activity := by
  have hactive : s.Lawful s.hostActive := .ite (fun _ => lawful_onAcc rfl) fun _ => .refl s
  exact .ite (fun _ => row_answer _ _ s) fun _ => hactive.answered _ _

theorem row_lockReply (r : LockReplyCode) (s : State) : s.Row (s.lockReply r) := by
  have hhold (n : Nat) : s.Row (s.hold n) :=
    ((lawful_onAcc (f := fun a => { a with deferrals := some n, deferTimer := Timer.start s.plu.policy.deferTicks })
      rfl).trans (.of_frame (postB_frame _ _))).answered _ _
  refine .ite (fun _ => row_answer _ _ s) fun _ => ?_
  split_ifs with hl
  · exact row_answer _ _ s
  · have hlocking : s.acc.access = .locking := not_not.mp hl
    have hlock := lawful_completeLock (.inr hlocking)
    cases r with
    | ready => exact hlock.answered _ _
    | hold =>
      dsimp only
      split
      · exact hhold _
      · exact hlock.answered _ _

theorem row_fetchKey (b : Byte) (s : State) : s.Row (s.fetchKey b) := by
  unfold State.fetchKey
  split
  · exact row_answer _ _ s
  · split
    · exact row_answer _ _ s
    · split <;> exact row_answer _ _ s

theorem row_workFetch (s : State) : s.Row s.workFetch := by
  have hissue (o : EraseOrder) : s.Row (s.issueOrder o) :=
    .of_frame (changesOnly_append (onWpe_frame _ s) (changesOnly_append (onLiu_frame _ _) (answer_frame _ _ _)))
  refine .ite (fun _ => row_answer _ _ s) fun _ => .ite (fun _ => row_answer _ _ s) fun _ => ?_
  split
  · exact row_answer _ _ s
  · split
    · exact hissue _
    · exact row_answer _ _ s

theorem finishOrder_frame (o : EraseOrder) (n : Nat) (s : State) :
    State.changesOnly [.wpe, .rsc] s (s.finishOrder o n) := by
  unfold State.finishOrder
  split
  · split
    · exact changesOnly_append (onWpe_frame _ s) (requestWrite_frame _ _ _)
    · exact changesOnly_mono (onWpe_frame _ s) (by decide)
  · exact changesOnly_mono (onWpe_frame _ s) (by decide)

theorem row_workDone (n : Nat) (r : WorkReport) (s : State) : s.Row (s.workDone n r) := by
  refine .ite (fun _ => row_answer _ _ s) fun _ => ?_
  split
  · exact row_answer _ _ s
  · split
    · exact .of_frame (changesOnly_append (finishOrder_frame _ _ s) (answer_frame _ _ _))
    · exact .of_frame (changesOnly_append (failAttempt_frame _ s) (answer_frame _ _ _))

/-! ## Ends of an evaluation and of a verifier computation (R37, R38, R46) -/

theorem row_judge (a : Option SlotIx) (s : State) : s.Row (s.judge a) := by
  unfold State.judge
  split
  · exact .ite (fun _ => .of_frame (changesOnly_append (onKeu_frame _ s) (requestWrite_frame _ _ _))) fun _ =>
      .of_frame (changesOnly_append (onKeu_frame _ s) (requestWrite_frame _ _ _))
  · exact (lawful_failAttemptOfEntry _ s).row

theorem row_answerEnrolment (o : KeyOutcome) (s : State) : s.Row (s.answerEnrolment o) :=
  .of_frame (answerEnrolment_frame o s)

theorem row_enrolWrite (d : Dialogue) (c : Candidate) (s : State) : s.Row (s.enrolWrite d c) :=
  .ite (fun _ => .of_frame (refuseEnrolment_frame _ s)) fun _ => .ite (fun _ => row_answerEnrolment _ s) fun _ =>
    .of_frame (changesOnly_append (onKeu_frame _ s) (requestWrite_frame _ _ _))

theorem row_confirmEntry (s : State) : s.Row s.confirmEntry := by
  unfold State.confirmEntry
  split
  · exact row_answerEnrolment _ s
  · split
    · exact row_answerEnrolment _ s
    · exact .ite (fun _ => row_enrolWrite _ _ s) fun _ => row_answerEnrolment _ s

/-! ## Time and conditions (R52, R55, R144 to R150, R160 to R162) -/

/-- A request for another record than those of the Pending Set and its parts. -/
theorem lawful_requestWrite {c : Contents} (p : Purpose) (s : State)
    (h : ∀ e : WriteEntry, e.ofSet = true → e.id ≠ c.id) : s.Lawful (s.requestWrite c p) := by
  refine .of_same rfl rfl (.of_same rfl rfl fun e he => ⟨fun hm => ?_, fun hm => ?_⟩)
  · rcases Rsc.mem_request hm with rfl | hm
    · exact absurd rfl (h _ he)
    · exact hm
  · exact Rsc.mem_request_of_ne (h e he) hm

theorem ofSet_ne_limiter (r : Limiter) (e : WriteEntry) (he : e.ofSet = true) : e.id ≠ (Contents.limiter r).id := by
  obtain ⟨c, p⟩ := e
  cases c with
  | limiter r => cases p <;> cases he
  | _ => exact (nomatch ·)

theorem tickTimers_frame (s : State) : State.changesOnly [.keu, .acc, .wpe, .ssv, .liu] s s.tickTimers :=
  changesOnly_append (onKeu_frame _ s) <| changesOnly_append (onAcc_frame _ _) <|
    changesOnly_append (onWpe_frame _ _) <| changesOnly_append (onSsv_frame _ _) (onLiu_frame _ _)

theorem Atl.tick_limiter (t : Timebase) (a : Atl) : (a.tick t).limiter = a.limiter := by
  unfold Atl.tick
  repeat' split
  all_goals rfl

/-- The core domain lost or initialised: the access state, the Limiter Record and the applied settings stay (R153). -/
theorem coreInit_before (b : BridgeState) (s : State) :
    s.HoldsSchedule (s.coreInit b) ∧ (s.coreInit b).acc.access = s.acc.access ∧ s.BeforeSet (s.coreInit b) :=
  have hwrites : ∀ e ∈ Rsc.init.entries, e.ofSet = true → e ∈ s.rsc.entries := by simp [Rsc.init, Rsc.entries]
  ⟨.of_same rfl rfl, rfl, rfl, rfl, rfl, rfl, rfl, hwrites⟩

/-- Waking keeps the access state up to the level's action, the Limiter Record and the settings (R159). -/
theorem powerCore_before (m : SupplyMode) (s : State) :
    s.HoldsSchedule (s.powerCore m) ∧ (s.powerCore m).acc.access = s.acc.access ∧ s.BeforeSet (s.powerCore m) := by
  let v : State := s.onSsv fun y => { y with mode := m }
  obtain ⟨hs, ha, hb⟩ := coreInit_before (bridgeBy (m == .bus)) v
  have hv : State.changesOnly [.ssv] s v := onSsv_frame _ s
  have hu : State.changesOnly ([.keu] ++ [.ssv]) (v.coreInit (bridgeBy (m == .bus))) (s.powerCore m) :=
    changesOnly_ite (fun _ => changesOnly_append (autoDialogue_frame _) (onSsv_frame _ _)) fun _ =>
      changesOnly_mono (autoDialogue_frame _) (by decide)
  exact ⟨((State.HoldsSchedule.of_frame hv).trans hs).trans (.of_frame hu),
    (congrArg Acc.access (hu .acc (by decide))).trans ha,
    (State.SameSet.of_frame hv).toBeforeSet.trans (hb.trans (State.SameSet.of_frame hu).toBeforeSet)⟩

/-- The steps of the wake sequence after the core domain is powered. -/
theorem lawful_wakeLevel (s : State) : s.Lawful s.wakeLevel := by
  unfold State.wakeLevel
  extract_lets t
  have ht : s.Lawful t := .ite (fun _ => .refl s) fun _ => .of_frame (postP_frame _ s)
  exact .ite (fun _ => ht.trans (lawful_raise _ _ t)) fun _ => ht

theorem lawful_powerCore_wake (m : SupplyMode) (s : State) : (s.powerCore m).Lawful (s.wake m) := by
  unfold State.wake
  extract_lets t u
  have ht : (s.powerCore m).Lawful t := .of_frame (postAccessChanged_frame _)
  have hu : (s.powerCore m).Lawful u :=
    .ite (fun _ => (ht.trans (lawful_refreshRun t)).trans (.of_frame (postWipeState_frame _))) fun _ => ht
  exact (hu.trans (lawful_wakeLevel u)).trans (lawful_proceed _)

/-- A wake, and work that grants nothing after it. -/
theorem row_woken {m : SupplyMode} {s t : State} (h : (s.wake m).Lawful t) : s.Row t := by
  obtain ⟨hs, ha, hb⟩ := powerCore_before m s
  exact ((lawful_powerCore_wake m s).trans h).row.after hs ha hb

/-- A wipe goes on through a wake: the drive stays in WIPING. -/
theorem wake_access_of_wiping (m : SupplyMode) {s : State} (h : s.acc.access = .wiping) :
    (s.wake m).acc.access = .wiping := by
  obtain ⟨-, ha, -⟩ := powerCore_before m s
  unfold State.wake
  extract_lets t u
  have ht : t.acc.access = .wiping := by
    rw [show t.acc = (s.powerCore m).acc from State.postAccessChanged_acc _, ha, h]
  have hu : u.acc.access = .wiping := by
    rw [show u = t.refreshRun.postWipeState from if_pos ht, postWipeState_frame _ .acc (by decide), State.refreshRun_acc, ht]
  have hlevel (v : State) : v.wakeLevel.acc.access = v.acc.access ∨ v.acc.access ≠ .wiping := by
    unfold State.wakeLevel
    extract_lets w
    have hw : w.acc = v.acc := by
      have hframe : State.changesOnly [.liu] v w := changesOnly_ite (fun _ => changesOnly_refl _ v) fun _ => postP_frame _ v
      exact hframe .acc (by decide)
    by_cases hv : v.acc.access = .wiping
    · left
      split_ifs
      · simp [State.raise, State.forced, hw, hv]
      · rw [hw]
    · exact .inr hv
  rw [State.proceed_acc, (hlevel u).resolve_right (not_not.mpr hu), hu]

theorem lawful_tellGate (o : Bool) (s : State) : s.Lawful (s.tellGate o) := .of_frame (tellGate_frame o s)

theorem lawful_onSsv (f : Ssv → Ssv) (s : State) : s.Lawful (s.onSsv f) := .of_frame (onSsv_frame f s)

theorem lawful_adoptLevel (l : CellLevel) (s : State) : s.Lawful (s.adoptLevel l) := by
  unfold State.adoptLevel
  extract_lets t u w x
  have ht : s.Lawful t := lawful_onSsv _ s
  have hu : s.Lawful u := .ite (fun _ => ht.trans (.of_frame (postP_frame _ t))) fun _ => ht
  have hw : s.Lawful w := hu.trans (lawful_tellGate _ u)
  have hx : s.Lawful x := .ite (fun _ => hw.trans (lawful_raise _ _ w)) fun _ => hw
  have hwacc : w.acc.access = s.acc.access := by
    have hframe : State.changesOnly ([.ssv] ++ ([.liu] ++ [.keu])) s w := changesOnly_append (onSsv_frame _ s) <|
      changesOnly_append (changesOnly_ite (fun _ => postP_frame _ t) fun _ => changesOnly_refl _ t) (tellGate_frame _ u)
    exact congrArg Acc.access (hframe .acc (by decide))
  split_ifs with hp
  · have hwiping : s.acc.access = .wiping := by
      simp only [State.pauseWake, Bool.and_eq_true, beq_iff_eq] at hp
      exact hp.1.1.2
    have hxwiping : x.acc.access = .wiping := by
      rw [show x = if w.cellCritAwake then w.raise .cellCrit .forced else w from rfl]
      split_ifs
      · simp [State.raise, State.forced, hwacc, hwiping]
      · rw [hwacc, hwiping]
    have hwake := wake_access_of_wiping .cellAwake hxwiping
    exact .away (hx.schedule.trans (row_woken (.refl _)).schedule) (by simp [hwake]) (by simp [hwake, Access.isOpen])
  · exact hx.trans (lawful_wpeTold x)

theorem lawful_sample (mv : Nat) (s : State) : s.Lawful (s.sample mv) := by
  unfold State.sample
  extract_lets t
  have ht : s.Lawful t := lawful_onSsv _ s
  split
  · exact ht.trans (lawful_adoptLevel _ t)
  · exact ht

theorem lawful_sampleTick (mv : Nat) (s : State) : s.Lawful (s.sampleTick mv) := by
  refine .ite (fun _ => .refl s) fun _ => ?_
  split
  · exact lawful_sample mv s
  · exact lawful_sample mv s
  · exact .ite (fun _ => lawful_onSsv _ s) fun _ => (lawful_onSsv _ s).trans (lawful_sample mv _)
  · exact .refl s

theorem lawful_takeTick (mv : Nat) (s : State) : s.Lawful (s.takeTick mv) := by
  have htbu : s.Lawful (s.onTbu fun b => { b with divider := 0 }) := .of_frame (onTbu_frame _ s)
  have htimers (u : State) : u.Lawful u.tickTimers :=
    .of_same rfl rfl (.of_frame (tickTimers_frame u))
  have hatl (u : State) (t : Timebase) : u.Lawful (u.onAtl fun a => a.tick t) :=
    .of_same rfl (Atl.tick_limiter t u.atl) (.of_frame (onAtl_frame _ u))
  exact ((htbu.trans (htimers _)).trans (hatl _ _)).trans (lawful_sampleTick mv _)

theorem lawful_penaltyRateChanged (s : State) : s.Lawful s.penaltyRateChanged := by
  unfold State.penaltyRateChanged
  extract_lets t
  have ht : s.Lawful t := .of_same rfl rfl (.of_frame (onAtl_frame _ s))
  exact .ite (fun _ => ht.trans (.of_frame (postP_frame _ t))) fun _ => ht

theorem lawful_onTbu (f : Tbu → Tbu) (s : State) : s.Lawful (s.onTbu f) := .of_frame (onTbu_frame f s)

theorem lawful_rateChanged (f : Tbu → Tbu) (s : State) : s.Lawful (s.onTbu f).penaltyRateChanged.postTimebase :=
  ((lawful_onTbu f s).trans (lawful_penaltyRateChanged _)).trans (.of_frame (postP_frame _ _))

theorem row_caseDebounced (s : State) : s.Row s.caseDebounced := by
  unfold State.caseDebounced
  extract_lets t
  have ht : s.Lawful t := lawful_onSsv _ s
  split_ifs
  · exact ht.row
  · have hset := State.SameSet.of_frame (onSsv_frame (fun v => { v with caseTimer := none, caseIsOpen := s.caseInputOpen }) s)
    exact (row_woken (lawful_caseOpenOnset _)).after ht.schedule rfl hset.toBeforeSet
  · exact (ht.trans (lawful_caseOpenOnset t)).row
  · exact (ht.trans (lawful_caseOpenEnd t)).row

theorem row_penaltyExpires (s : State) : s.Row s.penaltyExpires := by
  unfold State.penaltyExpires
  extract_lets t
  have hset : s.SameSet t := .of_frame (stopPenalty_frame s)
  have ht : s.Lawful t := .of_same rfl rfl hset
  have hserved (u : State) : u.Lawful u.requestServed := lawful_requestWrite _ u (ofSet_ne_limiter _)
  by_cases hm : s.ssv.mode = .cellSleep
  · rw [if_pos hm]
    exact (row_woken (hserved _)).after ht.schedule rfl hset.toBeforeSet
  · rw [if_neg hm]
    exact (ht.trans (hserved t)).row

theorem row_enterSleep (s : State) : s.Row s.enterSleep := by
  let v : State := s.onSsv fun y => { y with mode := .cellSleep, sleepTimer := none, sleepDue := false, samplePhase := 0 }
  have hv : State.changesOnly [.ssv] s v := onSsv_frame _ s
  obtain ⟨hs, ha, hb⟩ := coreInit_before .absent v
  have hsleep : s.HoldsSchedule (v.coreInit .absent) := (State.HoldsSchedule.of_frame hv).trans hs
  have hbefore : s.BeforeSet (v.coreInit .absent) := (State.SameSet.of_frame hv).toBeforeSet.trans hb
  have hwake : (v.coreInit .absent).Row (if (v.coreInit .absent).pins.wakeLow then (v.coreInit .absent).wake .cellAwake
      else v.coreInit .absent) := .ite (fun _ => row_woken (.refl _)) fun _ => (State.Lawful.refl _).row
  exact hwake.after hsleep ha hbefore

theorem lawful_deferExpires (s : State) : s.Lawful s.deferExpires := by
  unfold State.deferExpires
  extract_lets t
  have ht : s.Lawful t := lawful_onAcc rfl
  exact .ite (fun h => ht.trans (lawful_completeLock (.inr h))) fun _ => ht

theorem lawful_configTimedOut (s : State) : s.Lawful s.configTimedOut :=
  .ite (fun h => lawful_endConfig h) fun _ => .refl s

theorem lawful_linkLost (s : State) : s.Lawful s.linkLost :=
  ((lawful_onLiu _ s).trans (lawful_bridgeLeft _)).trans (lawful_raise _ _ _)

theorem lawful_busLost (s : State) : s.Lawful s.busLost :=
  (((lawful_onSsv _ s).trans (lawful_onSsv _ _)).trans (lawful_bridgeUnpowered _)).trans (lawful_raise _ _ _)
    |>.trans (lawful_wpeTold _)

theorem lawful_busArrives (s : State) : s.Lawful s.busArrives :=
  ((((lawful_onSsv _ s).trans (lawful_onSsv _ _)).trans (lawful_onLiu _ _)).trans (lawful_tellGate _ _)).trans
    (lawful_wpeTold _)

theorem debounceCase_frame (s : State) : State.changesOnly [.ssv] s s.debounceCase :=
  changesOnly_ite (fun _ => changesOnly_refl _ s) fun _ => changesOnly_ite (fun _ => onSsv_frame _ s) fun _ =>
    changesOnly_ite (fun _ => onSsv_frame _ s) fun _ => changesOnly_refl _ s

theorem orderExpires_frame (s : State) : State.changesOnly [.wpe, .liu, .rsc] s s.orderExpires := by
  unfold State.orderExpires
  extract_lets t
  split
  · exact changesOnly_mono (changesOnly_append (onWpe_frame _ s) (failAttempt_frame _ t)) (by decide)
  · exact changesOnly_mono (onWpe_frame _ s) (by decide)

end Sys2Proof.Machine
end

