-- ==== Sys2Proof/Proofs/AccessStoreRows.lean ====
section
/-! The end of a store write and the access state: a grant opens from LOCKED alone, and the served notice, the enrolment
of slot 0 and the close of a wipe enter LOCKED and apply the Pending Set (R47, R48, R55, R61, R73, R77). -/

namespace Sys2Proof.Machine

/-- What a row does to the access state where it may grant: it opens from LOCKED alone. -/
structure State.GrantRow (s t : State) : Prop where
  schedule : s.HoldsSchedule t
  opens : t.acc.access = .unlocked ∨ t.acc.access = .config → t.acc.access = s.acc.access ∨ s.acc.access = .locked
  locked : t.acc.access = .locked → s.acc.access = .locked ∨ s.appliesSet t

theorem State.Row.grantRow {s t : State} (h : s.Row t) : s.GrantRow t :=
  ⟨h.schedule, fun ht => .inl (h.opensNot ht), h.locked⟩

theorem State.Lawful.grantRow {s t : State} (h : s.Lawful t) : s.GrantRow t := h.row.grantRow

/-- From LOCKED a grant may open and be locked again (R61, R62). -/
theorem State.GrantRow.of_locked {s t : State} (hs : s.HoldsSchedule t) (h : s.acc.access = .locked) : s.GrantRow t :=
  ⟨hs, fun _ => .inr h, fun _ => .inl h⟩

theorem State.GrantRow.ite {s t u : State} {c : Prop} [Decidable c] (h : c → s.GrantRow t) (k : ¬ c → s.GrantRow u) :
    s.GrantRow (if c then t else u) := by
  split
  · exact h ‹_›
  · exact k ‹_›

theorem State.GrantRow.after {s t u : State} (h : t.GrantRow u) (hs : s.Lawful t) (ha : t.acc.access = s.acc.access)
    (hb : s.BeforeSet t) : s.GrantRow u :=
  ⟨hs.schedule.trans h.schedule, fun hu => (h.opens hu).imp (·.trans ha) fun ht => ha ▸ ht,
    fun hu => (h.locked hu).imp (fun ht => ha ▸ ht) fun happ => happ.from_before hb⟩

theorem State.GrantRow.finish {s u t : State} (h : s.GrantRow u) (ht : Machine.finish u = .next t) : s.GrantRow t := by
  cases ht
  have hset : u.SameSet (u.onRsc Rsc.kick) := .of_same rfl rfl fun e _ => by simp
  exact ⟨h.schedule.trans (.of_same rfl rfl), h.opens,
    fun hu => (h.locked hu).imp_right fun happ => happ.to_same hset rfl⟩

/-- A change of the KEU's flight, the slots or the links before a grant. -/
theorem State.GrantRow.after_frame {l : List Block} {s t u : State} (h : t.GrantRow u) (hf : State.changesOnly l s t)
    (hl : ∀ b ∈ [Block.atl, .plu, .kru, .rsc], b ∉ l := by decide) (ha : Block.acc ∉ l := by decide) :
    s.GrantRow u :=
  h.after (.of_frame hf hl ha) (congrArg Acc.access (hf .acc ha))
    (State.SameSet.of_frame hf (hl _ (by decide)) (hl _ (by decide)) (hl _ (by decide))).toBeforeSet

/-- The entry into LOCKED, with what leaves the access state, the settings and F after it. -/
theorem grantRow_enterLocked {l : List Block} {s t : State} (h : State.changesOnly l s.enterLocked t)
    (hl : ∀ b ∈ [Block.atl, .plu, .kru, .rsc], b ∉ l := by decide) (ha : Block.acc ∉ l := by decide) :
    s.GrantRow t := by
  have hlimiter : t.atl.limiter = s.enterLocked.atl.limiter := congrArg Atl.limiter (h .atl (hl _ (by decide)))
  have hset : s.enterLocked.SameSet t :=
    .of_frame h (hl _ (by decide)) (hl _ (by decide)) (hl _ (by decide))
  have hlocked : t.acc.access = .locked := by rw [show t.acc = s.enterLocked.acc from h .acc ha]; simp
  exact ⟨(holdsSchedule_enterLocked s).trans (.of_same hlimiter hset.policy), by simp [hlocked],
    fun _ => .inr ((appliesSet_enterLocked s).to_same hset hlimiter)⟩

/-! ## Evaluations (R47 to R49, R55) -/

theorem opened_holdsSchedule (i : SlotIx) (s : State) :
    s.HoldsSchedule (if s.keu.intent = .unlock then s.openUnlocked i else s.openConfig i) := by
  split_ifs
  · exact .of_frame (openUnlocked_frame i s)
  · exact .of_frame (openConfig_frame i s)

theorem grantRow_grant (i : SlotIx) (s : State) : s.GrantRow (s.grant i) := by
  unfold State.grant
  by_cases hl : s.acc.access = .locked
  · simp only [if_pos hl]
    exact .of_locked ((opened_holdsSchedule i s).trans (lawful_endAttempt _ _).schedule) hl
  · simp only [if_neg hl]
    exact (lawful_endAttempt _ s).grantRow

theorem grantRow_requestUses (i : SlotIx) (s : State) : s.GrantRow (s.requestUses i) :=
  .ite (fun _ => grantRow_grant i s) fun _ =>
    (State.Row.of_frame (changesOnly_append (onKeu_frame _ s) (requestWrite_frame _ _ _))).grantRow

theorem grantRow_enrolled (s : State) : s.GrantRow s.enrolled := by
  unfold State.enrolled
  split_ifs
  · exact grantRow_enterLocked (answerEnrolment_frame _ _)
  · exact (row_answerEnrolment _ s).grantRow

theorem row_spendDone (s : State) : s.Row s.spendDone :=
  .of_frame (changesOnly_append (onKeu_frame _ s) (requestWrite_frame _ _ _))

/-! ## Wipes (R77, R101 to R110) -/

theorem lawful_onWpe (f : Wpe → Wpe) (s : State) : s.Lawful (s.onWpe f) := .of_frame (onWpe_frame f s)

theorem lawful_onWpe_proceed (f : Wpe → Wpe) (s : State) : s.Lawful (s.onWpe f).proceed :=
  (lawful_onWpe f s).trans (lawful_proceed _)

theorem grantRow_closeWipe (w : WipeRecord) (s : State) : s.GrantRow (s.closeWipe w) := by
  unfold State.closeWipe
  extract_lets t
  have ht : State.changesOnly ([.wpe] ++ [.liu]) s t := changesOnly_append (onWpe_frame _ s) (postP_frame _ _)
  exact .ite (fun _ => (grantRow_enterLocked (changesOnly_refl [] _)).after_frame ht) fun _ =>
    (lawful_changeAccess none t (by decide) rfl).grantRow.after_frame ht

theorem lawful_recordedStep (f : Wpe → Wpe) (s : State) : s.Lawful (s.onWpe f).refreshRun.postWipeState.proceed :=
  (((lawful_onWpe f s).trans (lawful_refreshRun _)).trans (.of_frame (postWipeState_frame _))).trans (lawful_proceed _)

theorem grantRow_journalDone (which : JournalWrite) (j : Journal) (s : State) : s.GrantRow (s.journalDone which j) := by
  unfold State.journalDone
  extract_lets t
  have ht : State.changesOnly [.wpe] s t := onWpe_frame _ s
  refine .ite (fun _ => (State.Lawful.refl s).grantRow) fun _ => ?_
  split
  · split
    · exact (grantRow_closeWipe _ t).after_frame ht
    · exact (State.Lawful.of_frame ht).grantRow
  · split
    · exact (lawful_recordedStep _ t).grantRow.after_frame ht
    · exact (lawful_recordedStep _ t).grantRow.after_frame ht

/-! ## Settings (R124, R129, R130, R133) -/

/-- The access items, the Limiter Record and the applied policy stay. -/
theorem State.Row.of_settings {l : List Block} {s t : State} (h : State.changesOnly l s t)
    (hp : t.plu.policy = s.plu.policy) (hl : Block.atl ∉ l := by decide) (ha : Block.acc ∉ l := by decide) : s.Row t :=
  .of_still (.of_same (congrArg Atl.limiter (h .atl hl)) hp) (congrArg Acc.access (h .acc ha))

theorem settle_policy (s : State) : s.settle.plu.policy = s.plu.policy := by
  unfold State.settle
  split
  · rfl
  · split_ifs <;> rfl

theorem row_partEnded (f : Application → Application) (s : State) : s.Row (s.partEnded f) :=
  .of_settings (partEnded_frame f s) (settle_policy _)

theorem row_policyDone (s : State) : s.Row s.policyDone :=
  .of_settings (changesOnly_append (onPlu_frame _ s) (partEnded_frame _ _)) (settle_policy _)

/-- The defaults spare the four fields (R130). -/
theorem row_policyFailed (s : State) : s.Row s.policyFailed := by
  have hframe : State.changesOnly ([.plu] ++ [.plu, .rsc]) s s.policyFailed :=
    changesOnly_append (onPlu_frame _ s) (partEnded_frame _ _)
  have hpolicy : s.policyFailed.plu.policy = s.plu.policy.fallback := settle_policy _
  exact .of_still ⟨congrArg Atl.limiter (hframe .atl (by decide)), fun _ _ => by rw [hpolicy]; rfl⟩
    (congrArg Acc.access (hframe .acc (by decide)))

theorem row_mapDone (s : State) : s.Row s.mapDone :=
  .of_settings (changesOnly_append (onPlu_frame _ s) (partEnded_frame _ _)) (settle_policy _)

theorem row_mapFailed (s : State) : s.Row s.mapFailed := by
  refine .of_settings (changesOnly_append (setMap_frame _ s) (changesOnly_append (onPlu_frame _ _) (partEnded_frame _ _))) ?_
  have hmap : (s.setMap .default).plu.policy = s.plu.policy := by rw [State.setMap_plu]
  exact (settle_policy _).trans hmap

theorem foldl_policy {f : State → Staging → State} (h : ∀ s g, State.changesOnly [.liu] s (f s g)) (gs : List Staging)
    (s : State) : (gs.foldl f s).plu = s.plu := foldl_frame h gs s .plu (by decide)

theorem answerStagings_policy {mk : Staging → State → State} (h : ∀ s g, State.changesOnly [.liu] s (mk g s))
    (ids : List Nat) (s : State) : (s.answerStagings mk ids).plu.policy = s.plu.policy := by
  unfold State.answerStagings
  dsimp only
  rw [foldl_policy h]
  rfl

theorem row_psetDone (a : PendingSet) (ids : List Nat) (b : Bool) (s : State) : s.Row (s.psetDone a ids b) :=
  .of_settings (psetDone_frame a ids b s) (answerStagings_policy (fun t g => replyOkTo_frame g.requester g.result t) ids _)

theorem row_psetFailed (ids : List Nat) (s : State) : s.Row (s.psetFailed ids) := by
  refine .of_settings (psetFailed_frame ids s) ?_
  have hpolicy (t : State) := answerStagings_policy (fun u g => refuseTo_frame g.requester .storeFault u) ids t
  unfold State.psetFailed
  extract_lets t u
  have hu : u.plu.policy = s.plu.policy := hpolicy t
  split_ifs
  · exact hu
  · exact hu

/-- A change of the settings but the applied policy, and an answer. -/
theorem row_onPlu_answer {f : Plu → Plu} {s t : State} (hf : (f s.plu).policy = s.plu.policy)
    (h : State.changesOnly [.liu] (s.onPlu f) t) : s.Row t :=
  .of_settings (changesOnly_append (onPlu_frame f s) h) (by rw [show t.plu = f s.plu from h .plu (by decide), hf])

theorem row_optionsDone (o : Options) (req : Option Link) (s : State) : s.Row (s.optionsDone o req) :=
  row_onPlu_answer rfl (replyOkTo_frame _ _ _)

theorem row_optionsFailed (req : Option Link) (s : State) : s.Row (s.optionsFailed req) :=
  row_onPlu_answer rfl (refuseTo_frame _ _ _)

/-! ## The end of a write (R139, R140) -/

/-- What the end of a write does to the access state, once the store has taken it in: the Limiter Record may be
another (R40). -/
def State.StoreRow (s u : State) : Prop :=
  ∃ t : State, t.acc.access = s.acc.access ∧ s.BeforeSet t ∧ t.GrantRow u

theorem State.GrantRow.storeRow {s t : State} (h : s.GrantRow t) : s.StoreRow t :=
  ⟨s, rfl, (State.SameSet.of_frame (changesOnly_refl [] s)).toBeforeSet, h⟩

theorem State.Row.storeRow {s t : State} (h : s.Row t) : s.StoreRow t := h.grantRow.storeRow

theorem State.Lawful.storeRow {s t : State} (h : s.Lawful t) : s.StoreRow t := h.row.storeRow

theorem State.StoreRow.finish {s u t : State} (h : s.StoreRow u) (ht : Machine.finish u = .next t) : s.StoreRow t :=
  let ⟨v, ha, hb, hu⟩ := h
  ⟨v, ha, hb, hu.finish ht⟩

theorem State.StoreRow.after {s t u : State} (h : t.StoreRow u) (ha : t.acc.access = s.acc.access) (hb : s.BeforeSet t) :
    s.StoreRow u := by
  obtain ⟨v, hv, hbv, hu⟩ := h
  exact ⟨v, hv.trans ha, hb.trans hbv, hu⟩

theorem State.StoreRow.after_frame {l : List Block} {s t u : State} (h : t.StoreRow u) (hf : State.changesOnly l s t)
    (hl : ∀ b ∈ [Block.plu, .kru, .rsc], b ∉ l := by decide) (ha : Block.acc ∉ l := by decide) : s.StoreRow u :=
  h.after (congrArg Acc.access (hf .acc ha))
    (State.SameSet.of_frame hf (hl _ (by decide)) (hl _ (by decide)) (hl _ (by decide))).toBeforeSet

theorem setLimiter_frame (r : Limiter) (s : State) : State.changesOnly [.atl] s (s.setLimiter r) := onAtl_frame _ s

theorem storeRow_limiterWritten (p : Purpose) (r : Limiter) (s : State) : s.StoreRow (s.limiterWritten p r) := by
  have hset := setLimiter_frame r s
  have hstill : s.StoreRow (s.setLimiter r) := (State.Lawful.refl (s.setLimiter r)).storeRow.after_frame hset
  cases p with
  | preCount =>
    exact (State.Row.of_frame (onKeu_frame (fun k => { k with
      flight := some (.judging ((s.setLimiter r).matchEntry s.keu.intent (verifierOf s.keu.digits))) })
      (s.setLimiter r))).storeRow.after_frame hset
  | refund =>
    refine State.StoreRow.after_frame (t := s.setLimiter r) ?_ hset
    show (s.setLimiter r).StoreRow (s.refundDone r)
    unfold State.refundDone
    dsimp only
    split
    · exact (grantRow_requestUses _ _).storeRow
    · exact (grantRow_grant _ _).storeRow
    · exact (State.Lawful.refl _).storeRow
  | served =>
    refine State.StoreRow.after_frame (t := s.setLimiter r) ?_ hset
    show (s.setLimiter r).StoreRow (s.servedDone r)
    unfold State.servedDone
    dsimp only
    split_ifs
    · exact (grantRow_enterLocked (postP_frame _ _)).storeRow
    · exact (State.Lawful.refl _).storeRow
  | reset => exact (lawful_onWpe_proceed _ (s.setLimiter r)).storeRow.after_frame hset
  | _ => exact hstill

theorem storeRow_slotWritten (p : Purpose) (i : SlotIx) (r : SlotRecord) (s : State) :
    s.StoreRow (s.slotWritten p i r) := by
  have hdone : State.changesOnly [.ctb] s (s.slotDone i r) := setCell_frame i _ s
  refine State.StoreRow.after_frame (t := s.slotDone i r) ?_ hdone
  unfold State.slotWritten
  generalize s.slotDone i r = t
  cases p with
  | uses j => exact (grantRow_grant i t).storeRow
  | spend => exact (row_spendDone t).storeRow
  | enrol j => exact (grantRow_enrolled t).storeRow
  | admin req => exact (State.Row.of_frame (replyOkTo_frame req .none t)).storeRow
  | slotDestroy j old => exact (lawful_onWpe_proceed _ t).storeRow
  | _ => exact (State.Lawful.refl t).storeRow

theorem storeRow_volumeWritten (p : Purpose) (i : VolIx) (s : State) : s.StoreRow (s.volumeWritten p i) := by
  cases p with
  | volumeApply j => exact (row_partEnded _ s).storeRow
  | volumeDestroy j => exact (lawful_onWpe_proceed _ s).storeRow
  | volumeRekey j => exact (lawful_onWpe_proceed _ s).storeRow
  | _ => exact (State.Lawful.refl s).storeRow

theorem storeRow_writeDone (e : WriteEntry) (s : State) : s.StoreRow (s.writeDone e) := by
  obtain ⟨c, p⟩ := e
  cases c with
  | limiter r => exact storeRow_limiterWritten p r s
  | slot i r => exact storeRow_slotWritten p i r s
  | volume i r => exact storeRow_volumeWritten p i s
  | policy q => exact (row_policyDone s).storeRow
  | map m => exact (row_mapDone s).storeRow
  | journal j =>
    cases p with
    | journal w => exact (grantRow_journalDone w j s).storeRow
    | _ => exact (State.Lawful.refl s).storeRow
  | pset a =>
    cases p with
    | pset ids b => exact (row_psetDone a ids b s).storeRow
    | _ => exact (State.Lawful.refl s).storeRow
  | option o =>
    cases p with
    | options req => exact (row_optionsDone o req s).storeRow
    | _ => exact (State.Lawful.refl s).storeRow

theorem lawful_evaluationHalted (s : State) : s.Lawful s.evaluationHalted :=
  (lawful_enterHalted s).trans (lawful_endAttempt _ _)

theorem storeRow_slotWriteFailed (p : Purpose) (i : SlotIx) (r : SlotRecord) (s : State) :
    s.StoreRow (s.slotWriteFailed p i r) := by
  have hfailed : State.changesOnly [.ctb] s (s.slotFailed i r) := setCell_frame i _ s
  cases p with
  | uses j => exact (grantRow_grant i (s.slotFailed i r)).storeRow.after_frame hfailed
  | spend => exact (lawful_failAttemptOfEntry true (s.slotFailed i r)).storeRow.after_frame hfailed
  | enrol j =>
    exact (State.Row.of_frame (refuseEnrolment_frame .storeFault (s.slotFailed i r))).storeRow.after_frame hfailed
  | admin req =>
    exact (State.Row.of_frame (refuseTo_frame req .storeFault (s.slotFailed i r))).storeRow.after_frame hfailed
  | slotDestroy j old =>
    exact (lawful_onWpe_proceed _ (s.destroyFailed i old)).storeRow.after_frame (setCell_frame i _ s)
  | _ => exact (State.Lawful.refl (s.slotFailed i r)).storeRow.after_frame hfailed

/-- Work after a failed volume write that leaves the access state (R84). -/
theorem row_after_volumeFailed (i : VolIx) {s t : State} (h : (s.volumeFailed i).HoldsSchedule t)
    (ha : t.acc.access = (s.volumeFailed i).acc.access) : s.Row t :=
  have hframe := volumeFailed_frame i s
  .of_still ((State.HoldsSchedule.of_frame hframe).trans h) (ha.trans (congrArg Acc.access (hframe .acc (by decide))))

theorem onWpe_proceed_access (f : Wpe → Wpe) (s : State) : (s.onWpe f).proceed.acc.access = s.acc.access := by simp

theorem row_volumeWriteFailed (p : Purpose) (i : VolIx) (s : State) : s.Row (s.volumeWriteFailed p i) := by
  have hproceed (f : Wpe → Wpe) : s.Row ((s.volumeFailed i).onWpe f).proceed :=
    row_after_volumeFailed i (lawful_onWpe_proceed f _).schedule (onWpe_proceed_access f _)
  cases p with
  | volumeApply j =>
    exact row_after_volumeFailed i (row_partEnded _ _).schedule
      (congrArg Acc.access (partEnded_frame _ (s.volumeFailed i) .acc (by decide)))
  | volumeDestroy j => exact hproceed _
  | volumeRekey j => exact hproceed _
  | _ => exact row_after_volumeFailed i (.refl _) rfl

theorem storeRow_writeFailed (e : WriteEntry) (s : State) : s.StoreRow (s.writeFailed e) := by
  obtain ⟨c, p⟩ := e
  cases c with
  | limiter r =>
    cases p with
    | preCount => exact (lawful_evaluationHalted s).storeRow
    | refund => exact (lawful_evaluationHalted s).storeRow
    | _ => exact (lawful_enterHalted s).storeRow
  | slot i r => exact storeRow_slotWriteFailed p i r s
  | volume i r => exact (row_volumeWriteFailed p i s).storeRow
  | policy q => exact (row_policyFailed s).storeRow
  | map m => exact (row_mapFailed s).storeRow
  | journal j => exact (lawful_enterHalted s).storeRow
  | pset a =>
    cases p with
    | pset ids b => exact (row_psetFailed ids s).storeRow
    | _ => exact (State.Lawful.refl s).storeRow
  | option o =>
    cases p with
    | options req => exact (row_optionsFailed req s).storeRow
    | _ => exact (State.Lawful.refl s).storeRow

/-- The store has taken in the end of a write, and no other write is new. -/
theorem storeRow_of_ended {f : Store → Store} {s u : State} (h : ((s.onStore f).clearCurrent).StoreRow u) :
    s.StoreRow u :=
  h.after rfl ⟨rfl, rfl, rfl, rfl, rfl, fun _ he _ => List.mem_append_right _ he⟩

theorem storeRow_attemptEnds {w : CurrentWrite} (r : AttemptEnd) {s : State} : s.StoreRow (s.attemptEnds w r) := by
  cases r with
  | passed => exact storeRow_of_ended (storeRow_writeDone w.entry _)
  | failed left =>
    by_cases h1 : w.attempt = 1
    · rw [State.attemptEnds, if_pos h1]
      exact (State.Row.of_frame (changesOnly_append (onStore_frame _ s) (onRsc_frame _ _))).storeRow
    · rw [State.attemptEnds, if_neg h1]
      exact storeRow_of_ended (storeRow_writeFailed w.entry _)

theorem storeRow_storeWriteEnd {r : AttemptEnd} {s t : State} (ht : exec (.storeWriteEnd r) s = .next t) :
    s.StoreRow t := by
  have hrow : s.StoreRow (match s.rsc.current with
      | some w => s.attemptEnds w r
      | none => s) := by
    split
    · exact storeRow_attemptEnds r
    · exact (State.Lawful.refl s).storeRow
  exact hrow.finish ht

end Sys2Proof.Machine
end

