-- ==== Sys2Proof/Proofs/AccessExec.lean ====
section
/-! Every command and the access state: the start-ups and losses of a supply open nothing, and the rows are gathered
(4.2, R43, R45, R61, R73, R129). -/

namespace Sys2Proof.Machine

/-! ## Start-up (R78, R79) -/

/-- Neither UNLOCKED nor CONFIG is entered. -/
def State.OpensNot (s t : State) : Prop :=
  t.acc.access = .unlocked ∨ t.acc.access = .config → t.acc.access = s.acc.access

theorem State.OpensNot.of_access {s t : State} (h : t.acc.access ≠ .unlocked ∧ t.acc.access ≠ .config) :
    s.OpensNot t := fun ht => (not_or.mpr h ht).elim

theorem State.OpensNot.of_acc {s t : State} (h : t.acc = s.acc) : s.OpensNot t := fun _ => congrArg Acc.access h

theorem State.OpensNot.trans {s t u : State} (h : s.OpensNot t) (k : t.OpensNot u) : s.OpensNot u := fun hu =>
  have ht := k hu
  ht.trans (h (ht ▸ hu))

theorem State.OpensNot.ite {s t u : State} {c : Prop} [Decidable c] (h : c → s.OpensNot t) (k : ¬ c → s.OpensNot u) :
    s.OpensNot (if c then t else u) := by
  split
  · exact h ‹_›
  · exact k ‹_›

theorem opensNot_foldl {α : Type} {f : State → α → State} (h : ∀ (s : State) (a : α), s.OpensNot (f s a)) (l : List α)
    (s : State) :
    s.OpensNot (l.foldl f s) := by
  induction l generalizing s with
  | nil => exact .of_acc rfl
  | cons a l ih => exact (h s a).trans (ih _)

theorem opensNot_volatileInit (m : SupplyMode) (b : BridgeState) (s : State) : s.OpensNot (s.volatileInit m b) :=
  .of_access (by decide : Acc.init.access ≠ .unlocked ∧ Acc.init.access ≠ .config)

theorem opensNot_startEvent (s : State) (e : StartEvent) : s.OpensNot (s.startEvent e) := by
  have hsample (t : State) (mv : Nat) : (t.startSample mv).acc = t.acc := by
    unfold State.startSample
    dsimp only
    split <;> rfl
  have hbus (b : Bool) : s.OpensNot (s.startBus b) :=
    .ite (fun _ => .of_acc rfl) fun _ => .ite (fun _ => .of_acc rfl) fun _ => .of_access (by
      show Acc.init.access ≠ .unlocked ∧ Acc.init.access ≠ .config
      decide)
  refine .ite (fun _ => .of_acc rfl) fun _ => ?_
  cases e with
  | tick mv => exact .ite (fun _ => .of_acc (hsample _ mv)) fun _ => .of_acc rfl
  | fallback => exact .ite (fun _ => .of_acc rfl) fun _ => .of_acc rfl
  | crystalReturn => exact .ite (fun _ => .of_acc rfl) fun _ => .of_acc rfl
  | caseChange high => exact .of_acc (debounceCase_frame _ .acc (by decide))
  | caseDebounced => exact .ite (fun _ => .of_acc rfl) fun _ => .of_acc rfl
  | busArrives => exact .ite (fun _ => .of_acc rfl) fun _ => hbus true
  | busLost => exact .ite (fun _ => hbus false) fun _ => .of_acc rfl

theorem lawful_resumeWipe (w : WipeRecord) (s : State) : s.Lawful (s.resumeWipe w) :=
  ((((lawful_onWpe _ s).trans (lawful_changeAccess none _ (by decide) rfl)).trans (lawful_onWpe _ _)).trans
    (.of_frame (postWipeState_frame _))).trans (lawful_proceed _)

theorem opensNot_derive (r : LoadReport) (s : State) : s.OpensNot (s.derive r) := by
  refine .ite (fun _ => (lawful_enterHalted s).opensNot) fun _ => ?_
  split
  · exact (lawful_resumeWipe _ s).opensNot
  · refine .ite (fun _ => (lawful_startWipe _ s).opensNot) fun _ => .ite (fun _ => (lawful_startWipe _ s).opensNot) fun _ => ?_
    refine .ite (fun _ => .of_access ?_) fun _ => .ite (fun _ => .of_access ?_) fun _ => .of_access ?_
    · simp
    · simp [State.resumePenalty]
    · simp

theorem lawful_takeReport (s : State) (r : HeldReport) : s.Lawful (s.takeReport r) := by
  cases r with
  | level falling l => exact .ite (fun _ => .of_frame (postP_frame _ s)) fun _ => .refl s
  | caseOpened => exact lawful_caseOpenOnset s
  | caseClosed => exact lawful_caseOpenEnd s
  | busLost => exact lawful_raise .busLoss .forced s

theorem lawful_reportTimebase (s : State) : s.Lawful s.reportTimebase :=
  .ite (fun _ => (State.Lawful.of_frame (postP_frame _ s)).trans (lawful_clockFaultOnset _)) fun _ => .refl s

theorem opensNot_reportStart (held : List HeldReport) (s : State) : s.OpensNot (s.reportStart held) := by
  unfold State.reportStart
  extract_lets t
  have hcrit (u : State) : u.OpensNot u.reportCrit :=
    .ite (fun _ => (lawful_raise _ _ u).opensNot) fun _ => .of_acc rfl
  have ht : s.OpensNot t := (State.OpensNot.trans (lawful_reportTimebase s).opensNot
    (opensNot_foldl (fun u r => (lawful_takeReport u r).opensNot) held _)).trans
      ((hcrit _).trans (lawful_wpeTold _).opensNot)
  exact .ite (fun _ => ht.trans (.of_acc rfl)) fun _ => ht

theorem opensNot_loaded (cause : StartCause) (s : State) : s.OpensNot (s.loaded cause) := by
  have hacc : (s.loaded cause).acc = (s.load cause).acc := by
    unfold State.loaded State.optionsInForce
    rw [debounceCase_frame _ .acc (by decide)]
    split <;> rfl
  refine .of_access ?_
  rw [hacc]
  show Access.locked ≠ .unlocked ∧ Access.locked ≠ .config
  decide

theorem opensNot_startWith (cause : StartCause) (start : StartEvents) (s : State) :
    s.OpensNot (s.startWith cause start) := by
  unfold State.startWith
  extract_lets u t
  have ht : s.OpensNot t := (opensNot_volatileInit _ _ s).trans (opensNot_foldl opensNot_startEvent _ u)
  refine .ite (fun _ => ht) fun _ => .ite (fun _ => ht.trans (opensNot_volatileInit _ _ t)) fun _ => ht.trans ?_
  unfold State.loadAndDerive
  extract_lets v w
  have hw : t.OpensNot w := (opensNot_loaded cause t).trans (opensNot_foldl opensNot_startEvent _ v)
  exact .ite (fun _ => hw) fun _ => (hw.trans (opensNot_derive _ w)).trans (opensNot_reportStart _ _)

/-! ## Changes of supply and RESET_N -/

/-- What a change of supply or RESET_N does to the access state; with the core domain powered it starts nothing up. -/
structure State.SupplyRow (s t : State) : Prop where
  opensNot : s.OpensNot t
  locked : s.corePowered = true → t.acc.access = .locked → s.acc.access = .locked ∨ s.appliesSet t

theorem State.Row.supplyRow {s t : State} (h : s.Row t) : s.SupplyRow t := ⟨h.opensNot, fun _ => h.locked⟩

/-- The part is left at its starting state (R147, R153). -/
theorem supplyRow_of_init {s t : State} (h : t.acc = .init) : s.SupplyRow t :=
  ⟨.of_access (by rw [h]; decide), fun _ ht => by rw [h] at ht; cases ht⟩

/-- A start-up with the core domain unpowered before it. -/
theorem supplyRow_of_unpowered {s t : State} (h : s.OpensNot t) (hc : s.corePowered = false) : s.SupplyRow t :=
  ⟨h, fun hp => by rw [hc] at hp; cases hp⟩

theorem State.SupplyRow.ite {s t u : State} {c : Prop} [Decidable c] (h : c → s.SupplyRow t) (k : ¬ c → s.SupplyRow u) :
    s.SupplyRow (if c then t else u) := by
  split
  · exact h ‹_›
  · exact k ‹_›

theorem State.SupplyRow.finish {s u t : State} (h : s.SupplyRow u) (ht : Machine.finish u = .next t) :
    s.SupplyRow t := by
  cases ht
  have hset : u.SameSet (u.onRsc Rsc.kick) := .of_same rfl rfl fun e _ => by simp
  exact ⟨h.opensNot, fun hc hu => (h.locked hc hu).imp_right fun happ => happ.to_same hset rfl⟩

theorem onPins_row {f : Pins → Pins} {s t : State} (h : (s.onPins f).Row t) : s.Row t :=
  have hframe := onPins_frame f s
  h.after (.of_frame hframe) rfl (State.SameSet.of_frame hframe).toBeforeSet

theorem onPins_row_self (f : Pins → Pins) (s : State) : s.Row (s.onPins f) := .of_frame (onPins_frame f s)

theorem State.corePowered_of_mode {s : State} (h : s.ssv.mode = .off ∨ s.ssv.mode = .cellSleep ∨ s.pins.resetLow = true) :
    s.corePowered = false := by
  rcases h with h | h | h <;> simp [State.corePowered, h]

theorem opensNot_powerUp (s : State) : s.OpensNot s.powerUp :=
  .ite (fun _ => opensNot_volatileInit _ _ s) fun _ => opensNot_startWith _ _ _

theorem supplyRow_held (s : State) (h : s.ssv.mode ≠ .off) : s.held.acc = .init := by
  rw [State.held, if_neg h]
  rfl

theorem supplyRow_powerOn (bus : Bool) {s t : State} (ht : exec (.powerOn bus) s = .next t) : s.SupplyRow t :=
  State.SupplyRow.finish (u := if s.ssv.mode = .off then (s.onPins fun p => { p with busdet := bus }).powerUp else s)
    (.ite (fun hm => supplyRow_of_unpowered (opensNot_powerUp _) (State.corePowered_of_mode (.inl hm)))
      fun _ => (State.Lawful.refl s).row.supplyRow) ht

theorem supplyRow_busPowerArrives {s u : State} (f : Pins → Pins)
    (hu : u = (s.onPins f).busPowerArrives) : s.SupplyRow u := by
  subst hu
  have hheld (hm : s.ssv.mode ≠ .off) : s.SupplyRow (s.onPins f).held :=
    supplyRow_of_init (supplyRow_held (s.onPins f) hm)
  unfold State.busPowerArrives
  split
  case h_1 hm => exact supplyRow_of_unpowered (opensNot_powerUp _) (State.corePowered_of_mode (.inl hm))
  case h_2 hm =>
    exact .ite (fun _ => hheld (by rw [show s.ssv.mode = .bus from hm]; decide)) fun _ => (onPins_row_self f s).supplyRow
  case h_3 hm =>
    exact .ite (fun _ => hheld (by rw [show s.ssv.mode = .cellAwake from hm]; decide)) fun _ =>
      (onPins_row (lawful_busArrives _).row).supplyRow
  case h_4 hm =>
    exact .ite (fun _ => hheld (by rw [show s.ssv.mode = .cellSleep from hm]; decide)) fun _ =>
      (onPins_row (row_woken (.refl _))).supplyRow

theorem supplyRow_busPowerArrival {s t : State} (ht : exec .busPowerArrival s = .next t) : s.SupplyRow t :=
  State.SupplyRow.finish
    (u := if s.pins.busdet then s else (s.onPins fun p => { p with busdet := true }).busPowerArrives)
    (.ite (fun _ => (State.Lawful.refl s).row.supplyRow) fun _ => supplyRow_busPowerArrives _ rfl) ht

theorem supplyRow_busPowerLoss (cut : CutPoint) {s t : State} (ht : exec (.busPowerLoss cut) s = .next t) :
    s.SupplyRow t := by
  have hlost (hm : s.ssv.mode = .bus) : s.SupplyRow ((s.onPins fun p => { p with busdet := false }).busPowerLost cut) :=
    .ite (fun _ => supplyRow_of_init (supplyRow_held _ (by rw [State.onPins_ssv, hm]; decide))) fun _ =>
      .ite (fun _ => (onPins_row (lawful_busLost _).row).supplyRow) fun _ => supplyRow_of_init rfl
  exact State.SupplyRow.finish
    (u := if s.pins.busdet then
            (if s.ssv.mode = .bus then (s.onPins fun p => { p with busdet := false }).busPowerLost cut
             else s.onPins fun p => { p with busdet := false })
          else s)
    (.ite (fun _ => .ite hlost fun _ => (onPins_row_self _ s).supplyRow) fun _ => (State.Lawful.refl s).row.supplyRow) ht

theorem supplyRow_powerLoss (cut : CutPoint) {s t : State} (ht : exec (.powerLoss cut) s = .next t) : s.SupplyRow t :=
  State.SupplyRow.finish
    (u := if s.ssv.mode = .off then s else (s.onPins fun p => { p with busdet := false }).powerOff cut)
    (.ite (fun _ => (State.Lawful.refl s).row.supplyRow) fun _ => supplyRow_of_init rfl) ht

theorem cutStore_frame (k : CutPoint) (s : State) : State.changesOnly [.store, .rsc] s (s.cutStore k) := by
  unfold State.cutStore
  split
  · exact changesOnly_append (onStore_frame _ s) (onRsc_frame _ _)
  · exact changesOnly_mono (onRsc_frame _ s) (by decide)

theorem supplyRow_resetN (cut : CutPoint) {s t : State} (ht : exec (.resetN cut) s = .next t) : s.SupplyRow t := by
  refine State.SupplyRow.finish
    (u := if s.pins.resetLow then s else (s.onPins fun p => { p with resetLow := true }).holdReset cut)
    (.ite (fun _ => (State.Lawful.refl s).row.supplyRow) fun _ => ?_) ht
  refine .ite (fun _ => (onPins_row_self _ s).supplyRow) fun hm => ?_
  refine supplyRow_of_init (supplyRow_held _ ?_)
  rwa [show (State.cutStore cut (s.onPins fun p => { p with resetLow := true })).ssv = s.ssv from
    cutStore_frame cut _ .ssv (by decide)]

theorem supplyRow_resetNRelease {s t : State} (ht : exec .resetNRelease s = .next t) : s.SupplyRow t :=
  State.SupplyRow.finish
    (u := if s.pins.resetLow ∧ s.ssv.mode ≠ .off then (s.onPins fun p => { p with resetLow := false }).startUp .resetPin
          else s.onPins fun p => { p with resetLow := false })
    (.ite (fun h => supplyRow_of_unpowered (opensNot_startWith _ _ _) (State.corePowered_of_mode (.inr (.inr h.1))))
      fun _ => (onPins_row_self _ s).supplyRow) ht

/-! ## Every command -/

/-- How a command may be carried out, by its row: the end of a store write may grant, a change of supply may start up,
and every other row grants nothing. -/
theorem exec_rows {c : Instr} {s t : State} (ht : exec c s = .next t) :
    s.Row t ∨ ((∃ r, c = .storeWriteEnd r) ∧ s.StoreRow t) ∨
      (((∃ k, c = .resetN k ∨ c = .powerLoss k ∨ c = .busPowerLoss k) ∨
        ∃ b, c = .powerOn b ∨ c = .resetNRelease ∨ c = .busPowerArrival) ∧ s.SupplyRow t) := by
  cases c
  case storeWriteEnd r => exact .inr (.inl ⟨⟨r, rfl⟩, storeRow_storeWriteEnd ht⟩)
  case resetN k => exact .inr (.inr ⟨.inl ⟨k, .inl rfl⟩, supplyRow_resetN k ht⟩)
  case powerLoss k => exact .inr (.inr ⟨.inl ⟨k, .inr (.inl rfl)⟩, supplyRow_powerLoss k ht⟩)
  case busPowerLoss k => exact .inr (.inr ⟨.inl ⟨k, .inr (.inr rfl)⟩, supplyRow_busPowerLoss k ht⟩)
  case powerOn b => exact .inr (.inr ⟨.inr ⟨b, .inl rfl⟩, supplyRow_powerOn b ht⟩)
  case resetNRelease => exact .inr (.inr ⟨.inr ⟨true, .inr (.inl rfl)⟩, supplyRow_resetNRelease ht⟩)
  case busPowerArrival => exact .inr (.inr ⟨.inr ⟨true, .inr (.inr rfl)⟩, supplyRow_busPowerArrival ht⟩)
  all_goals refine .inl (State.Row.finish ?_ ht)
  case poll x payload =>
    exact .ite (fun _ => .of_frame (changesOnly_ite
      (fun _ => changesOnly_append (validFrame_frame x s) (onLiu_frame _ _))
      fun _ => changesOnly_mono (validFrame_frame x s) (by decide))) fun _ => .of_frame (shiftOut_frame x s)
  case status x q => exact row_take fun _ t => row_answer _ _ t
  case getEvent x q =>
    refine row_take fun _ t => ?_
    cases x.link with
    | p => exact (lawful_onLiu _ t).answered _ _
    | b => exact (lawful_onLiu _ t).answered _ _
  case listSlots x q => exact row_take fun _ t => row_asAdmin (row_answer _ _ t)
  case barSlot x q => exact row_take fun b t => row_asAdmin (row_moveSlot _ _ _ _ t)
  case unbarSlot x q => exact row_take fun b t => row_asAdmin (row_moveSlot _ _ _ _ t)
  case clearSlot x q => exact row_take fun b t => row_asAdmin (row_clearSlot _ _ t)
  case setPolicy x q => exact row_take fun v t => row_asAdmin (row_setPolicy _ _ t)
  case readPolicy x q => exact row_take fun _ t => row_asAdmin (row_answer _ _ t)
  case setLockMap x q => exact row_take fun v t => row_asAdmin (row_setLockMap _ _ t)
  case wipe x q => exact row_take fun _ t => row_asAdmin (row_adminWipe _ t)
  case keyDigit x q => exact row_take fun d t => row_entryKey (row_keyWork _ t)
  case keyBack x q => exact row_take fun _ t => row_keyWork _ t
  case keyClear x q => exact row_take fun _ t => row_keyWork _ t
  case keyEnter x q => exact row_take fun _ t => row_entryKey (row_enter t)
  case keyLock x q =>
    exact row_take fun _ t => ((State.Lawful.of_frame (lockEmpties_frame t)).trans (lawful_raise _ _ _)).keyed
  case keyAdmin x q => exact row_take fun _ t => row_entryKey (row_keyWork _ t)
  case keyRecover x q => exact row_take fun _ t => row_entryKey (row_keyWork _ t)
  case keyChange x q => exact row_take fun _ t => row_entryKey (row_beginChange t)
  case keyExit x q => exact row_take fun _ t => row_exitKey t
  case enrolBegin x q => exact row_take fun a t => row_enrolBegin a t
  case attach x q => exact row_take fun n t => row_attach _ t
  case detach x q => exact row_take fun _ t => row_detach t
  case lock x q => exact row_take fun _ t => (lawful_raise _ _ t).answered _ _
  case activity x q => exact row_take fun _ t => row_activity t
  case fetchKey x q => exact row_take fun b t => row_fetchKey b t
  case lockReply x q => exact row_take fun r t => row_lockReply r t
  case workFetch x q => exact row_take fun _ t => row_workFetch t
  case workDone x q => exact row_take fun a t => row_workDone _ _ t
  case defineVolume x q => exact row_take fun a t => row_defineVolume a t
  case readVolumes x q => exact row_take fun _ t => .ite (fun _ => row_answer _ _ t) fun _ => row_answer _ _ t
  case writeOptions x q => exact row_take fun v t => row_writeOptions _ _ t
  case badFrame x bytes =>
    refine .ite (fun _ => (State.Lawful.refl s).row) fun _ => .ite (fun _ => .of_frame (shiftOut_frame x s)) fun _ => ?_
    refine .ite (fun _ => .of_frame (shiftOut_frame x s)) fun _ => ?_
    split
    · exact .of_frame (changesOnly_trans (shiftOut_frame x s) (onLiu_frame _ _))
    · exact .of_frame (shiftOut_frame x s)
    · exact .of_frame (shiftOut_frame x s)
  case busy x code =>
    exact .ite (fun _ => .of_frame (shiftOut_frame x s)) fun _ =>
      .ite (fun _ => .of_frame (changesOnly_append (validFrame_frame x s) (onLiu_frame _ _))) fun _ =>
        (State.Lawful.refl s).row
  case unknownCommand x code payload =>
    exact .ite (fun _ => (State.Lawful.refl s).row) fun _ => row_command fun t => row_answer _ _ t
  case evaluationEnd =>
    split
    · exact row_judge _ s
    · exact (State.Lawful.refl s).row
  case enrolVerifierDone =>
    split
    · exact .ite (fun _ => row_answerEnrolment _ s) fun _ => .of_frame (takeFirst_frame s)
    · exact .ite (fun _ => row_answerEnrolment _ s) fun _ => row_confirmEntry s
    · exact (State.Lawful.refl s).row
  case tick mv => exact .ite (fun _ => (lawful_takeTick mv s).row) fun _ => (State.Lawful.refl s).row
  case fallback =>
    exact .ite (fun _ => ((lawful_rateChanged _ s).trans (lawful_clockFaultOnset _)).row) fun _ =>
      (State.Lawful.refl s).row
  case crystalReturn =>
    exact .ite (fun _ => ((lawful_rateChanged _ s).trans (lawful_clockFaultEnd _)).row) fun _ =>
      (State.Lawful.refl s).row
  case crystalSilentAgain => exact .ite (fun _ => (lawful_onTbu _ s).row) fun _ => (State.Lawful.refl s).row
  case entryTimerExpiry =>
    exact .ite (fun _ => .of_frame (changesOnly_append (endDialogue_frame s) (postP_frame _ _))) fun _ =>
      (State.Lawful.refl s).row
  case penaltyExpiry => exact .ite (fun _ => row_penaltyExpires s) fun _ => (State.Lawful.refl s).row
  case idleExpiry =>
    exact .ite (fun _ => ((lawful_onAcc (f := fun c => { c with idleTimer := none }) rfl).trans (lawful_raise _ _ _)).row)
      fun _ => (State.Lawful.refl s).row
  case attachExpiry =>
    exact .ite (fun _ => ((lawful_onAcc (f := fun c => { c with attachTimer := none }) rfl).trans (lawful_raise _ _ _)).row)
      fun _ => (State.Lawful.refl s).row
  case deferExpiry => exact .ite (fun _ => (lawful_deferExpires s).row) fun _ => (State.Lawful.refl s).row
  case configTimeout =>
    exact .ite (fun _ => ((lawful_onAcc (f := fun c => { c with configTimer := none }) rfl).trans
      (lawful_configTimedOut _)).row) fun _ => (State.Lawful.refl s).row
  case linkTimerExpiry => exact .ite (fun _ => (lawful_linkLost s).row) fun _ => (State.Lawful.refl s).row
  case orderTimerExpiry => exact .ite (fun _ => .of_frame (orderExpires_frame s)) fun _ => (State.Lawful.refl s).row
  case sleepTimerExpiry => exact .ite (fun _ => (lawful_onSsv _ s).row) fun _ => (State.Lawful.refl s).row
  case caseChange high =>
    exact .ite (fun _ => .of_frame (changesOnly_append (onPins_frame _ s) (debounceCase_frame _))) fun _ =>
      onPins_row_self _ s
  case caseDebounceExpiry => exact .ite (fun _ => row_caseDebounced s) fun _ => (State.Lawful.refl s).row
  case cellSleepEntry => exact .ite (fun _ => row_enterSleep s) fun _ => (State.Lawful.refl s).row
  case wakeN low =>
    exact .ite (fun _ => onPins_row (row_woken (.refl _))) fun _ => onPins_row_self _ s

/-- An entry into LOCKED applies the Pending Set (R73, R129). -/
theorem exec_enters_locked {c : Instr} {s t : State} (ht : exec c s = .next t) (hcore : s.corePowered = true)
    (hs : s.acc.access ≠ .locked) (hl : t.acc.access = .locked) : s.appliesSet t := by
  rcases exec_rows ht with h | ⟨-, v, hv, hb, h⟩ | ⟨-, h⟩
  · exact (h.locked hl).resolve_left hs
  · exact ((h.locked hl).resolve_left (hv ▸ hs)).from_before hb
  · exact (h.locked hcore hl).resolve_left hs

/-- Settles O7: only the end of a store write grants, and a grant opens from LOCKED. -/
theorem opensOnlyFromLocked : Obligations.OpensOnlyFromLocked := by
  intro c s t ht hopen hne
  rcases exec_rows ht with h | ⟨hc, v, hv, -, h⟩ | ⟨-, h⟩
  · exact absurd (h.opensNot hopen) hne
  · rcases h.opens hopen with hsame | hlocked
    · exact absurd (hsame.trans hv) hne
    · exact ⟨hv ▸ hlocked, hc⟩
  · exact absurd (h.opensNot hopen) hne

/-- Settles O9: within a row F is set before an application reads it, and an application with F above 0 leaves the four
fields staged. -/
theorem scheduleStandsWhileFailing : Obligations.ScheduleStandsWhileFailing := by
  intro c s t hw hf ht hft hcut hstart
  rw [← Policy.schedule_eq_iff]
  rcases exec_rows ht with h | ⟨-, v, -, hb, h⟩ | ⟨⟨k, hk⟩ | ⟨b, hb⟩, -⟩
  · exact h.schedule.fields hw hf.ne'
  · have hv : v.atl.limiter.fails ≠ 0 := by
      rw [← h.schedule.limiter]
      exact hft.ne'
    rw [h.schedule.fields (by rw [hb.policy]; exact hw) hv, hb.policy]
  · obtain ⟨h1, h2, h3⟩ := hcut k
    exact (hk.elim h1 fun hk => hk.elim h2 h3).elim
  · obtain ⟨h1, h2, h3⟩ := hstart b
    exact (hb.elim h1 fun hb => hb.elim h2 h3).elim

end Sys2Proof.Machine
end

