-- ==== Sys2Proof/Proofs/PenaltyAndStatus.lean ====
section
/-! The penalty schedule (R51) and the status record (R58, R118, R171). -/

namespace Sys2Proof.Machine

/-! ## The schedule -/

/-- Above FREE_ATTEMPTS the penalty doubles with each failure until the exponent reaches 15, or the cap is met. -/
theorem Policy.penaltyTicks_above (p : Policy) (k : Nat) :
    p.penaltyTicks (p.freeAttempts + 1 + k) = min (8 * p.penaltyBase * 2 ^ min k 15) (8 * p.penaltyCap) := by
  have habove : ¬ p.freeAttempts + 1 + k ≤ p.freeAttempts := by omega
  have hk : p.freeAttempts + 1 + k - p.freeAttempts - 1 = k := by omega
  rw [Policy.penaltyTicks, if_neg habove, hk]
  rfl

theorem Policy.penaltyTicks_free {p : Policy} {f : Nat} (h : f ≤ p.freeAttempts) : p.penaltyTicks f = 0 := if_pos h

/-- Settles O41: by the failures above FREE_ATTEMPTS, a minimum of two multiples of the ticks in a second. -/
theorem penaltySchedule : Obligations.PenaltySchedule := by
  intro p f
  refine ⟨Policy.penaltyTicks_free, ?_, ?_, ?_, ?_⟩
  · rintro k rfl hk
    rw [Policy.penaltyTicks_above, min_eq_left hk, min_def_lt]
  · rintro k rfl hk
    rw [Policy.penaltyTicks_above, min_eq_right hk.le]
    exact min_def_lt (8 * p.penaltyBase * 32768) _
  · intro hf hcap
    obtain ⟨k, rfl⟩ := Nat.exists_eq_add_of_le hf
    have hpow : 1 ≤ 2 ^ min k 15 := Nat.one_le_two_pow
    rw [Policy.penaltyTicks_above]
    exact ⟨le_min (Nat.le_mul_of_pos_right _ hpow) (by omega), min_le_right _ _⟩
  · by_cases hf : f ≤ p.freeAttempts
    · rw [Policy.penaltyTicks_free hf]
    · obtain ⟨k, rfl⟩ := Nat.exists_eq_add_of_le (Nat.lt_of_not_le hf)
      rw [Policy.penaltyTicks_above, mul_assoc, Nat.mul_min_mul_left]
      exact Nat.mul_mod_right 8 _

/-! ## STATUS -/

/-- Restarting the timer of a watched link changes nothing that STATUS reads. -/
theorem State.restartWatch_statusRecord (l : Link) (s : State) :
    (s.restartWatch l).statusRecord = s.statusRecord := by
  cases l with
  | p => unfold State.restartWatch; dsimp only; split <;> rfl
  | b => unfold State.restartWatch; dsimp only; split <;> rfl

theorem State.restartConfig_statusRecord (l : Link) (code : Byte) (s : State) :
    (s.restartConfig l code).statusRecord = s.statusRecord := by
  unfold State.restartConfig
  split <;> rfl

theorem State.taken_statusRecord (x : Exchange) (code : Byte) (c : CmdSlot) (s : State) :
    (s.taken x code c).statusRecord = s.statusRecord := by
  have hport : (s.taken x code c).statusRecord = (s.frameTaken x code).statusRecord := by
    simp [State.taken, State.statusRecord, State.attemptsLeft, State.penaltySeconds]
  rw [hport, State.frameTaken_eq, State.restartConfig_statusRecord, State.restartWatch_statusRecord]

/-- Settles O17: the answer is the status record as it stood, since a taken frame restarts timers alone. -/
theorem statusReportsTheOwners : Obligations.StatusReportsTheOwners := by
  intro x s htakes
  have haccepts : s.accepts x 0x01 := ⟨htakes, by cases x.link <;> rfl, .inr rfl⟩
  have hexec : exec (.status x (.ok ())) s = finish (s.taken x 0x01 (.done (.ok 0x01 (.status s.statusRecord)))) := by
    show finish (s.take x 0x01 (.ok ()) _) = _
    rw [take_accepted haccepts, State.taken_replyOk, State.taken_statusRecord]
  have hrecord : s.statusRecord =
      { access := s.acc.access, openSlot := s.acc.openSlot, mode := s.ssv.mode, level := s.ssv.level,
        timebase := s.tbu.state, bridge := s.liu.bridge, fails := s.atl.limiter.fails,
        threshold := s.plu.policy.wipeThreshold,
        attemptsLeft := s.plu.policy.wipeThreshold - s.atl.limiter.fails,
        penaltySeconds := (s.atl.penalty.getD 0 + 7) / 8,
        wipeStep := if s.acc.access = .wiping then (s.wpe.view.map fun w => w.step) else none,
        run := if s.acc.access = .wiping then some s.wpe.run else none,
        progress := if s.acc.access = .wiping then (s.wpe.view.map WipeRecord.progress).getD 0 else 0,
        clockFault := s.acc.clockFault, caseOpen := s.acc.caseOpen, startCause := s.acc.startCause } := by
    simp only [State.statusRecord, beq_iff_eq]
    rfl
  rw [hexec, ← hrecord]
  exact s.answersOnly_taken x 0x01 _

end Sys2Proof.Machine
end

