-- ==== Sys2Proof/Proofs/SetEnds.lean ====
section
/-! The ends of the writes of an application, and how it settles (R84, R129, R130). -/

namespace Sys2Proof.Machine

/-! ## Settling after a write -/

/-- Two settings with the same committed set, and the same parts being removed and staged. -/
def Plu.SameSets (p q : Plu) : Prop :=
  q.committed = p.committed ∧ q.removing = p.removing ∧ q.inflight = p.inflight

/-- What settling leaves of the settings in force and their marks. -/
theorem settle_settings (s : State) :
    s.settle.plu.policy = s.plu.policy ∧ s.settle.plu.map = s.plu.map ∧
      s.settle.plu.policyFault = s.plu.policyFault ∧ s.settle.plu.mapFault = s.plu.mapFault := by
  cases happ : s.plu.applying with
  | none => simp [State.settle, happ]
  | some a =>
    rw [(settle_facts happ).1]
    split_ifs <;> exact ⟨rfl, rfl, rfl, rfl⟩

/-- With its last write answered an application settles: its done parts are being removed, by a write where there are
any (R130). -/
theorem settle_settles {a : Application} {s y : State} (ha : y.plu.applying = some a) (hsets : s.plu.SameSets y.plu) :
    s.settles a { y.settle with rsc := y.settle.rsc.kick } := by
  obtain ⟨hcommitted, hremoving, hinflight⟩ := hsets
  obtain ⟨hplu, hrsc⟩ := settle_facts ha
  by_cases hw : a.waits = true
  · have hwaits := (Application.waits_iff a).mp hw
    rw [if_pos hw] at hplu
    simp only [State.settles, State.concludes, hplu, if_pos hwaits, ha]
    exact ⟨hinflight, hcommitted, trivial, hremoving⟩
  · have hwaits := mt (Application.waits_iff a).mpr hw
    rw [if_neg hw] at hplu
    simp only [State.settles, State.concludes, hplu, if_neg hwaits]
    refine ⟨hinflight, hcommitted, trivial, by rw [hremoving], fun hdone => ?_⟩
    rw [State.writing_iff, Rsc.kick_entries, hrsc, State.settleAsk, if_neg (by simp [hw, hdone]), hcommitted]
    exact Rsc.mem_request_self _ _

/-- A part's write is answered: the application settles with the part's status, and the state keeps what the owner
left. -/
theorem finish_partEnded {f : Application → Application} {a : Application} {l : List Block} {s y : State}
    (ha : y.plu.applying = some a) (hsets : s.plu.SameSets y.plu) (hframe : State.changesOnly l s y)
    (hplu : Block.plu ∈ l) (hrsc : Block.rsc ∈ l) :
    ∃ t, finish (y.partEnded f) = .next t ∧ s.settles (f a) t ∧ State.changesOnly l s t ∧
      t.plu.policy = y.plu.policy ∧ t.plu.map = y.plu.map ∧ t.plu.policyFault = y.plu.policyFault ∧
      t.plu.mapFault = y.plu.mapFault ∧ t.store = y.store ∧ t.kru = y.kru := by
  have hends := partEnded_frame f y
  have happ : (y.onPlu fun p => { p with applying := p.applying.map f }).plu.applying = some (f a) := by
    rw [State.onPlu_plu, ha, Option.map_some]
  obtain ⟨hpolicy, hmap, hpolicyFault, hmapFault⟩ := settle_settings (y.onPlu fun p =>
    { p with applying := p.applying.map f })
  obtain ⟨t, ht, rfl, hkeeps⟩ := finish_frame (changesOnly_trans hframe (changesOnly_mono hends (by simp [hplu, hrsc]))) hrsc
  exact ⟨_, ht, settle_settles happ hsets, hkeeps, hpolicy, hmap, hpolicyFault, hmapFault, hends .store (by decide),
    hends .kru (by decide)⟩

/-! ## What the ends of writes leave -/

/-- A completed volume write reads as written. -/
theorem Store.read_volume_complete (i : VolIx) (r : VolumeRecord) (st : Store) :
    ((st.onLocation Location.complete (.volume i r)).volumes.get i).read = .valid r := by
  rw [Store.onLocation, Vector.get_set_eq, if_pos rfl, Location.read_complete]

/-- A record has a waiting write exactly when an entry of it waits. -/
theorem waitingPurpose_eq_none {id : RecordId} {q : List WriteEntry} :
    waitingPurpose id q = none ↔ ¬ ∃ e ∈ q, e.id = id := by
  induction q with
  | nil => simp [waitingPurpose]
  | cons w rest ih =>
    rw [waitingPurpose]
    by_cases hw : w.id = id
    · simp [hw]
    · rw [if_neg hw, ih]
      simp [hw]

theorem State.volumeFailed_volume_same (i : VolIx) (s : State) :
    (s.volumeFailed i).volume i =
      if (∃ e ∈ s.rsc.queue, e.id = .volume i) then s.volume i else VolumeRecord.unused (s.volume i).kgen := by
  unfold State.volumeFailed
  split
  · next q hq =>
    obtain ⟨e, he, hid, -⟩ := waitingPurpose_eq_some hq
    rw [if_pos ⟨e, he, hid⟩]
  · next hq => rw [if_neg (waitingPurpose_eq_none.mp hq), State.setVolume_volume_same]

theorem State.volumeFailed_volume_ne {i v : VolIx} (h : v ≠ i) (s : State) :
    (s.volumeFailed i).volume v = s.volume v := by
  unfold State.volumeFailed
  split
  · rfl
  · exact State.setVolume_volume_ne (Ne.symm h) _ s

/-! ## The Policy Record and the Lock Action Map -/

section
variable {a : Application} {n : Nat} (left : Residue) {s : State} (happ : s.plu.applying = some a)
include happ

theorem policyWrite_passed {p : Policy}
    (hw : s.rsc.current = some { entry := { contents := .policy p, purpose := .policyApply }, attempt := n }) :
    ∃ t, exec (.storeWriteEnd .passed) s = .next t ∧ t.plu.policy = s.plu.policy ∧ t.plu.policyFault = false ∧
      t.store.policy.read = .valid p ∧ s.settles { a with policy := .done } t ∧
      State.changesOnly [.store, .rsc, .plu] s t := by
  rw [exec_passed hw]
  obtain ⟨t, ht, hsettles, hframe, hpolicy, -, hfault, -, hstore, -⟩ :=
    finish_partEnded (s := s) (f := fun a => { a with policy := .done }) (l := [.store, .rsc, .plu])
      (y := (s.passed { contents := .policy p, purpose := .policyApply }).onPlu fun q => { q with policyFault := false })
      happ ⟨rfl, rfl, rfl⟩ (changesOnly_append (passed_frame _ s) (onPlu_frame _ _)) (by decide) (by decide)
  refine ⟨t, ht, hpolicy, hfault, ?_, hsettles, hframe⟩
  rw [hstore]
  exact Location.read_complete p s.store.policy

theorem policyWrite_failed {p : Policy}
    (hw : s.rsc.current = some { entry := { contents := .policy p, purpose := .policyApply }, attempt := n })
    (hn : n ≠ 1) :
    ∃ t, exec (.storeWriteEnd (.failed left)) s = .next t ∧ t.plu.policyFault = true ∧
      t.plu.policy = s.plu.policy.fallback ∧ s.settles { a with policy := .failed } t ∧
      State.changesOnly [.store, .rsc, .plu] s t := by
  rw [exec_failed left hw hn]
  obtain ⟨t, ht, hsettles, hframe, hpolicy, -, hfault, -⟩ :=
    finish_partEnded (s := s) (f := fun a => { a with policy := .failed }) (l := [.store, .rsc, .plu])
      (y := (s.spoilt left { contents := .policy p, purpose := .policyApply }).onPlu fun q =>
        { q with policy := q.policy.fallback, policyFault := true })
      happ ⟨rfl, rfl, rfl⟩ (changesOnly_append (spoilt_frame left _ s) (onPlu_frame _ _)) (by decide) (by decide)
  exact ⟨t, ht, hfault, hpolicy, hsettles, hframe⟩

theorem mapWrite_passed {m : LockMap}
    (hw : s.rsc.current = some { entry := { contents := .map m, purpose := .mapApply }, attempt := n }) :
    ∃ t, exec (.storeWriteEnd .passed) s = .next t ∧ t.plu.map = s.plu.map ∧ t.plu.mapFault = false ∧
      t.store.map.read = .valid m ∧ s.settles { a with map := .done } t ∧
      State.changesOnly [.store, .rsc, .plu] s t := by
  rw [exec_passed hw]
  obtain ⟨t, ht, hsettles, hframe, -, hmap, -, hfault, hstore, -⟩ :=
    finish_partEnded (s := s) (f := fun a => { a with map := .done }) (l := [.store, .rsc, .plu])
      (y := (s.passed { contents := .map m, purpose := .mapApply }).onPlu fun q => { q with mapFault := false })
      happ ⟨rfl, rfl, rfl⟩ (changesOnly_append (passed_frame _ s) (onPlu_frame _ _)) (by decide) (by decide)
  refine ⟨t, ht, hmap, hfault, ?_, hsettles, hframe⟩
  rw [hstore]
  exact Location.read_complete m s.store.map

/-- A map write that fails puts the default map in force, whose actions may release keys and change what is reported. -/
theorem mapWrite_failed {m : LockMap}
    (hw : s.rsc.current = some { entry := { contents := .map m, purpose := .mapApply }, attempt := n }) (hn : n ≠ 1) :
    ∃ t, exec (.storeWriteEnd (.failed left)) s = .next t ∧ t.plu.mapFault = true ∧ t.plu.map = .default ∧
      s.settles { a with map := .failed } t ∧ State.changesOnly [.store, .rsc, .plu, .keu, .liu] s t := by
  rw [exec_failed left hw hn]
  let u := s.spoilt left { contents := .map m, purpose := .mapApply }
  have hset : (u.setMap .default).plu = { s.plu with map := .default } := State.setMap_plu _ u
  obtain ⟨t, ht, hsettles, hframe, -, hmap, -, hfault, -⟩ :=
    finish_partEnded (s := s) (f := fun a => { a with map := .failed }) (l := [.store, .rsc, .plu, .keu, .liu])
      (y := (u.setMap .default).onPlu fun q => { q with mapFault := true })
      (by rw [State.onPlu_plu, hset, happ]) (by rw [State.onPlu_plu, hset]; exact ⟨rfl, rfl, rfl⟩)
      (changesOnly_mono (changesOnly_append (changesOnly_append (spoilt_frame left _ s) (setMap_frame _ u))
        (onPlu_frame _ _)) (by decide)) (by decide) (by decide)
  exact ⟨t, ht, hfault, by rw [hmap, State.onPlu_plu, hset], hsettles, hframe⟩

/-! ## The volumes -/

theorem volumeWrite_passed {i : VolIx} {r : VolumeRecord}
    (hw : s.rsc.current = some { entry := { contents := .volume i r, purpose := .volumeApply i }, attempt := n }) :
    ∃ t, exec (.storeWriteEnd .passed) s = .next t ∧ (t.store.volumes.get i).read = .valid r ∧
      s.settles { a with volumes := a.volumes.set i .done } t ∧ State.changesOnly [.store, .rsc, .plu] s t := by
  rw [exec_passed hw]
  obtain ⟨t, ht, hsettles, hframe, -, -, -, -, hstore, -⟩ :=
    finish_partEnded (s := s) (f := fun a => { a with volumes := a.volumes.set i .done }) (l := [.store, .rsc, .plu])
      (y := s.passed { contents := .volume i r, purpose := .volumeApply i }) happ ⟨rfl, rfl, rfl⟩
      (changesOnly_mono (passed_frame _ s) (by decide)) (by decide) (by decide)
  refine ⟨t, ht, ?_, hsettles, hframe⟩
  rw [hstore]
  exact Store.read_volume_complete i r s.store

/-- A volume write that fails leaves the volume UNUSED, unless a later write of it waits. -/
theorem volumeWrite_failed {i : VolIx} {r : VolumeRecord}
    (hw : s.rsc.current = some { entry := { contents := .volume i r, purpose := .volumeApply i }, attempt := n })
    (hn : n ≠ 1) :
    ∃ t, exec (.storeWriteEnd (.failed left)) s = .next t ∧
      t.volume i = (if (∃ e ∈ s.rsc.queue, e.id = .volume i) then s.volume i
                    else VolumeRecord.unused (s.volume i).kgen) ∧
      (∀ u : VolIx, u ≠ i → t.volume u = s.volume u) ∧
      s.settles { a with volumes := a.volumes.set i .failed } t ∧ State.changesOnly [.store, .rsc, .plu, .kru] s t := by
  rw [exec_failed left hw hn]
  let u := s.spoilt left { contents := .volume i r, purpose := .volumeApply i }
  have hfailed := volumeFailed_frame i u
  have hplu : (u.volumeFailed i).plu = s.plu := hfailed .plu (by decide)
  obtain ⟨t, ht, hsettles, hframe, -, -, -, -, -, hkru⟩ :=
    finish_partEnded (s := s) (f := fun a => { a with volumes := a.volumes.set i .failed })
      (l := [.store, .rsc, .plu, .kru]) (y := u.volumeFailed i) (hplu ▸ happ) (hplu ▸ ⟨rfl, rfl, rfl⟩)
      (changesOnly_mono (changesOnly_append (spoilt_frame left _ s) hfailed) (by decide)) (by decide) (by decide)
  have hvolume (v : VolIx) : t.volume v = (u.volumeFailed i).volume v := by rw [State.volume, hkru]; rfl
  refine ⟨t, ht, ?_, fun v hv => ?_, hsettles, hframe⟩
  · rw [hvolume]
    exact State.volumeFailed_volume_same i u
  · rw [hvolume]
    exact State.volumeFailed_volume_ne hv u

end

/-- Settles O58: an entry into LOCKED by the rows of all commands; the ends of an application's writes record by
record. -/
theorem entryIntoLockedAppliesTheSet : Obligations.EntryIntoLockedAppliesTheSet := by
  intro a p m i r n left s
  refine ⟨fun c t ht hcore hs hl => exec_enters_locked ht hcore hs hl, fun hcore hd hc => ?_,
    fun hcore hd hu hb => ?_, fun happ => ⟨fun hw => ⟨policyWrite_passed happ hw, policyWrite_failed left happ hw⟩,
      fun hw => ⟨mapWrite_passed happ hw, mapWrite_failed left happ hw⟩,
      fun hw => ⟨volumeWrite_passed happ hw, volumeWrite_failed left happ hw⟩⟩⟩
  · obtain ⟨t, ht, hacc, -⟩ := configTimeout_ends hcore hd hc
    have hl : t.acc.access = .locked := by rw [hacc]
    exact ⟨t, ht, hl, exec_enters_locked ht hcore (by rw [hc]; decide) hl⟩
  · obtain ⟨t, ht, hlocks⟩ := idleExpiry_locks hcore hd hu
    rw [if_neg hb] at hlocks
    have hl : t.acc.access = .locked := by rw [hlocks.1]
    exact ⟨t, ht, hl, exec_enters_locked ht hcore (by rw [hu]; decide) hl⟩

end Sys2Proof.Machine
end

