-- ==== Sys2Proof/Proofs/Judged.lean ====
section
/-! The end of the evaluation time (R46 to R49, R52, R54). -/

namespace Sys2Proof.Machine

/-! ## The answer of a failure -/

/-- A rejected attempt is answered with the summary of the emptied buffer. -/
theorem State.answerAttempt_rejected {cls : CmdClass} {code : Byte} {s : State} (n secs : Nat)
    (h : s.liu.p.slot = .running cls code) :
    (s.answerAttempt (.rejected n secs)).liu.p.slot =
      .done (.ok code (.key .rejected (some (n, secs)) (s.answerAttempt (.rejected n secs)).summary)) :=
  State.answer_slot (l := .p) (s := (s.onKeu fun k => k.landed.emptied).touchEntryTimer) _ h

/-- An answered attempt posts nothing. -/
theorem State.answerAttempt_pq (a : AttemptAnswer) (s : State) : (s.answerAttempt a).liu.pq = s.liu.pq := by
  cases a <;> rfl

section
variable {s : State} (hl : s.acc.access = .locked) (hh : s.acc.heldWipe = false)
include hl hh

/-- A failure counted in LOCKED: the threshold wipe, no penalty, or a penalty, and then the answer (R49). -/
theorem failAttemptOfEntry_rejected :
    s.failAttemptOfEntry false =
      if s.atl.limiter.fails = s.plu.policy.wipeThreshold then (s.startWipe .threshold).answerAttempt (.rejected 0 0)
      else if s.plu.policy.penaltyTicks s.atl.limiter.fails = 0 then s.answerAttempt (.rejected s.attemptsLeft 0)
      else (s.penalized (s.plu.policy.penaltyTicks s.atl.limiter.fails)).answerAttempt
        (.rejected s.attemptsLeft (s.plu.policy.penaltyTicks s.atl.limiter.fails / 8)) := by
  rw [State.failAttemptOfEntry]
  split_ifs with hw hn
  · have hacc := startWipe_acc_of_locked .threshold hl
    exact State.endOfFlight_of_shut (by simp [hacc, hh]) (by simp [hacc]) (by simp [hacc])
  · exact State.endOfFlight_of_shut (by simp [hh]) (by simp [hl]) (by simp [hl])
  · have hacc := State.penalized_acc (s.plu.policy.penaltyTicks s.atl.limiter.fails) hl
    exact State.endOfFlight_of_shut (s := (s.penalized _).answerAttempt _) (by simp [hacc, hh]) (by simp [hacc])
      (by simp [hacc])

end

/-- A wipe's start stops the penalty (R56). -/
theorem startWipe_atl (c : WipeCause) {s : State} (hw : s.acc.access ≠ .wiping) (hh : s.acc.access ≠ .halted) :
    (s.startWipe c).atl = { s.atl with penalty := none, phase := false } := by
  have hatl (u : State) : (((u.discardPendingSet).armWipe c).changeAccess .wiping none).atl = u.atl :=
    (changesOnly_append (discardPendingSet_frame u) <| changesOnly_append (onWpe_frame _ _) <|
      changesOnly_append (requestWrite_frame _ _ _) (changeAccess_frame .wiping none _)) .atl (by decide)
  unfold State.startWipe
  rw [if_neg (not_or.mpr ⟨hw, hh⟩)]
  dsimp only [State.onWpe_atl]
  rw [hatl, ← show s.quitForWipe.atl = s.atl from quitForWipe_frame s .atl (by decide)]
  rfl

/-- A penalty is a whole number of seconds, so that rounding up its ticks changes nothing (R51, R53). -/
theorem penaltyTicks_seconds (p : Policy) (f : Nat) : Timer.seconds (some (p.penaltyTicks f)) = p.penaltyTicks f / 8 := by
  obtain ⟨-, -, -, -, hwhole⟩ := penaltySchedule p f
  show (p.penaltyTicks f + 7) / 8 = _
  omega

theorem reportPenalty_frame (s : State) : State.changesOnly [.acc, .keu, .liu] s s.reportPenalty :=
  changesOnly_ite (fun _ => changeAccess_frame _ _ _) fun _ => changesOnly_refl _ s

/-- A penalty that starts is reported with its seconds and the attempts left (R54). -/
theorem State.penalized_posts (f : Nat) {s : State} (hcore : s.corePowered = true) :
    (s.penalized (s.plu.policy.penaltyTicks f)).liu.pq.penaltyChanged =
      some (s.plu.policy.penaltyTicks f / 8, s.attemptsLeft) := by
  let u := (s.startPenalty (s.plu.policy.penaltyTicks f)).reportPenalty
  have hframe := reportPenalty_frame (s.startPenalty (s.plu.policy.penaltyTicks f))
  have hatl : u.atl = (s.startPenalty (s.plu.policy.penaltyTicks f)).atl := hframe .atl (by decide)
  have hplu : u.plu = s.plu := hframe .plu (by decide)
  have hcore' : u.corePowered = true :=
    (State.corePowered_congr (hframe .pins (by decide)) (hframe .ssv (by decide))).trans hcore
  have hseconds : u.penaltySeconds = s.plu.policy.penaltyTicks f / 8 := by
    rw [State.penaltySeconds, hatl]
    exact penaltyTicks_seconds _ f
  have hleft : u.attemptsLeft = s.attemptsLeft := by
    rw [State.attemptsLeft, hatl, hplu]
    rfl
  show (u.postP (.penaltyChanged u.penaltySeconds u.attemptsLeft)).liu.pq.penaltyChanged = _
  rw [State.postP_eq_onLiu, hcore', hseconds, hleft]
  rfl

/-! ## The end of the evaluation time -/

/-- A match requests the refund, or the spend of the recovery credential (R47, R48). -/
theorem judge_match (i : SlotIx) (s : State) :
    ∃ t, finish (s.judge (some i)) = .next t ∧
      t.keu = { s.keu with flight := some (if i = 9 then .spend else .refund i) } ∧
      t.writing (if i = 9 then .slot 9 { SlotRecord.empty with state := .spent }
                 else .limiter { fails := 0, served := true }) (if i = 9 then .spend else .refund) ∧
      State.changesOnly [.keu, .rsc] s t := by
  have hframe (f : Flight) (c : Contents) (p : Purpose) :
      State.changesOnly [.keu, .rsc] s (((s.setFlight f).requestWrite c p).onRsc Rsc.kick) :=
    changesOnly_append (l := [.keu]) (onKeu_frame _ s) (changesOnly_mono (changesOnly_append (requestWrite_frame c p _)
      (onRsc_frame _ _)) (by decide))
  rw [State.judge]
  split_ifs with hi
  · exact ⟨_, rfl, rfl, writing_of_request _ _ s.rsc rfl, hframe _ _ _⟩
  · exact ⟨_, rfl, rfl, writing_of_request _ _ s.rsc rfl, hframe _ _ _⟩

/-- Settles O43: by the answer of the CTB, and for NO_MATCH by the threshold and the penalty. -/
theorem evaluationEndJudges : Obligations.EvaluationEndJudges := by
  intro a cls code s hwait hstore hf hrun hl hh hcore
  have hexec : exec .evaluationEnd s = finish (s.judge a) := by
    change execEvaluationEnd s = _
    simp only [execEvaluationEnd, hf]
  rw [hexec]
  cases a with
  | some i => exact judge_match i s
  | none =>
    have hjudge : s.judge none = s.failAttemptOfEntry false := rfl
    have hfree : ∀ g ∈ s.plu.inflight, g.requester ≠ some .p := hwait.staged_free (by rw [hf]; rfl)
    rw [hjudge, failAttemptOfEntry_rejected hl hh]
    by_cases hw : s.atl.limiter.fails = s.plu.policy.wipeThreshold
    · have hslot := (startWipe_slot_of_free (l := .p) .threshold hfree).trans hrun
      have hframe := changesOnly_append (startWipe_frame .threshold s)
        (answerAttempt_frame (.rejected 0 0) (s.startWipe .threshold))
      simp only [if_pos hw]
      refine ⟨_, rfl, State.answerAttempt_digits _ _, State.answerAttempt_flight _ _, hframe .ctb (by decide),
        hframe .kru (by decide), State.answerAttempt_rejected 0 0 hslot, ?_, ?_, ?_⟩
      · rw [State.onRsc_acc, State.answerAttempt_acc, startWipe_acc_of_locked _ hl]
      · rw [State.onRsc_atl, State.answerAttempt_atl, startWipe_limiter]
      · rw [State.onRsc_atl, State.answerAttempt_atl, startWipe_atl _ (by rw [hl]; decide) (by rw [hl]; decide)]
    · simp only [if_neg hw]
      by_cases hn : s.plu.policy.penaltyTicks s.atl.limiter.fails = 0
      · have hframe := answerAttempt_frame (.rejected s.attemptsLeft 0) s
        simp only [if_pos hn]
        exact ⟨_, finish_of_served hstore hframe (by decide), State.answerAttempt_digits _ _,
          State.answerAttempt_flight _ _, hframe .ctb (by decide), hframe .kru (by decide),
          State.answerAttempt_rejected _ 0 hrun, hframe⟩
      · let n := s.plu.policy.penaltyTicks s.atl.limiter.fails
        have hpenalized := penalized_frame n s
        have hframe : State.changesOnly [.keu, .liu, .acc, .atl] s
            ((s.penalized n).answerAttempt (.rejected s.attemptsLeft (n / 8))) :=
          changesOnly_mono (changesOnly_append hpenalized (answerAttempt_frame _ _)) (by decide)
        simp only [if_neg hn]
        refine ⟨_, finish_of_served hstore hframe (by decide), State.answerAttempt_digits _ _,
          State.answerAttempt_flight _ _, hframe .ctb (by decide), hframe .kru (by decide),
          State.answerAttempt_rejected _ _ ((congrArg LinkPort.slot (samePorts_penalized n s).1).trans hrun), ?_, ?_, ?_,
          hframe⟩
        · rw [State.answerAttempt_acc, State.penalized_acc _ hl]
        · rw [State.answerAttempt_atl, State.penalized_atl _ hl]
        · rw [State.answerAttempt_pq]
          exact State.penalized_posts _ hcore

end Sys2Proof.Machine
end

