-- ==== Sys2Proof/Proofs/PenaltyServed.lean ====
section
/-! The expiry of a penalty and the end of its served write (R55, R159). -/

namespace Sys2Proof.Machine

/-! ## Powering the core domain (R159) -/

section
variable (m : SupplyMode) (s : State)

/-- A block that powering the core domain takes from its initialisation: the KEU begins its own dialogue, and the sleep
timer starts, after that. -/
theorem powerCore_agrees : State.changesOnly [.keu, .ssv]
    ((s.onSsv fun v => { v with mode := m }).coreInit (bridgeBy (m == .bus))) (s.powerCore m) :=
  changesOnly_ite (fun _ => changesOnly_append (l := [.keu]) (autoDialogue_frame _) (onSsv_frame _ _)) fun _ =>
    changesOnly_mono (autoDialogue_frame _) (by decide)

theorem powerCore_frame : State.changesOnly [.rsc, .keu, .acc, .wpe, .plu, .ssv, .liu] s (s.powerCore m) := by
  have hinit : State.changesOnly [.rsc, .keu, .acc, .wpe, .plu, .ssv, .liu] s
      ((s.onSsv fun v => { v with mode := m }).coreInit (bridgeBy (m == .bus))) := by
    unfold State.coreInit
    exact changesOnly_mono (changesOnly_append (onSsv_frame _ s) <| changesOnly_append (onRsc_frame _ _) <|
      changesOnly_append (onKeu_frame _ _) <| changesOnly_append (onAcc_frame _ _) <|
      changesOnly_append (onWpe_frame _ _) <| changesOnly_append (onPlu_frame _ _) (onLiu_frame _ _)) (by decide)
  exact changesOnly_trans hinit (changesOnly_mono (powerCore_agrees m s) (by decide))

@[simp] theorem State.powerCore_rsc : (s.powerCore m).rsc = Rsc.init := powerCore_agrees m s .rsc (by decide)
@[simp] theorem State.powerCore_acc : (s.powerCore m).acc = s.acc.coreLost := powerCore_agrees m s .acc (by decide)
@[simp] theorem State.powerCore_wpe : (s.powerCore m).wpe = s.wpe.coreLost := powerCore_agrees m s .wpe (by decide)
@[simp] theorem State.powerCore_plu : (s.powerCore m).plu = { s.plu with inflight := [] } :=
  powerCore_agrees m s .plu (by decide)
@[simp] theorem State.powerCore_liu : (s.powerCore m).liu = Liu.init (bridgeBy (m == .bus)) :=
  powerCore_agrees m s .liu (by decide)

@[simp] theorem State.powerCore_ssv : (s.powerCore m).ssv =
    { s.ssv with mode := m, sleepTimer := if m = .cellAwake then some 160 else s.ssv.sleepTimer } := by
  let v := (s.onSsv fun v => { v with mode := m }).coreInit (bridgeBy (m == .bus))
  have hv : v.autoDialogue.ssv = v.ssv := autoDialogue_frame v .ssv (by decide)
  show (if m = .cellAwake then v.autoDialogue.startSleepTimer else v.autoDialogue).ssv = _
  split_ifs
  · rw [State.startSleepTimer, State.onSsv_ssv, hv]
    rfl
  · exact hv

end

/-! ## Waking with the drive shut (R159) -/

/-- Neither open nor being wiped: a level does nothing in such a state (R66, R104). -/
def Access.AtRest (a : Access) : Prop := a = .locked ∨ a = .penalty ∨ a = .blank ∨ a = .halted

theorem forced_of_atRest {s : State} (h : s.acc.access.AtRest) : s.forced = s := by
  unfold State.forced
  rcases h with h | h | h | h <;> rw [h]

theorem wakeLevel_frame_of_atRest {s : State} (h : s.acc.access.AtRest) : State.changesOnly [.liu] s s.wakeLevel := by
  unfold State.wakeLevel
  extract_lets t
  have ht : State.changesOnly [.liu] s t := changesOnly_ite (fun _ => changesOnly_refl _ s) fun _ => postP_frame _ s
  have hacc : t.acc = s.acc := ht .acc (by decide)
  have hraise : t.raise .cellCrit .forced = t := forced_of_atRest (hacc ▸ h)
  rwa [hraise, ite_self]

/-- After the core domain is powered, waking posts what the master has to know, and no more. -/
theorem wake_frame_of_atRest (m : SupplyMode) {s : State} (h : s.acc.access.AtRest) :
    State.changesOnly [.liu] (s.powerCore m) (s.wake m) := by
  obtain ⟨-, haccess, -⟩ := powerCore_before m s
  unfold State.wake
  extract_lets t u
  have ht : State.changesOnly [.liu] (s.powerCore m) t := postAccessChanged_frame _
  have hrest : t.acc.access.AtRest := by rwa [show t.acc = _ from ht .acc (by decide), haccess]
  have hwiping : t.acc.access ≠ .wiping := by rcases hrest with h | h | h | h <;> simp [h]
  have hu : u = t := if_neg hwiping
  have hlevel := wakeLevel_frame_of_atRest hrest
  have hproceed : t.wakeLevel.proceed = t.wakeLevel :=
    if_pos (.inl (by rwa [show t.wakeLevel.acc = t.acc from hlevel .acc (by decide)]))
  rw [hu, hproceed]
  exact changesOnly_trans ht hlevel

/-! ## The served write -/

/-- The expiry asks for the served write, waking a sleeping part first. -/
theorem exec_penaltyExpiry {s : State} (h : s.atl.penalty = some 0) :
    exec .penaltyExpiry s = finish
      ((if s.ssv.mode = .cellSleep then s.stopPenalty.wake .cellAwake else s.stopPenalty).requestServed) := by
  change execPenaltyExpiry s = _
  simp only [execPenaltyExpiry, h]
  rfl

/-- A part that sleeps through its penalty wakes for the served write, still in PENALTY. -/
theorem penaltyExpiry_wakes {s : State} (ha : s.acc.access = .penalty) :
    (s.stopPenalty.wake .cellAwake).ssv.mode = .cellAwake ∧ (s.stopPenalty.wake .cellAwake).acc.access = .penalty ∧
      (s.stopPenalty.wake .cellAwake).atl = { s.atl with penalty := none, phase := false } := by
  have hwake := wake_frame_of_atRest (s := s.stopPenalty) .cellAwake (.inr (.inl ha))
  refine ⟨?_, ?_, ?_⟩
  · rw [show (s.stopPenalty.wake .cellAwake).ssv = _ from hwake .ssv (by decide), State.powerCore_ssv]
  · rw [show (s.stopPenalty.wake .cellAwake).acc = _ from hwake .acc (by decide), State.powerCore_acc]
    exact ha
  · exact (hwake .atl (by decide)).trans (powerCore_frame .cellAwake s.stopPenalty .atl (by decide))

/-- The served write's end in PENALTY enters LOCKED, with no penalty remaining (R55, R61). -/
theorem servedDone_enters {r : Limiter} {s : State} (ha : s.acc.access = .penalty) (hcore : s.corePowered = true) :
    (s.servedDone r).acc = { s.acc with access := .locked, openSlot := none } ∧
      (s.servedDone r).atl = { s.atl with limiter := r } ∧ (s.servedDone r).store = s.store ∧
      (s.servedDone r).liu.pq.penaltyChanged = some (0, (s.servedDone r).plu.policy.wipeThreshold - r.fails) := by
  let u := (s.setLimiter r).enterLocked
  have hserved : s.servedDone r = u.postP (.penaltyChanged 0 u.attemptsLeft) := if_pos ha
  have hu := enterLocked_frame (s.setLimiter r)
  have hpost := postP_frame (.penaltyChanged 0 u.attemptsLeft) u
  have hatl : u.atl = { s.atl with limiter := r } := hu .atl (by decide)
  have hcore' : u.corePowered = true :=
    (State.corePowered_congr (hu .pins (by decide)) (hu .ssv (by decide))).trans hcore
  rw [hserved]
  refine ⟨(hpost .acc (by decide)).trans (State.enterLocked_acc _), (hpost .atl (by decide)).trans hatl,
    (hpost .store (by decide)).trans (hu .store (by decide)), ?_⟩
  rw [show (u.postP _).plu = u.plu from hpost .plu (by decide), State.postP_eq_onLiu, hcore', State.attemptsLeft, hatl]
  rfl

/-- The request of the served write, in a part that is awake. -/
theorem requestServed_asks {a : Atl} {s : State} (hmode : s.ssv.mode = .cellAwake)
    (haccess : s.acc.access = .penalty) (hatl : s.atl = a) :
    (s.requestServed.onRsc Rsc.kick).ssv.mode = .cellAwake ∧ (s.requestServed.onRsc Rsc.kick).acc.access = .penalty ∧
      (s.requestServed.onRsc Rsc.kick).atl = a ∧
      (s.requestServed.onRsc Rsc.kick).writing (.limiter { fails := a.limiter.fails, served := true }) .served := by
  refine ⟨hmode, haccess, hatl, writing_of_request _ _ s.rsc ?_⟩
  rw [State.requestServed, hatl]
  rfl

/-- Settles O50: the expiry by the supply mode, and the served write's end in PENALTY. -/
theorem penaltyIsServed : Obligations.PenaltyIsServed := by
  intro r n s
  refine ⟨fun hdue => ?_, fun ha hcore hw => ?_⟩
  · rw [exec_penaltyExpiry hdue]
    by_cases hm : s.ssv.mode = .cellSleep
    · simp only [if_pos hm]
      refine ⟨_, rfl, fun ⟨_, ha⟩ => ?_⟩
      obtain ⟨hmode, haccess, hatl⟩ := penaltyExpiry_wakes ha
      exact requestServed_asks hmode haccess hatl
    · simp only [if_neg hm]
      let e : WriteEntry := { contents := .limiter { s.atl.limiter with served := true }, purpose := .served }
      exact ⟨_, rfl, congrArg (fun r => { s.stopPenalty with rsc := r }) (Rsc.kick_request e s.rsc)⟩
  · rw [exec_passed hw]
    obtain ⟨hacc, hatl, hstore, hposted⟩ := servedDone_enters
      (s := s.passed { contents := .limiter r, purpose := .served }) ha hcore
    refine ⟨_, rfl, hacc, hatl, ?_, hposted⟩
    exact (congrArg (fun a => a.limiter.read) hstore).trans (Location.read_complete r s.store.limiter)

end Sys2Proof.Machine
end

