-- ==== Sys2Proof/Proofs/WipeGoesOn.lean ====
section
/-! A wipe that goes on from a position: what the WPE does there, what its run condition becomes, and what is reported
(R104, R106 to R111, R117, R118). -/

namespace Sys2Proof.Machine

/-! ## The P-link's events -/

section
variable (s : State)

@[simp] theorem State.postB_pq (e : Event) : (s.postB e).liu.pq = s.liu.pq := by
  unfold State.postB
  split <;> rfl

@[simp] theorem State.answer_pq (l : Link) (mk : Byte → Result) : (s.answer l mk).liu.pq = s.liu.pq :=
  Liu.onPort_pq _ _ _

@[simp] theorem State.refuseTo_pq (o : Option Link) (r : Reason) : (s.refuseTo o r).liu.pq = s.liu.pq := by
  cases o with
  | none => rfl
  | some l => exact s.answer_pq l _

/-- A block of frames that does not hold the LIU leaves the events. -/
theorem samePq_of_frame {l : List Block} {t : State} (h : State.changesOnly l s t) (hl : Block.liu ∉ l := by decide) :
    t.liu.pq = s.liu.pq := congrArg Liu.pq (h .liu hl)

@[simp] theorem State.answerSuperseded_pq (i : SlotIx) : (s.answerSuperseded i).liu.pq = s.liu.pq := by
  unfold State.answerSuperseded
  split
  · exact s.refuseTo_pq _ _
  · exact (s.landEnrolment.answer_pq .p _).trans (samePq_of_frame s (landEnrolment_frame s))
  · rfl

/-- A destroy posts nothing. -/
@[simp] theorem State.destroy_pq (d : Destroy) : (s.destroy d).liu.pq = s.liu.pq := by
  cases d with
  | volume i => exact samePq_of_frame s (destroyVolume_frame i s)
  | slot i => exact s.answerSuperseded_pq i

/-- An order formed is posted to the bridge alone. -/
@[simp] theorem State.formOrder_pq (w : WipeRecord) : (s.formOrder w).liu.pq = s.liu.pq := by
  unfold State.formOrder
  split
  · rfl
  · split
    · exact apply_ite (fun t : State => t.liu.pq) _ _ _ |>.trans <| by
        split
        · exact State.postB_pq _ _
        · rfl
    · rfl

end

/-! ## The next action of a wipe -/

/-- A destroy acts at once and asks for its write, whatever else is written (R107). -/
theorem destroy_acts (d : Destroy) (s : State) : s.destroys d ((s.destroy d).onRsc Rsc.kick) := by
  cases d with
  | volume i => exact (destroyVolume_destroyed i s).acts
  | slot i =>
    have hctb : (s.answerSuperseded i).ctb = s.ctb := answerSuperseded_frame i s .ctb (by decide)
    refine ⟨?_, writing_of_request _ _ (s.answerSuperseded i).rsc rfl⟩
    exact State.setCell_cell_same i _ (s.answerSuperseded i)

/-- The wipe stands at its recorded position, reported up to date, with nothing of it being written and no bridge
attached, and is not paused. -/
structure State.Resumes (w : WipeRecord) (s : State) : Prop where
  wiping : s.acc.access = .wiping
  core : s.corePowered = true
  free : s.wipeBusy = false
  journal : s.wpe.journal = some w
  run : s.wpe.run = s.runCondition
  going : s.pauseHolds = false
  apart : s.liu.bridge ≠ .attached

theorem runCondition_paused_iff (s : State) : s.runCondition = .paused ↔ s.pauseHolds = true := by
  unfold State.runCondition
  split_ifs <;> simp_all

theorem runCondition_stalled_iff {s : State} (h : s.pauseHolds = false) :
    s.runCondition = .stalled ↔ s.wpe.position = .stalled := by
  unfold State.runCondition
  split_ifs <;> simp_all

section
variable {w : WipeRecord} {s : State} (h : s.Resumes w)
include h

theorem State.Resumes.not_paused : s.wpe.run ≠ .paused := by
  rw [h.run, Ne, runCondition_paused_iff, h.going]
  decide

/-- The WPE acts unless the wipe has stalled. -/
theorem State.Resumes.acts (hp : s.wpe.position ≠ .stalled) :
    ¬ (s.acc.access ≠ .wiping ∨ !s.corePowered ∨ s.wipeBusy ∨ s.wpe.run = .paused ∨ s.wpe.run = .stalled) := by
  have hstalled : s.wpe.run ≠ .stalled := by rwa [h.run, Ne, runCondition_stalled_iff h.going]
  simp [h.wiping, h.core, h.free, h.not_paused, hstalled]

theorem State.Resumes.proceed_stalled (hp : s.wpe.position = .stalled) : s.proceed = s := by
  have hstalled : s.wpe.run = .stalled := by rwa [h.run, runCondition_stalled_iff h.going]
  exact if_pos (.inr (.inr (.inr (.inr hstalled))))

/-- With no bridge attached no order is formed (R111). -/
theorem State.Resumes.formOrder_apart :
    s.formOrder w = if w.current = none then s.boundaryWrite w .rekey else s := by
  unfold State.formOrder
  cases w.current with
  | none => rfl
  | some c =>
    have hb := h.apart
    cases hbridge : s.liu.bridge <;> simp_all

/-- While a cursor is unfinished in MEDIA the wipe waits for a bridge (R118). -/
theorem State.Resumes.waits (hp : s.wpe.position = .media) (hw : w.step = .media) (hc : w.current ≠ none) :
    s.wpe.run = .waitingBridge := by
  have hunfinished : w.unfinished = true := by
    obtain ⟨c, hfound⟩ := Option.ne_none_iff_exists'.mp hc
    exact List.any_eq_true.mpr ⟨c, List.mem_of_find?_eq_some hfound,
      List.find?_some (p := fun d : Cursor => !d.finished) hfound⟩
  have hmedia : s.mediaWaits = true := by
    simp [State.mediaWaits, Wpe.view, h.journal, hw, hunfinished, h.apart]
  rw [h.run, State.runCondition, h.going, hp, hmedia]
  rfl

end

theorem WipeRecord.current_eq (w : WipeRecord) :
    w.current = w.cursors.find? fun d => d.next ≠ d.first + d.count := by
  refine congrArg (fun p => List.find? p _) (funext fun d => ?_)
  simp [Cursor.finished, beq_eq_decide]

/-! ## What the action leaves of the wipe's items and of its report -/

/-- The wipe's items stay but for its position and order, and nothing is posted to the panel. -/
structure State.KeepsWipe (s t : State) : Prop where
  items : t.wpe = { s.wpe with position := t.wpe.position, order := t.wpe.order }
  events : t.liu.pq = s.liu.pq

theorem State.KeepsWipe.of_same {s t : State} (hw : t.wpe = s.wpe) (hq : t.liu.pq = s.liu.pq) : s.KeepsWipe t :=
  ⟨by rw [hw], hq⟩

/-- A pass that fails for the third time stalls the wipe (R107). -/
def State.stalls (s : State) : State := (s.atPosition .stalled).refreshRun

theorem passEnded_cases (w : WipeRecord) (pass : Nat) (faulted : Bool) (s : State) :
    s.KeepsWipe (s.passEnded w pass faulted) ∨ s.passEnded w pass faulted = s.stalls := by
  unfold State.passEnded
  split_ifs
  · exact .inl (.of_same rfl rfl)
  · have hwpe := destroy_frame (.volume 0) (s.atPosition (.keys 0 (pass + 1) false)) .wpe (by decide)
    refine .inl ⟨?_, State.destroy_pq _ _⟩
    show State.wpe (State.destroy _ (s.atPosition _)) = _
    rw [show ((s.atPosition (.keys 0 (pass + 1) false)).destroy (.volume 0)).wpe = _ from hwpe]
    rfl
  · exact .inr rfl

theorem rekeyNext_keeps (w : WipeRecord) (k : Nat) (s : State) : s.KeepsWipe (s.rekeyNext w k) := by
  refine ⟨?_, samePq_of_frame s (rekeyNext_frame w k s)⟩
  unfold State.rekeyNext State.rekeyOne
  split
  · split <;> rfl
  · rfl

theorem formOrder_keeps (w : WipeRecord) (s : State) : s.KeepsWipe (s.formOrder w) := by
  refine ⟨?_, s.formOrder_pq w⟩
  unfold State.formOrder
  split
  · rfl
  · split
    · split
      · rw [State.postEraseWork, postB_frame _ _ .wpe (by decide)]
        rfl
      · rfl
    · rfl

/-- The next action keeps the wipe's items and posts nothing, or the wipe stalls. -/
theorem proceed_cases (s : State) : s.KeepsWipe s.proceed ∨ s.proceed = s.stalls := by
  unfold State.proceed
  split_ifs with hidle
  · exact .inl (.of_same rfl rfl)
  split
  · exact .inl (.of_same rfl rfl)
  · split
    · exact .inl (.of_same rfl rfl)
    · exact .inl (.of_same rfl rfl)
    · exact .inl (.of_same rfl rfl)
    · split
      · exact .inl (.of_same (destroy_frame _ s .wpe (by decide)) (s.destroy_pq _))
      · exact passEnded_cases _ _ _ s
    · exact .inl (.of_same rfl rfl)
    · exact .inl (.of_same rfl rfl)
    · exact .inl (formOrder_keeps _ s)
    · exact .inl (rekeyNext_keeps _ _ s)

theorem postWipeState_reports {w : WipeRecord} {s : State} (hcore : s.corePowered = true)
    (hj : s.wpe.journal = some w) : s.postWipeState.reportsWipe w := by
  have hreport : s.wipeReport = some
      { cause := w.cause, depth := w.depth, step := w.step, run := s.wpe.run, progress := w.progress } := by
    rw [State.wipeReport, Wpe.view, hj]
    rfl
  rw [State.postWipeState, hreport]
  dsimp only
  rw [State.postP, if_pos hcore]
  rfl

/-- A wipe that is reported stays so as its run condition is brought up to date. -/
theorem refreshRun_reports {w : WipeRecord} {s : State} (hcore : s.corePowered = true) (hj : s.wpe.journal = some w)
    (hr : s.reportsWipe w) : s.refreshRun.reportsWipe w := by
  unfold State.refreshRun
  split_ifs
  · exact postWipeState_reports hcore hj
  · exact hr

section
variable {w : WipeRecord} {s : State} (h : s.Resumes w)
include h

theorem State.Resumes.stalls_run : s.stalls.wpe.run = .stalled := by
  have hwiping : (s.atPosition .stalled).acc.access = .wiping := h.wiping
  rw [State.stalls, refreshRun_wpe hwiping]
  exact (runCondition_stalled_iff (s := s.atPosition .stalled) h.going).mpr rfl

theorem State.Resumes.proceed_not_paused : s.proceed.wpe.run ≠ .paused := by
  rcases proceed_cases s with hkeeps | hstalls
  · rw [congrArg Wpe.run hkeeps.items]
    exact h.not_paused
  · rw [hstalls, h.stalls_run]
    decide

/-- The report stands, or is renewed as the wipe stalls. -/
theorem State.Resumes.proceed_reports (hr : s.reportsWipe w) : s.proceed.reportsWipe w := by
  rcases proceed_cases s with hkeeps | hstalls
  · rw [State.reportsWipe, hkeeps.events, congrArg Wpe.run hkeeps.items]
    exact hr
  · rw [hstalls]
    exact refreshRun_reports (s := s.atPosition .stalled) h.core h.journal hr

/-- In KEYS the destroy that is due acts, or what follows the last one of a pass (R107). -/
theorem State.Resumes.carriesOn_keys {k pass : Nat} {faulted : Bool} (hp : s.wpe.position = .keys k pass faulted) :
    s.carriesOn w (.keys k pass faulted) (s.proceed.onRsc Rsc.kick) := by
  have hproceed : s.proceed = s.keysNext w k pass faulted := by
    rw [State.proceed, if_neg (h.acts (by rw [hp]; simp))]
    simp only [h.journal, hp, destroyList_eq]
    rfl
  rw [hproceed]
  unfold State.carriesOn State.keysNext
  dsimp only
  cases (keysOrder w.keepAdmin)[k]? with
  | some d =>
    refine ⟨?_, destroy_acts d s⟩
    rw [State.onRsc_wpe, destroy_frame d s .wpe (by decide), hp]
  | none =>
    unfold State.passEnded
    cases faulted with
    | false => exact writing_of_request _ _ s.rsc rfl
    | true =>
      simp only [Bool.true_eq_false, Bool.not_true, Bool.false_eq_true, if_false]
      by_cases hpass : pass < 3
      · simp only [if_pos hpass]
        refine ⟨?_, destroy_acts (.volume 0) (s.atPosition (.keys 0 (pass + 1) false))⟩
        rw [State.onRsc_wpe, destroy_frame (.volume 0) _ .wpe (by decide)]
        rfl
      · simp only [if_neg hpass]
        exact ⟨congrArg Wpe.position (refreshRun_wpe (s := s.atPosition .stalled) h.wiping), h.stalls_run⟩

/-- In MEDIA the next step is recorded, or the wipe waits for a bridge (R111, R118). -/
theorem State.Resumes.carriesOn_media (hp : s.wpe.position = .media) :
    s.carriesOn w .media (s.proceed.onRsc Rsc.kick) := by
  have hproceed : s.proceed = s.formOrder w := by
    rw [State.proceed, if_neg (h.acts (by rw [hp]; simp))]
    simp only [h.journal, hp]
  rw [hproceed, h.formOrder_apart]
  unfold State.carriesOn
  dsimp only
  rw [← WipeRecord.current_eq]
  cases hc : w.current with
  | none => exact writing_of_request _ _ s.rsc rfl
  | some c =>
    intro hw horder
    exact ⟨h.waits hp hw (by rw [hc]; simp), horder⟩

/-- What the WPE does next is what is due at its position (R106 to R111). -/
theorem State.Resumes.carriesOn : s.carriesOn w s.wpe.position (s.proceed.onRsc Rsc.kick) := by
  cases hp : s.wpe.position with
  | idle => trivial
  | starting => trivial
  | stalled =>
    rw [h.proceed_stalled hp]
    exact ⟨hp, h.run.trans ((runCondition_stalled_iff h.going).mpr hp)⟩
  | keys k pass faulted => exact h.carriesOn_keys hp
  | media => exact h.carriesOn_media hp
  | limiter done =>
    have hproceed : s.proceed = if done = true then s.boundaryWrite w w.afterLimiter
        else s.stopPenalty.requestWrite (.limiter { fails := 0, served := true }) .reset := by
      rw [State.proceed, if_neg (h.acts (by rw [hp]; simp))]
      simp only [h.journal, hp]
      cases done <;> rfl
    rw [hproceed]
    cases done with
    | false => exact ⟨rfl, writing_of_request _ _ s.rsc rfl⟩
    | true => exact writing_of_request _ _ s.rsc rfl
  | rekey k =>
    have hproceed : s.proceed = s.rekeyNext w k := by
      rw [State.proceed, if_neg (h.acts (by rw [hp]; simp))]
      simp only [h.journal, hp]
    rw [hproceed]
    exact rekeyNext_rekeys w k rfl

end

/-- What is due depends on the volumes, the slots, the Limiter Record and the order alone. -/
theorem carriesOn_congr {w : WipeRecord} {p : Position} {s u t : State} (hk : u.kru = s.kru) (hc : u.ctb = s.ctb)
    (ha : u.atl.limiter = s.atl.limiter) (ho : s.wpe.order = none → u.wpe.order = none) (h : u.carriesOn w p t) :
    s.carriesOn w p t := by
  have hdestroys {d : Destroy} (hd : u.destroys d t) : s.destroys d t :=
    State.destroys_congr (fun v _ => congrArg (fun k => k.volumes.get v) hk)
      (fun i _ => congrArg (fun c => c.slots.get i) hc) hd
  cases p with
  | idle => trivial
  | starting => trivial
  | stalled => exact h
  | keys k pass faulted =>
    simp only [State.carriesOn] at h ⊢
    cases hd : (keysOrder w.keepAdmin)[k]? with
    | some d =>
      simp only [hd] at h ⊢
      exact ⟨h.1, hdestroys h.2⟩
    | none =>
      simp only [hd] at h ⊢
      split_ifs at h ⊢
      · exact h
      · exact ⟨h.1, hdestroys h.2⟩
      · exact h
  | limiter done =>
    cases done with
    | false =>
      simp only [State.carriesOn, ha] at h ⊢
      exact h
    | true => exact h
  | media =>
    simp only [State.carriesOn] at h ⊢
    split at h
    · exact h
    · exact fun hw horder => h hw (ho horder)
  | rekey k => exact rekeysFrom_congr hk h

end Sys2Proof.Machine
end

