-- ==== Sys2Proof/Proofs/ReportsKept.lean ====
section
/-! What changes of the access state, applications and wipes leave of the reports of the level and the timebase, and of
the bridge link state (R60, R118, R148, R161). -/

namespace Sys2Proof.Machine

/-- The reports of the level and the timebase that wait on the P-link, and the bridge link state, stay. -/
structure State.KeepsReports (s t : State) : Prop where
  level : t.liu.pq.cellLevel = s.liu.pq.cellLevel
  timebase : t.liu.pq.timebaseChanged = s.liu.pq.timebaseChanged
  bridge : t.liu.bridge = s.liu.bridge

namespace State.KeepsReports

theorem refl (s : State) : s.KeepsReports s := ⟨rfl, rfl, rfl⟩

theorem trans {s t u : State} (h : s.KeepsReports t) (k : t.KeepsReports u) : s.KeepsReports u :=
  ⟨k.level.trans h.level, k.timebase.trans h.timebase, k.bridge.trans h.bridge⟩

/-- A step taken from a state that keeps them. -/
theorem after {s t u : State} (k : t.KeepsReports u) (h : s.KeepsReports t) : s.KeepsReports u := h.trans k

theorem of_frame {l : List Block} {s t : State} (h : State.changesOnly l s t) (hl : Block.liu ∉ l := by decide) :
    s.KeepsReports t :=
  have hliu := h .liu hl
  ⟨by rw [hliu], by rw [hliu], by rw [hliu]⟩

theorem ite {s t u : State} {c : Prop} [Decidable c] (ht : c → s.KeepsReports t) (hu : ¬ c → s.KeepsReports u) :
    s.KeepsReports (if c then t else u) := by
  split
  · exact ht ‹_›
  · exact hu ‹_›

end State.KeepsReports

section
variable (s : State)

theorem keepsReports_postB (e : Event) : s.KeepsReports (s.postB e) :=
  .ite (fun _ => ⟨rfl, rfl, rfl⟩) fun _ => .refl s

theorem keepsReports_postAccessChanged : s.KeepsReports s.postAccessChanged :=
  (keepsReports_postB (s.postP _) _).after (.ite (fun _ => ⟨rfl, rfl, rfl⟩) fun _ => .refl s)

theorem keepsReports_postWipeState : s.KeepsReports s.postWipeState := by
  unfold State.postWipeState
  split
  · exact .ite (fun _ => ⟨rfl, rfl, rfl⟩) fun _ => .refl s
  · exact .refl s

theorem keepsReports_postPenaltyChanged : s.KeepsReports s.postPenaltyChanged :=
  .ite (fun _ => ⟨rfl, rfl, rfl⟩) fun _ => .refl s

theorem keepsReports_answer (l : Link) (mk : Byte → Result) : s.KeepsReports (s.answer l mk) := by
  cases l <;> exact ⟨rfl, rfl, rfl⟩

theorem keepsReports_refuseTo (o : Option Link) (r : Reason) : s.KeepsReports (s.refuseTo o r) := by
  cases o with
  | none => exact .refl s
  | some l => exact keepsReports_answer s l _

theorem keepsReports_changeAccess (a : Access) (o : Option SlotIx) : s.KeepsReports (s.changeAccess a o) :=
  State.KeepsReports.trans (.of_frame (changesOnly_append (onAcc_frame _ s) (interruptEntry_frame _)))
    (keepsReports_postAccessChanged _)

theorem keepsReports_revokeKeys : s.KeepsReports s.revokeKeys :=
  .ite (fun _ => keepsReports_postB s _) fun _ => .refl s

theorem keepsReports_closeOpen : s.KeepsReports s.closeOpen :=
  (keepsReports_revokeKeys _).after ⟨rfl, rfl, rfl⟩

theorem keepsReports_tellGate (o : Bool) : s.KeepsReports (s.tellGate o) := .of_frame (tellGate_frame o s)

theorem keepsReports_conditionChanged (o : Bool) : s.KeepsReports (s.conditionChanged o) :=
  (keepsReports_postAccessChanged s).trans (keepsReports_tellGate _ o)

/-! ## The application of the Pending Set -/

theorem keepsReports_setMap (m : LockMap) : s.KeepsReports (s.setMap m) := by
  unfold State.setMap
  extract_lets t u
  have ht : s.KeepsReports t := ⟨rfl, rfl, rfl⟩
  have hu : s.KeepsReports u := .ite (fun _ => ht) fun _ => ht.trans (keepsReports_postAccessChanged t)
  exact hu.trans (keepsReports_tellGate u _)

theorem keepsReports_applyMap : s.KeepsReports s.applyMap.1 := by
  unfold State.applyMap
  dsimp only
  split
  · exact .refl s
  · split
    · exact .refl s
    · exact (keepsReports_setMap s _).trans (.of_frame (requestWrite_frame _ _ _))

theorem keepsReports_applyPendingSet : s.KeepsReports s.applyPendingSet :=
  (State.KeepsReports.of_frame (applyPolicy_frame s)).trans <| (keepsReports_applyMap _).trans <|
    (State.KeepsReports.of_frame (applyVolumes_frame _)).trans
      (.of_frame (changesOnly_append (onPlu_frame _ _) (settle_frame _)))

theorem keepsReports_enterLocked : s.KeepsReports s.enterLocked :=
  (keepsReports_applyPendingSet s).trans (keepsReports_changeAccess _ _ _)

theorem keepsReports_forced : s.KeepsReports s.forced := by
  have hlock : s.KeepsReports s.completeLock := (keepsReports_closeOpen s).trans (keepsReports_enterLocked _)
  have hend : s.KeepsReports s.endConfig := (keepsReports_enterLocked s.leaveConfig).after ⟨rfl, rfl, rfl⟩
  unfold State.forced
  split
  case h_1 => exact hlock
  case h_2 => exact hlock
  case h_3 => exact hend
  all_goals exact .refl s

/-! ## Wipes and HALTED -/

theorem keepsReports_refreshRun : s.KeepsReports s.refreshRun :=
  .ite (fun _ => (keepsReports_postWipeState _).after ⟨rfl, rfl, rfl⟩) fun _ => .refl s

theorem keepsReports_destroy (d : Destroy) : s.KeepsReports (s.destroy d) := by
  cases d with
  | volume i => exact .of_frame (destroyVolume_frame i s)
  | slot i =>
    have hanswer : s.KeepsReports (s.answerSuperseded i) := by
      unfold State.answerSuperseded
      split
      · exact keepsReports_refuseTo s _ _
      · exact (State.KeepsReports.of_frame (landEnrolment_frame s)).trans (keepsReports_answer _ _ _)
      · exact .refl s
    exact hanswer.trans (.of_frame (changesOnly_append (setCell_frame _ _ _) (requestWrite_frame _ _ _)))

theorem keepsReports_passEnded (w : WipeRecord) (pass : Nat) (faulted : Bool) :
    s.KeepsReports (s.passEnded w pass faulted) := by
  refine .ite (fun _ => .of_frame (requestWrite_frame _ _ s)) fun _ => .ite (fun _ => ?_) fun _ => ?_
  · exact (State.KeepsReports.of_frame (onWpe_frame _ s)).trans (keepsReports_destroy _ _)
  · exact (State.KeepsReports.of_frame (onWpe_frame _ s)).trans (keepsReports_refreshRun _)

theorem keepsReports_formOrder (w : WipeRecord) : s.KeepsReports (s.formOrder w) := by
  unfold State.formOrder
  split
  · exact .of_frame (requestWrite_frame _ _ s)
  · split
    · exact .ite (fun _ => (keepsReports_postB _ _).after ⟨rfl, rfl, rfl⟩) fun _ =>
        .of_frame (requestWrite_frame _ _ s)
    · exact .refl s

theorem keepsReports_proceed : s.KeepsReports s.proceed := by
  refine .ite (fun _ => .refl s) fun _ => ?_
  split
  · exact .refl s
  · split
    · exact .refl s
    · exact .refl s
    · exact .refl s
    · split
      · exact keepsReports_destroy s _
      · exact keepsReports_passEnded s _ _ _
    · exact .of_frame (changesOnly_append (onAtl_frame _ s) (requestWrite_frame _ _ _))
    · exact .of_frame (requestWrite_frame _ _ s)
    · exact keepsReports_formOrder s _
    · exact .of_frame (rekeyNext_frame _ _ s)

theorem keepsReports_wpeTold : s.KeepsReports s.wpeTold :=
  (keepsReports_refreshRun s).trans (keepsReports_proceed _)

theorem keepsReports_discardPendingSet : s.KeepsReports s.discardPendingSet := by
  have hfold (gs : List Staging) (t : State) :
      t.KeepsReports (gs.foldl (fun w g => w.refuseTo g.requester .wiping) t) := by
    induction gs generalizing t with
    | nil => exact .refl t
    | cons g rest ih => exact (keepsReports_refuseTo t _ _).trans (ih _)
  unfold State.discardPendingSet
  extract_lets gs t u
  have hu : s.KeepsReports u := (hfold gs t).after ⟨rfl, rfl, rfl⟩
  exact .ite (fun _ => hu.trans (.of_frame (requestWrite_frame _ _ u))) fun _ => hu

theorem keepsReports_startWipe (c : WipeCause) : s.KeepsReports (s.startWipe c) := by
  have hquit : s.KeepsReports s.quitForWipe := by
    unfold State.quitForWipe
    split
    case h_1 => exact keepsReports_closeOpen s
    case h_2 => exact keepsReports_closeOpen s
    case h_3 => exact .of_frame (onAcc_frame _ s)
    all_goals exact .refl s
  have hstopped : s.KeepsReports s.quitForWipe.stopPenalty := hquit.trans (.of_frame (onAtl_frame _ _))
  have harmed (t : State) : t.KeepsReports (t.armWipe c) :=
    .of_frame (changesOnly_append (onWpe_frame _ t) (requestWrite_frame _ _ _))
  refine .ite (fun _ => .refl s) fun _ => ?_
  exact (((hstopped.trans (keepsReports_discardPendingSet _)).trans (harmed _)).trans
    (keepsReports_changeAccess _ _ _)).trans (.of_frame (onWpe_frame _ _))

theorem keepsReports_enterHalted : s.KeepsReports s.enterHalted := by
  unfold State.enterHalted
  extract_lets t u
  have ht : s.KeepsReports t := .of_frame (onAcc_frame _ s)
  have hcleared : t.KeepsReports (t.stopPenalty.onWpe fun _ => Wpe.init).withdrawLockPending := ⟨rfl, rfl, rfl⟩
  have hu : s.KeepsReports u := (ht.trans hcleared).trans (keepsReports_revokeKeys _)
  exact .ite (fun _ => .refl s) fun _ => hu.trans (keepsReports_changeAccess u _ _)

theorem keepsReports_resumeWipe (w : WipeRecord) : s.KeepsReports (s.resumeWipe w) := by
  unfold State.resumeWipe
  extract_lets _ t u v
  have hv : s.KeepsReports v :=
    ((State.KeepsReports.of_frame (onWpe_frame _ s)).trans (keepsReports_changeAccess t _ _)).trans
      (.of_frame (onWpe_frame _ u))
  exact (hv.trans (keepsReports_postWipeState v)).trans (keepsReports_proceed _)

end

end Sys2Proof.Machine
end

