-- ==== Sys2Proof/Proofs/TickSamples.lean ====
section
/-! A tick: the timers it counts, the sample it takes, and the level it adopts (R52, R144, R150, R159 to R161). -/

namespace Sys2Proof.Machine

/-! ## The timers (R52, R150) -/

theorem Timer.tick_eq_map (t : Timer) : t.tick = t.map (· - 1) := by
  cases t with
  | none => rfl
  | some n => cases n <;> rfl

theorem Atl.tick_eq (b : Timebase) (a : Atl) : a.tick b =
    if a.penalty.getD 0 = 0 then a
    else if b = .crystal then { a with penalty := a.penalty.map (· - 1) }
    else if a.phase then { a with penalty := a.penalty.map (· - 1), phase := false }
    else { a with phase := true } := by
  obtain ⟨l, p, phase⟩ := a
  rcases p with - | - | n
  · rfl
  · rfl
  · cases b <;> rfl

theorem takeTick_eq (mv : Nat) (s : State) : s.takeTick mv = s.ticked.sampleTick mv := by
  have htimers (t : State) : t.tickTimers = { t with
      keu := { t.keu with entryTimer := t.keu.entryTimer.map (· - 1) }
      acc := { t.acc with idleTimer := t.acc.idleTimer.map (· - 1), attachTimer := t.acc.attachTimer.map (· - 1),
                          deferTimer := t.acc.deferTimer.map (· - 1), configTimer := t.acc.configTimer.map (· - 1) }
      wpe := { t.wpe with orderTimer := t.wpe.orderTimer.map (· - 1) }
      ssv := { t.ssv with sleepTimer := t.ssv.sleepTimer.map (· - 1), caseTimer := t.ssv.caseTimer.map (· - 1) }
      liu := { t.liu with linkTimer := t.liu.linkTimer.map (· - 1) } } := by
    simp only [← Timer.tick_eq_map]
    rfl
  unfold State.takeTick
  dsimp only
  rw [htimers]
  exact congrArg (fun a => State.sampleTick mv { s.ticked with atl := a }) (Atl.tick_eq s.tbu.state s.atl)

/-! ## The sample (R160) -/

/-- The SSV as the filter meets it on a tick that samples. -/
def State.sampling (s : State) : Ssv :=
  { s.ticked.ssv with samplePhase := if s.ssv.mode = .cellSleep then 0 else s.ssv.samplePhase }

/-- The SSV after its filter has taken the candidate. -/
def State.filtered (mv : Nat) (s : State) : Ssv :=
  s.sampling.filter (candidate s.ssv.level (3400 + 50 * s.plu.policy.cellLowLevel) mv)

theorem sampleTick_of_sleep (mv : Nat) {s : State} (hf : s.plu.inForce.cellFitted = true) (hm : s.ssv.mode = .cellSleep) :
    s.sampleTick mv = if s.ssv.samplePhase < 7 then s.onSsv fun v => { v with samplePhase := v.samplePhase + 1 }
      else (s.onSsv fun v => { v with samplePhase := 0 }).sample mv := by
  simp only [State.sampleTick, hf, hm]
  rfl

theorem sampleTick_of_awake (mv : Nat) {s : State} (hf : s.plu.inForce.cellFitted = true)
    (hm : s.ssv.mode = .bus ∨ s.ssv.mode = .cellAwake) : s.sampleTick mv = s.sample mv := by
  rcases hm with hm | hm <;> simp only [State.sampleTick, hf, hm] <;> rfl

/-- With a cell fitted every tick samples, in CELL_SLEEP every eighth. -/
theorem sampleTick_ticked (mv : Nat) {s : State} (hon : s.ssv.mode ≠ .off) : s.ticked.sampleTick mv =
    if s.plu.inForce.cellFitted = false then s.ticked
    else if s.ssv.mode = .cellSleep ∧ s.ssv.samplePhase < 7 then
      { s.ticked with ssv := { s.ticked.ssv with samplePhase := s.ssv.samplePhase + 1 } }
    else { s.ticked with ssv := s.sampling }.sample mv := by
  by_cases hf : s.plu.inForce.cellFitted = true
  case neg =>
    have hunfitted : (!s.plu.inForce.cellFitted) = true := by simpa using hf
    exact (if_pos hunfitted).trans (if_pos (by simpa using hf)).symm
  rw [if_neg (by simp [hf])]
  by_cases hm : s.ssv.mode = .cellSleep
  · have hsampling : s.sampling = { s.ticked.ssv with samplePhase := 0 } := by rw [State.sampling, if_pos hm]
    rw [sampleTick_of_sleep mv (s := s.ticked) hf hm, hsampling]
    simp only [hm, true_and]
    rfl
  · have hawake : s.ssv.mode = .bus ∨ s.ssv.mode = .cellAwake := by cases h : s.ssv.mode <;> simp_all
    have hsampling : s.sampling = s.ticked.ssv := by rw [State.sampling, if_neg hm]; rfl
    rw [sampleTick_of_awake mv (s := s.ticked) hf hawake, if_neg (fun h => hm h.1), hsampling]

/-- What a tick does: nothing without power; otherwise it counts the timers and may sample. -/
theorem exec_tick (mv : Nat) (s : State) : exec (.tick mv) s = finish
    (if s.powered = false then s
     else if s.plu.inForce.cellFitted = false then s.ticked
     else if s.ssv.mode = .cellSleep ∧ s.ssv.samplePhase < 7 then
       { s.ticked with ssv := { s.ticked.ssv with samplePhase := s.ssv.samplePhase + 1 } }
     else { s.ticked with ssv := s.sampling }.sample mv) := by
  change finish (if s.powered then s.takeTick mv else s) = _
  by_cases hp : s.powered = true
  · have hon : s.ssv.mode ≠ .off := fun hm => by simp [State.powered, hm] at hp
    rw [if_pos hp, if_neg (by simp [hp]), takeTick_eq, sampleTick_ticked mv hon]
  · rw [if_neg hp, if_pos (by simpa using hp)]

/-- A sample whose filter adopts a level acts on it; otherwise the filter alone has changed. -/
theorem sample_eq (mv : Nat) (s : State) : { s.ticked with ssv := s.sampling }.sample mv =
    if 0 < (s.filtered mv).filterCount ∧ s.plu.policy.cellFilter ≤ (s.filtered mv).filterCount then
      (match (s.filtered mv).nearest with
       | some l => { s.ticked with ssv := s.filtered mv }.adoptLevel l
       | none => { s.ticked with ssv := s.filtered mv })
    else { s.ticked with ssv := s.filtered mv } := by
  have hsample : { s.ticked with ssv := s.sampling }.sample mv =
      (match (s.filtered mv).adopts s.plu.policy.cellFilter with
       | some l => { s.ticked with ssv := s.filtered mv }.adoptLevel l
       | none => { s.ticked with ssv := s.filtered mv }) := rfl
  rw [hsample]
  unfold Ssv.adopts
  split_ifs with h
  · rfl
  · rfl

/-! ## The filter (R160) -/

theorem filter_level (c : CellLevel) (v : Ssv) : (v.filter c).level = v.level := by
  unfold Ssv.filter
  repeat' split
  all_goals rfl

theorem filtered_mode (mv : Nat) (s : State) : (s.filtered mv).mode = s.ssv.mode := filter_mode _ _

theorem filtered_level (mv : Nat) (s : State) : (s.filtered mv).level = s.ssv.level := filter_level _ _

/-- What the filter adopts is another level. -/
theorem filtered_nearest_ne (mv : Nat) {s : State} (h : s.SupplyOk) {l : CellLevel}
    (hl : (s.filtered mv).nearest = some l) : l ≠ s.ssv.level := by
  have hsampling : s.sampling.Ok :=
    ⟨fun hs => h.sleepTimer (by simpa [State.sampling, State.ticked] using hs), h.sleepDue, h.filterDir, h.nearest, h.off⟩
  have hoff := (hsampling.filter (candidate s.ssv.level (3400 + 50 * s.plu.policy.cellLowLevel) mv)).off
  rintro rfl
  exact hoff (hl.trans (congrArg some (filtered_level mv s).symm))

/-! ## The level that is adopted (R104, R161) -/

theorem completeLock_frame (s : State) : State.changesOnly lockBlocks s s.completeLock :=
  changesOnly_mono (changesOnly_append (closeOpen_frame s) (enterLocked_frame _)) (by decide)

theorem endConfig_frame (s : State) : State.changesOnly lockBlocks s s.endConfig :=
  changesOnly_mono (changesOnly_append (onAcc_frame _ s) (enterLocked_frame _)) (by decide)

theorem forced_frame (s : State) : State.changesOnly lockBlocks s s.forced := by
  unfold State.forced
  split
  · exact completeLock_frame s
  · exact completeLock_frame s
  · exact endConfig_frame s
  all_goals exact changesOnly_refl _ s

/-- A forced lock cause shuts an open drive (R66). -/
theorem forced_acc (s : State) : s.forced.acc =
    if s.acc.access = .unlocked ∨ s.acc.access = .locking then s.acc.shut
    else if s.acc.access = .config then { s.acc with access := .locked, openSlot := none, configTimer := none }
    else s.acc := by
  unfold State.forced
  cases s.acc.access <;> simp

/-- The level stands, reported where R161 says so, and the KEU knows of the gate. -/
def State.levelTold (new : CellLevel) (s : State) : State :=
  (if s.ssv.level.severity < new.severity ∨ s.plu.policy.cellRiseReport then (s.onSsv (Ssv.atLevel new)).postCellLevel
   else s.onSsv (Ssv.atLevel new)).tellGate s.gateOpen

/-- The level is taken: told, and acted on where it is CRIT in CELL_AWAKE. -/
def State.levelTaken (new : CellLevel) (s : State) : State :=
  if (s.levelTold new).cellCritAwake then (s.levelTold new).forced else s.levelTold new

theorem adoptLevel_eq (new : CellLevel) (s : State) : s.adoptLevel new =
    if s.pauseWake new then (s.levelTaken new).wake .cellAwake else (s.levelTaken new).wpeTold := rfl

section
variable (new : CellLevel) (s : State)

theorem levelTold_agrees : State.changesOnly [.keu, .liu] (s.onSsv (Ssv.atLevel new)) (s.levelTold new) :=
  changesOnly_mono (changesOnly_append (l := [.liu]) (changesOnly_ite (fun _ => postP_frame _ _) fun _ =>
    changesOnly_refl _ _) (tellGate_frame _ _)) (by decide)

theorem levelTold_frame : State.changesOnly [.ssv, .keu, .liu] s (s.levelTold new) :=
  changesOnly_append (l := [.ssv]) (onSsv_frame _ s) (levelTold_agrees new s)

theorem levelTold_ssv : (s.levelTold new).ssv = s.ssv.atLevel new := levelTold_agrees new s .ssv (by decide)

theorem levelTold_bridge : (s.levelTold new).liu.bridge = s.liu.bridge := by
  rw [State.levelTold, (keepsReports_tellGate _ _).bridge]
  split_ifs
  · rw [State.postCellLevel, State.postP_eq_onLiu]
    rfl
  · rfl

theorem levelTold_crit : (s.levelTold new).cellCritAwake = true ↔ s.ssv.mode = .cellAwake ∧ new = .crit := by
  rw [cellCritAwake_iff, levelTold_ssv]
  rfl

theorem levelTaken_agrees : State.changesOnly lockBlocks (s.levelTold new) (s.levelTaken new) :=
  changesOnly_ite (fun _ => forced_frame _) fun _ => changesOnly_refl _ _

theorem levelTaken_frame : State.changesOnly (.ssv :: lockBlocks) s (s.levelTaken new) :=
  changesOnly_mono (changesOnly_append (levelTold_frame new s) (levelTaken_agrees new s)) (by decide)

theorem levelTaken_ssv : (s.levelTaken new).ssv = s.ssv.atLevel new :=
  (levelTaken_agrees new s .ssv (by decide)).trans (levelTold_ssv new s)

theorem levelTaken_acc : (s.levelTaken new).acc =
    if s.ssv.mode = .cellAwake ∧ new = .crit then
      (if s.acc.access = .unlocked ∨ s.acc.access = .locking then s.acc.shut
       else if s.acc.access = .config then { s.acc with access := .locked, openSlot := none, configTimer := none }
       else s.acc)
    else s.acc := by
  have hacc : (s.levelTold new).acc = s.acc := levelTold_frame new s .acc (by decide)
  rw [State.levelTaken, apply_ite State.acc, forced_acc, hacc]
  exact if_congr (levelTold_crit new s) rfl rfl

/-- In WIPING the level closes nothing. -/
theorem levelTaken_of_wiping (h : s.acc.access = .wiping) : s.levelTaken new = s.levelTold new := by
  have hacc : (s.levelTold new).acc.access = .wiping :=
    (congrArg Acc.access (levelTold_frame new s .acc (by decide))).trans h
  have hforced : (s.levelTold new).forced = s.levelTold new := by rw [State.forced, hacc]
  rw [State.levelTaken, hforced, ite_self]

/-- The report of a level: a fall always, a rise where CELL_RISE_REPORT says so (R161). -/
theorem levelTaken_reports (hcore : s.corePowered = true) : (s.levelTaken new).liu.pq.cellLevel =
    if s.ssv.level.severity < new.severity ∨ s.plu.policy.cellRiseReport = true then some (new, s.ssv.mode)
    else s.liu.pq.cellLevel := by
  have hforced : (s.levelTaken new).liu.pq.cellLevel = (s.levelTold new).liu.pq.cellLevel := by
    unfold State.levelTaken
    split_ifs
    · exact (keepsReports_forced _).level
    · rfl
  rw [hforced, State.levelTold, (keepsReports_tellGate _ _).level]
  split_ifs
  · rw [State.postCellLevel, State.postP_eq_onLiu, show (s.onSsv (Ssv.atLevel new)).corePowered = true from hcore]
    rfl
  · rfl

end

/-- A fall is what is reported whatever CELL_RISE_REPORT says: from GOOD, or to CRIT. -/
theorem severity_lt_iff {l m : CellLevel} (h : m ≠ l) : l.severity < m.severity ↔ l = .good ∨ m = .crit := by
  cases l <;> cases m <;> simp_all [CellLevel.severity]

/-! ## What the adoption leaves (R117, R160) -/

theorem wpeTold_frame (s : State) : State.changesOnly [.wpe, .kru, .keu, .liu, .ctb, .rsc, .atl] s s.wpeTold :=
  changesOnly_mono (changesOnly_append (refreshRun_frame s) (proceed_frame _)) (by decide)

theorem wakeLevel_frame (s : State) : State.changesOnly lockBlocks s s.wakeLevel := by
  unfold State.wakeLevel
  extract_lets t
  have ht : State.changesOnly lockBlocks s t :=
    changesOnly_ite (fun _ => changesOnly_refl _ s) fun _ => changesOnly_mono (postP_frame _ s) (by decide)
  exact changesOnly_ite (fun _ => changesOnly_trans ht (forced_frame t)) fun _ => ht

/-- The parts that a wake may change, once the core domain is powered. -/
def wokenBlocks : List Block := .wpe :: .ctb :: .atl :: lockBlocks

theorem wake_frame (m : SupplyMode) (s : State) : State.changesOnly wokenBlocks (s.powerCore m) (s.wake m) := by
  unfold State.wake
  extract_lets t u
  have ht : State.changesOnly wokenBlocks (s.powerCore m) t := changesOnly_mono (postAccessChanged_frame _) (by decide)
  have hu : State.changesOnly wokenBlocks (s.powerCore m) u :=
    changesOnly_ite (fun _ => changesOnly_trans ht (changesOnly_mono
      (changesOnly_append (refreshRun_frame t) (postWipeState_frame _)) (by decide))) fun _ => ht
  exact changesOnly_trans hu (changesOnly_mono (changesOnly_append (wakeLevel_frame u) (proceed_frame _)) (by decide))

/-- Adopting a level leaves the timebase and the array, and the SSV but for its level, its filter and a wake. -/
theorem adoptLevel_leaves (new : CellLevel) (s : State) :
    State.changesOnly (.ssv :: wokenBlocks) s (s.adoptLevel new) ∧ (s.adoptLevel new).ssv.level = new ∧
      (s.adoptLevel new).ssv.filterCount = 0 ∧ (s.adoptLevel new).ssv.filterDir = none ∧
      (s.adoptLevel new).ssv.nearest = none := by
  have htaken := levelTaken_frame new s
  rw [adoptLevel_eq]
  split_ifs
  · have hwake := wake_frame .cellAwake (s.levelTaken new)
    refine ⟨changesOnly_mono (changesOnly_append htaken (changesOnly_append (powerCore_frame _ _) hwake)) (by decide), ?_⟩
    rw [show ((s.levelTaken new).wake .cellAwake).ssv = _ from hwake .ssv (by decide), State.powerCore_ssv, levelTaken_ssv]
    exact ⟨rfl, rfl, rfl, rfl⟩
  · have htold := wpeTold_frame (s.levelTaken new)
    refine ⟨changesOnly_mono (changesOnly_append htaken htold) (by decide), ?_⟩
    rw [show (s.levelTaken new).wpeTold.ssv = _ from htold .ssv (by decide), levelTaken_ssv]
    exact ⟨rfl, rfl, rfl, rfl⟩

/-! ## The wipe told of a level (R117, R118) -/

section
variable {s : State} (hcore : s.corePowered = true)
include hcore

/-- With the core domain powered a wipe pauses at CRIT in CELL_AWAKE alone. -/
theorem pauseHolds_of_core : s.pauseHolds = s.cellCritAwake := by
  have hm : s.ssv.mode ≠ .cellSleep := by
    intro hm
    simp [State.corePowered, hm] at hcore
  rw [State.pauseHolds, beq_false_of_ne hm, Bool.false_and, Bool.or_false, Bool.and_comm]
  rfl

theorem pauseHolds_iff : s.pauseHolds = true ↔ s.ssv.mode = .cellAwake ∧ s.ssv.level = .crit := by
  rw [pauseHolds_of_core hcore, cellCritAwake_iff]

/-- The run condition depends on the supply, the position, the record and the bridge link. -/
theorem runCondition_congr {t : State} (hpins : t.pins = s.pins) (hssv : t.ssv = s.ssv)
    (hposition : t.wpe.position = s.wpe.position) (hview : t.wpe.view = s.wpe.view)
    (hbridge : t.liu.bridge = s.liu.bridge) : t.runCondition = s.runCondition := by
  have hcore' : t.corePowered = true := (State.corePowered_congr hpins hssv).trans hcore
  have hpause : t.pauseHolds = s.pauseHolds := by
    rw [pauseHolds_of_core hcore, pauseHolds_of_core hcore', State.cellCritAwake, State.cellCritAwake, hssv]
  have hmedia : t.mediaWaits = s.mediaWaits := by rw [State.mediaWaits, State.mediaWaits, hview, hbridge]
  rw [State.runCondition, State.runCondition, hpause, hposition, hmedia]

/-- Once brought up to date the run condition stands. -/
theorem refreshRun_run (hwiping : s.acc.access = .wiping) : s.refreshRun.wpe.run = s.refreshRun.runCondition := by
  have hframe := refreshRun_frame s
  have hwpe := refreshRun_wpe hwiping
  rw [runCondition_congr hcore (hframe .pins (by decide)) (hframe .ssv (by decide)) (by rw [hwpe]) (by rw [hwpe]; rfl)
    (keepsReports_refreshRun s).bridge, hwpe]

/-- Told of a level, a wipe of which nothing is written and that is not to pause stands ready to go on. -/
theorem refreshRun_resumes {w : WipeRecord} (hwiping : s.acc.access = .wiping) (hfree : s.wipeBusy = false)
    (hj : s.wpe.journal = some w) (hgoing : s.pauseHolds = false) (hapart : s.liu.bridge ≠ .attached) :
    s.refreshRun.Resumes w := by
  have hframe := refreshRun_frame s
  have hcore' : s.refreshRun.corePowered = true :=
    (State.corePowered_congr (hframe .pins (by decide)) (hframe .ssv (by decide))).trans hcore
  refine ⟨by rw [State.refreshRun_acc, hwiping], hcore', ?_, by rw [refreshRun_wpe hwiping]; exact hj,
    refreshRun_run hcore hwiping, ?_, by rw [(keepsReports_refreshRun s).bridge]; exact hapart⟩
  · rw [State.wipeBusy, hframe .rsc (by decide)]
    exact hfree
  · rw [pauseHolds_of_core hcore', State.cellCritAwake, hframe .ssv (by decide)]
    exact (pauseHolds_of_core hcore).symm.trans hgoing

/-- A wipe told of a level is paused exactly at CRIT in CELL_AWAKE. -/
theorem wpeTold_paused_iff (hwiping : s.acc.access = .wiping) :
    s.wpeTold.wpe.run = .paused ↔ s.ssv.mode = .cellAwake ∧ s.ssv.level = .crit := by
  have hframe := refreshRun_frame s
  have hcore' : s.refreshRun.corePowered = true :=
    (State.corePowered_congr (hframe .pins (by decide)) (hframe .ssv (by decide))).trans hcore
  have hpause (t : State) (hpins : t.pins = s.pins) (hssv : t.ssv = s.ssv) :
      t.runCondition = .paused ↔ s.ssv.mode = .cellAwake ∧ s.ssv.level = .crit := by
    rw [runCondition_paused_iff, pauseHolds_iff ((State.corePowered_congr hpins hssv).trans hcore), hssv]
  have hrun : s.refreshRun.wpe.run = .paused ↔ s.ssv.mode = .cellAwake ∧ s.ssv.level = .crit := by
    rw [refreshRun_run hcore hwiping]
    exact hpause _ (hframe .pins (by decide)) (hframe .ssv (by decide))
  rw [State.wpeTold]
  rcases proceed_cases s.refreshRun with hkeeps | hstalls
  · rw [congrArg Wpe.run hkeeps.items]
    exact hrun
  · have hat : (s.refreshRun.atPosition .stalled).acc.access = .wiping := by
      show s.refreshRun.acc.access = .wiping
      rw [State.refreshRun_acc, hwiping]
    rw [hstalls, State.stalls, refreshRun_wpe hat]
    exact hpause (s.refreshRun.atPosition .stalled) (hframe .pins (by decide)) (hframe .ssv (by decide))

end

/-! ## The end of a pause (R117, R159) -/

section
variable {w : WipeRecord} {new : CellLevel} {s : State} (hwiping : s.acc.access = .wiping) (hrun : s.wpe.run = .paused)
  (hnew : new ≠ .crit) (hj : s.wpe.journal = some w)
include hwiping hrun hnew hj

/-- A level other than CRIT ends the pause of a wipe in CELL_AWAKE: it goes on from its position and is reported. -/
theorem adoptLevel_resumes (hcore : s.corePowered = true) (hm : s.ssv.mode = .cellAwake)
    (hapart : s.liu.bridge ≠ .attached) (hfree : s.wipeBusy = false) :
    (s.adoptLevel new).wpe.run ≠ .paused ∧ (s.adoptLevel new).reportsWipe w ∧
      s.carriesOn w s.wpe.position ((s.adoptLevel new).onRsc Rsc.kick) := by
  let v := s.levelTold new
  have hv := levelTold_frame new s
  have hwpe : v.wpe = s.wpe := hv .wpe (by decide)
  have hvcore : v.corePowered = true := by
    rw [State.corePowered, levelTold_ssv, hv .pins (by decide)]
    exact hcore
  have hvwiping : v.acc.access = .wiping := (congrArg Acc.access (hv .acc (by decide))).trans hwiping
  have hbridge : v.liu.bridge = s.liu.bridge := levelTold_bridge new s
  have hvfree : v.wipeBusy = false := by rw [State.wipeBusy, hv .rsc (by decide)]; exact hfree
  have hgoing : v.pauseHolds = false := by
    rw [pauseHolds_of_core hvcore, Bool.eq_false_iff, Ne, levelTold_crit]
    exact fun h => hnew h.2
  have hresumes : v.refreshRun.Resumes w :=
    refreshRun_resumes hvcore hvwiping hvfree (hwpe ▸ hj) hgoing (hbridge ▸ hapart)
  have hreports : v.refreshRun.reportsWipe w := by
    have hchanged : v.acc.access = .wiping ∧ v.runCondition ≠ v.wpe.run := by
      refine ⟨hvwiping, ?_⟩
      rw [hwpe, hrun, Ne, runCondition_paused_iff, hgoing]
      decide
    rw [State.refreshRun, if_pos hchanged]
    exact postWipeState_reports (s := v.onWpe _) hvcore ((congrArg Wpe.journal hwpe).trans hj)
  have hadopts : s.adoptLevel new = v.refreshRun.proceed := by
    have hpause : s.pauseWake new = false := by simp [State.pauseWake, hm]
    rw [adoptLevel_eq, hpause, levelTaken_of_wiping new s hwiping]
    rfl
  rw [hadopts]
  refine ⟨hresumes.proceed_not_paused, hresumes.proceed_reports hreports, ?_⟩
  have hposition : v.refreshRun.wpe.position = s.wpe.position := by rw [refreshRun_wpe hvwiping, hwpe]
  have hframe : State.changesOnly [.ssv, .keu, .liu, .wpe] s v.refreshRun :=
    changesOnly_mono (changesOnly_append hv (refreshRun_frame v)) (by decide)
  have hcarries := hresumes.carriesOn
  rw [hposition] at hcarries
  refine carriesOn_congr (hframe .kru (by decide)) (hframe .ctb (by decide))
    (congrArg Atl.limiter (hframe .atl (by decide))) (fun horder => ?_) hcarries
  rw [refreshRun_wpe hvwiping, hwpe]
  exact horder

end

/-! ## Waking for a wipe (R159) -/

section
variable (s : State)

theorem postWipeState_accessChanged : s.postWipeState.liu.pq.accessChanged = s.liu.pq.accessChanged := by
  unfold State.postWipeState
  split
  · rw [State.postP_eq_onLiu]
    split <;> rfl
  · rfl

theorem refreshRun_accessChanged : s.refreshRun.liu.pq.accessChanged = s.liu.pq.accessChanged := by
  unfold State.refreshRun
  split_ifs
  · exact postWipeState_accessChanged _
  · rfl

theorem proceed_accessChanged : s.proceed.liu.pq.accessChanged = s.liu.pq.accessChanged := by
  rcases proceed_cases s with hkeeps | hstalls
  · rw [hkeeps.events]
  · rw [hstalls]
    exact refreshRun_accessChanged _

end

theorem postAccessChanged_reports {s : State} (hcore : s.corePowered = true) :
    s.postAccessChanged.liu.pq.accessChanged = some s.accessReport := by
  rw [State.postAccessChanged, State.postB_pq, State.postP, if_pos hcore]
  rfl

/-- A level other than CRIT is reported to the woken part, and no more. -/
theorem wakeLevel_of_mild {s : State} (h : s.ssv.level ≠ .crit) :
    s.wakeLevel = if s.ssv.level = .good then s else s.postCellLevel := by
  unfold State.wakeLevel
  extract_lets t
  have hssv : t.ssv = s.ssv := changesOnly_ite (l := [.liu]) (fun _ => changesOnly_refl _ s) (fun _ => postP_frame _ s)
    .ssv (by decide)
  have hcrit : ¬ t.cellCritAwake = true := by
    rw [cellCritAwake_iff, hssv]
    exact fun hc => h hc.2
  exact if_neg hcrit

theorem wakeLevel_leaves {s : State} (h : s.ssv.level ≠ .crit) : State.changesOnly [.liu] s s.wakeLevel ∧
    s.wakeLevel.liu.bridge = s.liu.bridge ∧ s.wakeLevel.liu.pq.wipeState = s.liu.pq.wipeState ∧
    s.wakeLevel.liu.pq.accessChanged = s.liu.pq.accessChanged := by
  rw [wakeLevel_of_mild h]
  refine ⟨changesOnly_ite (fun _ => changesOnly_refl _ s) fun _ => postP_frame _ s, ?_⟩
  rw [State.postCellLevel, State.postP_eq_onLiu]
  split_ifs <;> exact ⟨rfl, rfl, rfl⟩

theorem State.Resumes.of_liu {w : WipeRecord} {s t : State} (h : s.Resumes w) (hf : State.changesOnly [.liu] s t)
    (hb : t.liu.bridge = s.liu.bridge) : t.Resumes w := by
  have hpins : t.pins = s.pins := hf .pins (by decide)
  have hssv : t.ssv = s.ssv := hf .ssv (by decide)
  have hwpe : t.wpe = s.wpe := hf .wpe (by decide)
  refine ⟨(congrArg Acc.access (hf .acc (by decide))).trans h.wiping, (State.corePowered_congr hpins hssv).trans h.core, ?_,
    hwpe ▸ h.journal, ?_, ?_, hb ▸ h.apart⟩
  · rw [State.wipeBusy, hf .rsc (by decide)]
    exact h.free
  · rw [runCondition_congr h.core hpins hssv (congrArg _ hwpe) (congrArg Wpe.view hwpe) hb, hwpe]
    exact h.run
  · rw [State.pauseHolds, hssv, hwpe]
    exact h.going

/-- The part with its core domain powered from the cell, and the access state reported (R159). -/
def State.woken (s : State) : State := (s.powerCore .cellAwake).postAccessChanged

section
variable {w : WipeRecord} {s : State} (hwiping : s.acc.access = .wiping) (hj : s.wpe.journal = some w)
  (hlevel : s.ssv.level ≠ .crit) (hreset : s.pins.resetLow = false)

theorem woken_frame (s : State) : State.changesOnly [.liu] (s.powerCore .cellAwake) s.woken := postAccessChanged_frame _

include hreset in
theorem powerCore_corePowered : (s.powerCore .cellAwake).corePowered = true := by
  rw [State.corePowered, State.powerCore_ssv, powerCore_frame .cellAwake s .pins (by decide), hreset]
  rfl

theorem woken_wpe (s : State) : s.woken.wpe = s.wpe.coreLost :=
  (woken_frame s .wpe (by decide)).trans (State.powerCore_wpe _ s)

include hwiping in
theorem woken_wiping : s.woken.acc.access = .wiping := by
  rw [woken_frame s .acc (by decide), State.powerCore_acc]
  exact hwiping

include hwiping hj hlevel hreset

/-- The woken part stands ready to go on with its wipe. -/
theorem woken_resumes : s.woken.refreshRun.Resumes w := by
  have hcore : s.woken.corePowered = true :=
    (State.corePowered_congr (woken_frame s .pins (by decide)) (woken_frame s .ssv (by decide))).trans
      (powerCore_corePowered hreset)
  refine refreshRun_resumes hcore (woken_wiping hwiping) ?_ ((congrArg Wpe.journal (woken_wpe s)).trans hj) ?_ ?_
  · rw [State.wipeBusy, woken_frame s .rsc (by decide), State.powerCore_rsc]
    rfl
  · rw [pauseHolds_of_core hcore, Bool.eq_false_iff, Ne, cellCritAwake_iff, woken_frame s .ssv (by decide),
      State.powerCore_ssv]
    exact fun h => hlevel h.2
  · rw [State.woken, (keepsReports_postAccessChanged _).bridge, State.powerCore_liu]
    decide

/-- A part that wakes with a level other than CRIT goes on with its wipe, and reports it. -/
theorem wake_resumes :
    (s.wake .cellAwake).ssv.mode = .cellAwake ∧ (s.wake .cellAwake).ssv.sleepTimer = some 160 ∧
      (s.wake .cellAwake).liu.pq.accessChanged.isSome = true ∧ (s.wake .cellAwake).wpe.run ≠ .paused ∧
      (s.wake .cellAwake).reportsWipe w ∧ s.carriesOn w s.wpe.position ((s.wake .cellAwake).onRsc Rsc.kick) := by
  let u := s.woken.refreshRun.postWipeState
  have hresumes := woken_resumes hwiping hj hlevel hreset
  have hu : State.changesOnly [.wpe, .liu] (s.powerCore .cellAwake) u :=
    changesOnly_mono (changesOnly_append (woken_frame s) (changesOnly_append (refreshRun_frame _) (postWipeState_frame _)))
      (by decide)
  have hussv : u.ssv = _ := (hu .ssv (by decide)).trans (State.powerCore_ssv _ s)
  obtain ⟨hy, hbridge, hwipe, haccess⟩ := wakeLevel_leaves (s := u) (by rw [hussv]; exact hlevel)
  have hresumes : u.wakeLevel.Resumes w :=
    hresumes.of_liu (changesOnly_trans (postWipeState_frame _) hy) (hbridge.trans (keepsReports_postWipeState _).bridge)
  have hreports : u.wakeLevel.reportsWipe w := by
    have hu : u.reportsWipe w :=
      have h := woken_resumes hwiping hj hlevel hreset
      postWipeState_reports h.core h.journal
    rw [State.reportsWipe, hwipe, hy .wpe (by decide)]
    exact hu
  have hwake : s.wake .cellAwake = u.wakeLevel.proceed :=
    congrArg (fun v : State => v.wakeLevel.proceed) (if_pos (woken_wiping hwiping))
  have hssv : u.wakeLevel.proceed.ssv = u.ssv := (proceed_frame _ .ssv (by decide)).trans (hy .ssv (by decide))
  rw [hwake]
  refine ⟨?_, ?_, ?_, hresumes.proceed_not_paused, hresumes.proceed_reports hreports, ?_⟩
  · rw [hssv, hussv]
  · rw [hssv, hussv]
    rfl
  · rw [proceed_accessChanged, haccess, postWipeState_accessChanged, refreshRun_accessChanged, State.woken,
      postAccessChanged_reports (powerCore_corePowered hreset)]
    rfl
  · have hframe : State.changesOnly [.rsc, .keu, .acc, .wpe, .plu, .ssv, .liu] s u.wakeLevel :=
      changesOnly_mono (changesOnly_append (powerCore_frame .cellAwake s) (changesOnly_append hu hy)) (by decide)
    have hwpe : u.wakeLevel.wpe = { s.wpe.coreLost with run := s.woken.runCondition } := by
      rw [hy .wpe (by decide), postWipeState_frame _ .wpe (by decide), refreshRun_wpe (woken_wiping hwiping), woken_wpe]
    have hcarries := hresumes.carriesOn
    rw [hwpe] at hcarries
    refine carriesOn_congr (hframe .kru (by decide)) (hframe .ctb (by decide))
      (congrArg Atl.limiter (hframe .atl (by decide))) (fun _ => ?_) hcarries
    rw [hwpe]
    rfl

end

end Sys2Proof.Machine
end

