-- ==== Sys2Proof/Proofs/TickExec.lean ====
section
/-! A tick as a command: the timers, the sample, and the adopted level with its end of a pause (R52, R117, R150, R159 to
R161). -/

namespace Sys2Proof.Machine

/-- A row that leaves the writes alone ends where it is. -/
theorem finish_of_rsc {s u : State} (hs : s.StoreOk) (h : u.rsc = s.rsc) : finish u = .next u := by
  rw [finish_eq, h, Rsc.kick_of_served hs.served, ← h]

theorem ticked_limiter (s : State) : s.ticked.atl.limiter = s.atl.limiter := by
  unfold State.ticked
  dsimp only
  split_ifs <;> rfl

/-- The state in which a sample's level is adopted: the timers counted, and the filter's candidate taken. -/
def State.sampled (mv : Nat) (s : State) : State := { s.ticked with ssv := s.filtered mv }

section
variable {mv : Nat} {l : CellLevel} {s : State}

theorem sampled_corePowered : (s.sampled mv).corePowered = s.corePowered := by
  rw [State.corePowered, State.corePowered, show (s.sampled mv).ssv.mode = s.ssv.mode from filtered_mode mv s]
  rfl

theorem sampled_mode : (s.sampled mv).ssv.mode = s.ssv.mode := filtered_mode mv s

theorem sampled_level : (s.sampled mv).ssv.level = s.ssv.level := filtered_level mv s

/-- What is due to a wipe is the same before the tick as in the state it samples. -/
theorem carriesOn_of_sampled {w : WipeRecord} {p : Position} {t : State} (h : (s.sampled mv).carriesOn w p t) :
    s.carriesOn w p t := carriesOn_congr (u := s.sampled mv) rfl rfl (ticked_limiter s) id h

/-- A pause in CELL_AWAKE ends (R117). -/
theorem adopted_ends_pause {w : WipeRecord} (hpow : s.powered = true) (hlink : s.LinkOk) (hwiping : s.acc.access = .wiping)
    (hrun : s.wpe.run = .paused) (hl : l ≠ .crit) (hj : s.wpe.journal = some w) (hm : s.ssv.mode = .cellAwake)
    (hfree : ∀ p ∈ s.rsc.purposes, p.isWipe = false) :
    ((s.sampled mv).adoptLevel l).wpe.run ≠ .paused ∧ ((s.sampled mv).adoptLevel l).reportsWipe w ∧
      s.carriesOn w s.wpe.position (((s.sampled mv).adoptLevel l).onRsc Rsc.kick) := by
  have hcore : (s.sampled mv).corePowered = true := by
    rw [sampled_corePowered]
    simp_all [State.corePowered, State.powered]
  have hapart : (s.sampled mv).liu.bridge ≠ .attached := by
    show s.liu.bridge ≠ .attached
    rw [hlink.absent.mpr (by rw [hm]; decide)]
    decide
  have hfree' : (s.sampled mv).wipeBusy = false := by
    refine List.any_eq_false.mpr fun p hp => ?_
    rw [hfree p hp]
    decide
  obtain ⟨hgoes, hreports, hcarries⟩ := adoptLevel_resumes (s := s.sampled mv) hwiping hrun hl hj hcore
    (sampled_mode.trans hm) hapart hfree'
  exact ⟨hgoes, hreports, carriesOn_of_sampled hcarries⟩

/-- A pause that stood at sleep ends by waking the part, but in MEDIA (R159). -/
theorem adopted_wakes {w : WipeRecord} (hpow : s.powered = true) (hwiping : s.acc.access = .wiping)
    (hrun : s.wpe.run = .paused) (hl : l ≠ .crit) (hj : s.wpe.journal = some w) (hm : s.ssv.mode = .cellSleep)
    (hcrit : s.ssv.level = .crit) :
    let t := (s.sampled mv).adoptLevel l
    if w.step = .media then t.ssv.mode = .cellSleep
    else t.ssv.mode = .cellAwake ∧ t.ssv.sleepTimer = some 160 ∧ t.liu.pq.accessChanged.isSome = true ∧
      t.wpe.run ≠ .paused ∧ t.reportsWipe w ∧ s.carriesOn w s.wpe.position (t.onRsc Rsc.kick) := by
  let q := s.sampled mv
  have hpause : q.pauseWake l = (w.step != .media) := by
    have hview : q.wpe.view = some w := by rw [Wpe.view, show q.wpe.journal = some w from hj]
    have hqrun : q.wpe.run = .paused := hrun
    have hqwiping : q.acc.access = .wiping := hwiping
    simp [State.pauseWake, q, sampled_mode, sampled_level, hm, hcrit, hl, hqwiping, hqrun, hview]
  have htaken : q.levelTaken l = q.levelTold l := levelTaken_of_wiping l q hwiping
  have htold := levelTold_frame l q
  dsimp only
  rw [adoptLevel_eq, htaken, show (s.sampled mv).pauseWake l = _ from hpause]
  by_cases hmedia : w.step = .media
  · rw [if_pos hmedia, if_neg (by simp [hmedia]), wpeTold_frame _ .ssv (by decide), levelTold_ssv]
    exact sampled_mode.trans hm
  · rw [if_neg hmedia, if_pos (by simpa using hmedia)]
    have hreset : (q.levelTold l).pins.resetLow = false := by
      rw [htold .pins (by decide)]
      show s.pins.resetLow = false
      simp_all [State.powered]
    obtain ⟨hmode, htimer, haccess, hgoes, hreports, hcarries⟩ := wake_resumes (w := w) (s := q.levelTold l)
      ((congrArg Acc.access (htold .acc (by decide))).trans hwiping)
      ((congrArg Wpe.journal (htold .wpe (by decide))).trans hj)
      (by rw [levelTold_ssv]; exact hl) hreset
    refine ⟨hmode, htimer, haccess, hgoes, hreports, carriesOn_of_sampled (mv := mv) ?_⟩
    rw [htold .wpe (by decide)] at hcarries
    exact carriesOn_congr (htold .kru (by decide)) (htold .ctb (by decide)) (congrArg Atl.limiter (htold .atl (by decide)))
      (fun ho => by rw [htold .wpe (by decide)]; exact ho) hcarries

/-- With the core domain powered the adopted level is reported, pauses a wipe at CRIT in CELL_AWAKE alone, and there
shuts an open drive. -/
theorem adopted_acts (hcore : s.corePowered = true) (hne : l ≠ s.ssv.level) :
    let t := (s.sampled mv).adoptLevel l
    t.liu.pq.cellLevel = (if s.ssv.level = .good ∨ l = .crit ∨ s.plu.policy.cellRiseReport = true then
                            some (l, s.ssv.mode) else s.liu.pq.cellLevel) ∧
      (s.acc.access = .wiping → (t.wpe.run = .paused ↔ s.ssv.mode = .cellAwake ∧ l = .crit)) ∧
      t.acc = (if s.ssv.mode = .cellAwake ∧ l = .crit then
                 (if s.acc.access = .unlocked ∨ s.acc.access = .locking then s.ticked.acc.shut
                  else if s.acc.access = .config then
                    { s.ticked.acc with access := .locked, openSlot := none, configTimer := none }
                  else s.ticked.acc)
               else s.ticked.acc) := by
  let q := s.sampled mv
  have hqcore : q.corePowered = true := sampled_corePowered.trans hcore
  have hawake : s.ssv.mode ≠ .cellSleep := fun hm => by simp [State.corePowered, hm] at hcore
  have hpause : q.pauseWake l = false := by simp [State.pauseWake, q, sampled_mode, hawake]
  have hadopts : q.adoptLevel l = (q.levelTaken l).wpeTold := by rw [adoptLevel_eq, hpause]; rfl
  dsimp only
  rw [show (s.sampled mv).adoptLevel l = _ from hadopts]
  refine ⟨?_, fun hwiping => ?_, ?_⟩
  · rw [(keepsReports_wpeTold _).level, levelTaken_reports l q hqcore, sampled_level, sampled_mode]
    refine if_congr ?_ rfl rfl
    rw [severity_lt_iff hne, or_assoc]
    rfl
  · have htcore : (q.levelTaken l).corePowered = true := by
      rw [State.corePowered, levelTaken_ssv, levelTaken_frame l q .pins (by decide)]
      exact hqcore
    have htwiping : (q.levelTaken l).acc.access = .wiping := by
      rw [levelTaken_of_wiping l q hwiping, levelTold_frame l q .acc (by decide)]
      exact hwiping
    rw [wpeTold_paused_iff htcore htwiping, levelTaken_ssv]
    show q.ssv.mode = _ ∧ _ ↔ _
    rw [sampled_mode]
    rfl
  · rw [wpeTold_frame _ .acc (by decide), levelTaken_acc, sampled_mode]
    rfl

end

/-- Settles O48: by the branches of a tick; an adopted level by its wipe, its report and its lock. -/
theorem tickCountsAndSamples : Obligations.TickCountsAndSamples := by
  intro mv s hstore hsupply
  rw [exec_tick, sample_eq]
  by_cases hpow : s.powered = false
  · simp only [if_pos hpow]
    exact ⟨s, finish_of_rsc hstore rfl, rfl⟩
  by_cases hfitted : s.plu.inForce.cellFitted = false
  · simp only [if_neg hpow, if_pos hfitted]
    exact ⟨_, finish_of_rsc hstore rfl, rfl⟩
  by_cases hsleeps : s.ssv.mode = .cellSleep ∧ s.ssv.samplePhase < 7
  · simp only [if_neg hpow, if_neg hfitted, if_pos hsleeps]
    exact ⟨_, finish_of_rsc hstore rfl, rfl⟩
  rw [if_neg hpow, if_neg hfitted, if_neg hsleeps]
  by_cases hadopts : 0 < (s.filtered mv).filterCount ∧ s.plu.policy.cellFilter ≤ (s.filtered mv).filterCount
  case neg =>
    rw [if_neg hadopts]
    refine ⟨_, finish_of_rsc hstore rfl, ?_⟩
    intro v f
    have hfilter : ¬ (0 < f.filterCount ∧ s.plu.policy.cellFilter ≤ f.filterCount) := hadopts
    rw [if_neg hpow, if_neg hfitted, if_neg hsleeps, if_neg hfilter]
    exact rfl
  rw [if_pos hadopts]
  refine ⟨_, rfl, ?_⟩
  intro v f
  have hfilter : 0 < f.filterCount ∧ s.plu.policy.cellFilter ≤ f.filterCount := hadopts
  rw [if_neg hpow, if_neg hfitted, if_neg hsleeps, if_pos hfilter]
  intro l hl
  have hpow : s.powered = true := by simpa using hpow
  have hne : l ≠ s.ssv.level := filtered_nearest_ne mv hsupply hl
  rw [show (s.filtered mv).nearest = some l from hl]
  obtain ⟨hframe, hlevel, hcount, hdir, hnearest⟩ := adoptLevel_leaves l (s.sampled mv)
  refine ⟨hlevel, hcount, hdir, hnearest, hframe .tbu (by decide), ?_, hframe .store (by decide), ?_, ?_⟩
  · exact (lawful_adoptLevel l (s.sampled mv)).schedule.limiter.trans (ticked_limiter s)
  · intro w hwiping hrun hl hj hlink
    exact ⟨fun hm hfree => adopted_ends_pause hpow hlink hwiping hrun hl hj hm hfree,
      fun hm hcrit => adopted_wakes hpow hwiping hrun hl hj hm hcrit⟩
  · exact fun hcore => adopted_acts hcore hne

end Sys2Proof.Machine
end

