-- ==== Sys2Proof/Proofs/StartEarly.lean ====
section
/-! Start-up before the derivation: what its events leave, what they are reported by, and the working copies that the load
gives (R135, R154). -/

namespace Sys2Proof.Machine

/-! ## One event (R154) -/

/-- A part in start-up on a supply: the mode is BUS or CELL_AWAKE, the bridge link follows it, and no sleep is due. -/
structure State.Early (s : State) : Prop where
  reset : s.pins.resetLow = false
  mode : s.ssv.mode = .bus ∨ s.ssv.mode = .cellAwake
  due : s.ssv.sleepDue = false
  bridge : s.liu.bridge = if s.ssv.mode = .bus then .present else .absent

theorem State.Early.core {s : State} (h : s.Early) : s.corePowered = true := by
  rcases h.mode with hm | hm <;> simp [State.corePowered, h.reset, hm]

theorem State.Early.apart {s : State} (h : s.Early) : s.liu.bridge ≠ .attached := by
  rw [h.bridge]
  split_ifs <;> decide

/-- What an event of start-up leaves of a part on a supply: all but the pins, the SSV, the timebase and the bridge link,
and no event is posted. -/
structure State.EarlyStep (s t : State) : Prop where
  early : t.Early
  frame : State.changesOnly [.pins, .ssv, .tbu, .liu] s t
  events : t.liu.pq = s.liu.pq

theorem State.EarlyStep.refl {s : State} (h : s.Early) : s.EarlyStep s := ⟨h, changesOnly_refl _ s, rfl⟩

theorem State.EarlyStep.trans {s t u : State} (h : s.EarlyStep t) (k : t.EarlyStep u) : s.EarlyStep u :=
  ⟨k.early, changesOnly_trans h.frame k.frame, k.events.trans h.events⟩

/-- A change of the SSV that keeps its mode and marks no sleep as due. -/
theorem earlyStep_onSsv {f : Ssv → Ssv} {s : State} (h : s.Early) (hm : (f s.ssv).mode = s.ssv.mode)
    (hd : (f s.ssv).sleepDue = s.ssv.sleepDue) : s.EarlyStep (s.onSsv f) := by
  obtain ⟨hreset, hmode, hdue, hbridge⟩ := h
  refine ⟨⟨hreset, ?_, hd.trans hdue, ?_⟩, changesOnly_mono (onSsv_frame f s) (by decide), rfl⟩
  · rwa [State.onSsv_ssv, hm]
  · rwa [State.onSsv_ssv, hm]

theorem earlyStep_onPins {f : Pins → Pins} {s : State} (h : s.Early) (hr : (f s.pins).resetLow = s.pins.resetLow) :
    s.EarlyStep (s.onPins f) :=
  ⟨⟨hr.trans h.reset, h.mode, h.due, h.bridge⟩, changesOnly_mono (onPins_frame f s) (by decide), rfl⟩

theorem earlyStep_onTbu (f : Tbu → Tbu) {s : State} (h : s.Early) : s.EarlyStep (s.onTbu f) :=
  ⟨⟨h.reset, h.mode, h.due, h.bridge⟩, changesOnly_mono (onTbu_frame f s) (by decide), rfl⟩

theorem filter_sleepDue (c : CellLevel) (v : Ssv) : (v.filter c).sleepDue = v.sleepDue := by
  unfold Ssv.filter
  repeat' split
  all_goals rfl

theorem earlyStep_startSample (mv : Nat) {s : State} (h : s.Early) : s.EarlyStep (s.startSample mv) := by
  unfold State.startSample
  extract_lets t
  have ht : s.EarlyStep t := earlyStep_onSsv h (filter_mode _ _) (filter_sleepDue _ _)
  split
  · exact ht.trans (earlyStep_onSsv ht.early rfl rfl)
  · exact ht

theorem earlyStep_debounceCase {s : State} (h : s.Early) : s.EarlyStep s.debounceCase := by
  unfold State.debounceCase
  split_ifs
  · exact .refl h
  · exact earlyStep_onSsv h rfl rfl
  · exact earlyStep_onSsv h rfl rfl
  · exact .refl h

/-- Bus power comes or goes: the bridge link follows the mode, or the supply is gone. -/
theorem earlyStep_startBus (bus : Bool) {s : State} (h : s.Early) (hon : (s.startBus bus).ssv.mode ≠ .off) :
    s.EarlyStep (s.startBus bus) := by
  revert hon
  unfold State.startBus
  extract_lets t
  intro hon
  have ht : State.changesOnly [.pins] s t := onPins_frame _ s
  split_ifs at hon ⊢
  · refine ⟨⟨h.reset, .inl rfl, rfl, rfl⟩, ?_, rfl⟩
    exact changesOnly_mono (changesOnly_append ht (changesOnly_append (onSsv_frame _ t)
      (changesOnly_append (onSsv_frame _ _) (onLiu_frame _ _)))) (by decide)
  · refine ⟨⟨h.reset, .inr rfl, h.due, rfl⟩, ?_, rfl⟩
    exact changesOnly_mono (changesOnly_append ht (changesOnly_append (onSsv_frame _ t)
      (changesOnly_append (onSsv_frame _ _) (onLiu_frame _ _)))) (by decide)
  · exact absurd rfl hon

theorem earlyStep_startEvent {s : State} (h : s.Early) (e : StartEvent) (hon : (s.startEvent e).ssv.mode ≠ .off) :
    s.EarlyStep (s.startEvent e) := by
  have hsupply : s.ssv.mode ≠ .off := by rcases h.mode with hm | hm <;> rw [hm] <;> decide
  unfold State.startEvent at hon ⊢
  rw [if_neg hsupply] at hon ⊢
  cases e with
  | tick mv =>
    have ht : s.EarlyStep (s.onSsv fun v => { v with caseTimer := v.caseTimer.tick, sleepTimer := v.sleepTimer.tick }) :=
      earlyStep_onSsv h rfl rfl
    dsimp only
    split_ifs
    · exact ht.trans (earlyStep_startSample mv ht.early)
    · exact ht
  | fallback =>
    dsimp only
    split_ifs
    · exact earlyStep_onTbu _ h
    · exact .refl h
  | crystalReturn =>
    dsimp only
    split_ifs
    · exact earlyStep_onTbu _ h
    · exact .refl h
  | caseChange high =>
    have ht : s.EarlyStep (s.onPins fun p => { p with caseHigh := high }) := earlyStep_onPins h rfl
    exact ht.trans (earlyStep_debounceCase ht.early)
  | caseDebounced =>
    dsimp only
    split_ifs
    · exact earlyStep_onSsv h rfl rfl
    · exact .refl h
  | busArrives =>
    dsimp only at hon ⊢
    split_ifs at hon ⊢
    · exact .refl h
    · exact earlyStep_startBus true h hon
  | busLost =>
    dsimp only at hon ⊢
    split_ifs at hon ⊢
    · exact earlyStep_startBus false h hon
    · exact .refl h

/-! ## A run of events -/

/-- A supply that stands after some events stood after each. -/
theorem startEvents_on {e : StartEvent} {es : List StartEvent} {s : State}
    (h : ((e :: es).foldl State.startEvent s).ssv.mode ≠ .off) : (s.startEvent e).ssv.mode ≠ .off := fun ho =>
  h (by rw [List.foldl_cons, startEvents_off es ho]; exact ho)

theorem earlyStep_startEvents (es : List StartEvent) {s : State} (h : s.Early)
    (hon : (es.foldl State.startEvent s).ssv.mode ≠ .off) : s.EarlyStep (es.foldl State.startEvent s) := by
  induction es generalizing s with
  | nil => exact .refl h
  | cons e es ih =>
    have he := earlyStep_startEvent h e (startEvents_on hon)
    exact he.trans (ih he.early hon)

/-- The level that a held report brings. -/
def HeldReport.adopts : HeldReport → Option CellLevel
  | .level _ l => some l
  | _ => none

theorem adopts_startReports {s : State} {e : StartEvent} (h : (s.startEvent e).ssv.mode ≠ .off) :
    ((s.startReports e).filterMap HeldReport.adopts).getLast?.getD s.ssv.level = (s.startEvent e).ssv.level := by
  let t := s.startEvent e
  have hcase : (if t.ssv.caseIsOpen = s.ssv.caseIsOpen then []
      else [if t.ssv.caseIsOpen then HeldReport.caseOpened else .caseClosed]).filterMap HeldReport.adopts = [] := by
    split_ifs <;> rfl
  have hbus : (if s.pins.busdet && !t.pins.busdet then [HeldReport.busLost] else []).filterMap HeldReport.adopts = [] := by
    split_ifs <;> rfl
  unfold State.startReports
  dsimp only
  rw [if_neg h, List.filterMap_append, List.filterMap_append, hcase, hbus, List.append_nil, List.append_nil]
  split_ifs with hlevel
  · exact hlevel.symm
  · rfl

/-- The level after some events is the last one they adopted (R154, R160). -/
theorem adopts_heldReports (es : List StartEvent) {s : State} (h : (es.foldl State.startEvent s).ssv.mode ≠ .off) :
    ((heldReports es s).filterMap HeldReport.adopts).getLast?.getD s.ssv.level =
      (es.foldl State.startEvent s).ssv.level := by
  induction es generalizing s with
  | nil => rfl
  | cons e es ih =>
    rw [heldReports_cons, List.filterMap_append, List.getLast?_append, List.foldl_cons, ← ih h,
      ← adopts_startReports (startEvents_on h)]
    cases ((heldReports es (s.startEvent e)).filterMap HeldReport.adopts).getLast? <;> rfl

/-- The enclosure stands open after some reports exactly where the last of them that speaks of it says so. -/
theorem caseAfter_iff (rs : List HeldReport) : caseAfter false rs = true ↔
    (rs.filter fun h => h = .caseOpened ∨ h = .caseClosed).getLast? = some .caseOpened := by
  induction rs using List.reverseRecOn with
  | nil => simp [caseAfter]
  | append_singleton rs r ih =>
    rw [caseAfter_append, List.filter_append, List.getLast?_append]
    cases r <;> simp [caseAfter] at ih ⊢ <;> exact ih

end Sys2Proof.Machine
end

