-- ==== Sys2Proof/Proofs/StartTold.lean ====
section
/-! The end of start-up: what the reports held until the derivation is complete do in a state that is not open (R66, R67,
R79, R147, R154). -/

namespace Sys2Proof.Machine

/-! ## What is told in a shut state -/

/-- Not open: no lock cause but a WIPE action does anything (R66). -/
def Access.Shut (a : Access) : Prop := a ≠ .unlocked ∧ a ≠ .locking ∧ a ≠ .config

/-- A WIPE action starts a wipe there (R66, R76). -/
def Access.Wipeable (a : Access) : Prop := a = .locked ∨ a = .penalty ∨ a = .blank

theorem Access.Wipeable.shut {a : Access} (h : a.Wipeable) : a.Shut := by
  rcases h with rfl | rfl | rfl <;> simp [Access.Shut]

theorem raise_of_shut {c : LockCause} {a : CauseAction} {s : State} (h : s.acc.access.Shut) (ha : a ≠ .wipe) :
    s.raise c a = s := by
  obtain ⟨hu, hl, hc⟩ := h
  have horderly : s.orderly c = s := by
    unfold State.orderly
    cases hs : s.acc.access <;> simp_all
  have hforced : s.forced = s := by
    unfold State.forced
    cases hs : s.acc.access <;> simp_all
  cases a with
  | none => rfl
  | orderly => exact horderly
  | forced => exact hforced
  | immediate => exact hforced
  | wipe => exact absurd rfl ha

/-- The conditions and the KEU are told of, and events may be posted: everything else stands, the report of a wipe
included. -/
structure State.Told (s t : State) : Prop where
  frame : State.changesOnly [.acc, .keu, .liu] s t
  acc : t.acc = { s.acc with clockFault := t.acc.clockFault, caseOpen := t.acc.caseOpen }
  wipeState : t.liu.pq.wipeState = s.liu.pq.wipeState
  bridge : t.liu.bridge = s.liu.bridge
  flight : t.keu.flight = s.keu.flight
  intent : s.corePowered = true → s.acc.access = .blank → s.keu.intent = .enrolFirst → t.keu.intent = .enrolFirst

namespace State.Told

theorem refl (s : State) : s.Told s := ⟨changesOnly_refl _ s, rfl, rfl, rfl, rfl, fun _ _ h => h⟩

section
variable {s t u : State} (h : s.Told t)
include h

theorem access : t.acc.access = s.acc.access := by rw [h.acc]

theorem core : t.corePowered = s.corePowered :=
  State.corePowered_congr (h.frame .pins (by decide)) (h.frame .ssv (by decide))

theorem plu : t.plu = s.plu := h.frame .plu (by decide)

theorem trans (k : t.Told u) : s.Told u where
  frame := changesOnly_trans h.frame k.frame
  acc := by rw [k.acc, h.acc]
  wipeState := k.wipeState.trans h.wipeState
  bridge := k.bridge.trans h.bridge
  flight := k.flight.trans h.flight
  intent hcore hblank hi := k.intent (h.core.trans hcore) (h.access.trans hblank) (h.intent hcore hblank hi)

end

end State.Told

/-- An interrupted entry in BLANK leaves the intent of the automatic dialogue (R35, R39). -/
theorem interruptEntry_leaves (s : State) : s.interruptEntry.keu.flight = s.keu.flight ∧
    (s.corePowered = true → s.acc.access = .blank → s.keu.intent = .enrolFirst →
      s.interruptEntry.keu.intent = .enrolFirst) := by
  have hflight : s.endDialogue.keu.flight = s.keu.flight := by
    unfold State.endDialogue State.autoDialogue
    split_ifs <;> rfl
  unfold State.interruptEntry
  split_ifs
  · exact ⟨rfl, fun _ _ hi => hi⟩
  · refine ⟨hflight, fun hcore hblank _ => ?_⟩
    rw [endDialogue_keu hcore, if_pos hblank]

theorem told_tellGate (o : Bool) (s : State) : s.Told (s.tellGate o) := by
  have hframe := tellGate_frame o s
  have hacc : (s.tellGate o).acc = s.acc := hframe .acc (by decide)
  have hliu : (s.tellGate o).liu = s.liu := hframe .liu (by decide)
  have hkeu : (s.tellGate o).keu.flight = s.keu.flight ∧ (s.corePowered = true → s.acc.access = .blank →
      s.keu.intent = .enrolFirst → (s.tellGate o).keu.intent = .enrolFirst) := by
    unfold State.tellGate
    split_ifs
    · exact ⟨rfl, fun _ _ hi => hi⟩
    · exact interruptEntry_leaves s
    · exact ⟨rfl, fun _ _ hi => hi⟩
    · exact ⟨rfl, fun _ _ hi => hi⟩
  exact ⟨changesOnly_mono hframe (by decide), by rw [hacc], by rw [hliu], by rw [hliu], hkeu.1, hkeu.2⟩

theorem told_postAccessChanged (s : State) : s.Told s.postAccessChanged := by
  have hframe := postAccessChanged_frame s
  have hacc : s.postAccessChanged.acc = s.acc := hframe .acc (by decide)
  have hkeu : s.postAccessChanged.keu = s.keu := hframe .keu (by decide)
  refine ⟨changesOnly_mono hframe (by decide), by rw [hacc], ?_, (keepsReports_postAccessChanged s).bridge, by rw [hkeu],
    fun _ _ hi => hkeu ▸ hi⟩
  rw [State.postAccessChanged, State.postB_pq, State.postP_eq_onLiu]
  split_ifs <;> rfl

theorem told_conditionChanged (o : Bool) (s : State) : s.Told (s.conditionChanged o) :=
  (told_postAccessChanged s).trans (told_tellGate o _)

theorem told_postCellLevel (l : CellLevel) (m : SupplyMode) (s : State) : s.Told (s.postP (.cellLevel l m)) := by
  rw [State.postP_eq_onLiu]
  refine ⟨changesOnly_mono (onLiu_frame _ s) (by decide), rfl, ?_, rfl, rfl, fun _ _ hi => hi⟩
  split_ifs <;> rfl

theorem told_postTimebase (s : State) : s.Told s.postTimebase := by
  rw [State.postTimebase, State.postP_eq_onLiu]
  refine ⟨changesOnly_mono (onLiu_frame _ s) (by decide), rfl, ?_, rfl, rfl, fun _ _ hi => hi⟩
  split_ifs <;> rfl

/-- The flag of a condition is set or cleared. -/
theorem told_flags (f : Acc → Acc)
    (s : State) (hf : f s.acc = { s.acc with clockFault := (f s.acc).clockFault, caseOpen := (f s.acc).caseOpen }) :
    s.Told (s.onAcc f) :=
  ⟨changesOnly_mono (onAcc_frame f s) (by decide), hf, rfl, rfl, rfl, fun _ _ hi => hi⟩

/-- The onset of CASE_OPEN as far as its report. -/
def State.caseTold (s : State) : State := (s.onAcc fun c => { c with caseOpen := true }).conditionChanged s.gateOpen

theorem told_caseTold (s : State) : s.Told s.caseTold :=
  (told_flags (fun c => { c with caseOpen := true }) s rfl).trans (told_conditionChanged _ _)

theorem caseOpenOnset_eq (s : State) :
    s.caseOpenOnset = s.caseTold.raise .caseOpen (causeAction s.caseTold.plu.map.caseOpen) := by
  rw [(told_caseTold s).plu]
  rfl

theorem causeAction_wipe_iff (a : LockAction) : causeAction a = .wipe ↔ a = .wipe := by cases a <;> simp [causeAction]

/-! ## One report (R79, R154) -/

/-- A report that starts a wipe: an onset of CASE_OPEN that is mapped to WIPE. -/
def State.wipesFor (s : State) (r : HeldReport) : Prop :=
  r = .caseOpened ∧ s.plu.map.caseOpen = .wipe ∧ s.acc.access.Wipeable

theorem startWipe_of_wiped {c : WipeCause} {s : State} (h : s.acc.access = .wiping ∨ s.acc.access = .halted) :
    s.startWipe c = s := if_pos h

/-- An onset that starts no wipe is told of, and no more. -/
theorem takeReport_caseOpened {s : State} (hs : s.acc.access.Shut) (hno : ¬ s.wipesFor .caseOpened) :
    s.takeReport .caseOpened = s.caseTold := by
  have ht := told_caseTold s
  show s.caseOpenOnset = _
  rw [caseOpenOnset_eq, ht.plu]
  by_cases hmap : s.plu.map.caseOpen = .wipe
  · have hwiped : s.caseTold.acc.access = .wiping ∨ s.caseTold.acc.access = .halted := by
      obtain ⟨hu, hl, hc⟩ := hs
      have hnot : ¬ s.acc.access.Wipeable := fun hw => hno ⟨rfl, hmap, hw⟩
      rw [ht.access]
      cases ha : s.acc.access <;> simp_all [Access.Wipeable]
    have hnl : ¬ (s.caseTold.acc.access = .locked ∧ s.caseTold.entryInFlight = true) := by
      rintro ⟨hl, -⟩
      rcases hwiped with h | h <;> rw [h] at hl <;> cases hl
    rw [hmap]
    show s.caseTold.wipeAction = _
    rw [State.wipeAction, if_neg hnl, startWipe_of_wiped hwiped]
  · exact raise_of_shut (ht.access ▸ hs) (by rw [Ne, causeAction_wipe_iff]; exact hmap)

theorem takeReport_busLost {s : State} (hs : s.acc.access.Shut) : s.takeReport .busLost = s :=
  raise_of_shut (c := .busLoss) (a := .forced) hs (by decide)

theorem takeReport_told {r : HeldReport} {s : State} (hs : s.acc.access.Shut) (hno : ¬ s.wipesFor r) :
    s.Told (s.takeReport r) := by
  cases r with
  | level falling new =>
    unfold State.takeReport
    dsimp only
    split_ifs
    · exact told_postCellLevel _ _ s
    · exact .refl s
  | caseClosed => exact (told_flags (fun c => { c with caseOpen := false }) s rfl).trans (told_conditionChanged _ _)
  | busLost =>
    rw [takeReport_busLost hs]
    exact .refl s
  | caseOpened => exact takeReport_caseOpened hs hno ▸ told_caseTold s

theorem takeReport_wipes {r : HeldReport} {s : State} (hf : s.keu.flight = none) (h : s.wipesFor r) :
    s.takeReport r = s.caseTold.startWipe .caseOpen := by
  obtain ⟨rfl, hmap, -⟩ := h
  have ht := told_caseTold s
  have hflight : s.caseTold.entryInFlight = false := by rw [State.entryInFlight, ht.flight, hf]
  show s.caseOpenOnset = _
  rw [caseOpenOnset_eq, ht.plu, hmap]
  show s.caseTold.wipeAction = _
  rw [State.wipeAction, if_neg (by simp [hflight])]

/-! ## The wipe that an onset starts (R76, R101) -/

/-- A wipe's start leaves the settings in force. -/
structure State.KeepsSettings (s t : State) : Prop where
  policy : t.plu.policy = s.plu.policy
  map : t.plu.map = s.plu.map
  inForce : t.plu.inForce = s.plu.inForce

theorem discardPendingSet_keepsSettings (s : State) : s.KeepsSettings s.discardPendingSet := by
  unfold State.discardPendingSet
  extract_lets gs t u
  have hplu : u.plu = t.plu :=
    foldl_frame (fun v (g : Staging) => refuseTo_frame g.requester .wiping v) gs t .plu (by decide)
  have hu : s.KeepsSettings u := ⟨by rw [hplu]; rfl, by rw [hplu]; rfl, by rw [hplu]; rfl⟩
  split_ifs
  · exact ⟨hu.policy, hu.map, hu.inForce⟩
  · exact hu

section
variable (c : WipeCause) {s : State} (h : s.acc.access.Wipeable)
include h

theorem startWipe_acc_of_wipeable : (s.startWipe c).acc = { s.acc with access := .wiping, openSlot := none } := by
  have hquit : s.quitForWipe = s := by
    unfold State.quitForWipe
    rcases h with h | h | h <;> rw [h]
  rw [State.startWipe_acc, hquit] <;> rcases h with h | h | h <;> rw [h] <;> decide

/-- What the start of a wipe in LOCKED, PENALTY or BLANK does (R76). -/
theorem startWipe_eq : s.startWipe c =
    (((s.stopPenalty.discardPendingSet).armWipe c).changeAccess .wiping none).onWpe fun w =>
      { w with run := (((s.stopPenalty.discardPendingSet).armWipe c).changeAccess .wiping none).runCondition } := by
  have hquit : s.quitForWipe = s := by
    unfold State.quitForWipe
    rcases h with h | h | h <;> rw [h]
  rw [State.startWipe, if_neg (by rcases h with h | h | h <;> simp [h]), hquit]

theorem startWipe_keepsSettings : s.KeepsSettings (s.startWipe c) := by
  have hplu : (s.startWipe c).plu = s.stopPenalty.discardPendingSet.plu := by
    rw [startWipe_eq c h]
    exact changesOnly_append (armWipe_frame c _) (changeAccess_frame .wiping none _) .plu (by decide)
  obtain ⟨hpolicy, hmap, hforce⟩ := discardPendingSet_keepsSettings s.stopPenalty
  exact ⟨by rw [hplu, hpolicy]; rfl, by rw [hplu, hmap]; rfl, by rw [hplu, hforce]; rfl⟩

/-- The write that marks the wipe active is asked for (R101). -/
theorem startWipe_marks : ∃ w, (s.startWipe c).writing (.journal (some w)) (.journal .start) ∧ w.cause = c ∧
    w.step = .keys ∧ w.depth = s.depthOf c ∧ w.keepAdmin = s.keepOf c := by
  let u := s.stopPenalty.discardPendingSet
  have hpolicy : u.plu.policy = s.plu.policy := (discardPendingSet_keepsSettings s.stopPenalty).policy
  have hrsc : (s.startWipe c).rsc = (u.armWipe c).rsc := by
    rw [startWipe_eq c h]
    exact changeAccess_frame .wiping none (u.armWipe c) .rsc (by decide)
  refine ⟨u.wipeRecord c, ?_, rfl, rfl, ?_, ?_⟩
  · rw [State.writing_iff, hrsc]
    exact Rsc.mem_request_self _ u.rsc
  · show u.depthOf c = _
    rw [State.depthOf, hpolicy, State.depthOf]
  · show u.keepOf c = _
    rw [State.keepOf, hpolicy, State.keepOf]

/-- The WPE waits for that write. -/
theorem startWipe_wpe : (s.startWipe c).wpe.journal = s.wpe.journal ∧ (s.startWipe c).wpe.position = .starting := by
  have hwpe : ((s.stopPenalty.discardPendingSet.armWipe c).changeAccess .wiping none).wpe =
      (s.stopPenalty.discardPendingSet.armWipe c).wpe := State.changeAccess_wpe _ _ _
  have hdiscard : s.stopPenalty.discardPendingSet.wpe = s.wpe := discardPendingSet_frame s.stopPenalty .wpe (by decide)
  rw [startWipe_eq c h]
  simp only [State.onWpe_wpe, hwpe]
  refine ⟨?_, rfl⟩
  show s.stopPenalty.discardPendingSet.wpe.journal = _
  rw [hdiscard]

end

end Sys2Proof.Machine
end

