-- ==== Sys2Proof/Proofs/StartReported.lean ====
section
/-! The end of start-up: the reports held, one after another, in a state that is not open (R79, R154, R161). -/

namespace Sys2Proof.Machine

/-! ## What every report keeps -/

/-- The last report of the access state is of the state as it stands. -/
def State.Announced (s : State) : Prop := s.liu.pq.accessChanged = some s.accessReport

/-- What the reports at the end of start-up keep. -/
structure State.Reported (s t : State) : Prop where
  frame : State.changesOnly [.acc, .keu, .liu, .atl, .plu, .rsc, .wpe] s t
  settings : s.KeepsSettings t
  startCause : t.acc.startCause = s.acc.startCause
  openSlot : s.acc.openSlot = none → t.acc.openSlot = none
  bridge : t.liu.bridge = s.liu.bridge
  shut : s.acc.access.Shut → t.acc.access.Shut
  flight : t.keu.flight = s.keu.flight

theorem State.KeepsSettings.of_plu {s t : State} (h : t.plu = s.plu) : s.KeepsSettings t :=
  ⟨congrArg Plu.policy h, congrArg Plu.map h, congrArg Plu.inForce h⟩

theorem State.KeepsSettings.trans {s t u : State} (h : s.KeepsSettings t) (k : t.KeepsSettings u) : s.KeepsSettings u :=
  ⟨k.policy.trans h.policy, k.map.trans h.map, k.inForce.trans h.inForce⟩

namespace State.Reported

theorem of_told {s t : State} (h : s.Told t) : s.Reported t where
  frame := changesOnly_mono h.frame (by decide)
  settings := .of_plu h.plu
  startCause := by rw [h.acc]
  openSlot ho := by rw [h.acc]; exact ho
  bridge := h.bridge
  shut hs := h.access ▸ hs
  flight := h.flight

section
variable {s t u : State} (h : s.Reported t)
include h

theorem core : t.corePowered = s.corePowered :=
  State.corePowered_congr (h.frame .pins (by decide)) (h.frame .ssv (by decide))

theorem ssv : t.ssv = s.ssv := h.frame .ssv (by decide)

theorem trans (k : t.Reported u) : s.Reported u where
  frame := changesOnly_trans h.frame k.frame
  settings := h.settings.trans k.settings
  startCause := k.startCause.trans h.startCause
  openSlot ho := k.openSlot (h.openSlot ho)
  bridge := k.bridge.trans h.bridge
  shut hs := k.shut (h.shut hs)
  flight := k.flight.trans h.flight

end

end State.Reported

theorem interruptEntry_flight (s : State) : s.interruptEntry.keu.flight = s.keu.flight := (interruptEntry_leaves s).1

theorem reported_startWipe (c : WipeCause) {s : State} (h : s.acc.access.Wipeable) : s.Reported (s.startWipe c) where
  frame := changesOnly_mono (startWipe_frame c s) (by decide)
  settings := startWipe_keepsSettings c h
  startCause := by rw [startWipe_acc_of_wipeable c h]
  openSlot _ := by rw [startWipe_acc_of_wipeable c h]
  bridge := (keepsReports_startWipe s c).bridge
  shut _ := by rw [startWipe_acc_of_wipeable c h]; simp [Access.Shut]
  flight := by
    let u := s.stopPenalty.discardPendingSet.armWipe c
    have hu : u.keu = s.keu := (changesOnly_append (stopPenalty_frame s) <|
      changesOnly_append (discardPendingSet_frame _) (armWipe_frame c _)) .keu (by decide)
    have hchange : (u.changeAccess .wiping none).keu =
        ((u.onAcc fun c => { c with access := .wiping, openSlot := none }).interruptEntry).keu :=
      postAccessChanged_frame _ .keu (by decide)
    rw [startWipe_eq c h, State.onWpe_keu, hchange, interruptEntry_flight, State.onAcc_keu, hu]

/-! ## One report -/

theorem takeReport_reported {r : HeldReport} {s : State} (hs : s.acc.access.Shut) (hf : s.keu.flight = none) :
    s.Reported (s.takeReport r) := by
  by_cases h : s.wipesFor r
  · have ht := told_caseTold s
    rw [takeReport_wipes hf h]
    exact (State.Reported.of_told ht).trans (reported_startWipe .caseOpen (ht.access ▸ h.2.2))
  · exact .of_told (takeReport_told hs h)

/-- The level that a report posts: a fall, and a rise where CELL_RISE_REPORT says so (R161). -/
def HeldReport.posts (rise : Bool) : HeldReport → Option CellLevel
  | .level falling l => if falling = true ∨ rise = true then some l else none
  | _ => none

theorem caseTold_keepsReports (s : State) : s.KeepsReports s.caseTold :=
  (keepsReports_conditionChanged _ _).after ⟨rfl, rfl, rfl⟩

theorem keepsReports_raise_of_shut (c : LockCause) (a : CauseAction) {s : State} (hs : s.acc.access.Shut) :
    s.KeepsReports (s.raise c a) := by
  by_cases ha : a = .wipe
  · rw [ha]
    exact .ite (fun _ => .of_frame (onAcc_frame _ s)) fun _ => keepsReports_startWipe s _
  · rw [raise_of_shut hs ha]
    exact .refl s

theorem takeReport_keepsReports {r : HeldReport} {s : State} (hs : s.acc.access.Shut) (hr : ∀ f l, r ≠ .level f l) :
    s.KeepsReports (s.takeReport r) := by
  cases r with
  | level f l => exact absurd rfl (hr f l)
  | caseClosed => exact (keepsReports_conditionChanged _ _).after ⟨rfl, rfl, rfl⟩
  | busLost =>
    rw [takeReport_busLost hs]
    exact .refl s
  | caseOpened =>
    show s.KeepsReports s.caseOpenOnset
    rw [caseOpenOnset_eq]
    exact (caseTold_keepsReports s).trans (keepsReports_raise_of_shut _ _ ((told_caseTold s).access ▸ hs))

/-- A level held is posted to the panel, or nothing is done. -/
theorem takeReport_level (f : Bool) (l : CellLevel) (s : State) :
    s.takeReport (.level f l) = if ((HeldReport.level f l).posts s.plu.policy.cellRiseReport).isSome = true
      then s.postP (.cellLevel l s.ssv.mode) else s := by
  unfold State.takeReport HeldReport.posts
  cases f <;> cases s.plu.policy.cellRiseReport <;> rfl

theorem takeReport_cellLevel (r : HeldReport) {s : State} (hs : s.acc.access.Shut) (hcore : s.corePowered = true) :
    (s.takeReport r).liu.pq.cellLevel =
      ((r.posts s.plu.policy.cellRiseReport).map fun l => (l, s.ssv.mode)).or s.liu.pq.cellLevel := by
  cases r with
  | level f l =>
    rw [takeReport_level, State.postP, if_pos hcore]
    unfold HeldReport.posts
    split_ifs <;> simp_all [PQueue.post]
  | caseOpened => exact (takeReport_keepsReports hs (by simp)).level
  | caseClosed => exact (takeReport_keepsReports hs (by simp)).level
  | busLost => exact (takeReport_keepsReports hs (by simp)).level

theorem takeReport_timebase (r : HeldReport) {s : State} (hs : s.acc.access.Shut) :
    (s.takeReport r).liu.pq.timebaseChanged = s.liu.pq.timebaseChanged := by
  cases r with
  | level f l =>
    rw [takeReport_level, State.postP_eq_onLiu]
    split_ifs <;> rfl
  | caseOpened => exact (takeReport_keepsReports hs (by simp)).timebase
  | caseClosed => exact (takeReport_keepsReports hs (by simp)).timebase
  | busLost => exact (takeReport_keepsReports hs (by simp)).timebase

/-! ## The access state stays announced (R60) -/

theorem State.Announced.of_same {s t : State} (h : s.Announced) (ha : t.acc = s.acc) (hp : t.liu.pq = s.liu.pq) :
    t.Announced := by
  rw [State.Announced, hp, State.accessReport, ha]
  exact h

theorem announced_conditionChanged (o : Bool) {s : State} (hcore : s.corePowered = true) :
    (s.conditionChanged o).Announced := by
  have hframe := tellGate_frame o s.postAccessChanged
  have hacc : (s.conditionChanged o).acc = s.acc :=
    (hframe .acc (by decide)).trans (postAccessChanged_frame s .acc (by decide))
  rw [State.Announced, State.conditionChanged, hframe .liu (by decide), postAccessChanged_reports hcore,
    State.accessReport, State.accessReport, ← hacc]
  rfl

theorem announced_changeAccess (a : Access) (o : Option SlotIx) {s : State} (hcore : s.corePowered = true) :
    (s.changeAccess a o).Announced := by
  rw [State.Announced, State.changeAccess_report a o hcore, State.accessReport, State.changeAccess_acc]

theorem announced_startWipe (c : WipeCause) {s : State} (hcore : s.corePowered = true) (h : s.acc.access.Wipeable) :
    (s.startWipe c).Announced := by
  let u := s.stopPenalty.discardPendingSet.armWipe c
  have hframe : State.changesOnly [.atl, .plu, .rsc, .liu, .wpe] s u :=
    changesOnly_mono (changesOnly_append (stopPenalty_frame s) <|
      changesOnly_append (discardPendingSet_frame _) (armWipe_frame c _)) (by decide)
  have hcore' : u.corePowered = true :=
    (State.corePowered_congr (hframe .pins (by decide)) (hframe .ssv (by decide))).trans hcore
  rw [startWipe_eq c h]
  exact (announced_changeAccess .wiping none hcore').of_same rfl rfl

theorem announced_takeReport (r : HeldReport) {s : State} (hs : s.acc.access.Shut) (hf : s.keu.flight = none)
    (hcore : s.corePowered = true) (h : s.Announced) : (s.takeReport r).Announced := by
  by_cases hw : s.wipesFor r
  · have ht := told_caseTold s
    rw [takeReport_wipes hf hw]
    exact announced_startWipe .caseOpen (ht.core.trans hcore) (ht.access ▸ hw.2.2)
  · cases r with
    | level f l =>
      rw [takeReport_level, State.postP, if_pos hcore]
      split_ifs
      · exact h
      · exact h
    | caseClosed => exact announced_conditionChanged _ hcore
    | busLost => rwa [takeReport_busLost hs]
    | caseOpened =>
      rw [takeReport_caseOpened hs hw]
      exact announced_conditionChanged _ hcore

/-! ## All of them -/

theorem takeReports_reported (rs : List HeldReport) {s : State} (hs : s.acc.access.Shut) (hf : s.keu.flight = none) :
    s.Reported (rs.foldl State.takeReport s) := by
  induction rs generalizing s with
  | nil => exact .of_told (.refl s)
  | cons r rs ih =>
    have hr := takeReport_reported (r := r) hs hf
    exact hr.trans (ih (hr.shut hs) (hr.flight.trans hf))

theorem announced_takeReports (rs : List HeldReport) {s : State} (hs : s.acc.access.Shut) (hf : s.keu.flight = none)
    (hcore : s.corePowered = true) (h : s.Announced) : (rs.foldl State.takeReport s).Announced := by
  induction rs generalizing s with
  | nil => exact h
  | cons r rs ih =>
    have hr := takeReport_reported (r := r) hs hf
    exact ih (hr.shut hs) (hr.flight.trans hf) (hr.core.trans hcore) (announced_takeReport r hs hf hcore h)

theorem takeReports_timebase (rs : List HeldReport) {s : State} (hs : s.acc.access.Shut) (hf : s.keu.flight = none) :
    (rs.foldl State.takeReport s).liu.pq.timebaseChanged = s.liu.pq.timebaseChanged := by
  induction rs generalizing s with
  | nil => rfl
  | cons r rs ih =>
    have hr := takeReport_reported (r := r) hs hf
    rw [List.foldl_cons, ih (hr.shut hs) (hr.flight.trans hf), takeReport_timebase r hs]

/-- The panel is left with the last level that was posted (R161). -/
theorem takeReports_cellLevel (rs : List HeldReport) {s : State} (hs : s.acc.access.Shut) (hf : s.keu.flight = none)
    (hcore : s.corePowered = true) : (rs.foldl State.takeReport s).liu.pq.cellLevel =
      ((rs.filterMap (HeldReport.posts s.plu.policy.cellRiseReport)).getLast?.map fun l => (l, s.ssv.mode)).or
        s.liu.pq.cellLevel := by
  induction rs generalizing s with
  | nil => rfl
  | cons r rs ih =>
    have hr := takeReport_reported (r := r) hs hf
    rw [List.foldl_cons, ih (hr.shut hs) (hr.flight.trans hf) (hr.core.trans hcore), takeReport_cellLevel r hs hcore,
      hr.settings.policy, hr.ssv]
    cases hp : r.posts s.plu.policy.cellRiseReport with
    | none => rw [List.filterMap_cons_none hp]; rfl
    | some l =>
      rw [List.filterMap_cons_some hp, List.getLast?_cons]
      cases (rs.filterMap (HeldReport.posts s.plu.policy.cellRiseReport)).getLast? <;> rfl

/-- Whether some reports start a wipe. -/
def State.wipesForSome (s : State) (rs : List HeldReport) : Prop :=
  .caseOpened ∈ rs ∧ s.plu.map.caseOpen = .wipe ∧ s.acc.access.Wipeable

theorem takeReports_told {rs : List HeldReport} {s : State} (hs : s.acc.access.Shut) (hno : ¬ s.wipesForSome rs) :
    s.Told (rs.foldl State.takeReport s) := by
  induction rs generalizing s with
  | nil => exact .refl s
  | cons r rs ih =>
    have hr : s.Told (s.takeReport r) := takeReport_told hs fun h => hno ⟨h.1 ▸ List.mem_cons_self, h.2⟩
    refine hr.trans (ih (hr.access ▸ hs) fun ⟨hm, hmap, hw⟩ => hno ⟨List.mem_cons_of_mem r hm, ?_, hr.access ▸ hw⟩)
    rwa [hr.plu] at hmap

/-- The first onset mapped to WIPE starts a wipe, and what follows is told of (R67, R76). -/
theorem takeReports_wipes {rs : List HeldReport} {s : State} (hf : s.keu.flight = none) (h : s.wipesForSome rs) :
    ∃ m, s.Told m ∧ (m.startWipe .caseOpen).Told (rs.foldl State.takeReport s) := by
  induction rs generalizing s with
  | nil => cases h.1
  | cons r rs ih =>
    obtain ⟨hm, hmap, hw⟩ := h
    by_cases hr : r = .caseOpened
    · have ht := told_caseTold s
      have hwm : s.caseTold.acc.access.Wipeable := ht.access ▸ hw
      refine ⟨s.caseTold, ht, ?_⟩
      rw [List.foldl_cons, takeReport_wipes hf ⟨hr, hmap, hw⟩]
      refine takeReports_told ?_ fun hagain => ?_
      · rw [startWipe_acc_of_wipeable _ hwm]
        simp [Access.Shut]
      · have hwiping := hagain.2.2
        rw [startWipe_acc_of_wipeable _ hwm] at hwiping
        rcases hwiping with h | h | h <;> cases h
    · have ht : s.Told (s.takeReport r) := takeReport_told hw.shut fun hone => hr hone.1
      obtain ⟨m, hsm, hmt⟩ := ih (ht.flight.trans hf)
        ⟨(List.mem_cons.mp hm).resolve_left (Ne.symm hr), by rw [ht.plu]; exact hmap, ht.access ▸ hw⟩
      exact ⟨m, ht.trans hsm, hmt⟩

/-! ## The timebase (R79, R147) -/

/-- The report of the timebase and the onset of CLOCK_FAULT as far as its report. -/
def State.clockTold (s : State) : State :=
  (s.postTimebase.onAcc fun c => { c with clockFault := true }).conditionChanged s.postTimebase.gateOpen

theorem told_clockTold (s : State) : s.Told s.clockTold :=
  ((told_postTimebase s).trans (told_flags (fun c => { c with clockFault := true }) _ rfl)).trans
    (told_conditionChanged _ _)

section
variable {s : State} (hs : s.acc.access.Shut) (hmap : s.plu.map.wellFormed = true)
include hs hmap

/-- A map in force never answers CLOCK_FAULT with WIPE (R67), so its onset starts nothing in a state that is not open. -/
theorem reportTimebase_eq : s.reportTimebase = if s.tbu.state = .fallback then s.clockTold else s := by
  have ht := told_clockTold s
  have hraise : s.clockTold.raise .clockFault (causeAction s.plu.map.clockFault) = s.clockTold := by
    refine raise_of_shut (ht.access ▸ hs) ?_
    rw [Ne, causeAction_wipe_iff]
    intro hwipe
    simp [LockMap.wellFormed, hwipe, mapAllows] at hmap
  have honset : s.postTimebase.clockFaultOnset = s.clockTold := by
    rw [State.clockFaultOnset, (told_postTimebase s).plu]
    exact hraise
  rw [State.reportTimebase, honset]

theorem reportTimebase_told : s.Told s.reportTimebase := by
  rw [reportTimebase_eq hs hmap]
  split_ifs
  · exact told_clockTold s
  · exact .refl s

theorem announced_reportTimebase (hcore : s.corePowered = true) (h : s.Announced) : s.reportTimebase.Announced := by
  rw [reportTimebase_eq hs hmap]
  split_ifs
  · exact announced_conditionChanged _ ((told_postTimebase s).core.trans hcore)
  · exact h

theorem reportTimebase_cellLevel : s.reportTimebase.liu.pq.cellLevel = s.liu.pq.cellLevel := by
  rw [reportTimebase_eq hs hmap]
  split_ifs
  · rw [State.clockTold, (keepsReports_conditionChanged _ _).level, State.onAcc_liu, State.postTimebase,
      State.postP_eq_onLiu]
    show (if s.corePowered = true then _ else s.liu.pq).cellLevel = _
    split_ifs <;> rfl
  · rfl

theorem reportTimebase_timebase (hcore : s.corePowered = true) : s.reportTimebase.liu.pq.timebaseChanged =
    if s.tbu.state = .fallback then some .fallback else s.liu.pq.timebaseChanged := by
  rw [reportTimebase_eq hs hmap]
  split_ifs with hf
  · rw [State.clockTold, (keepsReports_conditionChanged _ _).timebase, State.onAcc_liu, State.postTimebase, State.postP,
      if_pos hcore, hf]
    rfl
  · rfl

end

end Sys2Proof.Machine
end

