-- ==== Sys2Proof/Proofs/StartResumed.lean ====
section
/-! A wipe that resumes at start-up: the recorded step begins from its beginning, and the end of the derivation adds
nothing to it (R105, R106, R117). -/

namespace Sys2Proof.Machine

theorem begin_eq_stepBegins (s : WipeStep) : s.begin = stepBegins s := by cases s <;> rfl

theorem begin_ne_stalled (s : WipeStep) : s.begin ≠ .stalled := by cases s <;> simp [WipeStep.begin]

/-! ## The first action -/

/-- A wipe whose run condition is up to date. -/
def State.Timely (s : State) : Prop := s.runCondition = s.wpe.run

theorem State.Timely.refreshRun {s : State} (h : s.Timely) : s.refreshRun = s := if_neg fun hne => hne.2 h

/-- The wipe acted: a write of it is asked for, and its run condition stands. -/
structure State.Busied (s t : State) : Prop where
  busy : t.wipeBusy = true
  timely : t.Timely
  frame : State.changesOnly [.wpe, .kru, .rsc, .atl] s t

theorem State.proceed_busy {s : State} (h : s.wipeBusy = true) : s.proceed = s := if_pos (.inr (.inr (.inl h)))

theorem request_busy (c : Contents) {p : Purpose} (r : Rsc) (h : p.isWipe = true) :
    (r.request { contents := c, purpose := p }).purposes.any Purpose.isWipe = true := by
  rw [Rsc.purposes_eq, List.any_map, List.any_eq_true]
  exact ⟨_, Rsc.mem_request_self _ r, h⟩

section
variable {w : WipeRecord} {s : State} (h : s.Resumes w)
include h

theorem State.Resumes.timely : s.Timely := h.run.symm

/-- An action that leaves the WPE's items. -/
theorem State.Resumes.busied {t : State} (hb : t.wipeBusy = true) (hf : State.changesOnly [.kru, .rsc, .atl] s t) :
    s.Busied t := by
  refine ⟨hb, ?_, changesOnly_mono hf (by decide)⟩
  have hwpe : t.wpe = s.wpe := hf .wpe (by decide)
  rw [State.Timely, runCondition_congr h.core (hf .pins (by decide)) (hf .ssv (by decide)) (congrArg _ hwpe)
    (congrArg Wpe.view hwpe) (congrArg Liu.bridge (hf .liu (by decide))), hwpe]
  exact h.timely

/-- The rekey that is due, or the write that closes the wipe. -/
theorem State.Resumes.busied_rekey (k : Nat) (hp : s.wpe.position ≠ .stalled) : s.Busied (s.rekeyNext w k) := by
  have hframe := rekeyNext_frame w k s
  revert hframe
  unfold State.rekeyNext
  split
  case h_2 =>
    intro _
    exact h.busied (request_busy _ _ rfl) (changesOnly_mono (requestWrite_frame _ _ s) (by decide))
  case h_1 i _ =>
    let u := s.onWpe fun e => { e with position := .rekey i.val }
    intro hframe
    have hbusy : (u.rekeyOne w i).wipeBusy = true := by
      unfold State.rekeyOne
      split <;> exact request_busy _ _ rfl
    refine ⟨hbusy, ?_, changesOnly_mono hframe (by decide)⟩
    have hwpe : (u.rekeyOne w i).wpe = { s.wpe with position := .rekey i.val } := by
      unfold State.rekeyOne
      split <;> rfl
    generalize u.rekeyOne w i = t at *
    have hpins : t.pins = s.pins := hframe .pins (by decide)
    have hssv : t.ssv = s.ssv := hframe .ssv (by decide)
    have hpause : t.pauseHolds = false := by
      rw [pauseHolds_of_core ((State.corePowered_congr hpins hssv).trans h.core), State.cellCritAwake, hssv]
      exact (pauseHolds_of_core h.core).symm.trans h.going
    have hmedia : t.mediaWaits = s.mediaWaits := by
      rw [State.mediaWaits, State.mediaWaits, hwpe, hframe .liu (by decide)]
      rfl
    have hrun : t.runCondition = s.runCondition := by
      rw [State.runCondition, State.runCondition, hpause, h.going, if_neg hp, hmedia, hwpe]
      rfl
    rw [State.Timely, hrun, hwpe]
    exact h.timely

/-- At the beginning of its step a wipe asks for a write of its own, or has nothing to do (R106). -/
theorem State.Resumes.proceed_begins (hp : s.wpe.position = w.step.begin) : s.proceed = s ∨ s.Busied s.proceed := by
  rw [State.proceed, if_neg (h.acts (hp ▸ begin_ne_stalled _))]
  simp only [h.journal, hp]
  cases hw : w.step with
  | close => exact .inl rfl
  | keys =>
    exact .inr (h.busied (t := s.destroyVolume 0) (request_busy _ _ rfl)
      (changesOnly_mono (destroyVolume_frame 0 s) (by decide)))
  | limiter => exact .inr (h.busied (request_busy _ _ rfl)
      (changesOnly_mono (changesOnly_append (stopPenalty_frame s) (requestWrite_frame _ _ _)) (by decide)))
  | rekey => exact .inr (h.busied_rekey 0 (hp ▸ begin_ne_stalled _))
  | media =>
    show s.formOrder w = s ∨ s.Busied (s.formOrder w)
    rw [h.formOrder_apart]
    split_ifs
    · exact .inr (h.busied (request_busy _ _ rfl) (changesOnly_mono (requestWrite_frame _ _ s) (by decide)))
    · exact .inl rfl

end

/-! ## The wipe once resumed (R105) -/

/-- The wipe before its first action: at the beginning of the recorded step, and reported. -/
def State.resumed (w : WipeRecord) (s : State) : State :=
  let u := (s.onWpe fun e => { Wpe.init with journal := e.journal, position := w.step.begin }).changeAccess .wiping none
  (u.onWpe fun e => { e with run := u.runCondition }).postWipeState

theorem resumeWipe_eq (w : WipeRecord) (s : State) : s.resumeWipe w = (s.resumed w).proceed := rfl

theorem resumed_frame (w : WipeRecord) (s : State) : State.changesOnly [.acc, .keu, .liu, .wpe] s (s.resumed w) :=
  changesOnly_mono (changesOnly_append (onWpe_frame _ s) <| changesOnly_append (changeAccess_frame .wiping none _) <|
    changesOnly_append (onWpe_frame _ _) (postWipeState_frame _)) (by decide)

theorem resumed_acc (w : WipeRecord) (s : State) :
    (s.resumed w).acc = { s.acc with access := .wiping, openSlot := none } := by
  unfold State.resumed
  rw [postWipeState_frame _ .acc (by decide), State.onWpe_acc, State.changeAccess_acc, State.onWpe_acc]

theorem resumed_wpe (w : WipeRecord) (s : State) : (s.resumed w).wpe =
    { Wpe.init with journal := s.wpe.journal, position := w.step.begin, run := (s.resumed w).wpe.run } := by
  have hwpe (f : Wpe → Wpe) (u : State) : (u.onWpe f).postWipeState.wpe = f u.wpe :=
    postWipeState_frame _ .wpe (by decide)
  unfold State.resumed
  dsimp only
  rw [hwpe, State.changeAccess_wpe]
  rfl

theorem keepsReports_resumed (w : WipeRecord) (s : State) : s.KeepsReports (s.resumed w) :=
  (((State.KeepsReports.of_frame (onWpe_frame _ s)).trans (keepsReports_changeAccess _ _ _)).trans
    (.of_frame (onWpe_frame _ _))).trans (keepsReports_postWipeState _)

section
variable {w : WipeRecord} {s : State} (hcore : s.corePowered = true)
include hcore

theorem resumed_core : (s.resumed w).corePowered = true :=
  (State.corePowered_congr (resumed_frame w s .pins (by decide)) (resumed_frame w s .ssv (by decide))).trans hcore

theorem resumed_timely : (s.resumed w).Timely := by
  let u := (s.onWpe fun e => { Wpe.init with journal := e.journal, position := w.step.begin }).changeAccess .wiping none
  let v := u.onWpe fun e => { e with run := u.runCondition }
  have hu := changesOnly_append (onWpe_frame (fun e => { Wpe.init with journal := e.journal, position := w.step.begin }) s)
    (changeAccess_frame .wiping none _)
  have hcore' : u.corePowered = true :=
    (State.corePowered_congr (hu .pins (by decide)) (hu .ssv (by decide))).trans hcore
  have hv := postWipeState_frame v
  have hwpe : v.postWipeState.wpe = v.wpe := hv .wpe (by decide)
  show v.postWipeState.runCondition = v.postWipeState.wpe.run
  rw [runCondition_congr hcore' (hv .pins (by decide)) (hv .ssv (by decide)) (by rw [hwpe]; rfl) (by rw [hwpe]; rfl)
    (keepsReports_postWipeState v).bridge, hwpe]
  rfl

theorem resumed_announced : (s.resumed w).Announced := by
  let t := s.onWpe fun e => { Wpe.init with journal := e.journal, position := w.step.begin }
  let v := (t.changeAccess .wiping none).onWpe fun e => { e with run := (t.changeAccess .wiping none).runCondition }
  have hv : v.Announced := announced_changeAccess (s := t) .wiping none hcore
  show v.postWipeState.liu.pq.accessChanged = some v.postWipeState.accessReport
  rw [postWipeState_accessChanged, State.accessReport, postWipeState_frame v .acc (by decide)]
  exact hv

theorem resumed_reports (hj : s.wpe.journal = some w) : (s.resumed w).reportsWipe w := by
  let t := s.onWpe fun e => { Wpe.init with journal := e.journal, position := w.step.begin }
  have hcore' : (t.changeAccess .wiping none).corePowered = true :=
    (State.corePowered_congr (changeAccess_frame _ _ t .pins (by decide)) (changeAccess_frame _ _ t .ssv (by decide))).trans
      hcore
  refine postWipeState_reports hcore' ?_
  rw [State.onWpe_wpe, State.changeAccess_wpe]
  exact hj

/-- A wipe that is not to pause is ready to act. -/
theorem resumed_resumes (hj : s.wpe.journal = some w) (hgoing : s.cellCritAwake = false)
    (hfree : s.wipeBusy = false) (hapart : s.liu.bridge ≠ .attached) : (s.resumed w).Resumes w := by
  have hframe := resumed_frame w s
  have hcore' := resumed_core (w := w) hcore
  refine ⟨by rw [resumed_acc], hcore', ?_, by rw [resumed_wpe, ← hj], (resumed_timely hcore).symm, ?_,
    (keepsReports_resumed w s).bridge ▸ hapart⟩
  · rw [State.wipeBusy, hframe .rsc (by decide)]
    exact hfree
  · rw [pauseHolds_of_core hcore', State.cellCritAwake, hframe .ssv (by decide)]
    exact hgoing

/-- At CRIT in CELL_AWAKE the wipe pauses (R117). -/
theorem resumed_paused (hcrit : s.cellCritAwake = true) : (s.resumed w).wpe.run = .paused := by
  rw [← resumed_timely hcore, runCondition_paused_iff, pauseHolds_of_core (resumed_core hcore), State.cellCritAwake,
    resumed_frame w s .ssv (by decide)]
  exact hcrit

theorem resumeWipe_of_paused (hcrit : s.cellCritAwake = true) : s.resumeWipe w = s.resumed w :=
  if_pos (.inr (.inr (.inr (.inl (resumed_paused hcore hcrit)))))

end

/-- Its first action leaves the keypad. -/
theorem resumeWipe_keu {w : WipeRecord} {s : State} (hcore : s.corePowered = true) (hj : s.wpe.journal = some w)
    (hfree : s.wipeBusy = false) (hapart : s.liu.bridge ≠ .attached) : (s.resumeWipe w).keu = (s.resumed w).keu := by
  cases hcrit : s.cellCritAwake with
  | true => rw [resumeWipe_of_paused hcore hcrit]
  | false =>
    rw [resumeWipe_eq]
    rcases (resumed_resumes hcore hj hcrit hfree hapart).proceed_begins (by rw [resumed_wpe]) with hidle | hbusied
    · rw [hidle]
    · exact hbusied.frame .keu (by decide)

/-! ## The end of the derivation adds nothing -/

theorem State.Told.wpe {s t : State} (h : s.Told t) : t.wpe = s.wpe := h.frame .wpe (by decide)

theorem State.Told.timely {s t : State} (h : s.Told t) (hcore : s.corePowered = true) (hs : s.Timely) : t.Timely := by
  rw [State.Timely, runCondition_congr hcore (h.frame .pins (by decide)) (h.frame .ssv (by decide)) (congrArg _ h.wpe)
    (congrArg Wpe.view h.wpe) h.bridge, h.wpe]
  exact hs

theorem State.Told.busy {s t : State} (h : s.Told t) : t.wipeBusy = s.wipeBusy := by
  rw [State.wipeBusy, h.frame .rsc (by decide)]
  rfl

theorem State.Told.reportsWipe {w : WipeRecord} {s t : State} (h : s.Told t) (hr : s.reportsWipe w) : t.reportsWipe w := by
  rw [State.reportsWipe, h.wipeState, h.wpe]
  exact hr

theorem State.Told.resumes {w : WipeRecord} {s t : State} (h : s.Told t) (hs : s.Resumes w) : t.Resumes w := by
  refine ⟨h.access.trans hs.wiping, h.core.trans hs.core, h.busy.trans hs.free, h.wpe ▸ hs.journal,
    (h.timely hs.core hs.timely).symm, ?_, h.bridge ▸ hs.apart⟩
  rw [State.pauseHolds, h.frame .ssv (by decide), h.wpe]
  exact hs.going

/-- A wipe that has nothing to do is left by what the WPE is told. -/
theorem State.Timely.wpeTold {s : State} (h : s.Timely) (hp : s.proceed = s) : s.wpeTold = s := by
  rw [State.wpeTold, h.refreshRun, hp]

/-- What the access state, the keypad, the links and the supply hold is no part of what a wipe does next. -/
theorem carriesOn_after {w : WipeRecord} {p : Position} {s t u : State}
    (hframe : State.changesOnly [.acc, .keu, .liu, .ssv] t u) (h : s.carriesOn w p t) : s.carriesOn w p u := by
  have hu : u = { t with acc := u.acc, keu := u.keu, liu := u.liu, ssv := u.ssv } := by
    cases u
    simp only [State.mk.injEq, true_and, and_true]
    exact ⟨hframe .pending (by decide), hframe .starts (by decide), hframe .pins (by decide), hframe .store (by decide),
      hframe .rsc (by decide), hframe .ctb (by decide), hframe .atl (by decide), hframe .kru (by decide),
      hframe .wpe (by decide), hframe .plu (by decide), hframe .tbu (by decide)⟩
  rw [hu]
  exact h

theorem changesOnly_onRsc {l : List Block} {s t : State} (f : Rsc → Rsc) (h : State.changesOnly l s t) :
    State.changesOnly l (s.onRsc f) (t.onRsc f) := by
  intro b hb
  cases b
  case rsc => exact congrArg f (h .rsc hb)
  all_goals exact h _ hb

/-- Of the WPE at most the position, the order and the run condition differ. -/
def State.KeepsItems (s t : State) : Prop :=
  t.wpe = { s.wpe with position := t.wpe.position, order := t.wpe.order, run := t.wpe.run }

theorem State.KeepsItems.trans {s t u : State} (h : s.KeepsItems t) (k : t.KeepsItems u) : s.KeepsItems u := by
  rw [State.KeepsItems, k, h]

theorem refreshRun_items (s : State) : s.KeepsItems s.refreshRun := by
  unfold State.refreshRun
  split_ifs
  · rw [State.KeepsItems, postWipeState_frame _ .wpe (by decide)]
    rfl
  · rfl

theorem proceed_items (s : State) : s.KeepsItems s.proceed := by
  rcases proceed_cases s with hkeeps | hstalls
  · rw [State.KeepsItems, hkeeps.items]
  · rw [hstalls]
    exact State.KeepsItems.trans (t := s.atPosition .stalled) rfl (refreshRun_items _)

theorem wpeTold_items (s : State) : s.KeepsItems s.wpeTold := (refreshRun_items s).trans (proceed_items _)

/-! ## What start-up leaves of a resumed wipe -/

section
variable {w : WipeRecord} {s z : State} (hcore : s.corePowered = true) (hj : s.wpe.journal = some w)
  (hz : (s.resumeWipe w).Told z)
include hcore hj hz

/-- Paused, the wipe waits at the beginning of its step, and nothing is asked for (R117). -/
theorem wpeTold_of_paused (hcrit : s.cellCritAwake = true) :
    z.wpeTold = z ∧ z.wpe.run = .paused ∧ z.wpe.position = w.step.begin ∧ z.rsc = s.rsc ∧ z.reportsWipe w := by
  rw [resumeWipe_of_paused hcore hcrit] at hz
  have hrun : z.wpe.run = .paused := hz.wpe ▸ resumed_paused hcore hcrit
  refine ⟨(hz.timely (resumed_core hcore) (resumed_timely hcore)).wpeTold (if_pos (.inr (.inr (.inr (.inl hrun))))), hrun,
    ?_, ?_, hz.reportsWipe (resumed_reports hcore hj)⟩
  · rw [hz.wpe, resumed_wpe]
  · rw [hz.frame .rsc (by decide), resumed_frame w s .rsc (by decide)]

/-- Otherwise it acts from the beginning of its step, once (R105, R106). -/
theorem wpeTold_carriesOn (hgoing : s.cellCritAwake = false) (hfree : s.wipeBusy = false)
    (hapart : s.liu.bridge ≠ .attached) : z.wpeTold.wpe.run ≠ .paused ∧ z.wpeTold.reportsWipe w ∧
      (s.resumed w).carriesOn w w.step.begin (z.wpeTold.onRsc Rsc.kick) := by
  have hv := resumed_resumes (w := w) hcore hj hgoing hfree hapart
  have hp : (s.resumed w).wpe.position = w.step.begin := by rw [resumed_wpe]
  have hreports := hv.proceed_reports (resumed_reports hcore hj)
  have hrun := hv.proceed_not_paused
  have hcarries := hp ▸ hv.carriesOn
  rw [resumeWipe_eq] at hz
  rcases hv.proceed_begins hp with hidle | hbusied
  · rw [hidle] at hz
    have hr := hz.resumes hv
    have hwpe : z.wpeTold = z.proceed := by rw [State.wpeTold, hr.timely.refreshRun]
    have hposition : z.wpe.position = w.step.begin := hz.wpe ▸ hp
    rw [hwpe]
    refine ⟨hr.proceed_not_paused, hr.proceed_reports (hz.reportsWipe (resumed_reports hcore hj)), ?_⟩
    exact carriesOn_congr (hz.frame .kru (by decide)) (hz.frame .ctb (by decide))
      (congrArg Atl.limiter (hz.frame .atl (by decide))) (fun ho => hz.wpe ▸ ho) (hposition ▸ hr.carriesOn)
  · have hcore' : (s.resumed w).proceed.corePowered = true :=
      (State.corePowered_congr (hbusied.frame .pins (by decide)) (hbusied.frame .ssv (by decide))).trans (resumed_core hcore)
    rw [(hz.timely hcore' hbusied.timely).wpeTold (State.proceed_busy (hz.busy.trans hbusied.busy))]
    refine ⟨hz.wpe ▸ hrun, hz.reportsWipe hreports, carriesOn_after ?_ hcarries⟩
    exact changesOnly_mono (changesOnly_onRsc Rsc.kick hz.frame) (by decide)

end

end Sys2Proof.Machine
end

