-- ==== Sys2Proof/Proofs/StartDerived.lean ====
section
/-! The derivation of the access state at start-up (R57, R78): which state is derived, and what every one of them keeps. -/

namespace Sys2Proof.Machine

/-! ## The state before the derivation -/

/-- The part with its records loaded, before the derivation: on a supply, nothing entered, nothing asked for. -/
structure State.Ready (cause : StartCause) (s : State) : Prop where
  early : s.Early
  acc : s.acc = .loaded cause
  keu : s.keu = Keu.init
  rsc : s.rsc = Rsc.init
  atl : s.atl = { limiter := s.atl.limiter, penalty := none, phase := false }
  events : s.liu.pq = .empty

/-- What the derivation leaves. -/
structure State.Derived (cause : StartCause) (s t : State) : Prop where
  frame : State.changesOnly [.acc, .keu, .liu, .atl, .plu, .rsc, .wpe, .kru, .ctb] s t
  inForce : t.plu.inForce = s.plu.inForce
  startCause : t.acc.startCause = cause
  openSlot : t.acc.openSlot = none
  shut : t.acc.access.Shut
  flight : t.keu.flight = none
  announced : t.Announced
  reports : s.KeepsReports t

theorem State.Derived.core {cause : StartCause} {s t : State} (h : s.Derived cause t) (hs : s.corePowered = true) :
    t.corePowered = true :=
  (State.corePowered_congr (h.frame .pins (by decide)) (h.frame .ssv (by decide))).trans hs

theorem announced_enterLocked {s : State} (hcore : s.corePowered = true) : s.enterLocked.Announced := by
  have hframe := applyPendingSet_frame s
  exact announced_changeAccess .locked none
    ((State.corePowered_congr (hframe .pins (by decide)) (hframe .ssv (by decide))).trans hcore)

theorem announced_enterHalted {s : State} (hcore : s.corePowered = true) (h : s.acc.access ≠ .halted) :
    s.enterHalted.Announced := by
  unfold State.enterHalted
  rw [if_neg h]
  extract_lets t u
  have hframe : State.changesOnly [.acc, .atl, .wpe, .liu] s u :=
    changesOnly_mono (changesOnly_append (onAcc_frame _ s) <| changesOnly_append (stopPenalty_frame _) <|
      changesOnly_append (onWpe_frame _ _) <| changesOnly_append (onLiu_frame _ _) (revokeKeys_frame _)) (by decide)
  exact announced_changeAccess .halted none
    ((State.corePowered_congr (hframe .pins (by decide)) (hframe .ssv (by decide))).trans hcore)

theorem enterLocked_inForce (s : State) : s.enterLocked.plu.inForce = s.plu.inForce := by
  rw [State.enterLocked, changeAccess_frame _ _ _ .plu (by decide), applyPendingSet_plu]
  split_ifs <;> rfl

theorem changeAccess_flight (a : Access) (o : Option SlotIx) (s : State) :
    (s.changeAccess a o).keu.flight = s.keu.flight := by
  have hkeu : (s.changeAccess a o).keu = (s.onAcc fun c => { c with access := a, openSlot := o }).interruptEntry.keu :=
    postAccessChanged_frame _ .keu (by decide)
  rw [hkeu, interruptEntry_flight]
  rfl

theorem enterHalted_flight (s : State) : s.enterHalted.keu.flight = s.keu.flight := by
  unfold State.enterHalted
  split_ifs
  · rfl
  · rw [changeAccess_flight, revokeKeys_frame _ .keu (by decide)]
    rfl

section
variable {cause : StartCause} {s : State} (h : s.Ready cause)
include h

theorem State.Ready.locked : s.acc.access = .locked := by rw [h.acc]; rfl

theorem State.Ready.wipeable : s.acc.access.Wipeable := .inl h.locked

theorem State.Ready.flight : s.keu.flight = none := by rw [h.keu]; rfl

theorem State.Ready.quiet : s.Quiet := by rw [State.Quiet, h.keu]; exact ⟨rfl, rfl⟩

theorem State.Ready.free : s.wipeBusy = false := by rw [State.wipeBusy, h.rsc]; rfl

theorem State.Ready.derived_halted : s.Derived cause s.enterHalted := by
  have hne : s.acc.access ≠ .halted := by rw [h.locked]; decide
  have hacc := State.enterHalted_acc hne
  have hframe := enterHalted_frame s
  exact ⟨changesOnly_mono hframe (by decide), congrArg Plu.inForce (hframe .plu (by decide)), by rw [hacc, h.acc]; rfl,
    by rw [hacc], by rw [hacc]; simp [Access.Shut], (enterHalted_flight s).trans h.flight,
    announced_enterHalted h.early.core hne, keepsReports_enterHalted s⟩

theorem State.Ready.derived_wipe (c : WipeCause) : s.Derived cause (s.startWipe c) := by
  have hreported := reported_startWipe c h.wipeable
  have hacc := startWipe_acc_of_wipeable c h.wipeable
  exact ⟨changesOnly_mono hreported.frame (by decide), hreported.settings.inForce, by rw [hacc, h.acc]; rfl, by rw [hacc],
    by rw [hacc]; simp [Access.Shut], hreported.flight.trans h.flight, announced_startWipe c h.early.core h.wipeable,
    keepsReports_startWipe s c⟩

theorem State.Ready.derived_blank : s.Derived cause (s.changeAccess .blank none) := by
  have hframe := changeAccess_frame .blank none s
  have hacc := State.changeAccess_acc .blank none s
  exact ⟨changesOnly_mono hframe (by decide), congrArg Plu.inForce (hframe .plu (by decide)), by rw [hacc, h.acc]; rfl,
    by rw [hacc], by rw [hacc]; simp [Access.Shut], (changeAccess_flight _ _ s).trans h.flight,
    announced_changeAccess _ _ h.early.core, keepsReports_changeAccess s _ _⟩

theorem State.Ready.derived_locked : s.Derived cause s.enterLocked := by
  have hframe := enterLocked_frame s
  have hacc := State.enterLocked_acc s
  exact ⟨changesOnly_mono hframe (by decide), enterLocked_inForce s, by rw [hacc, h.acc]; rfl, by rw [hacc],
    by rw [hacc]; simp [Access.Shut], h.quiet.enterLocked.2, announced_enterLocked h.early.core, keepsReports_enterLocked s⟩

theorem State.Ready.derived_penalty : s.Derived cause s.resumePenalty := by
  let u := (s.startPenalty (s.plu.policy.penaltyTicks s.atl.limiter.fails)).postPenaltyChanged
  have hu : State.changesOnly [.atl, .liu] s u := changesOnly_append (onAtl_frame _ s) (postP_frame _ _)
  have huacc : u.acc = s.acc := hu .acc (by decide)
  have hframe : State.changesOnly [.atl, .liu, .acc, .keu] s s.resumePenalty :=
    changesOnly_mono (changesOnly_append hu (changeAccess_frame .penalty none u)) (by decide)
  have hacc : s.resumePenalty.acc = { s.acc with access := .penalty, openSlot := none } :=
    (State.changeAccess_acc .penalty none u).trans (by rw [huacc])
  have hcore : u.corePowered = true :=
    (State.corePowered_congr (hu .pins (by decide)) (hu .ssv (by decide))).trans h.early.core
  refine ⟨changesOnly_mono hframe (by decide), congrArg Plu.inForce (hframe .plu (by decide)), by rw [hacc, h.acc]; rfl,
    by rw [hacc], by rw [hacc]; simp [Access.Shut], ?_, announced_changeAccess _ _ hcore, ?_⟩
  · show (u.changeAccess .penalty none).keu.flight = none
    rw [changeAccess_flight, hu .keu (by decide)]
    exact h.flight
  · exact ((State.KeepsReports.of_frame (onAtl_frame _ s)).trans (keepsReports_postPenaltyChanged _)).trans
      (keepsReports_changeAccess u _ _)

theorem State.Ready.derived_resumed {w : WipeRecord} (hj : s.wpe.journal = some w) : s.Derived cause (s.resumeWipe w) := by
  have hframe := changesOnly_append (resumed_frame w s) (proceed_frame (s.resumed w))
  have hacc : (s.resumeWipe w).acc = { s.acc with access := .wiping, openSlot := none } :=
    (State.proceed_acc _).trans (resumed_acc w s)
  have hflight : (s.resumed w).keu.flight = none := by
    unfold State.resumed
    rw [postWipeState_frame _ .keu (by decide), State.onWpe_keu, changeAccess_flight]
    exact h.flight
  refine ⟨changesOnly_mono hframe (by decide), congrArg Plu.inForce (hframe .plu (by decide)), by rw [hacc, h.acc]; rfl,
    by rw [hacc], by rw [hacc]; simp [Access.Shut], ?_, ?_, keepsReports_resumeWipe s w⟩
  · rw [resumeWipe_keu h.early.core hj h.free h.early.apart]
    exact hflight
  · show (s.resumed w).proceed.liu.pq.accessChanged = some (s.resumed w).proceed.accessReport
    rw [proceed_accessChanged, State.accessReport, State.proceed_acc]
    exact resumed_announced h.early.core

end

end Sys2Proof.Machine
end

