-- ==== Sys2Proof/Proofs/StartChecked.lean ====
section
/-! The checks of R78 over the records loaded: each access state that may be derived, and the action that enters it. -/

namespace Sys2Proof.Machine

/-- The access state by the first check of R78 that holds. -/
def derivedAccess (st : Store) : Access :=
  if (loadOptions st.option).2 = true then .halted
  else if (loadJournal st.journal).1.isSome = true ∨ (loadSlots st).2 = true ∨ (loadJournal st.journal).2 = true ∨
      (loadLimiter (loadPolicy st.policy).wipeThreshold st.limiter).fails = (loadPolicy st.policy).wipeThreshold then .wiping
  else if ((loadSlots st).1.slots.get 0).record.state = .empty then .blank
  else if (loadPolicy st.policy).freeAttempts < (loadLimiter (loadPolicy st.policy).wipeThreshold st.limiter).fails ∧
      (loadLimiter (loadPolicy st.policy).wipeThreshold st.limiter).served = false then .penalty
  else .locked

/-- The working copies are those of an array, at the load (R135). -/
structure State.Holds (st : Store) (s : State) : Prop where
  plu : s.plu = loadPlu st
  ctb : s.ctb = (loadSlots st).1
  limiter : s.atl.limiter = loadLimiter (loadPolicy st.policy).wipeThreshold st.limiter
  wpe : s.wpe = { Wpe.init with journal := (loadJournal st.journal).1 }
  volumes : s.kru.volumes = loadVolumes (loadJournal st.journal).1.isSome st

/-- The cause of a wipe that start-up begins anew (R78 checks 2 and 3). -/
def startCauseOf (st : Store) : WipeCause :=
  if (loadSlots st).2 = true ∨ (loadJournal st.journal).2 = true then .storeDamage else .threshold

/-- A damaged Option Record decides before any working copy is looked at (R78 check 0). -/
theorem derive_halted {st : Store} (hd : derivedAccess st = .halted) (s : State) : s.derive st.report = s.enterHalted := by
  unfold derivedAccess at hd
  split_ifs at hd with hoption
  exact if_pos hoption

section
variable {st : Store} {s : State} (h : s.Holds st)
include h

/-- The derivation with no wipe recorded (R78 checks 2 to 6). -/
theorem State.Holds.derive_unmarked (ho : ¬ (loadOptions st.option).2 = true) (hj : (loadJournal st.journal).1 = none) :
    s.derive st.report =
      if (loadSlots st).2 = true ∨ (loadJournal st.journal).2 = true then s.startWipe .storeDamage
      else if s.atl.limiter.fails = s.plu.policy.wipeThreshold then s.startWipe .threshold
      else if (s.slotRec 0).state = .empty then s.changeAccess .blank none
      else if s.owesPenalty = true then s.resumePenalty
      else s.enterLocked := by
  rw [State.derive, h.wpe, hj]
  simp only [Store.report, Bool.or_eq_true, if_neg ho]

theorem State.Holds.empty_iff : (s.slotRec 0).state = .empty ↔ ((loadSlots st).1.slots.get 0).record.state = .empty := by
  rw [← h.ctb]
  rfl

theorem State.Holds.threshold_iff : s.atl.limiter.fails = s.plu.policy.wipeThreshold ↔
    (loadLimiter (loadPolicy st.policy).wipeThreshold st.limiter).fails = (loadPolicy st.policy).wipeThreshold := by
  rw [h.limiter, h.plu]
  rfl

theorem State.Holds.owes_iff : s.owesPenalty = true ↔
    (loadPolicy st.policy).freeAttempts < (loadLimiter (loadPolicy st.policy).wipeThreshold st.limiter).fails ∧
      (loadLimiter (loadPolicy st.policy).wipeThreshold st.limiter).served = false := by
  rw [State.owesPenalty, h.limiter, h.plu, Bool.and_eq_true, decide_eq_true_iff, Bool.not_eq_true']
  rfl

theorem State.Holds.derive_resumed {w : WipeRecord} (hd : derivedAccess st = .wiping)
    (hj : (loadJournal st.journal).1 = some w) : s.derive st.report = s.resumeWipe w := by
  unfold derivedAccess at hd
  split_ifs at hd with hoption
  rw [State.derive, h.wpe, hj]
  exact if_neg hoption

theorem State.Holds.derive_wipes (hd : derivedAccess st = .wiping) (hj : (loadJournal st.journal).1 = none) :
    s.derive st.report = s.startWipe (startCauseOf st) := by
  unfold derivedAccess at hd
  split_ifs at hd with hoption hwipes
  rw [h.derive_unmarked hoption hj, startCauseOf]
  split_ifs with hdamage hw
  · rfl
  · rfl
  all_goals exact absurd hwipes (by simp_all [h.threshold_iff])

theorem State.Holds.derive_rest (hd : derivedAccess st ≠ .halted) (hw : derivedAccess st ≠ .wiping) :
    s.derive st.report =
      if ((loadSlots st).1.slots.get 0).record.state = .empty then s.changeAccess .blank none
      else if (loadPolicy st.policy).freeAttempts < (loadLimiter (loadPolicy st.policy).wipeThreshold st.limiter).fails ∧
          (loadLimiter (loadPolicy st.policy).wipeThreshold st.limiter).served = false then s.resumePenalty
      else s.enterLocked := by
  unfold derivedAccess at hd hw
  by_cases hoption : (loadOptions st.option).2 = true
  · exact absurd (if_pos hoption) hd
  rw [if_neg hoption] at hw
  by_cases hwipes : (loadJournal st.journal).1.isSome = true ∨ (loadSlots st).2 = true ∨
      (loadJournal st.journal).2 = true ∨ (loadLimiter (loadPolicy st.policy).wipeThreshold st.limiter).fails = (loadPolicy st.policy).wipeThreshold
  · exact absurd (if_pos hwipes) hw
  obtain ⟨hj, hslots, hjournal, hf⟩ := not_or.mp hwipes |>.imp id fun h => not_or.mp h |>.imp id not_or.mp
  rw [h.derive_unmarked hoption (Option.not_isSome_iff_eq_none.mp hj), if_neg (not_or.mpr ⟨hslots, hjournal⟩),
    if_neg (mt h.threshold_iff.mp hf)]
  simp only [h.empty_iff, h.owes_iff]

theorem State.Holds.derive_blank (hd : derivedAccess st = .blank) : s.derive st.report = s.changeAccess .blank none := by
  rw [h.derive_rest (by simp [hd]) (by simp [hd])]
  unfold derivedAccess at hd
  split_ifs at hd with _ _ hempty
  rw [if_pos hempty]

theorem State.Holds.derive_penalty (hd : derivedAccess st = .penalty) : s.derive st.report = s.resumePenalty := by
  rw [h.derive_rest (by simp [hd]) (by simp [hd])]
  unfold derivedAccess at hd
  split_ifs at hd with _ _ hempty howes
  rw [if_neg hempty, if_pos howes]

theorem State.Holds.derive_locked (hd : derivedAccess st = .locked) : s.derive st.report = s.enterLocked := by
  rw [h.derive_rest (by simp [hd]) (by simp [hd])]
  unfold derivedAccess at hd
  split_ifs at hd with _ _ hempty howes
  rw [if_neg hempty, if_neg howes]

end

/-- No other state is derived. -/
theorem derivedAccess_cases (st : Store) : derivedAccess st = .halted ∨ derivedAccess st = .wiping ∨
    derivedAccess st = .blank ∨ derivedAccess st = .penalty ∨ derivedAccess st = .locked := by
  unfold derivedAccess
  split_ifs <;> simp

/-! ## Every check -/

section
variable {st : Store} {cause : StartCause} {s : State} (h : s.Holds st) (hr : s.Ready cause)
include h hr

/-- The derivation enters the state of the first check that holds, and keeps what every entry keeps. -/
theorem State.Holds.derived :
    s.Derived cause (s.derive st.report) ∧ (s.derive st.report).acc.access = derivedAccess st := by
  rcases derivedAccess_cases st with hd | hd | hd | hd | hd
  · rw [derive_halted hd, hd]
    exact ⟨hr.derived_halted, by rw [State.enterHalted_acc (by rw [hr.locked]; decide)]⟩
  · cases hj : (loadJournal st.journal).1 with
    | none =>
      rw [h.derive_wipes hd hj, hd]
      exact ⟨hr.derived_wipe _, by rw [startWipe_acc_of_wipeable _ hr.wipeable]⟩
    | some w =>
      rw [h.derive_resumed hd hj, hd]
      exact ⟨hr.derived_resumed (by rw [h.wpe, hj]), by rw [resumeWipe_eq, State.proceed_acc, resumed_acc]⟩
  · rw [h.derive_blank hd, hd]
    exact ⟨hr.derived_blank, by rw [State.changeAccess_acc]⟩
  · rw [h.derive_penalty hd, hd]
    exact ⟨hr.derived_penalty, by rw [State.resumePenalty, State.changeAccess_acc]⟩
  · rw [h.derive_locked hd, hd]
    exact ⟨hr.derived_locked, by rw [State.enterLocked_acc]⟩

end

end Sys2Proof.Machine
end

