-- ==== Sys2Proof/Proofs/StartEnds.lean ====
section
/-! The end of start-up after the derivation: its last steps, and what the derived state has become by then (R78, R79,
R154). -/

namespace Sys2Proof.Machine

/-! ## The last steps -/

/-- The steps after the last report: the WPE is told, and the sleep timer starts in CELL_AWAKE (R154, R157). -/
def State.startDone (s : State) : State :=
  if s.wpeTold.ssv.mode = .cellAwake then s.wpeTold.startSleepTimer else s.wpeTold

theorem startDone_told (s : State) : State.changesOnly [.ssv] s.wpeTold s.startDone :=
  changesOnly_ite (fun _ => onSsv_frame _ _) fun _ => changesOnly_refl _ _

theorem startDone_frame (s : State) : State.changesOnly [.wpe, .kru, .keu, .liu, .ctb, .rsc, .atl, .ssv] s s.startDone :=
  changesOnly_mono (changesOnly_append (wpeTold_frame s) (startDone_told s)) (by decide)

theorem startDone_ssv (s : State) :
    s.startDone.ssv = if s.ssv.mode = .cellAwake then { s.ssv with sleepTimer := some 160 } else s.ssv := by
  have hssv : s.wpeTold.ssv = s.ssv := wpeTold_frame s .ssv (by decide)
  unfold State.startDone
  rw [hssv]
  split_ifs
  · rw [State.startSleepTimer, State.onSsv_ssv, hssv]
    rfl
  · exact hssv

theorem keepsReports_startDone (s : State) : s.KeepsReports s.startDone :=
  (keepsReports_wpeTold s).trans (.of_frame (startDone_told s))

theorem wpeTold_accessChanged (s : State) : s.wpeTold.liu.pq.accessChanged = s.liu.pq.accessChanged :=
  (proceed_accessChanged _).trans (refreshRun_accessChanged s)

theorem State.Announced.startDone {s : State} (h : s.Announced) : s.startDone.Announced := by
  rw [State.Announced, startDone_told s .liu (by decide), wpeTold_accessChanged, State.accessReport,
    startDone_frame s .acc (by decide)]
  exact h

theorem wpeTold_of_not_wiping {s : State} (h : s.acc.access ≠ .wiping) : s.wpeTold = s := by
  have hrun : s.refreshRun = s := if_neg fun hw => h hw.1
  rw [State.wpeTold, hrun]
  exact if_pos (.inl h)

/-- With no wipe marked the WPE asks for nothing. -/
theorem wpeTold_of_unmarked {s : State} (h : s.wpe.journal = none) : s.wpeTold.rsc = s.rsc := by
  have hj : s.refreshRun.wpe.journal = none := by rw [refreshRun_items s]; exact h
  have hproceed : s.refreshRun.proceed = s.refreshRun := by
    unfold State.proceed
    rw [hj]
    exact ite_self _
  rw [State.wpeTold, hproceed, refreshRun_frame s .rsc (by decide)]

/-- In a state that is not open CELL_CRIT does nothing (R66). -/
theorem reportStart_eq {held : List HeldReport} {s : State}
    (h : (held.foldl State.takeReport s.reportTimebase).acc.access.Shut) :
    s.reportStart held = (held.foldl State.takeReport s.reportTimebase).startDone := by
  have hcrit : (held.foldl State.takeReport s.reportTimebase).reportCrit = held.foldl State.takeReport s.reportTimebase := by
    unfold State.reportCrit
    split_ifs
    · exact raise_of_shut h (by decide)
    · rfl
  rw [State.reportStart, hcrit]
  rfl

/-! ## What start-up leaves -/

/-- The derived state after the reports that were held. -/
def State.startReported (held : List HeldReport) (st : Store) (s : State) : State :=
  held.foldl State.takeReport (s.derive st.report).reportTimebase

section
variable {held : List HeldReport} {st : Store} {cause : StartCause} {s : State} (h : s.Holds st) (hr : s.Ready cause)
  (hmap : (s.derive st.report).plu.map.wellFormed = true)
include h hr hmap

theorem startReported_reported : (s.derive st.report).Reported (s.startReported held st) := by
  have hd := (h.derived hr).1
  have ht := State.Reported.of_told (reportTimebase_told hd.shut hmap)
  exact ht.trans (takeReports_reported held (ht.shut hd.shut) (ht.flight.trans hd.flight))

theorem startReported_shut : (s.startReported held st).acc.access.Shut :=
  (startReported_reported h hr hmap).shut (h.derived hr).1.shut

/-- What start-up keeps of the part as it was loaded. -/
theorem startReported_frame :
    State.changesOnly [.acc, .keu, .liu, .atl, .plu, .rsc, .wpe, .kru, .ctb] s (s.startReported held st) :=
  changesOnly_trans (h.derived hr).1.frame
    (changesOnly_mono (startReported_reported h hr hmap).frame (by decide))

theorem startReported_announced : (s.startReported held st).Announced := by
  have hd := (h.derived hr).1
  have hcore := hd.core hr.early.core
  have ht := State.Reported.of_told (reportTimebase_told hd.shut hmap)
  exact announced_takeReports held (ht.shut hd.shut) (ht.flight.trans hd.flight) (ht.core.trans hcore)
    (announced_reportTimebase hd.shut hmap hcore hd.announced)

/-- The timebase is reported exactly in FALLBACK (R79, R147). -/
theorem startReported_timebase : (s.startReported held st).liu.pq.timebaseChanged =
    if s.tbu.state = .fallback then some .fallback else none := by
  have hd := (h.derived hr).1
  have hcore := hd.core hr.early.core
  have ht := State.Reported.of_told (reportTimebase_told hd.shut hmap)
  rw [State.startReported, takeReports_timebase held (ht.shut hd.shut) (ht.flight.trans hd.flight),
    reportTimebase_timebase hd.shut hmap hcore, hd.frame .tbu (by decide), hd.reports.timebase, hr.events]
  rfl

/-- The last level that is to be reported is (R161). -/
theorem startReported_cellLevel : (s.startReported held st).liu.pq.cellLevel =
    (held.filterMap (HeldReport.posts (s.startReported held st).plu.policy.cellRiseReport)).getLast?.map fun l =>
      (l, s.ssv.mode) := by
  have hd := (h.derived hr).1
  have hcore := hd.core hr.early.core
  have ht := State.Reported.of_told (reportTimebase_told hd.shut hmap)
  have hpolicy : (s.startReported held st).plu.policy = (s.derive st.report).reportTimebase.plu.policy :=
    (takeReports_reported held (ht.shut hd.shut) (ht.flight.trans hd.flight)).settings.policy
  rw [hpolicy, State.startReported, takeReports_cellLevel held (ht.shut hd.shut) (ht.flight.trans hd.flight)
    (ht.core.trans hcore), reportTimebase_cellLevel hd.shut hmap, hd.reports.level, hr.events, ht.ssv,
    hd.frame .ssv (by decide), show PQueue.empty.cellLevel = none from rfl, Option.or_none]

/-- The reports that start a wipe, by the derived state and the map as it stands in the end. -/
theorem startReported_wipes_iff : (s.derive st.report).reportTimebase.wipesForSome held ↔
    .caseOpened ∈ held ∧ (s.startReported held st).plu.map.caseOpen = .wipe ∧ (derivedAccess st).Wipeable := by
  have hd := (h.derived hr).1
  have ht := reportTimebase_told hd.shut hmap
  rw [State.wipesForSome, ht.plu, ht.access, (h.derived hr).2, (startReported_reported h hr hmap).settings.map]

end

end Sys2Proof.Machine
end

