-- ==== Sys2Proof/Proofs/StartBranches.lean ====
section
/-! Start-up by the derived state: what each has become after the reports held and the last steps (R57, R78, R105). -/

namespace Sys2Proof.Machine

/-- A write asked for before the last steps is asked for after them, where no wipe is marked. -/
theorem writing_startDone {c : Contents} {p : Purpose} {s : State} (hj : s.wpe.journal = none) (h : s.writing c p) :
    (s.startDone.onRsc Rsc.kick).writing c p := by
  rw [State.writing_iff] at h ⊢
  rw [State.onRsc_rsc, Rsc.kick_entries, startDone_told s .rsc (by decide), wpeTold_of_unmarked hj]
  exact h

theorem State.Told.writing {c : Contents} {p : Purpose} {s t : State} (h : s.Told t) (hw : s.writing c p) :
    t.writing c p := by
  rw [State.writing_iff, h.frame .rsc (by decide), ← State.writing_iff]
  exact hw

theorem startDone_access (s : State) : s.startDone.acc = s.acc := startDone_frame s .acc (by decide)

/-- The entry into BLANK begins the automatic dialogue (R35). -/
theorem changeAccess_blank_intent {o : Option SlotIx} {s : State} (hcore : s.corePowered = true)
    (hk : s.keu.bstate ≠ .evaluating) : (s.changeAccess .blank o).keu.intent = .enrolFirst := by
  let u := s.onAcc fun c => { c with access := .blank, openSlot := o }
  have hkeu : (s.changeAccess .blank o).keu = u.interruptEntry.keu := postAccessChanged_frame _ .keu (by decide)
  have hend : u.interruptEntry = u.endDialogue := if_neg hk
  rw [hkeu, hend, endDialogue_keu (s := u) hcore]
  rfl

section
variable {held : List HeldReport} {st : Store} {cause : StartCause} {s : State} (h : s.Holds st) (hr : s.Ready cause)
  (hmap : (s.derive st.report).plu.map.wellFormed = true)
include h hr hmap

/-! ## An onset starts a wipe (log entry 42) -/

theorem startDone_wipes (hrest : (s.derive st.report).acc.access ≠ .wiping → (s.derive st.report).wpe = Wpe.init)
    (hw : .caseOpened ∈ held ∧ (s.startReported held st).plu.map.caseOpen = .wipe ∧ (derivedAccess st).Wipeable) :
    (s.startReported held st).startDone.acc.access = .wiping ∧
      ∃ w, ((s.startReported held st).startDone.onRsc Rsc.kick).writing (.journal (some w)) (.journal .start) ∧
        w.cause = .caseOpen := by
  obtain ⟨hd, hderived⟩ := h.derived hr
  have ht := reportTimebase_told hd.shut hmap
  obtain ⟨m, hm, hf⟩ := takeReports_wipes (ht.flight.trans hd.flight) ((startReported_wipes_iff h hr hmap).mpr hw)
  change (m.startWipe .caseOpen).Told (s.startReported held st) at hf
  have htm := ht.trans hm
  have hwm : m.acc.access.Wipeable := by rw [htm.access, hderived]; exact hw.2.2
  have hj : m.wpe.journal = none := by
    rw [htm.wpe, hrest (by rw [hderived]; rcases hw.2.2 with hk | hk | hk <;> simp [hk])]
    rfl
  obtain ⟨w, hwriting, hcause, -⟩ := startWipe_marks .caseOpen hwm
  refine ⟨?_, w, writing_startDone ?_ (hf.writing hwriting), hcause⟩
  · rw [startDone_access, hf.access, startWipe_acc_of_wipeable _ hwm]
  · rw [hf.wpe, (startWipe_wpe .caseOpen hwm).1]
    exact hj

/-! ## No onset does -/

section
variable (hno : ¬ (.caseOpened ∈ held ∧ (s.startReported held st).plu.map.caseOpen = .wipe ∧
  (derivedAccess st).Wipeable))
include hno

theorem startReported_told : (s.derive st.report).Told (s.startReported held st) :=
  have ht := reportTimebase_told (h.derived hr).1.shut hmap
  ht.trans (takeReports_told (ht.access ▸ (h.derived hr).1.shut) (mt (startReported_wipes_iff h hr hmap).mp hno))

theorem startDone_derived : (s.startReported held st).startDone.acc.access = derivedAccess st := by
  rw [startDone_access, (startReported_told h hr hmap hno).access, (h.derived hr).2]

/-- Outside WIPING the rest of start-up is told of alone. -/
theorem startDone_still (hd : derivedAccess st ≠ .wiping) :
    State.changesOnly [.acc, .keu, .liu, .ssv] (s.derive st.report) (s.startReported held st).startDone := by
  have ht := startReported_told h hr hmap hno
  have hdone := startDone_told (s.startReported held st)
  rw [wpeTold_of_not_wiping (by rwa [ht.access, (h.derived hr).2])] at hdone
  exact changesOnly_mono (changesOnly_append ht.frame hdone) (by decide)

/-- BLANK begins its automatic dialogue (R35). -/
theorem startDone_blank (hd : derivedAccess st = .blank) :
    (s.startReported held st).startDone.keu.intent = .enrolFirst ∧
      (s.startReported held st).startDone.ctb = (loadSlots st).1 ∧
      (s.startReported held st).startDone.atl.limiter = loadLimiter (loadPolicy st.policy).wipeThreshold st.limiter := by
  have ht := startReported_told h hr hmap hno
  have hstill := startDone_still h hr hmap hno (by rw [hd]; decide)
  have hframe := changeAccess_frame .blank none s
  rw [h.derive_blank hd] at ht hstill
  refine ⟨?_, ?_, ?_⟩
  · have hkeu : (s.startReported held st).startDone.keu = (s.startReported held st).keu := by
      have hdone := startDone_told (s.startReported held st)
      rw [wpeTold_of_not_wiping (by rw [ht.access, State.changeAccess_acc]; simp)] at hdone
      exact hdone .keu (by decide)
    rw [hkeu]
    refine ht.intent ((State.corePowered_congr (hframe .pins (by decide)) (hframe .ssv (by decide))).trans hr.early.core)
      (by rw [State.changeAccess_acc]) ?_
    exact changeAccess_blank_intent hr.early.core (by rw [hr.keu]; decide)
  · rw [hstill .ctb (by decide), hframe .ctb (by decide), h.ctb]
  · rw [hstill .atl (by decide), hframe .atl (by decide), h.limiter]

/-- PENALTY begins its timer anew (R57). -/
theorem startDone_penalty (hd : derivedAccess st = .penalty) :
    (s.startReported held st).startDone.atl =
      { limiter := loadLimiter (loadPolicy st.policy).wipeThreshold st.limiter,
        penalty := some ((loadPolicy st.policy).penaltyTicks
          (loadLimiter (loadPolicy st.policy).wipeThreshold st.limiter).fails), phase := false } ∧
      (s.startReported held st).startDone.ctb = (loadSlots st).1 := by
  have hstill := startDone_still h hr hmap hno (by rw [hd]; decide)
  rw [h.derive_penalty hd] at hstill
  let u := (s.startPenalty (s.plu.policy.penaltyTicks s.atl.limiter.fails)).postPenaltyChanged
  have hu : State.changesOnly [.liu] (s.startPenalty (s.plu.policy.penaltyTicks s.atl.limiter.fails)) u := postP_frame _ _
  have hframe := changesOnly_append hu (changeAccess_frame .penalty none u)
  have hatl : s.resumePenalty.atl = (s.startPenalty (s.plu.policy.penaltyTicks s.atl.limiter.fails)).atl :=
    hframe .atl (by decide)
  refine ⟨?_, ?_⟩
  · rw [hstill .atl (by decide), hatl, State.startPenalty, State.onAtl_atl, h.limiter, h.plu]
    rfl
  · rw [hstill .ctb (by decide), show s.resumePenalty.ctb = s.ctb from hframe .ctb (by decide), h.ctb]

/-- LOCKED is entered as every entry into it is: the committed Pending Set is applied (R73). -/
theorem startDone_locked (hd : derivedAccess st = .locked) :
    (s.startReported held st).startDone.atl =
      { limiter := loadLimiter (loadPolicy st.policy).wipeThreshold st.limiter, penalty := none, phase := false } ∧
      (s.startReported held st).startDone.ctb = (loadSlots st).1 ∧
      s.appliesSet ((s.startReported held st).startDone.onRsc Rsc.kick) := by
  have hstill := startDone_still h hr hmap hno (by rw [hd]; decide)
  have hframe := enterLocked_frame s
  rw [h.derive_locked hd] at hstill
  have hset : s.enterLocked.SameSet ((s.startReported held st).startDone.onRsc Rsc.kick) :=
    (State.SameSet.of_frame hstill).trans (.of_same rfl rfl fun e _ => by simp)
  refine ⟨?_, ?_, (appliesSet_enterLocked s).to_same hset ?_⟩
  · rw [hstill .atl (by decide), hframe .atl (by decide), hr.atl, h.limiter]
  · rw [hstill .ctb (by decide), hframe .ctb (by decide), h.ctb]
  · exact congrArg Atl.limiter (hstill .atl (by decide))

/-- A wipe begun anew asks for the write that marks it active (R101). -/
theorem startDone_anew (hd : derivedAccess st = .wiping) (hj : (loadJournal st.journal).1 = none) :
    ∃ w, ((s.startReported held st).startDone.onRsc Rsc.kick).writing (.journal (some w)) (.journal .start) ∧
      w.step = .keys ∧ w.cause = startCauseOf st ∧ w.depth = s.depthOf (startCauseOf st) ∧ w.keepAdmin = false := by
  have ht := startReported_told h hr hmap hno
  rw [h.derive_wipes hd hj] at ht
  obtain ⟨w, hwriting, hcause, hstep, hdepth, hkeep⟩ := startWipe_marks (startCauseOf st) hr.wipeable
  refine ⟨w, writing_startDone ?_ (ht.writing hwriting), hstep, hcause, hdepth, hkeep.trans ?_⟩
  · rw [ht.wpe, (startWipe_wpe _ hr.wipeable).1, h.wpe]
    exact hj
  · rw [State.keepOf, startCauseOf]
    split_ifs <;> simp_all

/-! ## A wipe that resumes (R105) -/

section
variable {w : WipeRecord} (hd : derivedAccess st = .wiping) (hj : (loadJournal st.journal).1 = some w)
include hd hj

theorem startReported_resumed : (s.resumeWipe w).Told (s.startReported held st) := by
  have ht := startReported_told h hr hmap hno
  rwa [h.derive_resumed hd hj] at ht

/-- The wipe stands as recorded, with no order yet formed. -/
theorem startDone_items : (s.startReported held st).startDone.wpe.journal = some w ∧
    (s.startReported held st).startDone.wpe.counter = 0 ∧ (s.startReported held st).startDone.wpe.attempt = 1 := by
  have ht := startReported_resumed h hr hmap hno hd hj
  have hitems : (s.startReported held st).wpeTold.wpe = { Wpe.init with
      journal := some w, position := (s.startReported held st).wpeTold.wpe.position
      order := (s.startReported held st).wpeTold.wpe.order, run := (s.startReported held st).wpeTold.wpe.run } := by
    have hproceed : (s.resumed w).KeepsItems (s.resumeWipe w) := proceed_items _
    rw [wpeTold_items (s.startReported held st), ht.wpe, hproceed, resumed_wpe, h.wpe, hj]
  rw [startDone_told _ .wpe (by decide), hitems]
  exact ⟨rfl, rfl, rfl⟩

theorem startDone_reports : (s.startReported held st).startDone.reportsWipe w := by
  have hjs : s.wpe.journal = some w := by rw [h.wpe, hj]
  have ht := startReported_resumed h hr hmap hno hd hj
  have hdone := startDone_told (s.startReported held st)
  rw [State.reportsWipe, hdone .liu (by decide), hdone .wpe (by decide)]
  cases hcrit : s.cellCritAwake with
  | true =>
    obtain ⟨hself, -, -, -, hreports⟩ := wpeTold_of_paused hr.early.core hjs ht hcrit
    rw [hself]
    exact hreports
  | false => exact (wpeTold_carriesOn hr.early.core hjs ht hcrit hr.free hr.early.apart).2.1

/-- It pauses at CRIT in CELL_AWAKE, and otherwise goes on from the beginning of its step (R105, R117). -/
theorem startDone_goesOn :
    if s.cellCritAwake = true then
      (s.startReported held st).startDone.wpe.run = .paused ∧
        (s.startReported held st).startDone.wpe.position = stepBegins w.step ∧
        (s.startReported held st).startDone.rsc = Rsc.init
    else (s.startReported held st).startDone.wpe.run ≠ .paused ∧
      s.carriesOn w (stepBegins w.step) ((s.startReported held st).startDone.onRsc Rsc.kick) := by
  have hjs : s.wpe.journal = some w := by rw [h.wpe, hj]
  have ht := startReported_resumed h hr hmap hno hd hj
  have hdone := startDone_told (s.startReported held st)
  rw [hdone .wpe (by decide), ← begin_eq_stepBegins]
  split_ifs with hcrit
  · obtain ⟨hself, hrun, hposition, hrsc, -⟩ := wpeTold_of_paused hr.early.core hjs ht hcrit
    rw [hdone .rsc (by decide), hself]
    exact ⟨hrun, hposition, hrsc.trans hr.rsc⟩
  · obtain ⟨hrun, -, hcarries⟩ :=
      wpeTold_carriesOn hr.early.core hjs ht (Bool.eq_false_iff.mpr hcrit) hr.free hr.early.apart
    refine ⟨hrun, ?_⟩
    have hframe := resumed_frame w s
    have hfrom : s.carriesOn w w.step.begin ((s.startReported held st).wpeTold.onRsc Rsc.kick) :=
      carriesOn_congr (hframe .kru (by decide)) (hframe .ctb (by decide)) (congrArg Atl.limiter (hframe .atl (by decide)))
        (fun _ => by rw [resumed_wpe]; rfl) hcarries
    exact carriesOn_after (changesOnly_mono (changesOnly_onRsc Rsc.kick hdone) (by decide)) hfrom

end

end

end

end Sys2Proof.Machine
end

