-- ==== Sys2Proof/Proofs/StartReady.lean ====
section
/-! Start-up up to the derivation: the part as it begins, the records loaded, and the state that the derivation meets
(R135, R147, R154). -/

namespace Sys2Proof.Machine

/-! ## The beginning -/

theorem early_startBegins {s : State} (h : s.pins.resetLow = false) : s.startBegins.Early := by
  refine ⟨h, ?_, rfl, ?_⟩
  · cases hb : s.pins.busdet <;> simp [State.startBegins, State.volatileInit, Ssv.init, modeBy, hb]
  · cases hb : s.pins.busdet <;> simp [State.startBegins, State.volatileInit, Ssv.init, Liu.init, modeBy, bridgeBy, hb]

theorem starting_startBegins (s : State) : s.startBegins.Starting .init .init := by
  obtain ⟨hb, -, ht⟩ := stands_startBegins s
  exact ⟨hb, ht.run, rfl, (modeBy_bridgeBy _).2, modeBy_ne_off _, rfl, rfl⟩

/-! ## The load -/

theorem load_frame (cause : StartCause) (s : State) :
    State.changesOnly [.plu, .ctb, .atl, .kru, .wpe, .acc] s (s.load cause) := by
  intro b hb
  cases b
  case plu | ctb | atl | kru | wpe | acc => exact absurd (by decide) hb
  all_goals rfl

theorem early_load (cause : StartCause) {s : State} (h : s.Early) : (s.load cause).Early :=
  ⟨h.reset, h.mode, h.due, h.bridge⟩

/-- The Option Record in force acts on the SSV alone. -/
theorem optionsInForce_frame (s : State) : State.changesOnly [.ssv] s s.optionsInForce := by
  unfold State.optionsInForce
  split_ifs
  · exact debounceCase_frame s
  · exact changesOnly_mono (changesOnly_append (onSsv_frame _ s) (debounceCase_frame _)) (by decide)

theorem earlyStep_optionsInForce {s : State} (h : s.Early) : s.EarlyStep s.optionsInForce := by
  unfold State.optionsInForce
  split_ifs
  · exact earlyStep_debounceCase h
  · have ht : s.EarlyStep (s.onSsv (Ssv.atLevel .good)) := earlyStep_onSsv h rfl rfl
    exact ht.trans (earlyStep_debounceCase ht.early)

/-- With a cell fitted the level stands at the load (R154). -/
theorem loaded_level (cause : StartCause) {s : State} (h : (loadOptions s.store.option).1.cellFitted = true) :
    (s.loaded cause).ssv.level = s.ssv.level := by
  have hforce : (s.load cause).plu.inForce.cellFitted = true := h
  unfold State.loaded State.optionsInForce State.debounceCase
  rw [if_pos hforce]
  split_ifs <;> rfl

/-! ## The state that the derivation meets -/

section
variable (cause : StartCause) (before after : List StartEvent) {s : State}

theorem earlyStep_before (hon : (before.foldl State.startEvent s.startBegins).ssv.mode ≠ .off)
    (hreset : s.pins.resetLow = false) : s.startBegins.EarlyStep (before.foldl State.startEvent s.startBegins) :=
  earlyStep_startEvents before (early_startBegins hreset) hon

/-- The part after the load and all that comes about before the derivation. -/
def State.readied (cause : StartCause) (before after : List StartEvent) (s : State) : State :=
  after.foldl State.startEvent ((before.foldl State.startEvent s.startBegins).loaded cause)

/-- What the SSV holds by then. -/
def State.holds (cause : StartCause) (before after : List StartEvent) (s : State) : List HeldReport :=
  heldReports before s.startBegins ++
    heldReports after ((before.foldl State.startEvent s.startBegins).loaded cause)

/-- The array and the start-ups to come are only read (R135). -/
theorem readied_keeps :
    (s.readied cause before after).store = s.store ∧ (s.readied cause before after).starts = s.starts := by
  let u := before.foldl State.startEvent s.startBegins
  obtain ⟨-, hstarts, hstore⟩ := startEvents_keep before s.startBegins
  obtain ⟨-, kstarts, kstore⟩ := startEvents_keep after (u.loaded cause)
  have hloaded := changesOnly_append (load_frame cause u) (optionsInForce_frame _)
  exact ⟨kstore.trans ((hloaded .store (by decide)).trans hstore),
    kstarts.trans ((hloaded .starts (by decide)).trans hstarts)⟩

variable (hbefore : (before.foldl State.startEvent s.startBegins).ssv.mode ≠ .off)
  (hafter : (s.readied cause before after).ssv.mode ≠ .off)
include hbefore hafter

theorem starting_readied : (s.readied cause before after).Starting (.loaded cause)
    { Wpe.init with journal := (loadJournal s.store.journal).1 } := by
  have hu := (State.Underway.startEvents before (.inl (starting_startBegins s))).resolve_right fun h => hbefore h.1
  have hstore : (before.foldl State.startEvent s.startBegins).store = s.store := (startEvents_keep before s.startBegins).2.2
  have hv := hu.loaded cause
  rw [hstore] at hv
  exact (State.Underway.startEvents after (.inl hv)).resolve_right fun h => hafter h.1

variable (hreset : s.pins.resetLow = false)
include hreset

theorem earlyStep_loaded : ((before.foldl State.startEvent s.startBegins).load cause).EarlyStep
    (s.readied cause before after) := by
  have hu := earlyStep_before before hbefore hreset
  have hload := earlyStep_optionsInForce (early_load cause hu.early)
  exact hload.trans (earlyStep_startEvents after hload.early hafter)

theorem ready_readied : (s.readied cause before after).Ready cause := by
  have hu := earlyStep_before before hbefore hreset
  have hl := load_frame cause (before.foldl State.startEvent s.startBegins)
  have hv := earlyStep_loaded cause before after hbefore hafter hreset
  refine ⟨hv.early, hv.frame .acc (by decide), ?_, ?_, ?_, ?_⟩
  · rw [hv.frame .keu (by decide), hl .keu (by decide), hu.frame .keu (by decide)]
    rfl
  · rw [hv.frame .rsc (by decide), hl .rsc (by decide), hu.frame .rsc (by decide)]
    rfl
  · rw [hv.frame .atl (by decide)]
    rfl
  · rw [hv.events]
    exact hu.events

theorem holds_readied : (s.readied cause before after).Holds s.store := by
  have hv := earlyStep_loaded cause before after hbefore hafter hreset
  have hstore : (before.foldl State.startEvent s.startBegins).store = s.store := (startEvents_keep before s.startBegins).2.2
  rw [← hstore]
  refine ⟨hv.frame .plu (by decide), hv.frame .ctb (by decide), ?_, hv.frame .wpe (by decide), ?_⟩
  · rw [hv.frame .atl (by decide)]
    rfl
  · rw [hv.frame .kru (by decide)]
    rfl

/-- The keys drawn are counted on (log entry 14). -/
theorem readied_kru : (s.readied cause before after).kru =
    { s.kru with volumes := loadVolumes (loadJournal s.store.journal).1.isSome s.store } := by
  have hu := earlyStep_before before hbefore hreset
  have hv := earlyStep_loaded cause before after hbefore hafter hreset
  have hstore : (before.foldl State.startEvent s.startBegins).store = s.store := (startEvents_keep before s.startBegins).2.2
  have hkru : (before.foldl State.startEvent s.startBegins).kru = s.startBegins.kru := hu.frame .kru (by decide)
  rw [hv.frame .kru (by decide), ← hstore, State.load, hkru]
  rfl

omit hreset in
/-- The level is the last one adopted, with a cell fitted (R154, R160). -/
theorem readied_level (hcell : (loadOptions s.store.option).1.cellFitted = true) :
    (s.readied cause before after).ssv.level =
      ((s.holds cause before after).filterMap HeldReport.adopts).getLast?.getD .good := by
  have hstore : (before.foldl State.startEvent s.startBegins).store = s.store := (startEvents_keep before s.startBegins).2.2
  have hb : ((heldReports before s.startBegins).filterMap HeldReport.adopts).getLast?.getD .good =
      (before.foldl State.startEvent s.startBegins).ssv.level := adopts_heldReports before hbefore
  have ha := adopts_heldReports after hafter
  rw [loaded_level cause (by rw [hstore]; exact hcell), ← hb] at ha
  rw [State.holds, List.filterMap_append, List.getLast?_append, State.readied, ← ha]
  cases ((heldReports after ((before.foldl State.startEvent s.startBegins).loaded cause)).filterMap
    HeldReport.adopts).getLast? <;> rfl

omit hreset in
/-- The enclosure is as the last onset or end has it (R154, R162). -/
theorem readied_case : caseAfter false (s.holds cause before after) = (s.readied cause before after).ssv.caseIsOpen := by
  have hloaded := State.loaded_caseIsOpen cause (before.foldl State.startEvent s.startBegins)
  rw [State.holds, caseAfter_append, show false = s.startBegins.ssv.caseIsOpen from rfl, caseAfter_heldReports _ hbefore,
    ← hloaded, caseAfter_heldReports _ hafter]
  rfl

end

end Sys2Proof.Machine
end

