-- ==== Sys2Proof/Proofs/StartUp.lean ====
section
/-! Start-up whole: from the rows that begin it to the state it leaves (R57, R78, R79, R105, R135, R147, R154). -/

namespace Sys2Proof.Machine

/-! ## Where start-up leads -/

section
variable (cause : StartCause) (start : StartEvents) (s : State)

/-- The state that the derivation meets. -/
def State.met : State := s.readied cause start.beforeLoad start.afterLoad

/-- The reports held by then. -/
def State.heldBy : List HeldReport := s.holds cause start.beforeLoad start.afterLoad

/-- The end of start-up on a supply. -/
def State.started : State := ((s.met cause start).startReported (s.heldBy cause start) s.store).startDone

/-- A supply stands at the load and at the derivation. -/
structure State.StaysOn : Prop where
  before : (start.beforeLoad.foldl State.startEvent s.startBegins).ssv.mode ≠ .off
  after : (s.met cause start).ssv.mode ≠ .off
  reset : s.pins.resetLow = false

end

section
variable {cause : StartCause} {start : StartEvents} {s : State} (h : s.StaysOn cause start)
include h

theorem State.StaysOn.ready : (s.met cause start).Ready cause := ready_readied cause _ _ h.before h.after h.reset

theorem State.StaysOn.holds : (s.met cause start).Holds s.store := holds_readied cause _ _ h.before h.after h.reset

theorem State.StaysOn.map : ((s.met cause start).derive s.store.report).plu.map.wellFormed = true :=
  (ends_derive _ (starting_readied cause _ _ h.before h.after)).1.plu.map

theorem State.StaysOn.rest : ((s.met cause start).derive s.store.report).acc.access ≠ .wiping →
    ((s.met cause start).derive s.store.report).wpe = Wpe.init :=
  (ends_derive _ (starting_readied cause _ _ h.before h.after)).2.1.wpe

theorem State.StaysOn.reportStart : ((s.met cause start).derive s.store.report).reportStart (s.heldBy cause start) =
    s.started cause start := reportStart_eq (startReported_shut h.holds h.ready h.map)

theorem State.StaysOn.frame : State.changesOnly [.acc, .keu, .liu, .atl, .plu, .rsc, .wpe, .kru, .ctb, .ssv]
    (s.met cause start) (s.started cause start) :=
  changesOnly_mono (changesOnly_append (startReported_frame h.holds h.ready h.map) (startDone_frame _)) (by decide)

theorem State.StaysOn.ssv : (s.started cause start).ssv =
    if (s.met cause start).ssv.mode = .cellAwake then { (s.met cause start).ssv with sleepTimer := some 160 }
    else (s.met cause start).ssv := by
  rw [State.started, startDone_ssv, startReported_frame h.holds h.ready h.map .ssv (by decide)]

theorem State.StaysOn.mode : (s.started cause start).ssv.mode = (s.met cause start).ssv.mode := by
  rw [h.ssv]
  split_ifs <;> rfl

theorem State.StaysOn.level : (s.started cause start).ssv.level = (s.met cause start).ssv.level := by
  rw [h.ssv]
  split_ifs <;> rfl

theorem State.StaysOn.caseIsOpen : (s.started cause start).ssv.caseIsOpen = (s.met cause start).ssv.caseIsOpen := by
  rw [h.ssv]
  split_ifs <;> rfl

end

/-- A start-up in which nothing else comes about keeps its supply. -/
theorem quiet_before (s : State) : (StartEvents.quiet.beforeLoad.foldl State.startEvent s.startBegins).ssv.mode ≠ .off :=
  modeBy_ne_off _

theorem quiet_after (cause : StartCause) (s : State) : (s.met cause .quiet).ssv.mode = modeBy s.pins.busdet := by
  show (s.startBegins.loaded cause).ssv.mode = _
  unfold State.loaded State.optionsInForce State.debounceCase
  repeat' split
  all_goals rfl

/-- A supply at the beginning is a supply at the load, unless the events before it take it away. -/
theorem quiet_supply {s : State} (h : s.pins.busdet = true ∨ (loadOptions s.store.option).1.cellFitted = true) :
    (StartEvents.quiet.beforeLoad.foldl State.startEvent s.startBegins).noSupply = false := by
  show s.startBegins.noSupply = false
  have hbus : s.startBegins.pins = s.pins := rfl
  have hstore : s.startBegins.store = s.store := rfl
  rw [State.noSupply, hbus, hstore]
  rcases h with h | h <;> simp [h]

/-- Without a supply, at the load or by the derivation, the part goes to OFF; otherwise the derivation comes about. -/
theorem startWith_cases (cause : StartCause) (start : StartEvents) {s : State} (hreset : s.pins.resetLow = false)
    (hsupply : s.pins.busdet = true ∨ (loadOptions s.store.option).1.cellFitted = true) :
    (s.StaysOn cause start ∧ s.startWith cause start = s.started cause start) ∨
      (start ≠ .quiet ∧ (s.startWith cause start).ssv.mode = .off ∧ (s.startWith cause start).store = s.store ∧
        (s.startWith cause start).starts = s.starts) := by
  obtain ⟨-, hstarts, hstore⟩ := startEvents_keep start.beforeLoad s.startBegins
  unfold State.startWith
  extract_lets u t
  by_cases hoff : t.ssv.mode = .off
  · rw [if_pos hoff]
    exact .inr ⟨fun hq => quiet_before s (hq ▸ hoff), hoff, hstore, hstarts⟩
  rw [if_neg hoff]
  by_cases hno : t.noSupply = true
  · rw [if_pos hno]
    refine .inr ⟨fun hq => ?_, rfl, hstore, hstarts⟩
    subst hq
    exact absurd ((quiet_supply hsupply).symm.trans hno) (by decide)
  rw [if_neg hno]
  have hreport : t.store.report = s.store.report := congrArg Store.report hstore
  unfold State.loadAndDerive
  extract_lets v x
  rw [hreport]
  by_cases hend : x.ssv.mode = .off
  · rw [if_pos hend]
    obtain ⟨kstore, kstarts⟩ := readied_keeps cause start.beforeLoad start.afterLoad (s := s)
    refine .inr ⟨fun hq => ?_, hend, kstore, kstarts⟩
    subst hq
    exact modeBy_ne_off _ ((quiet_after cause s).symm.trans hend)
  · rw [if_neg hend]
    have h : s.StaysOn cause start := ⟨hoff, hend, hreset⟩
    exact .inl ⟨h, h.reportStart⟩

/-! ## The rows that begin start-up -/

/-- The part as the row leaves it to start-up: the pins as they are, and the front of `starts` taken. -/
def State.beginsOn (bus : Bool) (s : State) : State :=
  { s with pins := { s.pins with busdet := bus, resetLow := false }, starts := s.starts.tail }

/-- Power-on, bus power arriving in OFF and the release of RESET_N begin start-up (R78, R79, R155). -/
theorem exec_startsUp {bus : Bool} {c : Instr} {s : State}
    (hc : (c = .powerOn bus ∧ s.ssv.mode = .off ∧ s.pins.resetLow = false) ∨
      (c = .busPowerArrival ∧ s.ssv.mode = .off ∧ s.pins.resetLow = false ∧ s.pins.busdet = false ∧ bus = true) ∨
      (c = .resetNRelease ∧ s.ssv.mode ≠ .off ∧ s.pins.resetLow = true ∧ s.pins.busdet = bus)) :
    exec c s = finish (State.startWith (if c = .resetNRelease then .resetPin else .powerOn) (s.starts.headD .quiet)
      (s.beginsOn bus)) := by
  rcases hc with ⟨rfl, hoff, hreset⟩ | ⟨rfl, hoff, hreset, hbus, rfl⟩ | ⟨rfl, hon, hreset, rfl⟩
  · have hpins : s.beginsOn bus =
        { s.onPins (fun p => { p with busdet := bus }) with starts := s.starts.tail } := by
      rw [State.beginsOn, ← hreset]
      rfl
    rw [if_neg (by simp), hpins]
    show execPowerOn bus s = _
    rw [execPowerOn, if_pos hoff, State.powerUp, if_neg (by simp [hreset])]
    rfl
  · have hpins : s.beginsOn true =
        { s.onPins (fun p => { p with busdet := true }) with starts := s.starts.tail } := by
      rw [State.beginsOn, ← hreset]
      rfl
    rw [if_neg (by simp), hpins]
    show execBusPowerArrival s = _
    have hmode : (s.onPins fun p => { p with busdet := true }).ssv.mode = .off := hoff
    rw [execBusPowerArrival, if_neg (by simp [hbus]), State.busPowerArrives, hmode]
    show finish (State.powerUp _) = _
    rw [State.powerUp, if_neg (by simp [hreset])]
    rfl
  · rw [if_pos rfl]
    show execResetNRelease s = _
    rw [execResetNRelease, if_pos ⟨hreset, hon⟩]
    rfl

/-! ## The report of what stands at the end -/

theorem started_plu (cause : StartCause) (start : StartEvents) (s : State) : (s.started cause start).plu =
    ((s.met cause start).startReported (s.heldBy cause start) s.store).plu := startDone_frame _ .plu (by decide)

section
variable {cause : StartCause} {start : StartEvents} {s : State} (h : s.StaysOn cause start)
include h

theorem State.StaysOn.reported : ((s.met cause start).derive s.store.report).Reported
    ((s.met cause start).startReported (s.heldBy cause start) s.store) := startReported_reported h.holds h.ready h.map

/-- The array and the start-ups to come are only read (R135). -/
theorem State.StaysOn.keeps : (s.started cause start).store = s.store ∧ (s.started cause start).starts = s.starts := by
  obtain ⟨hstore, hstarts⟩ := readied_keeps cause start.beforeLoad start.afterLoad (s := s)
  exact ⟨(h.frame .store (by decide)).trans hstore, (h.frame .starts (by decide)).trans hstarts⟩

/-- The bridge link follows the supply mode (R85). -/
theorem State.StaysOn.bridge : (s.started cause start).liu.bridge =
    if (s.started cause start).ssv.mode = .bus then .present else .absent := by
  rw [h.mode, ← h.ready.early.bridge, State.started, (keepsReports_startDone _).bridge, h.reported.bridge,
    (h.holds.derived h.ready).1.reports.bridge]

theorem State.StaysOn.startCause : (s.started cause start).acc.startCause = cause := by
  rw [State.started, startDone_access, h.reported.startCause, (h.holds.derived h.ready).1.startCause]

theorem State.StaysOn.openSlot : (s.started cause start).acc.openSlot = none := by
  rw [State.started, startDone_access]
  exact h.reported.openSlot (h.holds.derived h.ready).1.openSlot

/-- In CELL_AWAKE the sleep timer starts, with no sleep due (R157). -/
theorem State.StaysOn.sleep (hm : (s.started cause start).ssv.mode = .cellAwake) :
    (s.started cause start).ssv.sleepTimer = some 160 ∧ (s.started cause start).ssv.sleepDue = false := by
  rw [h.mode] at hm
  rw [h.ssv, if_pos hm]
  exact ⟨rfl, h.ready.early.due⟩

theorem State.StaysOn.timebase : (s.started cause start).liu.pq.timebaseChanged =
    if (s.started cause start).tbu.state = .fallback then some .fallback else none := by
  rw [h.frame .tbu (by decide), State.started, (keepsReports_startDone _).timebase,
    startReported_timebase h.holds h.ready h.map]

theorem State.StaysOn.cellLevel : (s.started cause start).liu.pq.cellLevel =
    ((s.heldBy cause start).filterMap
      (HeldReport.posts (s.started cause start).plu.policy.cellRiseReport)).getLast?.map fun l =>
        (l, (s.started cause start).ssv.mode) := by
  rw [h.mode, started_plu, ← startReported_cellLevel h.holds h.ready h.map, State.started, (keepsReports_startDone _).level]

theorem State.StaysOn.announced : (s.started cause start).Announced :=
  (startReported_announced h.holds h.ready h.map).startDone

/-- The access state is reported as it stands (R60, R79). -/
theorem State.StaysOn.report : (s.started cause start).liu.pq.accessChanged =
    some { access := (s.started cause start).acc.access, openSlot := none,
           clockFault := (s.started cause start).acc.clockFault, caseOpen := (s.started cause start).acc.caseOpen } := by
  rw [← h.openSlot]
  exact h.announced

/-- The Option Record loaded is in force. -/
theorem State.StaysOn.inForce : (s.started cause start).plu.inForce = (loadOptions s.store.option).1 := by
  rw [started_plu, h.reported.settings.inForce, (h.holds.derived h.ready).1.inForce, h.holds.plu]
  rfl

theorem State.StaysOn.cell (hcell : (s.started cause start).plu.inForce.cellFitted = true) :
    (s.started cause start).ssv.level = ((s.heldBy cause start).filterMap HeldReport.adopts).getLast?.getD .good := by
  rw [h.inForce] at hcell
  rw [h.level]
  exact readied_level cause _ _ h.before h.after hcell

theorem State.StaysOn.case : (s.started cause start).ssv.caseIsOpen = true ↔
    ((s.heldBy cause start).filter fun r => r = .caseOpened ∨ r = .caseClosed).getLast? = some .caseOpened := by
  rw [h.caseIsOpen, ← caseAfter_iff]
  exact iff_of_eq (congrArg (· = true) (readied_case cause _ _ h.before h.after).symm)

end

/-- A start-up in which nothing else comes about (R154). -/
theorem started_quiet {cause : StartCause} {start : StartEvents} {s : State} (h : s.StaysOn cause start)
    (hq : start = .quiet) : (s.started cause start).ssv.mode = modeBy s.pins.busdet ∧
      (s.started cause start).tbu.state = .crystal ∧ (s.started cause start).ssv.level = .good ∧
      (s.started cause start).ssv.caseIsOpen = false := by
  subst hq
  have hmet : s.met cause .quiet = s.startBegins.loaded cause := rfl
  refine ⟨h.mode.trans (quiet_after cause s), ?_, ?_, ?_⟩
  · rw [h.frame .tbu (by decide), hmet]
    unfold State.loaded
    rw [optionsInForce_frame _ .tbu (by decide)]
    rfl
  · rw [h.level, hmet]
    unfold State.loaded State.optionsInForce State.debounceCase
    repeat' split
    all_goals rfl
  · rw [h.caseIsOpen, hmet, State.loaded_caseIsOpen]
    rfl

/-! ## The derived state at the end -/

/-- The state that the statement calls `loaded`: the working copies of the array, nothing else begun (R135). -/
def State.copies (s : State) : State := { s with
  ctb := (loadSlots s.store).1
  atl := { limiter := loadLimiter (loadPolicy s.store.policy).wipeThreshold s.store.limiter, penalty := none, phase := false }
  wpe := Wpe.init
  kru := { s.kru with volumes := loadVolumes (loadJournal s.store.journal).1.isSome s.store }
  rsc := Rsc.init
  plu := { Plu.init with
    policy := loadPolicy s.store.policy, map := loadMap s.store.map, committed := loadPendingSet s.store.pset } }

section
variable {cause : StartCause} {start : StartEvents} {s : State} (h : s.StaysOn cause start)
include h

theorem State.StaysOn.kru : (s.met cause start).kru = s.copies.kru := readied_kru cause _ _ h.before h.after h.reset

theorem State.StaysOn.beforeSet : s.copies.BeforeSet (s.met cause start) where
  policy := by rw [h.holds.plu]; rfl
  map := by rw [h.holds.plu]; rfl
  committed := by rw [h.holds.plu]; rfl
  removing := by rw [h.holds.plu]; rfl
  kru := h.kru
  writes e he := by rw [h.ready.rsc] at he; cases he

theorem State.StaysOn.carriesOn {w : WipeRecord} {p : Position} {t : State} (hc : (s.met cause start).carriesOn w p t) :
    s.copies.carriesOn w p t :=
  carriesOn_congr h.kru h.holds.ctb h.holds.limiter (fun _ => by rw [h.holds.wpe]; rfl) hc

theorem State.StaysOn.crit_iff : (s.met cause start).cellCritAwake = true ↔
    (s.started cause start).ssv.mode = .cellAwake ∧ (s.started cause start).ssv.level = .crit := by
  rw [cellCritAwake_iff, h.mode, h.level]

/-- An onset of CASE_OPEN among the reports held, mapped to WIPE, where a WIPE action starts a wipe (R67, R76). -/
def State.wipesAtStart (cause : StartCause) (start : StartEvents) (s : State) : Prop :=
  .caseOpened ∈ s.heldBy cause start ∧ (s.started cause start).plu.map.caseOpen = .wipe ∧
    (derivedAccess s.store).Wipeable

omit h in
theorem wipesAtStart_iff : s.wipesAtStart cause start ↔ .caseOpened ∈ s.heldBy cause start ∧
    ((s.met cause start).startReported (s.heldBy cause start) s.store).plu.map.caseOpen = .wipe ∧
      (derivedAccess s.store).Wipeable := by
  rw [State.wipesAtStart, started_plu]

theorem State.StaysOn.wipes (hw : s.wipesAtStart cause start) : (s.started cause start).acc.access = .wiping ∧
    ∃ w, ((s.started cause start).onRsc Rsc.kick).writing (.journal (some w)) (.journal .start) ∧ w.cause = .caseOpen :=
  startDone_wipes h.holds h.ready h.map h.rest (wipesAtStart_iff.mp hw)

section
variable (hno : ¬ s.wipesAtStart cause start)
include hno

theorem State.StaysOn.access : (s.started cause start).acc.access = derivedAccess s.store :=
  startDone_derived h.holds h.ready h.map (mt wipesAtStart_iff.mpr hno)

theorem State.StaysOn.blank (hd : derivedAccess s.store = .blank) :
    (s.started cause start).keu.intent = .enrolFirst ∧ (s.started cause start).ctb = (loadSlots s.store).1 ∧
      (s.started cause start).atl.limiter = s.copies.atl.limiter :=
  startDone_blank h.holds h.ready h.map (mt wipesAtStart_iff.mpr hno) hd

theorem State.StaysOn.penalty (hd : derivedAccess s.store = .penalty) :
    (s.started cause start).atl = { s.copies.atl with
      penalty := some ((loadPolicy s.store.policy).penaltyTicks s.copies.atl.limiter.fails) } ∧
      (s.started cause start).ctb = (loadSlots s.store).1 :=
  startDone_penalty h.holds h.ready h.map (mt wipesAtStart_iff.mpr hno) hd

theorem State.StaysOn.locked (hd : derivedAccess s.store = .locked) :
    (s.started cause start).atl = s.copies.atl ∧ (s.started cause start).ctb = (loadSlots s.store).1 ∧
      s.copies.appliesSet ((s.started cause start).onRsc Rsc.kick) := by
  obtain ⟨hatl, hctb, happlies⟩ := startDone_locked h.holds h.ready h.map (mt wipesAtStart_iff.mpr hno) hd
  exact ⟨hatl, hctb, happlies.from_before h.beforeSet⟩

theorem State.StaysOn.anew (hd : derivedAccess s.store = .wiping) (hj : (loadJournal s.store.journal).1 = none) :
    ∃ w, ((s.started cause start).onRsc Rsc.kick).writing (.journal (some w)) (.journal .start) ∧ w.step = .keys ∧
      if (loadSlots s.store).2 = true ∨ (loadJournal s.store.journal).2 = true then
        w.cause = .storeDamage ∧ w.depth = .keysAndMedia ∧ w.keepAdmin = false
      else w.cause = .threshold ∧ w.depth = (loadPolicy s.store.policy).wipeDepth ∧ w.keepAdmin = false := by
  obtain ⟨w, hwriting, hstep, hcause, hdepth, hkeep⟩ :=
    startDone_anew h.holds h.ready h.map (mt wipesAtStart_iff.mpr hno) hd hj
  refine ⟨w, hwriting, hstep, ?_⟩
  rw [hcause, hdepth, State.depthOf, h.holds.plu, startCauseOf]
  split_ifs <;> simp_all [loadPlu]

theorem State.StaysOn.resumes {w : WipeRecord} (hd : derivedAccess s.store = .wiping)
    (hj : (loadJournal s.store.journal).1 = some w) :
    (s.started cause start).wpe.journal = some w ∧ (s.started cause start).wpe.counter = 0 ∧
      (s.started cause start).wpe.attempt = 1 ∧ (s.started cause start).reportsWipe w := by
  obtain ⟨hjournal, hcounter, hattempt⟩ := startDone_items h.holds h.ready h.map (mt wipesAtStart_iff.mpr hno) hd hj
  exact ⟨hjournal, hcounter, hattempt,
    startDone_reports h.holds h.ready h.map (mt wipesAtStart_iff.mpr hno) hd hj⟩

theorem State.StaysOn.goesOn {w : WipeRecord} (hd : derivedAccess s.store = .wiping)
    (hj : (loadJournal s.store.journal).1 = some w) :
    if (s.started cause start).ssv.mode = .cellAwake ∧ (s.started cause start).ssv.level = .crit then
      (s.started cause start).wpe.run = .paused ∧ (s.started cause start).wpe.position = stepBegins w.step ∧
        (s.started cause start).rsc.kick = Rsc.init
    else (s.started cause start).wpe.run ≠ .paused ∧
      s.copies.carriesOn w (stepBegins w.step) ((s.started cause start).onRsc Rsc.kick) := by
  have hgoes := startDone_goesOn h.holds h.ready h.map (mt wipesAtStart_iff.mpr hno) hd hj
  simp only [h.crit_iff] at hgoes
  split_ifs at hgoes ⊢ with hcrit
  · obtain ⟨hrun, hposition, hrsc⟩ := hgoes
    exact ⟨hrun, hposition, (congrArg Rsc.kick hrsc).trans rfl⟩
  · exact ⟨hgoes.1, h.carriesOn hgoes.2⟩

end

end

end Sys2Proof.Machine
end

