-- ==== Sys2Proof/Proofs/StartSettled.lean ====
section
/-! Start-up derives the access state (R57, R78). -/

namespace Sys2Proof.Machine

/-- The copies loaded do not depend on the pins or on the start-ups to come. -/
theorem copies_beginsOn (bus : Bool) (s : State) : s.copies.BeforeSet (s.beginsOn bus).copies :=
  ⟨rfl, rfl, rfl, rfl, rfl, fun _ he _ => he⟩

theorem carriesOn_beginsOn {bus : Bool} {s t : State} {w : WipeRecord} {p : Position}
    (h : (s.beginsOn bus).copies.carriesOn w p t) : s.copies.carriesOn w p t := carriesOn_congr rfl rfl rfl id h

/-- Settles O56: by the rows that begin start-up, the load, and the first check of R78 that holds. -/
theorem startUpDerivesTheAccessState : Obligations.StartUpDerivesTheAccessState := by
  intro bus c s hc hsupply pol lim slots jrn derived begun ready cause held loaded
  rw [exec_startsUp hc]
  have hstands := stands_startWith cause (s.starts.headD .quiet) (s.beginsOn bus)
  rcases startWith_cases cause (s.starts.headD .quiet) (s := s.beginsOn bus) rfl hsupply with
    ⟨h, hend⟩ | ⟨hdisturbed, hoff, hstore, hstarts⟩
  swap
  · exact ⟨_, rfl, hstore, hstarts, fun hq => absurd hq hdisturbed, fun hon => absurd hoff hon⟩
  have hcause : (if c = .resetNRelease then StartCause.resetPin else .powerOn) = cause := rfl
  rw [hcause, hend]
  rw [hend] at hstands
  obtain ⟨hbody, -, htime⟩ := hstands
  obtain ⟨hstore, hstarts⟩ := h.keeps
  have hquiet := started_quiet h
  have hbridge := h.bridge
  have hstart := h.startCause
  have hsleep := h.sleep
  have hopen := h.openSlot
  have htimebase := h.timebase
  have hcell := h.cell
  have hcase := h.case
  have hlevel := h.cellLevel
  have hreport := h.report
  have hwipes := h.wipes
  have haccess := h.access
  have hblank := h.blank
  have hpenalty := h.penalty
  have hlocked := h.locked
  have hanew := h.anew
  have hresumes := @h.resumes
  have hgoes := @h.goesOn
  have hderived : derivedAccess (s.beginsOn bus).store = derived := rfl
  rw [hderived] at haccess hblank hpenalty hlocked hanew hresumes hgoes
  have hiff : (s.beginsOn bus).wipesAtStart cause (s.starts.headD .quiet) ↔ .caseOpened ∈ held ∧
      ((s.beginsOn bus).started cause (s.starts.headD .quiet)).plu.map.caseOpen = .wipe ∧
        (derived = .locked ∨ derived = .penalty ∨ derived = .blank) := Iff.rfl
  generalize State.wipesAtStart cause (s.starts.headD .quiet) (s.beginsOn bus) = W at *
  generalize State.started cause (s.starts.headD .quiet) (s.beginsOn bus) = u at *
  have hclock : u.acc.clockFault = (u.tbu.state == .fallback) := Bool.eq_iff_iff.mpr (htime.clockFault.trans beq_iff_eq.symm)
  have horder : u.wpe.order = none := by
    have hapart : u.liu.bridge ≠ .attached := by
      rw [hbridge]
      split_ifs <;> decide
    exact Option.not_isSome_iff_eq_none.mp fun ho => hapart (hbody.wpe.order ho)
  refine ⟨_, rfl, hstore, hstarts, hquiet, fun _ => ⟨hbridge, hstart, hsleep, hclock, htime.caseOpen, hopen, htimebase,
    hcell, hcase, hlevel, hreport, ?_⟩⟩
  by_cases hw : W
  · exact (if_pos (hiff.mp hw)).mpr (hwipes hw)
  · refine (if_neg (mt hiff.mpr hw)).mpr ⟨haccess hw, hblank hw, hpenalty hw, fun w hd hj => ?_, fun hd => ?_, hanew hw⟩
    · obtain ⟨hjournal, hcounter, hattempt, hreports⟩ := hresumes hw hd hj
      refine ⟨hjournal, hcounter, horder, hattempt, hreports, ?_⟩
      have hon := hgoes hw hd hj
      by_cases hcrit : u.ssv.mode = .cellAwake ∧ u.ssv.level = .crit
      · exact (if_pos hcrit).mpr ((if_pos hcrit).mp hon)
      · obtain ⟨hrun, hcarries⟩ := (if_neg hcrit).mp hon
        exact (if_neg hcrit).mpr ⟨hrun, carriesOn_beginsOn hcarries⟩
    · obtain ⟨hatl, hctb, happlies⟩ := hlocked hw hd
      exact ⟨hatl, hctb, happlies.from_before (copies_beginsOn bus s)⟩

end Sys2Proof.Machine
end
